-- ==== Sys2Proof/Word.lean ====
section
/-! DEFINITION. The value types of the block (`00_scope.md` R12, R13) and their named constants.
A base-field value is a plain `Nat`: that it lies in `[0, P)` is an invariant of the machine
(`Safety.lean`), because `P` is an open parameter. Arithmetic stands in `Machine/Field.lean`. -/

namespace Sys2Proof

/-- A base-field value, an integer in `[0, P)` (`00_scope.md` R12). -/
abbrev Base := Nat

/-- A `Deg11` value: coefficient `i` is that of `u^i` (`40_deg11_tower.md` R120). -/
abbrev Deg11 := Vector Base 11

/-- An `Unred11` value: eleven slots, of which only the residues are architectural
(`10_state.md` R23, `40_deg11_tower.md` R123). -/
abbrev Unred11 := Vector Nat 11

/-- A `Deg22` value `re + im w` (`41_deg22_tower.md` R160). -/
structure Deg22 where
  re : Deg11
  im : Deg11
deriving DecidableEq, Repr, Inhabited

/-- The coordinate-system tag of a twist point (`10_state.md` R25): 0 affine, 1 projective. -/
inductive Tag where
  | affine
  | projective
deriving DecidableEq, Repr, Inhabited

/-- A point of the twisted curve (`10_state.md` R25, `42_twist_curve.md` R191). -/
structure TwistPoint where
  x : Deg11
  y : Deg11
  z : Deg11
  tag : Tag
deriving DecidableEq, Repr, Inhabited

/-- A point of the base curve (`10_state.md` R26). -/
structure BasePoint where
  x : Base
  y : Base
  inf : Bool
deriving DecidableEq, Repr, Inhabited

/-- The coordinate system a group-law command works in (`42_twist_curve.md` R193). -/
inductive Mode where
  | basic
  | projc
deriving DecidableEq, Repr, Inhabited

/-- The twist type (`10_state.md` R33 slot 1, `44_pairing_engine.md` R257). -/
inductive Twist where
  | dType
  | mType
deriving DecidableEq, Repr, Inhabited

/-- A digit of a `NAF` string (`10_state.md` R33 slots 8 and 9). -/
inductive Digit where
  | zero
  | plus
  | minus
deriving DecidableEq, Repr, Inhabited

/-- `emb(s) = (s, 0, ..., 0)` (`00_scope.md` R13). -/
def emb (s : Base) : Deg11 := #v[s, 0, 0, 0, 0, 0, 0, 0, 0, 0, 0]

/-- `ZERO11` (`00_scope.md` R13). -/
def zero11 : Deg11 := emb 0

/-- `ONE11` (`00_scope.md` R13). -/
def one11 : Deg11 := emb 1

/-- `ONE22` (`00_scope.md` R13). -/
def one22 : Deg22 := ⟨one11, zero11⟩

end Sys2Proof
end

