-- ==== Sys2Proof/Syntax.lean ====
section
/-! DEFINITION. The 62 commands of command set version 1 (`30_encoding.md` R98), one constructor a row.
A register operand is an index of its file (R95), so an index beyond the file cannot be written down;
the one field whose range is not in its type is the slot of `LDP` (`WellFormed.lean`). -/

namespace Sys2Proof

/-- Index of an E register (`10_state.md` R22). -/
abbrev RegE := Fin 32
/-- Index of a U register (`10_state.md` R23). -/
abbrev RegU := Fin 4
/-- Index of an F register (`10_state.md` R24). -/
abbrev RegF := Fin 16
/-- Index of a T register (`10_state.md` R25). -/
abbrev RegT := Fin 8
/-- Index of a G register (`10_state.md` R26). -/
abbrev RegG := Fin 4
/-- A Frobenius exponent, 0 to 63 (`30_encoding.md` R96). -/
abbrev Exponent := Fin 64
/-- A word address of `DM` (`30_encoding.md` R93). -/
abbrev Addr := Fin (2 ^ 18)
/-- The slot field of `LDP` (`30_encoding.md` R93): six bits, of which 0 to 11 name a slot. -/
abbrev SlotField := Fin 64

/-- The commands, in the order of `30_encoding.md` R98. -/
inductive Instr where
  | nop
  | halt
  | finit
  | ldp (slot : SlotField) (addr : Addr)
  | ldE (r : RegE) (addr : Addr)
  | stE (r : RegE) (addr : Addr)
  | ldF (r : RegF) (addr : Addr)
  | stF (r : RegF) (addr : Addr)
  | ldT (r : RegT) (addr : Addr)
  | stT (r : RegT) (addr : Addr)
  | ldG (r : RegG) (addr : Addr)
  | stG (r : RegG) (addr : Addr)
  | eZero (rd : RegE)
  | eOne (rd : RegE)
  | eCpy (rd rs1 : RegE)
  | eAdd (rd rs1 rs2 : RegE)
  | eSub (rd rs1 rs2 : RegE)
  | eNeg (rd rs1 : RegE)
  | eCmp (rs1 rs2 : RegE)
  | eMul (rd rs1 rs2 : RegE)
  | eSqr (rd rs1 : RegE)
  | eMulu (rd : RegU) (rs1 rs2 : RegE)
  | eSqru (rd : RegU) (rs1 : RegE)
  | eRed (rd : RegE) (rs1 : RegU)
  | eMnr (rd rs1 : RegE)
  | eFrb (rd rs1 : RegE) (exp : Exponent)
  | eFrb2 (rd rs1 : RegE) (exp : Exponent)
  | eInv (rd rs1 : RegE)
  | fOne (rd : RegF)
  | fCpy (rd rs1 : RegF)
  | fPack (rd : RegF) (rs1 rs2 : RegE)
  | fGetr (rd : RegE) (rs1 : RegF)
  | fGeti (rd : RegE) (rs1 : RegF)
  | fCmp (rs1 rs2 : RegF)
  | fMul (rd rs1 rs2 : RegF)
  | fSqr (rd rs1 : RegF)
  | fSqrc (rd rs1 : RegF)
  | fInvc (rd rs1 : RegF)
  | fFrb (rd rs1 : RegF) (exp : Exponent)
  | tInf (rd : RegT)
  | tCpy (rd rs1 : RegT)
  | tMk (rd : RegT) (rs1 rs2 : RegE)
  | tMkp (rd : RegT) (rs1 rs2 rs3 : RegE)
  | tGetx (rd : RegE) (rs1 : RegT)
  | tGety (rd : RegE) (rs1 : RegT)
  | tGetz (rd : RegE) (rs1 : RegT)
  | tNeg (rd rs1 : RegT)
  | tDbl (rd rs1 : RegT) (mode : Mode)
  | tAdd (rd rs1 rs2 : RegT) (mode : Mode)
  | tSdbl (rd rs1 : RegT) (mode : Mode)
  | tSdbl1 (rd rs1 : RegT) (mode : Mode)
  | tSadd (rd rs1 rs2 : RegT) (mode : Mode)
  | tFrb (rd rs1 : RegT) (exp : Exponent)
  | tNorm (rd rs1 : RegT) (inverted : Bool)
  | tCmp (rs1 rs2 : RegT)
  | tOnc (rs1 : RegT)
  | tGen (rd : RegT)
  | tIso (rd rs1 : RegT)
  | tIsod (rd rs1 : RegT)
  | line (rd : RegF) (rs1 : RegG)
  | miller (rd : RegF) (rs1 : RegT) (rs2 : RegG) (mode : Mode)
  | miller2 (rd : RegF) (rs1 : RegT) (rs2 : RegG) (mode : Mode)
deriving DecidableEq, Repr

end Sys2Proof
end

