-- ==== Sys2Proof/Config.lean ====
section
/-! DEFINITION. The parameters of the model (`00_scope.md` R10, `10_state.md` R44): the base prime,
the sizes, the configuration function `SuperOpt`, the hard part of the final exponentiation, and the free values. Every one is an OPAQUE constant
without a body, so nothing can be proved of its value; a claim about the machine holds for every choice.
Meanings take the whole `Config` as their last argument, which is `Config.machine` unless a test gives
another one. -/

namespace Sys2Proof

/-- The six hooks of `MILLER2` (`44_pairing_engine.md` R271). `none` of `corrPre` and `corrPost` is the
`ArithPrecondition` a hook may return. -/
structure SuperOpt where
  isoG1 : BasePoint → BasePoint
  corrPre : TwistPoint → TwistPoint → BasePoint → BasePoint → Option (Deg22 × Deg22)
  foldAt : Nat → Bool
  fold : Nat → Deg22 → Deg22 → Deg22 → Deg22 → Deg22 × Deg22
  corrPost : TwistPoint → TwistPoint → TwistPoint → BasePoint → BasePoint → Option (Deg22 × Deg22)
  combine : Deg22 → Deg22 → Deg22 → Deg22 → Deg22 → Deg22 → Deg22
deriving Inhabited

/-- The trivial configuration `SuperOptTrivial` (`44_pairing_engine.md` R271), for tests. -/
def SuperOpt.trivial : SuperOpt where
  isoG1 p := p
  corrPre _ _ _ _ := some (one22, one22)
  foldAt _ := false
  fold _ f f2 _ _ := (f, f2)
  corrPost _ _ _ _ _ := some (one22, one22)
  combine f _ _ _ _ _ := f

/-- The Frobenius offsets of the hard part (`44_pairing_engine.md` R282). -/
inductive HardOffset where
  | one
  | nine
  | twentyOne
deriving DecidableEq, Repr, Inhabited

/-- One step of the hard part of the final exponentiation: `F.SQRC`, `F.MUL`, `F.INVC`, or `F.FRB` at
one of the three offsets, and nothing else (R282). -/
inductive HardStep where
  | sqrc (rd rs1 : RegF)
  | mul (rd rs1 rs2 : RegF)
  | invc (rd rs1 : RegF)
  | frb (rd rs1 : RegF) (offset : HardOffset)
deriving DecidableEq, Repr, Inhabited

/-- `HardChain` (R282): the list of host commands that computes the hard part. Its operand is in
`F[5]`, where the easy part of R281 leaves its result, and `result` is the register of its own result
(log entry 26). -/
structure HardChain where
  steps : List HardStep
  result : RegF
deriving DecidableEq, Repr, Inhabited

/-- The elaboration constants of one block, its hooks, the host's final-exponentiation parameters, and
its free values. -/
structure Config where
  /-- The base prime `P` (`00_scope.md` R10). -/
  p : Nat
  /-- `DM_WORDS` (`20_memory.md` R61). -/
  dmWords : Nat
  /-- `CM_WORDS` (`20_memory.md` R62). -/
  cmWords : Nat
  /-- `NAF_MAX` (`00_scope.md` R10). -/
  nafMax : Nat
  /-- `SuperOpt` (`44_pairing_engine.md` R271). -/
  superOpt : SuperOpt
  /-- `HardChain` (R282, `93_implementation_defined.md` U10). -/
  hardChain : HardChain
  /-- `λ`, the cofactor of the final exponent (R280, U10). -/
  lambda : Nat
  /-- FREE VALUE: what `F.SQRC` writes for an operand outside the cyclotomic subgroup
  (`41_deg22_tower.md` R173, `93_implementation_defined.md` U1; log entry 6). -/
  sqrcOff : Nat → Deg22
  /-- FREE VALUE: what the 16-bit `pc` holds after a command at index 0xFFFF completes
  (`10_state.md` R27 does not say; log entry 5). -/
  pcPastTop : Nat → BitVec 16
  /-- FREE VALUE: what the 16-bit `ML.i` shows of a loop index of 2^16 or more (`10_state.md` R30 does
  not say; log entry 27). -/
  mlIndexPast : Nat → Nat → BitVec 16
deriving Inhabited

/-- `W = ceil(log2 P)`, the width of a data word (`00_scope.md` R10). -/
def Config.w (c : Config) : Nat := (c.p - 1).log2 + 1

/-- The constraint the spec states of `P` (`40_deg11_tower.md` R121): prime, `P = 1 (mod 22)`. -/
abbrev Config.admissiblePrime (n : Nat) : Prop := n.Prime ∧ n % 22 = 1

/-- OPEN (`00_scope.md` R10): stands for any integer; `Config.prime` keeps it when it is admissible. -/
opaque Config.primeRaw : Nat

/-- OPEN (`00_scope.md` R10). -/
opaque Config.dmWordsRaw : Nat

/-- OPEN (`00_scope.md` R10). -/
opaque Config.cmWordsRaw : Nat

/-- OPEN (`00_scope.md` R10). -/
opaque Config.nafMaxRaw : Nat

/-- OPEN (`44_pairing_engine.md` R271). -/
opaque Config.superOptRaw : SuperOpt

/-- OPEN (`44_pairing_engine.md` R282). -/
opaque Config.hardChainRaw : HardChain

/-- OPEN (`44_pairing_engine.md` R280). -/
opaque Config.lambdaRaw : Nat

/-- FREE VALUE of log entry 6. -/
opaque Config.sqrcOffRaw : Nat → Deg22

/-- FREE VALUE of log entry 5. -/
opaque Config.pcPastTopRaw : Nat → BitVec 16

/-- FREE VALUE of log entry 27. -/
opaque Config.mlIndexPastRaw : Nat → Nat → BitVec 16

/-- `P` of the machine: any admissible prime. It ranges over exactly the admissible primes as
`primeRaw` ranges over the integers; 67 only shows that there is one (log entry 1). -/
def Config.prime : Nat :=
  if Config.admissiblePrime Config.primeRaw then Config.primeRaw else 67

/-- The configuration of the machine. `DM_WORDS` ranges over every size up to 2^18 (`20_memory.md` R61),
`CM_WORDS` over 1 to 2^16 (R62; the lower bound is the model's), and `NAF_MAX` is any number
(`00_scope.md` R10; log entry 2). -/
def Config.machine : Config where
  p := Config.prime
  dmWords := Config.dmWordsRaw % (2 ^ 18 + 1)
  cmWords := Config.cmWordsRaw % 2 ^ 16 + 1
  nafMax := Config.nafMaxRaw
  superOpt := Config.superOptRaw
  hardChain := Config.hardChainRaw
  lambda := Config.lambdaRaw
  sqrcOff := Config.sqrcOffRaw
  pcPastTop := Config.pcPastTopRaw
  mlIndexPast := Config.mlIndexPastRaw

end Sys2Proof
end

