-- ==== Sys2Proof/Machine/State.lean ====
section
/-! DEFINITION. The state of the block (`10_state.md` R20), its reset value (R45), and the reasons a
model step can stop. A valid bit (R21) is written as `Option`: `none` is valid bit 0. -/

namespace Sys2Proof.Machine

open Sys2Proof

/-- The model has no stop of its own: every fault of the spec is an architectural fault entry
(`60_exceptions.md` R341), which is a next state. Nothing raises a value of this type. -/
inductive Fault where
deriving DecidableEq, Repr

/-- Reasons the model gives no meaning. -/
inductive Refusal where
  /-- Raised by an arm of `exec` whose instruction has no meaning; no arm does. Safe. -/
  | notModelled (mnemonic : String)
  /-- Raised by a host move on `DM` or `CM` while `RS = RUN`: the spec gives it no effect
  (`20_memory.md` R72, `93_implementation_defined.md` U2: refuse). Safe. -/
  | hostAccessWhileRunning
deriving DecidableEq, Repr

/-- The fault causes (`60_exceptions.md` R330). -/
inductive Cause where
  | arithPrecondition
  | allocFailure
  | invariantViolation
  | illegalCommand
  | unwrittenRead
  | addressFault
  | lifecycleFault
  | operandFault
  | lineInvalid
  | paramFault
deriving DecidableEq, Repr

/-- The run state `RS` (`10_state.md` R32). -/
inductive RunState where
  | idle
  | run
  | halted
  | faulted
deriving DecidableEq, Repr

/-- The constants `FINIT` computes (`10_state.md` R34). -/
structure Constants where
  half : Base
  c11inv : Base
  gam : Base
  del : Base
  frb : Vector (Vector Base 11) 11
  frb2 : Vector (Vector Base 11) 11
deriving DecidableEq, Repr

/-- The lifecycle state `LS` (`10_state.md` R31). The computed constants have a value exactly in
`READY` (R34), so that state carries them. -/
inductive Lifecycle where
  | config
  | ready (k : Constants)
deriving DecidableEq, Repr

/-- `LC.kind` (`10_state.md` R29). -/
inductive LineKind where
  | dbl
  | add
deriving DecidableEq, Repr

/-- The fields of the line-coefficient latch beside its valid bit (`10_state.md` R29). -/
structure LineRecord where
  kind : LineKind
  mode : Mode
  slope : Deg11
  zaux : Deg11
  base : TwistPoint
deriving DecidableEq, Repr

/-- `ML.phase` (`44_pairing_engine.md` R260); the reserved codes 11 to 15 are never taken (U6). -/
inductive Phase where
  | idle
  | check
  | dbl
  | add
  | fix
  | post0
  | post1
  | write
  | pre
  | fold
  | combine
deriving DecidableEq, Repr

/-- The data fields of `ML` (`10_state.md` R30). -/
structure MillerData where
  mode : Mode
  f : Deg22
  f2 : Deg22
  t : TwistPoint
  q : TwistPoint
  nq : TwistPoint
  p : BasePoint
deriving DecidableEq, Repr

/-- The Miller-loop state `ML` (`10_state.md` R30). `data = none` is "no defined value", which is
what the data fields hold between commands (log entry 8). -/
structure MillerState where
  active : Bool
  /-- 0 standard, 1 super-optimal. -/
  variant : Bool
  phase : Phase
  i : BitVec 16
  data : Option MillerData
deriving DecidableEq, Repr

/-- `src` of a `POST` entry (`10_state.md` R33 slot 11): 0 the input, 1 the running point, 2 disabled. -/
inductive PostSource where
  | input
  | running
  | disabled
deriving DecidableEq, Repr

/-- One entry of slot `POST` (`10_state.md` R33): `e` in 0 to 21. -/
structure PostStep where
  src : PostSource
  e : Fin 22
  neg : Bool
deriving DecidableEq, Repr

/-- The parameter store (`10_state.md` R33), slots 0 to 11 in order. -/
structure ParamStore where
  c11 : Option Base
  twist : Option Twist
  a : Option Deg11
  b : Option Deg11
  gen : Option (Deg11 × Deg11)
  tor2 : Option Deg11
  isoT : Option Deg11
  isoD : Option Deg11
  /-- `NAF[0], NAF[1], ...`, least significant first. -/
  naf : Option (List Digit)
  naf2 : Option (List Digit)
  seedfix : Option Bool
  post : Option (PostStep × PostStep)
deriving DecidableEq, Repr

/-- A memory as (address, word) pairs; an unlisted address is a word whose valid bit is 0
(`20_memory.md` R61, R62; log entry 4). -/
abbrev Memory (α : Type) := List (Nat × α)

/-- The state of the block (`10_state.md` R20). -/
structure State where
  /-- `E[0] .. E[31]` (R22). -/
  e : Vector (Option Deg11) 32
  /-- `U[0] .. U[3]`, as residues (R23). -/
  u : Vector (Option Unred11) 4
  /-- `F[0] .. F[15]` (R24). -/
  f : Vector (Option Deg22) 16
  /-- `T[0] .. T[7]` (R25). -/
  t : Vector (Option TwistPoint) 8
  /-- `G[0] .. G[3]` (R26). -/
  g : Vector (Option BasePoint) 4
  /-- The command counter (R27). -/
  pc : BitVec 16
  /-- The command at index 0xFFFF has completed: the counter stands at 2^16, past every `CM`, which
  the 16 bits of `pc` cannot hold (R27, `45_data_movement_system.md` R302; log entry 5). -/
  pastTop : Bool
  /-- `FLAGS.EQ` (R28). -/
  eq : Bool
  /-- `FLAGS.ONC` (R28). -/
  onc : Bool
  /-- `LC`: `none` is `LC.valid = 0` (R29). -/
  lc : Option LineRecord
  /-- `ML` (R30). -/
  ml : MillerState
  /-- `LS`, with the constants of R34 (R31). -/
  lifecycle : Lifecycle
  /-- `RS` (R32). -/
  run : RunState
  /-- `PRM` (R33). -/
  prm : ParamStore
  /-- `CTRL.IE` (R36). -/
  ie : Bool
  /-- `ECAUSE` (R39). -/
  ecause : BitVec 4
  /-- `EPC` (R39). -/
  epc : BitVec 16
  /-- `EINFO` (R39). -/
  einfo : BitVec 32
  /-- `DM` (`20_memory.md` R61). -/
  dm : Memory Nat
  /-- `CM` (`20_memory.md` R62). -/
  cm : Memory (BitVec 32)
  /-- THE MODEL's own: how many free values have been taken (log entry 24). -/
  free : Nat
deriving DecidableEq, Repr

/-- `PRM` with every slot's valid bit 0. -/
def ParamStore.empty : ParamStore where
  c11 := none
  twist := none
  a := none
  b := none
  gen := none
  tor2 := none
  isoT := none
  isoD := none
  naf := none
  naf2 := none
  seedfix := none
  post := none

/-- `ML` after reset (`10_state.md` R45). -/
def MillerState.reset : MillerState where
  active := false
  variant := false
  phase := .idle
  i := 0
  data := none

/-- The block after hard reset (`10_state.md` R45, `70_reset_and_hazards.md` R371). -/
def State.reset : State where
  e := Vector.replicate 32 none
  u := Vector.replicate 4 none
  f := Vector.replicate 16 none
  t := Vector.replicate 8 none
  g := Vector.replicate 4 none
  pc := 0
  pastTop := false
  eq := false
  onc := false
  lc := none
  ml := .reset
  lifecycle := .config
  run := .idle
  prm := .empty
  ie := false
  ecause := 0
  epc := 0
  einfo := 0
  dm := []
  cm := []
  free := 0

/-- The step of a Miller loop at which a fault is raised: what `ML.variant`, `ML.phase` and `ML.i`
then hold (`44_pairing_engine.md` R267). -/
structure MillerStep where
  variant : Bool
  phase : Phase
  i : BitVec 16
deriving DecidableEq, Repr

/-- A raised fault: its cause, the content of `EINFO`, and the Miller step if one is executing. -/
structure Raise where
  cause : Cause
  einfo : BitVec 32
  step : Option MillerStep
deriving DecidableEq, Repr

/-- The register files, as the location code numbers them (`60_exceptions.md` R330). -/
inductive RegFile where
  | e
  | u
  | f
  | t
  | g
deriving DecidableEq, Repr

/-- The field a computation is done in: `P` and `C11` (`40_deg11_tower.md` R121). -/
structure Field where
  p : Nat
  c11 : Base
deriving DecidableEq, Repr

end Sys2Proof.Machine
end

