-- ==== Sys2Proof/Machine/Field.lean ====
section
/-! DEFINITION. Arithmetic of the base field (`00_scope.md` R12), of the degree-11 tower
(`40_deg11_tower.md`) and of the degree-22 tower (`41_deg22_tower.md`). -/

namespace Sys2Proof.Machine

open Sys2Proof

/-! ### Base field (`00_scope.md` R12) -/

/-- `a +p b`. -/
def addP (p a b : Nat) : Nat := (a + b) % p

/-- `a -p b`: the representative in `[0, P)` of the integer difference. -/
def subP (p a b : Nat) : Nat := (((a : Int) - (b : Int)) % (p : Int)).toNat

/-- `-p a`: that of `P - a`. -/
def negP (p a : Nat) : Nat := subP p p a

/-- `a *p b`. -/
def mulP (p a b : Nat) : Nat := a * b % p

/-- Power by squaring: `fuel` bits of the exponent are consumed from the low end. -/
def powBits {α : Type} (mul : α → α → α) (one : α) : Nat → α → Nat → α
  | 0, _, _ => one
  | fuel + 1, x, n =>
    if n = 0 then one
    else
      let h := powBits mul one fuel (mul x x) (n / 2)
      if n % 2 = 1 then mul x h else h

/-- Power by squaring with as many steps as the exponent has bits. -/
def power {α : Type} (mul : α → α → α) (one : α) (x : α) (n : Nat) : α :=
  powBits mul one (n.log2 + 1) x n

/-- `a ^p n`. -/
def powP (p a n : Nat) : Nat := power (mulP p) (1 % p) a n

/-- `inv_p(a)`, for a prime `P` and `a` nonzero modulo `P`: `a ^p (P - 2)`. -/
def invP (p a : Nat) : Nat := powP p a (p - 2)

/-! ### Degree-11 tower -/

/-- Coefficient `i`, and 0 for an `i` past 10. -/
def coeff (x : Deg11) (i : Nat) : Base := x[i]?.getD 0

/-- `t_k`: the sum over `i + j = k` of `x_i * y_j`, over the integers (`40_deg11_tower.md` R122). -/
def convolution (x y : Deg11) (k : Nat) : Nat :=
  ((List.range 11).map fun i => if i ≤ k then coeff x i * coeff y (k - i) else 0).sum

/-- R133. -/
def add11 (p : Nat) (x y : Deg11) : Deg11 := Vector.ofFn fun i : Fin 11 => addP p x[i] y[i]

/-- R134. -/
def sub11 (p : Nat) (x y : Deg11) : Deg11 := Vector.ofFn fun i : Fin 11 => subP p x[i] y[i]

/-- R135: a zero coefficient stays 0. -/
def neg11 (p : Nat) (x : Deg11) : Deg11 := Vector.ofFn fun i : Fin 11 => negP p x[i]

/-- `s (.) a` (`00_scope.md` R13); for a small integer `k` it is also `k . a`, repeated addition. -/
def scale11 (p : Nat) (s : Base) (x : Deg11) : Deg11 := Vector.ofFn fun i : Fin 11 => mulP p s x[i]

/-- `Mul11` (R137). The folded sum `t_{k+11}` is 0 for `k = 10`, so one equation serves all `k`. -/
def mul11 (fl : Field) (x y : Deg11) : Deg11 :=
  Vector.ofFn fun k : Fin 11 => (convolution x y k.val + fl.c11 * convolution x y (k.val + 11)) % fl.p

/-- R138: the square is the product of the operand with itself. -/
def sqr11 (fl : Field) (x : Deg11) : Deg11 := mul11 fl x x

/-- The unreduced product as residues (R139; log entry 7). -/
def mulu11 (fl : Field) (x y : Deg11) : Unred11 := mul11 fl x y

/-- The reduction pass (R141). -/
def red11 (p : Nat) (s : Unred11) : Deg11 := Vector.ofFn fun i : Fin 11 => s[i] % p

/-- `MNR`, multiplication by `u` (R142). -/
def mnr (fl : Field) (x : Deg11) : Deg11 :=
  Vector.ofFn fun k : Fin 11 => if k.val = 0 then mulP fl.p fl.c11 (coeff x 10) else coeff x (k.val - 1)

/-- `DNR`, division by `u` (R142). -/
def dnr (p c11inv : Nat) (x : Deg11) : Deg11 :=
  Vector.ofFn fun k : Fin 11 => if k.val = 10 then mulP p c11inv (coeff x 0) else coeff x (k.val + 1)

/-- Row `e mod 11` of a Frobenius table (R143). -/
def tableRow (tab : Vector (Vector Base 11) 11) (e : Nat) : Vector Base 11 :=
  tab[e % 11]'(Nat.mod_lt _ (by decide))

/-- `Frb11` (R143): coefficient 0 is never multiplied. -/
def frb11 (p : Nat) (k : Constants) (x : Deg11) (e : Nat) : Deg11 :=
  Vector.ofFn fun i : Fin 11 =>
    if i.val = 0 then coeff x 0 else mulP p (coeff (tableRow k.frb e) i.val) (coeff x i.val)

/-- `Frb2map` (R144). -/
def frb2map (p : Nat) (k : Constants) (x : Deg11) (e : Nat) : Deg11 :=
  Vector.ofFn fun i : Fin 11 => mulP p (coeff (tableRow k.frb2 e) i.val) x[i]

/-- `Inv11` (R145) by the method the rule names: `y = x^(P^11 - 2)` (log entry 13). -/
def inv11 (fl : Field) (x : Deg11) : Deg11 := power (mul11 fl) one11 x (fl.p ^ 11 - 2)

/-- The table of R124: `FRB[j][i] = GAM ^p ((i j) mod 11)`. -/
def frbTable (p gam : Nat) : Vector (Vector Base 11) 11 :=
  Vector.ofFn fun j : Fin 11 => Vector.ofFn fun i : Fin 11 => powP p gam (i.val * j.val % 11)

/-- The table of R125: `FRB2[j][i] = DEL ^p ((j (2 i + 1)) mod 22)`. -/
def frb2Table (p del : Nat) : Vector (Vector Base 11) 11 :=
  Vector.ofFn fun j : Fin 11 => Vector.ofFn fun i : Fin 11 => powP p del (j.val * (2 * i.val + 1) % 22)

/-- What `FINIT` computes from `P` and `C11` (R146). -/
def constantsOf (p c11 : Nat) : Constants where
  half := (p + 1) / 2
  c11inv := invP p c11
  gam := powP p c11 ((p - 1) / 11)
  del := powP p c11 ((p - 1) / 22)
  frb := frbTable p (powP p c11 ((p - 1) / 11))
  frb2 := frb2Table p (powP p c11 ((p - 1) / 22))

/-- The check `FINIT` makes on `C11` (R146): `GAM != 1` and `DEL ^p 11 = P - 1`. -/
def c11Accepted (p c11 : Nat) : Bool :=
  decide (powP p c11 ((p - 1) / 11) ≠ 1) &&
    decide (powP p (powP p c11 ((p - 1) / 22)) 11 = p - 1)

/-! ### Degree-22 tower -/

/-- `Mul22` (`41_deg22_tower.md` R171): three degree-11 products. -/
def mul22 (fl : Field) (a b : Deg22) : Deg22 :=
  let v0 := mul11 fl a.re b.re
  let v1 := mul11 fl a.im b.im
  let v2 := mul11 fl (add11 fl.p a.re a.im) (add11 fl.p b.re b.im)
  ⟨add11 fl.p v0 (mnr fl v1), sub11 fl.p (sub11 fl.p v2 v0) v1⟩

/-- `Sqr22` (R172). -/
def sqr22 (fl : Field) (a : Deg22) : Deg22 :=
  let v0 := mul11 fl a.re a.re
  let v1 := mul11 fl a.im a.im
  let v2 := mul11 fl (add11 fl.p a.re a.im) (add11 fl.p a.re a.im)
  ⟨add11 fl.p v0 (mnr fl v1), sub11 fl.p (sub11 fl.p v2 v0) v1⟩

/-- `Cyc` (R161): the norm to the degree-11 field is one. -/
def isCyc (fl : Field) (a : Deg22) : Bool :=
  decide (sub11 fl.p (mul11 fl a.re a.re) (mnr fl (mul11 fl a.im a.im)) = one11)

/-- The coefficients reduced modulo `P`, the identity on every `Deg22` value. It makes a `Deg22` of
what an opaque parameter gives (log entries 6 and 9). -/
def norm22 (p : Nat) (a : Deg22) : Deg22 := ⟨red11 p a.re, red11 p a.im⟩

/-- `F.SQRC` (R173): the square on the cyclotomic subgroup, the free value `off` elsewhere. -/
def sqrc22 (fl : Field) (off : Deg22) (a : Deg22) : Deg22 :=
  if isCyc fl a then sqr22 fl a else norm22 fl.p off

/-- `Conj22` (R174). -/
def conj22 (p : Nat) (a : Deg22) : Deg22 := ⟨a.re, neg11 p a.im⟩

/-- `F.FRB` (R175): the imaginary half is negated when `e mod 22` is in the upper half. -/
def frb22 (p : Nat) (k : Constants) (a : Deg22) (e : Nat) : Deg22 :=
  let r1 := frb2map p k a.im (e % 22)
  ⟨frb11 p k a.re (e % 22), if 11 ≤ e % 22 then neg11 p r1 else r1⟩

end Sys2Proof.Machine
end

