-- ==== Sys2Proof/WellFormed.lean ====
section
/-! DEFINITION. Well-formed commands. The register, exponent, mode and address ranges of
`30_encoding.md` R95 and R96 are in the operand types; the range of the `LDP` slot is checked here. -/

namespace Sys2Proof

/-- The slot of `LDP` names one of the twelve slots (`45_data_movement_system.md` R303:
"if slot >= 12: raise IllegalCommand -- part of decode"); every other command is well formed. -/
def Instr.wf : Instr → Bool
  | .ldp slot _ => decide (slot.val < 12)
  | _ => true

end Sys2Proof
end

