-- ==== Sys2Proof/Decode.lean ====
section
/-! DEFINITION. The decoder and the encoder of the 32-bit command word (`30_encoding.md` R90 to R101).
The decoder is total: a word is exactly one command, or it is illegal by a named reason (R99, R101).
All reasons raise the same cause, `IllegalCommand` (`60_exceptions.md` R334). -/

namespace Sys2Proof

/-- Why a word is no command (`30_encoding.md` R99, `60_exceptions.md` R334). -/
inductive DecodeError where
  /-- The opcode is on no row of R98. -/
  | unassignedOpcode
  /-- A field the row does not use is not zero (R97). -/
  | unusedFieldNotZero
  /-- A register index is beyond its file (R95). -/
  | registerBeyondFile
  /-- Bits 5:1 of a mode or `inverted` field are not zero (R96). -/
  | flagFieldAboveOne
  /-- `LDP` with slot 12 or above (R303). -/
  | slotBeyondStore
deriving DecidableEq, Repr

/-- `w[31:24]`, the opcode (R90). -/
def fieldOp (w : BitVec 32) : Nat := w.toNat / 2 ^ 24
/-- `w[23:18]`: `rd` of the R format, `r` of the M format (R91). -/
def fieldRd (w : BitVec 32) : Nat := w.toNat / 2 ^ 18 % 2 ^ 6
/-- `w[17:12]`: `rs1` (R91). -/
def fieldRs1 (w : BitVec 32) : Nat := w.toNat / 2 ^ 12 % 2 ^ 6
/-- `w[11:6]`: `rs2` (R91). -/
def fieldRs2 (w : BitVec 32) : Nat := w.toNat / 2 ^ 6 % 2 ^ 6
/-- `w[5:0]`: `aux` (R91). -/
def fieldAux (w : BitVec 32) : Nat := w.toNat % 2 ^ 6
/-- `w[17:0]`: `addr` of the M format (R91). -/
def fieldAddr (w : BitVec 32) : Nat := w.toNat % 2 ^ 18
/-- `w[23:0]`: zero in the Z format (R94). -/
def fieldLow (w : BitVec 32) : Nat := w.toNat % 2 ^ 24

/-- A register field read as an index of a file of `n` registers (R95). -/
def asReg (n v : Nat) : Except DecodeError (Fin n) :=
  if h : v < n then .ok ⟨v, h⟩ else .error .registerBeyondFile

/-- A field the command does not use (R97). -/
def asUnused (v : Nat) : Except DecodeError Unit :=
  if v = 0 then .ok () else .error .unusedFieldNotZero

/-- The mode field (R96): 0 `BASIC`, 1 `PROJC`. -/
def asMode (v : Nat) : Except DecodeError Mode :=
  if v = 0 then .ok .basic else if v = 1 then .ok .projc else .error .flagFieldAboveOne

/-- The `inverted` field (R96). -/
def asFlag (v : Nat) : Except DecodeError Bool :=
  if v = 0 then .ok false else if v = 1 then .ok true else .error .flagFieldAboveOne

/-- The exponent field (R96): all 64 values are legal. -/
def auxExponent (w : BitVec 32) : Exponent := ⟨fieldAux w, Nat.mod_lt _ (by decide)⟩

/-- The address field (R93): absolute, not scaled. -/
def addrField (w : BitVec 32) : Addr := ⟨fieldAddr w, Nat.mod_lt _ (by decide)⟩

/-- The Z format (R94). -/
def formZ (w : BitVec 32) (i : Instr) : Except DecodeError Instr := do
  asUnused (fieldLow w)
  pure i

/-- The M format over a file of `n` registers (R93). -/
def formM (n : Nat) (w : BitVec 32) (mk : Fin n → Addr → Instr) : Except DecodeError Instr := do
  let r ← asReg n (fieldRd w)
  pure (mk r (addrField w))

/-- R format, `rd` only. -/
def formD (n : Nat) (w : BitVec 32) (mk : Fin n → Instr) : Except DecodeError Instr := do
  let rd ← asReg n (fieldRd w)
  asUnused (fieldRs1 w)
  asUnused (fieldRs2 w)
  asUnused (fieldAux w)
  pure (mk rd)

/-- R format, `rs1` only. -/
def formS (n : Nat) (w : BitVec 32) (mk : Fin n → Instr) : Except DecodeError Instr := do
  asUnused (fieldRd w)
  let rs1 ← asReg n (fieldRs1 w)
  asUnused (fieldRs2 w)
  asUnused (fieldAux w)
  pure (mk rs1)

/-- R format, `rd` and `rs1`. -/
def formDS (n m : Nat) (w : BitVec 32) (mk : Fin n → Fin m → Instr) : Except DecodeError Instr := do
  let rd ← asReg n (fieldRd w)
  let rs1 ← asReg m (fieldRs1 w)
  asUnused (fieldRs2 w)
  asUnused (fieldAux w)
  pure (mk rd rs1)

/-- R format, `rs1` and `rs2`, no destination (R92). -/
def formSS (n m : Nat) (w : BitVec 32) (mk : Fin n → Fin m → Instr) : Except DecodeError Instr := do
  asUnused (fieldRd w)
  let rs1 ← asReg n (fieldRs1 w)
  let rs2 ← asReg m (fieldRs2 w)
  asUnused (fieldAux w)
  pure (mk rs1 rs2)

/-- R format, `rd`, `rs1`, `rs2`. -/
def formDSS (n m k : Nat) (w : BitVec 32) (mk : Fin n → Fin m → Fin k → Instr) :
    Except DecodeError Instr := do
  let rd ← asReg n (fieldRd w)
  let rs1 ← asReg m (fieldRs1 w)
  let rs2 ← asReg k (fieldRs2 w)
  asUnused (fieldAux w)
  pure (mk rd rs1 rs2)

/-- R format, `rd`, `rs1`, `rs2` and a third source in `aux` (`T.MKP`, R96). -/
def formDSSS (n m k l : Nat) (w : BitVec 32) (mk : Fin n → Fin m → Fin k → Fin l → Instr) :
    Except DecodeError Instr := do
  let rd ← asReg n (fieldRd w)
  let rs1 ← asReg m (fieldRs1 w)
  let rs2 ← asReg k (fieldRs2 w)
  let rs3 ← asReg l (fieldAux w)
  pure (mk rd rs1 rs2 rs3)

/-- R format, `rd`, `rs1` and the exponent (R96). -/
def formDSX (n m : Nat) (w : BitVec 32) (mk : Fin n → Fin m → Exponent → Instr) :
    Except DecodeError Instr := do
  let rd ← asReg n (fieldRd w)
  let rs1 ← asReg m (fieldRs1 w)
  asUnused (fieldRs2 w)
  pure (mk rd rs1 (auxExponent w))

/-- R format, `rd`, `rs1` and the mode (R96). -/
def formDSM (n m : Nat) (w : BitVec 32) (mk : Fin n → Fin m → Mode → Instr) :
    Except DecodeError Instr := do
  let rd ← asReg n (fieldRd w)
  let rs1 ← asReg m (fieldRs1 w)
  asUnused (fieldRs2 w)
  let mode ← asMode (fieldAux w)
  pure (mk rd rs1 mode)

/-- R format, `rd`, `rs1`, `rs2` and the mode (R96). -/
def formDSSM (n m k : Nat) (w : BitVec 32) (mk : Fin n → Fin m → Fin k → Mode → Instr) :
    Except DecodeError Instr := do
  let rd ← asReg n (fieldRd w)
  let rs1 ← asReg m (fieldRs1 w)
  let rs2 ← asReg k (fieldRs2 w)
  let mode ← asMode (fieldAux w)
  pure (mk rd rs1 rs2 mode)

/-- R format, `rd`, `rs1` and the `inverted` flag (R96). -/
def formDSI (n m : Nat) (w : BitVec 32) (mk : Fin n → Fin m → Bool → Instr) :
    Except DecodeError Instr := do
  let rd ← asReg n (fieldRd w)
  let rs1 ← asReg m (fieldRs1 w)
  asUnused (fieldRs2 w)
  let inverted ← asFlag (fieldAux w)
  pure (mk rd rs1 inverted)

/-- `LDP`, whose slot must be below 12 (`45_data_movement_system.md` R303). -/
def formLdp (w : BitVec 32) : Except DecodeError Instr :=
  if fieldRd w < 12 then
    .ok (.ldp ⟨fieldRd w, Nat.mod_lt _ (by decide)⟩ (addrField w))
  else .error .slotBeyondStore

/-- The opcode map (`30_encoding.md` R98) read as a decoder. -/
def decode (w : BitVec 32) : Except DecodeError Instr :=
  match fieldOp w with
  | 0x01 => formZ w .nop
  | 0x02 => formZ w .halt
  | 0x03 => formZ w .finit
  | 0x04 => formLdp w
  | 0x08 => formM 32 w .ldE
  | 0x09 => formM 32 w .stE
  | 0x0A => formM 16 w .ldF
  | 0x0B => formM 16 w .stF
  | 0x0C => formM 8 w .ldT
  | 0x0D => formM 8 w .stT
  | 0x0E => formM 4 w .ldG
  | 0x0F => formM 4 w .stG
  | 0x20 => formD 32 w .eZero
  | 0x21 => formD 32 w .eOne
  | 0x22 => formDS 32 32 w .eCpy
  | 0x23 => formDSS 32 32 32 w .eAdd
  | 0x24 => formDSS 32 32 32 w .eSub
  | 0x25 => formDS 32 32 w .eNeg
  | 0x26 => formSS 32 32 w .eCmp
  | 0x27 => formDSS 32 32 32 w .eMul
  | 0x28 => formDS 32 32 w .eSqr
  | 0x29 => formDSS 4 32 32 w .eMulu
  | 0x2A => formDS 4 32 w .eSqru
  | 0x2B => formDS 32 4 w .eRed
  | 0x2C => formDS 32 32 w .eMnr
  | 0x2D => formDSX 32 32 w .eFrb
  | 0x2E => formDSX 32 32 w .eFrb2
  | 0x2F => formDS 32 32 w .eInv
  | 0x40 => formD 16 w .fOne
  | 0x41 => formDS 16 16 w .fCpy
  | 0x42 => formDSS 16 32 32 w .fPack
  | 0x43 => formDS 32 16 w .fGetr
  | 0x44 => formDS 32 16 w .fGeti
  | 0x45 => formSS 16 16 w .fCmp
  | 0x46 => formDSS 16 16 16 w .fMul
  | 0x47 => formDS 16 16 w .fSqr
  | 0x48 => formDS 16 16 w .fSqrc
  | 0x49 => formDS 16 16 w .fInvc
  | 0x4A => formDSX 16 16 w .fFrb
  | 0x60 => formD 8 w .tInf
  | 0x61 => formDS 8 8 w .tCpy
  | 0x62 => formDSS 8 32 32 w .tMk
  | 0x63 => formDSSS 8 32 32 32 w .tMkp
  | 0x64 => formDS 32 8 w .tGetx
  | 0x65 => formDS 32 8 w .tGety
  | 0x66 => formDS 32 8 w .tGetz
  | 0x67 => formDS 8 8 w .tNeg
  | 0x68 => formDSM 8 8 w .tDbl
  | 0x69 => formDSSM 8 8 8 w .tAdd
  | 0x6A => formDSM 8 8 w .tSdbl
  | 0x6B => formDSM 8 8 w .tSdbl1
  | 0x6C => formDSSM 8 8 8 w .tSadd
  | 0x6D => formDSX 8 8 w .tFrb
  | 0x6E => formDSI 8 8 w .tNorm
  | 0x6F => formSS 8 8 w .tCmp
  | 0x70 => formS 8 w .tOnc
  | 0x71 => formD 8 w .tGen
  | 0x72 => formDS 8 8 w .tIso
  | 0x73 => formDS 8 8 w .tIsod
  | 0x80 => formDS 16 4 w .line
  | 0x81 => formDSSM 16 8 4 w .miller
  | 0x82 => formDSSM 16 8 4 w .miller2
  | _ => .error .unassignedOpcode

/-- The instruction the decoder reads from a table row's bits: one 32-bit word, so `w` taken to its
`nbits` bits is the word itself (`30_encoding.md` R90). -/
def decodeTableWord (nbits w : Nat) : Option Instr :=
  (decode (BitVec.ofNat 32 (w % 2 ^ nbits))).toOption

/-- The R format assembled (`30_encoding.md` R91). -/
def wordR (op rd rs1 rs2 aux : Nat) : BitVec 32 :=
  BitVec.ofNat 32 (op * 2 ^ 24 + rd * 2 ^ 18 + rs1 * 2 ^ 12 + rs2 * 2 ^ 6 + aux)

/-- The M format assembled (`30_encoding.md` R91). -/
def wordM (op r addr : Nat) : BitVec 32 :=
  BitVec.ofNat 32 (op * 2 ^ 24 + r * 2 ^ 18 + addr)

/-- The Z format assembled (`30_encoding.md` R91). -/
def wordZ (op : Nat) : BitVec 32 := BitVec.ofNat 32 (op * 2 ^ 24)

/-- The bit of a mode (`30_encoding.md` R96). -/
def modeBit : Mode → Nat
  | .basic => 0
  | .projc => 1

/-- The command word of an instruction (`30_encoding.md` R91, R98). -/
def encode : Instr → BitVec 32
  | .nop => wordZ 0x01
  | .halt => wordZ 0x02
  | .finit => wordZ 0x03
  | .ldp slot addr => wordM 0x04 slot.val addr.val
  | .ldE r addr => wordM 0x08 r.val addr.val
  | .stE r addr => wordM 0x09 r.val addr.val
  | .ldF r addr => wordM 0x0A r.val addr.val
  | .stF r addr => wordM 0x0B r.val addr.val
  | .ldT r addr => wordM 0x0C r.val addr.val
  | .stT r addr => wordM 0x0D r.val addr.val
  | .ldG r addr => wordM 0x0E r.val addr.val
  | .stG r addr => wordM 0x0F r.val addr.val
  | .eZero rd => wordR 0x20 rd.val 0 0 0
  | .eOne rd => wordR 0x21 rd.val 0 0 0
  | .eCpy rd rs1 => wordR 0x22 rd.val rs1.val 0 0
  | .eAdd rd rs1 rs2 => wordR 0x23 rd.val rs1.val rs2.val 0
  | .eSub rd rs1 rs2 => wordR 0x24 rd.val rs1.val rs2.val 0
  | .eNeg rd rs1 => wordR 0x25 rd.val rs1.val 0 0
  | .eCmp rs1 rs2 => wordR 0x26 0 rs1.val rs2.val 0
  | .eMul rd rs1 rs2 => wordR 0x27 rd.val rs1.val rs2.val 0
  | .eSqr rd rs1 => wordR 0x28 rd.val rs1.val 0 0
  | .eMulu rd rs1 rs2 => wordR 0x29 rd.val rs1.val rs2.val 0
  | .eSqru rd rs1 => wordR 0x2A rd.val rs1.val 0 0
  | .eRed rd rs1 => wordR 0x2B rd.val rs1.val 0 0
  | .eMnr rd rs1 => wordR 0x2C rd.val rs1.val 0 0
  | .eFrb rd rs1 e => wordR 0x2D rd.val rs1.val 0 e.val
  | .eFrb2 rd rs1 e => wordR 0x2E rd.val rs1.val 0 e.val
  | .eInv rd rs1 => wordR 0x2F rd.val rs1.val 0 0
  | .fOne rd => wordR 0x40 rd.val 0 0 0
  | .fCpy rd rs1 => wordR 0x41 rd.val rs1.val 0 0
  | .fPack rd rs1 rs2 => wordR 0x42 rd.val rs1.val rs2.val 0
  | .fGetr rd rs1 => wordR 0x43 rd.val rs1.val 0 0
  | .fGeti rd rs1 => wordR 0x44 rd.val rs1.val 0 0
  | .fCmp rs1 rs2 => wordR 0x45 0 rs1.val rs2.val 0
  | .fMul rd rs1 rs2 => wordR 0x46 rd.val rs1.val rs2.val 0
  | .fSqr rd rs1 => wordR 0x47 rd.val rs1.val 0 0
  | .fSqrc rd rs1 => wordR 0x48 rd.val rs1.val 0 0
  | .fInvc rd rs1 => wordR 0x49 rd.val rs1.val 0 0
  | .fFrb rd rs1 e => wordR 0x4A rd.val rs1.val 0 e.val
  | .tInf rd => wordR 0x60 rd.val 0 0 0
  | .tCpy rd rs1 => wordR 0x61 rd.val rs1.val 0 0
  | .tMk rd rs1 rs2 => wordR 0x62 rd.val rs1.val rs2.val 0
  | .tMkp rd rs1 rs2 rs3 => wordR 0x63 rd.val rs1.val rs2.val rs3.val
  | .tGetx rd rs1 => wordR 0x64 rd.val rs1.val 0 0
  | .tGety rd rs1 => wordR 0x65 rd.val rs1.val 0 0
  | .tGetz rd rs1 => wordR 0x66 rd.val rs1.val 0 0
  | .tNeg rd rs1 => wordR 0x67 rd.val rs1.val 0 0
  | .tDbl rd rs1 m => wordR 0x68 rd.val rs1.val 0 (modeBit m)
  | .tAdd rd rs1 rs2 m => wordR 0x69 rd.val rs1.val rs2.val (modeBit m)
  | .tSdbl rd rs1 m => wordR 0x6A rd.val rs1.val 0 (modeBit m)
  | .tSdbl1 rd rs1 m => wordR 0x6B rd.val rs1.val 0 (modeBit m)
  | .tSadd rd rs1 rs2 m => wordR 0x6C rd.val rs1.val rs2.val (modeBit m)
  | .tFrb rd rs1 e => wordR 0x6D rd.val rs1.val 0 e.val
  | .tNorm rd rs1 inv => wordR 0x6E rd.val rs1.val 0 inv.toNat
  | .tCmp rs1 rs2 => wordR 0x6F 0 rs1.val rs2.val 0
  | .tOnc rs1 => wordR 0x70 0 rs1.val 0 0
  | .tGen rd => wordR 0x71 rd.val 0 0 0
  | .tIso rd rs1 => wordR 0x72 rd.val rs1.val 0 0
  | .tIsod rd rs1 => wordR 0x73 rd.val rs1.val 0 0
  | .line rd rs1 => wordR 0x80 rd.val rs1.val 0 0
  | .miller rd rs1 rs2 m => wordR 0x81 rd.val rs1.val rs2.val (modeBit m)
  | .miller2 rd rs1 rs2 m => wordR 0x82 rd.val rs1.val rs2.val (modeBit m)

end Sys2Proof
end

