-- ==== Sys2Proof/Machine/Ops.lean ====
section
/-! DEFINITION. The named operations every meaning is built from: memory, register writes, fault
entry, the end of a command, and command fetch. A meaning computes an `Except Raise State`; `finish`
turns it into the next state, so that a fault leaves no partial result (`60_exceptions.md` R342). -/

namespace Sys2Proof.Machine

open Sys2Proof

/-! ### Memory -/

/-- The word at an address, `none` when its valid bit is 0. -/
def Memory.read {α : Type} : Memory α → Nat → Option α
  | [], _ => none
  | (k, v) :: rest, a => if k = a then some v else Memory.read rest a

/-- Writes one word and sets its valid bit (`20_memory.md` R66), keeping addresses rising. -/
def Memory.write {α : Type} : Memory α → Nat → α → Memory α
  | [], a, v => [(a, v)]
  | (k, w) :: rest, a, v =>
    if a < k then (a, v) :: (k, w) :: rest
    else if a = k then (a, v) :: rest
    else (k, w) :: Memory.write rest a v

/-- Writes a list of words from an address up. -/
def Memory.writeAll {α : Type} (m : Memory α) (a : Nat) : List α → Memory α
  | [] => m
  | v :: vs => Memory.writeAll (Memory.write m a v) (a + 1) vs

/-- Every listed address is at least `lo`, and the addresses rise strictly. -/
def Memory.wfFrom {α : Type} (lo : Nat) : Memory α → Bool
  | [] => true
  | (k, _) :: rest => decide (lo ≤ k) && Memory.wfFrom (k + 1) rest

/-- The canonical form: addresses strictly rising. Nothing is listed that an unlisted address reads
as, since an unlisted address holds no word at all. -/
def Memory.wf {α : Type} (m : Memory α) : Bool := Memory.wfFrom 0 m

/-! ### Location codes and causes -/

/-- The code of a cause (`60_exceptions.md` R330). -/
def Cause.code : Cause → BitVec 4
  | .arithPrecondition => 1
  | .allocFailure => 2
  | .invariantViolation => 3
  | .illegalCommand => 4
  | .unwrittenRead => 5
  | .addressFault => 6
  | .lifecycleFault => 7
  | .operandFault => 8
  | .lineInvalid => 9
  | .paramFault => 10

/-- The code of a phase (`44_pairing_engine.md` R260). -/
def Phase.code : Phase → Nat
  | .idle => 0
  | .check => 1
  | .dbl => 2
  | .add => 3
  | .fix => 4
  | .post0 => 5
  | .post1 => 6
  | .write => 7
  | .pre => 8
  | .fold => 9
  | .combine => 10

/-- The number of a register file in a location code (`60_exceptions.md` R330). -/
def RegFile.code : RegFile → Nat
  | .e => 0
  | .u => 1
  | .f => 2
  | .t => 3
  | .g => 4

/-- `Loc` of a register: kind 0, file in bits 10:8, index in bits 5:0 (`60_exceptions.md` R330). -/
def locReg (file : RegFile) (i : Nat) : BitVec 32 := BitVec.ofNat 32 (file.code * 2 ^ 8 + i)

/-- `Loc` of a `DM` word: kind 1, the address truncated to 28 bits (R330, R336). -/
def locDM (a : Nat) : BitVec 32 := BitVec.ofNat 32 (1 * 2 ^ 28 + a % 2 ^ 28)

/-- `Loc` of a `CM` word: kind 2 (R330). -/
def locCM (i : BitVec 16) : BitVec 32 := BitVec.ofNat 32 (2 * 2 ^ 28 + i.toNat)

/-- `Loc` of a `PRM` slot: kind 3 (R330). -/
def locPRM (slot : Nat) : BitVec 32 := BitVec.ofNat 32 (3 * 2 ^ 28 + slot)

/-- `Loc` of the latch `LC`: kind 4 (R330). -/
def locLC : BitVec 32 := BitVec.ofNat 32 (4 * 2 ^ 28)

/-- Raises a fault outside a Miller loop. -/
def raise {α : Type} (cause : Cause) (einfo : BitVec 32) : Except Raise α :=
  .error ⟨cause, einfo, none⟩

/-- Reads an item that carries a valid bit (`10_state.md` R21, `60_exceptions.md` R335). -/
def readItem {α : Type} (loc : BitVec 32) : Option α → Except Raise α
  | some v => .ok v
  | none => raise .unwrittenRead loc

/-! ### Taking a fault, and completing -/

/-- Fault entry (`60_exceptions.md` R341): the cause registers are written, `RS` becomes `FAULTED`,
`pc` keeps the index of the faulting command, `ML.active` is cleared, and a fault inside a Miller
loop leaves its step in `ML` (`44_pairing_engine.md` R267). Nothing else changes. -/
def State.enterFault (s : State) (r : Raise) : State :=
  { s with
    ecause := r.cause.code
    epc := s.pc
    einfo := r.einfo
    run := .faulted
    ml := match r.step with
      | none => { s.ml with active := false }
      | some m => ⟨false, m.variant, m.phase, m.i, none⟩ }

/-- Soft reset (`70_reset_and_hazards.md` R372): hard reset but for `DM` and `CM`. It is the return
from a fault (`60_exceptions.md` R344): only a reset leaves `FAULTED`. The model's own counter moves on,
so that no run after it takes a free value of a run before it (log entry 24). -/
def State.softReset (s : State) : State :=
  { State.reset with dm := s.dm, cm := s.cm, free := s.free + 1 }

/-- Hard reset (`70_reset_and_hazards.md` R371). The model's own counter moves on (log entry
24). -/
def State.hardReset (s : State) : State := { State.reset with free := s.free + 1 }

/-- `pc <- pc + 1` (`10_state.md` R27). At index 0xFFFF the 16 bits cannot hold the sum 2^16, and `pc`
never wraps: `pastTop` records that the counter is past every `CM`, so that the next fetch raises
`AddressFault` (`45_data_movement_system.md` R302), and what the 16 bits hold is a free value
(log entry 5). -/
def State.advance (c : Config) (s : State) : State :=
  if s.pc = 0xFFFF#16 then { s with pc := c.pcPastTop s.free, pastTop := true, free := s.free + 1 }
  else { s with pc := s.pc + 1#16 }

/-- The end of every command but `HALT`: it completes and `pc` moves on, or it faults. -/
def finish (c : Config) (s : State) (r : Except Raise State) : Host.Outcome State Fault Refusal :=
  .next (match r with
    | .ok t => t.advance c
    | .error x => s.enterFault x)

/-! ### Lifecycle admission (`60_exceptions.md` R352, R337) -/

/-- Admission of a command that needs `READY`; gives the computed constants. -/
def State.needReady (s : State) : Except Raise Constants :=
  match s.lifecycle with
  | .ready k => .ok k
  | .config => raise .lifecycleFault 0#32

/-- Admission of a command that needs `CONFIG`. -/
def State.needConfig (s : State) : Except Raise Unit :=
  match s.lifecycle with
  | .config => .ok ()
  | .ready _ => raise .lifecycleFault 1#32

/-! ### Register writes (`00_scope.md` R14: a write sets the valid bit) -/

def State.writeE (s : State) (r : RegE) (v : Deg11) : State :=
  { s with e := s.e.set r.val (some v) r.isLt }

def State.writeU (s : State) (r : RegU) (v : Unred11) : State :=
  { s with u := s.u.set r.val (some v) r.isLt }

def State.writeF (s : State) (r : RegF) (v : Deg22) : State :=
  { s with f := s.f.set r.val (some v) r.isLt }

def State.writeT (s : State) (r : RegT) (v : TwistPoint) : State :=
  { s with t := s.t.set r.val (some v) r.isLt }

def State.writeG (s : State) (r : RegG) (v : BasePoint) : State :=
  { s with g := s.g.set r.val (some v) r.isLt }

/-- `FLAGS.EQ <- b` (`10_state.md` R28). -/
def State.writeEq (s : State) (b : Bool) : State := { s with eq := b }

/-- `FLAGS.ONC <- b` (`10_state.md` R28). -/
def State.writeOnc (s : State) (b : Bool) : State := { s with onc := b }

/-- The latch write of the shared commands (`42_twist_curve.md` R210): a record, or `LC.valid <- 0`. -/
def State.writeLC (s : State) (r : Option LineRecord) : State := { s with lc := r }

/-- Moves past a free value that has been taken (log entry 24). -/
def State.takeFree (s : State) : State := { s with free := s.free + 1 }

/-! ### Data memory (`20_memory.md` R66) -/

/-- The `n` words from `a` up; the lowest unwritten one is reported. -/
def readWords (m : Memory Nat) (a : Nat) : Nat → Except Raise (List Nat)
  | 0 => .ok []
  | n + 1 => do
    let v ← readItem (locDM a) (Memory.read m a)
    let vs ← readWords m (a + 1) n
    pure (v :: vs)

/-- `MemRead(addr, n)`: the range check of the whole access comes before any word. -/
def State.memRead (c : Config) (s : State) (a n : Nat) : Except Raise (List Nat) :=
  if c.dmWords < a + n then raise .addressFault (locDM (a + n - 1))
  else readWords s.dm a n

/-- `MemWrite(addr, n, v)`: all the words or none. -/
def State.memWrite (c : Config) (s : State) (a : Nat) (vs : List Nat) : Except Raise State :=
  if c.dmWords < a + vs.length then raise .addressFault (locDM (a + vs.length - 1))
  else .ok { s with dm := Memory.writeAll s.dm a vs }

/-! ### Command fetch (`60_exceptions.md` R343 step 1, R335, R336) -/

/-- The fault of an illegal word (`60_exceptions.md` R334). -/
def illegalCommand (w : BitVec 32) : Raise := ⟨.illegalCommand, w, none⟩

/-- Fetch of `CM[pc]`. A counter past 0xFFFF is past every `CM` (`10_state.md` R27). -/
def State.fetch (c : Config) (s : State) : Except Raise (BitVec 32) :=
  if s.pastTop = true ∨ c.cmWords ≤ s.pc.toNat then raise .addressFault (locCM s.pc)
  else readItem (locCM s.pc) (Memory.read s.cm s.pc.toNat)

end Sys2Proof.Machine
end

