-- ==== Sys2Proof/Machine/Operands.lean ====
section
/-! DEFINITION. The operand forms: registers of the five files, parameter slots, the line latch, and
the admission checks on twist points, each raising the fault `60_exceptions.md` R343 names. -/

namespace Sys2Proof.Machine

open Sys2Proof

/-! ### Registers (`10_state.md` R21: an unwritten register raises `UnwrittenRead`) -/

def State.readE (s : State) (r : RegE) : Except Raise Deg11 := readItem (locReg .e r) s.e[r.val]
def State.readU (s : State) (r : RegU) : Except Raise Unred11 := readItem (locReg .u r) s.u[r.val]
def State.readF (s : State) (r : RegF) : Except Raise Deg22 := readItem (locReg .f r) s.f[r.val]
def State.readT (s : State) (r : RegT) : Except Raise TwistPoint := readItem (locReg .t r) s.t[r.val]
def State.readG (s : State) (r : RegG) : Except Raise BasePoint := readItem (locReg .g r) s.g[r.val]

/-! ### Parameter slots (`10_state.md` R33, `60_exceptions.md` R335) -/

def State.readC11 (s : State) : Except Raise Base := readItem (locPRM 0) s.prm.c11
def State.readTwist (s : State) : Except Raise Twist := readItem (locPRM 1) s.prm.twist
def State.readA (s : State) : Except Raise Deg11 := readItem (locPRM 2) s.prm.a
def State.readB (s : State) : Except Raise Deg11 := readItem (locPRM 3) s.prm.b
def State.readGen (s : State) : Except Raise (Deg11 × Deg11) := readItem (locPRM 4) s.prm.gen
def State.readTor2 (s : State) : Except Raise Deg11 := readItem (locPRM 5) s.prm.tor2
def State.readIsoT (s : State) : Except Raise Deg11 := readItem (locPRM 6) s.prm.isoT
def State.readIsoD (s : State) : Except Raise Deg11 := readItem (locPRM 7) s.prm.isoD
def State.readNaf (s : State) : Except Raise (List Digit) := readItem (locPRM 8) s.prm.naf
def State.readNaf2 (s : State) : Except Raise (List Digit) := readItem (locPRM 9) s.prm.naf2
def State.readSeedfix (s : State) : Except Raise Bool := readItem (locPRM 10) s.prm.seedfix
def State.readPost (s : State) : Except Raise (PostStep × PostStep) := readItem (locPRM 11) s.prm.post

/-- The field of the machine: `P` and slot `C11`. In `READY` the slot has a value, since `FINIT` read
it; were it unwritten, reading it raises `UnwrittenRead` as R14 of `00_scope.md` says (log entry 18). -/
def State.readField (c : Config) (s : State) : Except Raise Field := do
  let c11 ← s.readC11
  pure ⟨c.p, c11⟩

/-! ### Twist points -/

/-- `isinf` (`00_scope.md` R13). -/
def isInf (q : TwistPoint) : Bool := decide (q.z = zero11)

/-- The tag invariant (`10_state.md` R25): an affine tag goes with `z` zero or one. -/
def tagOk (q : TwistPoint) : Bool :=
  match q.tag with
  | .affine => decide (q.z = zero11) || decide (q.z = one11)
  | .projective => true

/-- The check of `42_twist_curve.md` R192 on a T register operand. -/
def checkTag (r : RegT) (q : TwistPoint) : Except Raise Unit :=
  if tagOk q then .ok () else raise .invariantViolation (locReg .t r)

/-- `OperandFault` on a projective-tagged point (`60_exceptions.md` R338). -/
def checkAffine (r : RegT) (q : TwistPoint) : Except Raise Unit :=
  match q.tag with
  | .affine => .ok ()
  | .projective => raise .operandFault (locReg .t r)

/-- The mode's tag rule (`42_twist_curve.md` R193): `BASIC` admits affine-tagged points only. -/
def checkMode (mode : Mode) (r : RegT) (q : TwistPoint) : Except Raise Unit :=
  match mode with
  | .basic => checkAffine r q
  | .projc => .ok ()

/-- One T source with no parameter slot: the read, then the tag invariant. -/
def State.readPoint (s : State) (r : RegT) : Except Raise TwistPoint := do
  let q ← s.readT r
  checkTag r q
  pure q

end Sys2Proof.Machine
end

