-- ==== Sys2Proof/Machine/Flags.lean ====
section
/-! DEFINITION. What the compare and on-curve commands put into `FLAGS` (`10_state.md` R28). -/

namespace Sys2Proof.Machine

open Sys2Proof

/-- `E.CMP` (`40_deg11_tower.md` R136): all eleven coefficients equal. -/
def equal11 (x y : Deg11) : Bool := decide (x = y)

/-- `F.CMP` (`41_deg22_tower.md` R170): both halves equal. -/
def equal22 (a b : Deg22) : Bool := decide (a.re = b.re) && decide (a.im = b.im)

/-- `T.CMP` (`42_twist_curve.md` R215): by cross-multiplication, whatever the tags. -/
def equalPoint (fl : Field) (p q : TwistPoint) : Bool :=
  if isInf p || isInf q then isInf p && isInf q
  else
    let a := sqr11 fl p.z
    let b := sqr11 fl q.z
    decide (mul11 fl p.x b = mul11 fl q.x a) &&
      decide (mul11 fl p.y (mul11 fl b q.z) = mul11 fl q.y (mul11 fl a p.z))

/-- `T.ONC` (`42_twist_curve.md` R216): `y^2 = x^3 + A x z^4 + B z^6`, and infinity counts. -/
def onCurve (fl : Field) (a b : Deg11) (p : TwistPoint) : Bool :=
  if isInf p then true
  else
    let z2 := sqr11 fl p.z
    let z4 := sqr11 fl z2
    let z6 := mul11 fl z4 z2
    let x3 := mul11 fl (sqr11 fl p.x) p.x
    decide (sqr11 fl p.y =
      add11 fl.p (add11 fl.p x3 (mul11 fl (mul11 fl a p.x) z4)) (mul11 fl b z6))

end Sys2Proof.Machine
end

