-- ==== Sys2Proof/Machine/Deg11Tower.lean ====
section
/-! DEFINITION. The degree-11 tower commands (`40_deg11_tower.md` R126 to R145). Each needs `READY`,
reads its sources in the order `rs1`, `rs2` before it writes, and ends with `pc <- pc + 1`. -/

namespace Sys2Proof.Machine

open Sys2Proof

/-- `E.ZERO` (R130). -/
def execEZero (rd : RegE) (s : State) (c : Config := Config.machine) :
    Host.Outcome State Fault Refusal :=
  finish c s do
    let _k ← s.needReady
    pure (s.writeE rd zero11)

/-- `E.ONE` (R131). -/
def execEOne (rd : RegE) (s : State) (c : Config := Config.machine) :
    Host.Outcome State Fault Refusal :=
  finish c s do
    let _k ← s.needReady
    pure (s.writeE rd one11)

/-- `E.CPY` (R132). -/
def execECpy (rd rs1 : RegE) (s : State) (c : Config := Config.machine) :
    Host.Outcome State Fault Refusal :=
  finish c s do
    let _k ← s.needReady
    let x ← s.readE rs1
    pure (s.writeE rd x)

/-- `E.ADD` (R133). -/
def execEAdd (rd rs1 rs2 : RegE) (s : State) (c : Config := Config.machine) :
    Host.Outcome State Fault Refusal :=
  finish c s do
    let _k ← s.needReady
    let x ← s.readE rs1
    let y ← s.readE rs2
    pure (s.writeE rd (add11 c.p x y))

/-- `E.SUB` (R134). -/
def execESub (rd rs1 rs2 : RegE) (s : State) (c : Config := Config.machine) :
    Host.Outcome State Fault Refusal :=
  finish c s do
    let _k ← s.needReady
    let x ← s.readE rs1
    let y ← s.readE rs2
    pure (s.writeE rd (sub11 c.p x y))

/-- `E.NEG` (R135). -/
def execENeg (rd rs1 : RegE) (s : State) (c : Config := Config.machine) :
    Host.Outcome State Fault Refusal :=
  finish c s do
    let _k ← s.needReady
    let x ← s.readE rs1
    pure (s.writeE rd (neg11 c.p x))

/-- `E.CMP` (R136). -/
def execECmp (rs1 rs2 : RegE) (s : State) (c : Config := Config.machine) :
    Host.Outcome State Fault Refusal :=
  finish c s do
    let _k ← s.needReady
    let x ← s.readE rs1
    let y ← s.readE rs2
    pure (s.writeEq (equal11 x y))

/-- `E.MUL` (R137). -/
def execEMul (rd rs1 rs2 : RegE) (s : State) (c : Config := Config.machine) :
    Host.Outcome State Fault Refusal :=
  finish c s do
    let _k ← s.needReady
    let x ← s.readE rs1
    let y ← s.readE rs2
    let fl ← s.readField c
    pure (s.writeE rd (mul11 fl x y))

/-- `E.SQR` (R138). -/
def execESqr (rd rs1 : RegE) (s : State) (c : Config := Config.machine) :
    Host.Outcome State Fault Refusal :=
  finish c s do
    let _k ← s.needReady
    let x ← s.readE rs1
    let fl ← s.readField c
    pure (s.writeE rd (sqr11 fl x))

/-- `E.MULU` (R139). -/
def execEMulu (rd : RegU) (rs1 rs2 : RegE) (s : State) (c : Config := Config.machine) :
    Host.Outcome State Fault Refusal :=
  finish c s do
    let _k ← s.needReady
    let x ← s.readE rs1
    let y ← s.readE rs2
    let fl ← s.readField c
    pure (s.writeU rd (mulu11 fl x y))

/-- `E.SQRU` (R140). -/
def execESqru (rd : RegU) (rs1 : RegE) (s : State) (c : Config := Config.machine) :
    Host.Outcome State Fault Refusal :=
  finish c s do
    let _k ← s.needReady
    let x ← s.readE rs1
    let fl ← s.readField c
    pure (s.writeU rd (mulu11 fl x x))

/-- `E.RED` (R141). -/
def execERed (rd : RegE) (rs1 : RegU) (s : State) (c : Config := Config.machine) :
    Host.Outcome State Fault Refusal :=
  finish c s do
    let _k ← s.needReady
    let v ← s.readU rs1
    pure (s.writeE rd (red11 c.p v))

/-- `E.MNR` (R142). -/
def execEMnr (rd rs1 : RegE) (s : State) (c : Config := Config.machine) :
    Host.Outcome State Fault Refusal :=
  finish c s do
    let _k ← s.needReady
    let x ← s.readE rs1
    let fl ← s.readField c
    pure (s.writeE rd (mnr fl x))

/-- `E.FRB` (R143). -/
def execEFrb (rd rs1 : RegE) (exp : Exponent) (s : State) (c : Config := Config.machine) :
    Host.Outcome State Fault Refusal :=
  finish c s do
    let k ← s.needReady
    let x ← s.readE rs1
    pure (s.writeE rd (frb11 c.p k x exp.val))

/-- `E.FRB2` (R144). -/
def execEFrb2 (rd rs1 : RegE) (exp : Exponent) (s : State) (c : Config := Config.machine) :
    Host.Outcome State Fault Refusal :=
  finish c s do
    let k ← s.needReady
    let x ← s.readE rs1
    pure (s.writeE rd (frb2map c.p k x exp.val))

/-- `E.INV` (R145): zero has no inverse. -/
def execEInv (rd rs1 : RegE) (s : State) (c : Config := Config.machine) :
    Host.Outcome State Fault Refusal :=
  finish c s do
    let _k ← s.needReady
    let x ← s.readE rs1
    let fl ← s.readField c
    if x = zero11 then raise .arithPrecondition 0#32
    else pure (s.writeE rd (inv11 fl x))

end Sys2Proof.Machine
end

