-- ==== Sys2Proof/Machine/Deg22Tower.lean ====
section
/-! DEFINITION. The degree-22 tower commands (`41_deg22_tower.md` R162 to R175). Each needs `READY`,
reads its sources in the order `rs1`, `rs2` before it writes, and ends with `pc <- pc + 1`. -/

namespace Sys2Proof.Machine

open Sys2Proof

/-- `F.ONE` (R165). -/
def execFOne (rd : RegF) (s : State) (c : Config := Config.machine) :
    Host.Outcome State Fault Refusal :=
  finish c s do
    let _k ← s.needReady
    pure (s.writeF rd one22)

/-- `F.CPY` (R166). -/
def execFCpy (rd rs1 : RegF) (s : State) (c : Config := Config.machine) :
    Host.Outcome State Fault Refusal :=
  finish c s do
    let _k ← s.needReady
    let a ← s.readF rs1
    pure (s.writeF rd a)

/-- `F.PACK` (R167). -/
def execFPack (rd : RegF) (rs1 rs2 : RegE) (s : State) (c : Config := Config.machine) :
    Host.Outcome State Fault Refusal :=
  finish c s do
    let _k ← s.needReady
    let x ← s.readE rs1
    let y ← s.readE rs2
    pure (s.writeF rd ⟨x, y⟩)

/-- `F.GETR` (R168). -/
def execFGetr (rd : RegE) (rs1 : RegF) (s : State) (c : Config := Config.machine) :
    Host.Outcome State Fault Refusal :=
  finish c s do
    let _k ← s.needReady
    let a ← s.readF rs1
    pure (s.writeE rd a.re)

/-- `F.GETI` (R169). -/
def execFGeti (rd : RegE) (rs1 : RegF) (s : State) (c : Config := Config.machine) :
    Host.Outcome State Fault Refusal :=
  finish c s do
    let _k ← s.needReady
    let a ← s.readF rs1
    pure (s.writeE rd a.im)

/-- `F.CMP` (R170). -/
def execFCmp (rs1 rs2 : RegF) (s : State) (c : Config := Config.machine) :
    Host.Outcome State Fault Refusal :=
  finish c s do
    let _k ← s.needReady
    let a ← s.readF rs1
    let b ← s.readF rs2
    pure (s.writeEq (equal22 a b))

/-- `F.MUL` (R171). -/
def execFMul (rd rs1 rs2 : RegF) (s : State) (c : Config := Config.machine) :
    Host.Outcome State Fault Refusal :=
  finish c s do
    let _k ← s.needReady
    let a ← s.readF rs1
    let b ← s.readF rs2
    let fl ← s.readField c
    pure (s.writeF rd (mul22 fl a b))

/-- `F.SQR` (R172). -/
def execFSqr (rd rs1 : RegF) (s : State) (c : Config := Config.machine) :
    Host.Outcome State Fault Refusal :=
  finish c s do
    let _k ← s.needReady
    let a ← s.readF rs1
    let fl ← s.readField c
    pure (s.writeF rd (sqr22 fl a))

/-- `F.SQRC` (R173): off the subgroup the result is a free value, and the counter of free values
moves on (log entry 6). -/
def execFSqrc (rd rs1 : RegF) (s : State) (c : Config := Config.machine) :
    Host.Outcome State Fault Refusal :=
  finish c s do
    let _k ← s.needReady
    let a ← s.readF rs1
    let fl ← s.readField c
    pure ((s.writeF rd (sqrc22 fl (c.sqrcOff s.free) a)).takeFree)

/-- `F.INVC` (R174): conjugation, for every operand. -/
def execFInvc (rd rs1 : RegF) (s : State) (c : Config := Config.machine) :
    Host.Outcome State Fault Refusal :=
  finish c s do
    let _k ← s.needReady
    let a ← s.readF rs1
    pure (s.writeF rd (conj22 c.p a))

/-- `F.FRB` (R175). -/
def execFFrb (rd rs1 : RegF) (exp : Exponent) (s : State) (c : Config := Config.machine) :
    Host.Outcome State Fault Refusal :=
  finish c s do
    let k ← s.needReady
    let a ← s.readF rs1
    pure (s.writeF rd (frb22 c.p k a exp.val))

end Sys2Proof.Machine
end

