-- ==== Sys2Proof/Machine/System.lean ====
section
/-! DEFINITION. The system commands `NOP`, `HALT`, `LDP` (`45_data_movement_system.md` R301 to R303)
and `FINIT` (`40_deg11_tower.md` R146). A meaning's last argument is the configuration, the machine's
unless a test gives another. -/

namespace Sys2Proof.Machine

open Sys2Proof

/-- `NOP` (R301). -/
def execNop (s : State) (c : Config := Config.machine) : Host.Outcome State Fault Refusal :=
  finish c s (.ok s)

/-- `HALT` (R302): `RS <- HALTED`, and `pc` keeps the index of the `HALT`. -/
def execHalt (s : State) : Host.Outcome State Fault Refusal := .next { s with run := .halted }

/-- `FINIT` (`40_deg11_tower.md` R146). -/
def execFinit (s : State) (c : Config := Config.machine) : Host.Outcome State Fault Refusal :=
  finish c s do
    s.needConfig
    let c11 ← s.readC11
    if c11Accepted c.p c11 then
      pure { s with lifecycle := .ready (constantsOf c.p c11) }
    else raise .paramFault 0#32

/-! ### The slots of `LDP` (`20_memory.md` R79, `45_data_movement_system.md` R303) -/

/-- `ParamFault` at word `k` of the image of a slot (`60_exceptions.md` R340). -/
def paramFault {α : Type} (slot k : Nat) : Except Raise α :=
  raise .paramFault (BitVec.ofNat 32 (slot + 256 * k))

/-- The first word of an image that breaks its range is reported; `k` is the offset of the head. -/
def checkImage (slot : Nat) (ok : Nat → Bool) : Nat → List Nat → Except Raise Unit
  | _, [] => .ok ()
  | k, v :: vs => if ok v then checkImage slot ok (k + 1) vs else paramFault slot k

/-- Word `k` of a list of words that is long enough. -/
def word (ws : List Nat) (k : Nat) : Nat := ws[k]?.getD 0

/-- Words `off .. off + 10` of an image as a `Deg11` (`20_memory.md` R78). -/
def deg11At (ws : List Nat) (off : Nat) : Deg11 := Vector.ofFn fun k : Fin 11 => word ws (off + k.val)

/-- A one-word image whose value must satisfy `ok`. -/
def loadWord (c : Config) (s : State) (slot a : Nat) (ok : Nat → Bool) : Except Raise Nat := do
  let ws ← s.memRead c a 1
  checkImage slot ok 0 ws
  pure (word ws 0)

/-- An eleven-word image. -/
def loadElement (c : Config) (s : State) (slot a : Nat) : Except Raise Deg11 := do
  let ws ← s.memRead c a 11
  checkImage slot (fun v => decide (v < c.p)) 0 ws
  pure (deg11At ws 0)

/-- The image of `GEN`, `x` then `y`. -/
def loadGen (c : Config) (s : State) (a : Nat) : Except Raise (Deg11 × Deg11) := do
  let ws ← s.memRead c a 22
  checkImage 4 (fun v => decide (v < c.p)) 0 ws
  pure (deg11At ws 0, deg11At ws 11)

/-- The digit a code stands for: 0, +1, -1 for 0, 1, 2. -/
def digitOf (v : Nat) : Digit := if v = 0 then .zero else if v = 1 then .plus else .minus

/-- The image of a digit string: its length, then its digits, the top one +1. -/
def loadDigits (c : Config) (s : State) (slot a : Nat) : Except Raise (List Digit) := do
  let hd ← s.memRead c a 1
  let n := word hd 0
  if c.nafMax < n then raise .allocFailure (BitVec.ofNat 32 n)
  else if n < 2 then paramFault slot 0
  else do
    let ws ← s.memRead c (a + 1) n
    checkImage slot (fun v => decide (v ≤ 2)) 1 ws
    if word ws (n - 1) = 1 then pure (ws.map digitOf) else paramFault slot n

/-- `src` of a `POST` entry. -/
def sourceOf (v : Nat) : PostSource := if v = 0 then .input else if v = 1 then .running else .disabled

/-- One entry of the `POST` image, at word offset `k`. -/
def postEntry (ws : List Nat) (k : Nat) : Except Raise PostStep :=
  if 2 < word ws k then paramFault 11 k
  else if 21 < word ws (k + 1) then paramFault 11 (k + 1)
  else if 1 < word ws (k + 2) then paramFault 11 (k + 2)
  else .ok ⟨sourceOf (word ws k), Fin.ofNat 22 (word ws (k + 1)), decide (word ws (k + 2) = 1)⟩

/-- The image of `POST`. -/
def loadPost (c : Config) (s : State) (a : Nat) : Except Raise (PostStep × PostStep) := do
  let ws ← s.memRead c a 6
  let p0 ← postEntry ws 0
  let p1 ← postEntry ws 3
  pure (p0, p1)

/-- `PRM` with one slot loaded from its image. `none` for a slot number that names no slot. -/
def loadSlot (c : Config) (s : State) (a : Nat) : Nat → Option (Except Raise ParamStore)
  | 0 => some do
    let v ← loadWord c s 0 a (fun v => decide (v ≠ 0) && decide (v < c.p))
    pure { s.prm with c11 := some v }
  | 1 => some do
    let v ← loadWord c s 1 a (fun v => decide (v ≤ 1))
    pure { s.prm with twist := some (if v = 0 then .dType else .mType) }
  | 2 => some do
    let v ← loadElement c s 2 a
    pure { s.prm with a := some v }
  | 3 => some do
    let v ← loadElement c s 3 a
    pure { s.prm with b := some v }
  | 4 => some do
    let v ← loadGen c s a
    pure { s.prm with gen := some v }
  | 5 => some do
    let v ← loadElement c s 5 a
    pure { s.prm with tor2 := some v }
  | 6 => some do
    let v ← loadElement c s 6 a
    pure { s.prm with isoT := some v }
  | 7 => some do
    let v ← loadElement c s 7 a
    pure { s.prm with isoD := some v }
  | 8 => some do
    let v ← loadDigits c s 8 a
    pure { s.prm with naf := some v }
  | 9 => some do
    let v ← loadDigits c s 9 a
    pure { s.prm with naf2 := some v }
  | 10 => some do
    let v ← loadWord c s 10 a (fun v => decide (v ≤ 1))
    pure { s.prm with seedfix := some (decide (v = 1)) }
  | 11 => some do
    let v ← loadPost c s a
    pure { s.prm with post := some v }
  | _ => none

/-- `LDP` (R303). A slot of 12 or above is an illegal command, before the lifecycle check. -/
def execLdp (slot : SlotField) (addr : Addr) (s : State) (c : Config := Config.machine) :
    Host.Outcome State Fault Refusal :=
  finish c s
    (match loadSlot c s addr.val slot.val with
      | none => .error (illegalCommand (encode (.ldp slot addr)))
      | some load => do
        s.needConfig
        let prm ← load
        pure { s with prm := prm })

end Sys2Proof.Machine
end

