-- ==== Sys2Proof/Machine/LoadStore.lean ====
section
/-! DEFINITION. The loads and stores of typed values (`45_data_movement_system.md` R300, R304 to R311).
They are admitted in both lifecycle states (`60_exceptions.md` R352). -/

namespace Sys2Proof.Machine

open Sys2Proof

/-- `InvariantViolation` at a `DM` word (`60_exceptions.md` R333). -/
def badWord {α : Type} (a : Nat) : Except Raise α := raise .invariantViolation (locDM a)

/-- The value checks of a load, in ascending address order (R300): the word at `a` upwards must each
satisfy `ok`. -/
def checkWords (ok : Nat → Bool) : Nat → List Nat → Except Raise Unit
  | _, [] => .ok ()
  | a, v :: vs => if ok v then checkWords ok (a + 1) vs else badWord a

/-- A word read as a base-field value (`20_memory.md` R78). -/
def isBase (c : Config) (v : Nat) : Bool := decide (v < c.p)

/-- A tag word or an `inf` word (`20_memory.md` R78). -/
def isBit (v : Nat) : Bool := decide (v ≤ 1)

/-- `LD.E` (R304). -/
def execLdE (r : RegE) (addr : Addr) (s : State) (c : Config := Config.machine) :
    Host.Outcome State Fault Refusal :=
  finish c s do
    let ws ← s.memRead c addr.val 11
    checkWords (isBase c) addr.val ws
    pure (s.writeE r (deg11At ws 0))

/-- `ST.E` (R305). -/
def execStE (r : RegE) (addr : Addr) (s : State) (c : Config := Config.machine) :
    Host.Outcome State Fault Refusal :=
  finish c s do
    let x ← s.readE r
    s.memWrite c addr.val x.toList

/-- `LD.F` (R306). -/
def execLdF (r : RegF) (addr : Addr) (s : State) (c : Config := Config.machine) :
    Host.Outcome State Fault Refusal :=
  finish c s do
    let ws ← s.memRead c addr.val 22
    checkWords (isBase c) addr.val ws
    pure (s.writeF r ⟨deg11At ws 0, deg11At ws 11⟩)

/-- `ST.F` (R307): `re` then `im`. -/
def execStF (r : RegF) (addr : Addr) (s : State) (c : Config := Config.machine) :
    Host.Outcome State Fault Refusal :=
  finish c s do
    let a ← s.readF r
    s.memWrite c addr.val (a.re.toList ++ a.im.toList)

/-- The `TwistPoint` of a 34-word image (`20_memory.md` R78). -/
def twistPointAt (ws : List Nat) : TwistPoint :=
  ⟨deg11At ws 0, deg11At ws 11, deg11At ws 22, if word ws 33 = 0 then .affine else .projective⟩

/-- The 34-word image of a `TwistPoint`. -/
def twistPointWords (q : TwistPoint) : List Nat :=
  q.x.toList ++ (q.y.toList ++ (q.z.toList ++ [match q.tag with | .affine => 0 | .projective => 1]))

/-- `LD.T` (R308): the tag invariant is checked last, on the tag's word. -/
def execLdT (r : RegT) (addr : Addr) (s : State) (c : Config := Config.machine) :
    Host.Outcome State Fault Refusal :=
  finish c s do
    let ws ← s.memRead c addr.val 34
    checkWords (isBase c) addr.val (ws.take 33)
    checkWords isBit (addr.val + 33) (ws.drop 33)
    if tagOk (twistPointAt ws) then pure (s.writeT r (twistPointAt ws)) else badWord (addr.val + 33)

/-- `ST.T` (R309): the point as held, after the tag-invariant check that `42_twist_curve.md` R192 asks of
every command that reads a T register. DESIGN CHOICE: R300 says that a store checks nothing (log
entry 25). -/
def execStT (r : RegT) (addr : Addr) (s : State) (c : Config := Config.machine) :
    Host.Outcome State Fault Refusal :=
  finish c s do
    let q ← s.readPoint r
    s.memWrite c addr.val (twistPointWords q)

/-- The `BasePoint` of a three-word image (`20_memory.md` R78). -/
def basePointAt (ws : List Nat) : BasePoint := ⟨word ws 0, word ws 1, decide (word ws 2 = 1)⟩

/-- The three-word image of a `BasePoint`. -/
def basePointWords (g : BasePoint) : List Nat := [g.x, g.y, g.inf.toNat]

/-- `LD.G` (R310). -/
def execLdG (r : RegG) (addr : Addr) (s : State) (c : Config := Config.machine) :
    Host.Outcome State Fault Refusal :=
  finish c s do
    let ws ← s.memRead c addr.val 3
    checkWords (isBase c) addr.val (ws.take 2)
    checkWords isBit (addr.val + 2) (ws.drop 2)
    pure (s.writeG r (basePointAt ws))

/-- `ST.G` (R311). -/
def execStG (r : RegG) (addr : Addr) (s : State) (c : Config := Config.machine) :
    Host.Outcome State Fault Refusal :=
  finish c s do
    let g ← s.readG r
    s.memWrite c addr.val (basePointWords g)

end Sys2Proof.Machine
end

