-- ==== Sys2Proof/Machine/Curve.lean ====
section
/-! DEFINITION. The group-law functions of `42_twist_curve.md`, the isogenies of `43_isogeny.md` and
the line value of `44_pairing_engine.md`. A group-law function gives the point and the line record it
exports, if any. -/

namespace Sys2Proof.Machine

open Sys2Proof

/-- The affine-tagged infinity the short-circuits write (`42_twist_curve.md` R195, R200). -/
def infAffine : TwistPoint := ⟨zero11, zero11, zero11, .affine⟩

/-- The projective-tagged infinity of R197. -/
def infProjective : TwistPoint := ⟨zero11, zero11, zero11, .projective⟩

/-- `(x, -y, z, tag)` (`42_twist_curve.md` R207). -/
def negPoint (p : Nat) (q : TwistPoint) : TwistPoint := ⟨q.x, neg11 p q.y, q.z, q.tag⟩

/-- The third point of a chord or tangent of slope `lam` through `q`, given the sum `xs` of the two
abscissas: `x3 = lam^2 - xs`, `y3 = lam (q.x - x3) - q.y` (R194, R195). -/
def chordPoint (fl : Field) (lam xs : Deg11) (q : TwistPoint) : TwistPoint :=
  let x3 := sub11 fl.p (sqr11 fl lam) xs
  let y3 := sub11 fl.p (mul11 fl lam (sub11 fl.p q.x x3)) q.y
  ⟨x3, y3, one11, .affine⟩

/-- `AffDbl` (R194). -/
def affDbl (fl : Field) (a : Deg11) (q : TwistPoint) :
    Except Raise (TwistPoint × Option LineRecord) :=
  if isInf q then .ok (q, none)
  else if q.y = zero11 then raise .arithPrecondition 0#32
  else
    let lam := mul11 fl (add11 fl.p (scale11 fl.p 3 (sqr11 fl q.x)) a)
      (inv11 fl (scale11 fl.p 2 q.y))
    .ok (chordPoint fl lam (scale11 fl.p 2 q.x) q, some ⟨.dbl, .basic, lam, one11, q⟩)

/-- `AffAdd` (R195). -/
def affAdd (fl : Field) (a : Deg11) (q r : TwistPoint) :
    Except Raise (TwistPoint × Option LineRecord) :=
  if isInf q then .ok (r, none)
  else if isInf r then .ok (q, none)
  else if q.x = r.x then
    if q.y = r.y then affDbl fl a q else .ok (infAffine, none)
  else
    let lam := mul11 fl (sub11 fl.p r.y q.y) (inv11 fl (sub11 fl.p r.x q.x))
    .ok (chordPoint fl lam (add11 fl.p q.x r.x) q, some ⟨.add, .basic, lam, one11, r⟩)

/-- `JacDbl` (R196). -/
def jacDbl (fl : Field) (a : Deg11) (q : TwistPoint) : TwistPoint × Option LineRecord :=
  if isInf q then (q, none)
  else
    let xx := sqr11 fl q.x
    let yy := sqr11 fl q.y
    let yyyy := sqr11 fl yy
    let zz := sqr11 fl q.z
    let s := scale11 fl.p 4 (mul11 fl q.x yy)
    let m := add11 fl.p (scale11 fl.p 3 xx) (mul11 fl a (sqr11 fl zz))
    let x3 := sub11 fl.p (sqr11 fl m) (scale11 fl.p 2 s)
    let y3 := sub11 fl.p (mul11 fl m (sub11 fl.p s x3)) (scale11 fl.p 8 yyyy)
    let z3 := scale11 fl.p 2 (mul11 fl q.y q.z)
    (⟨x3, y3, z3, .projective⟩, some ⟨.dbl, .projc, m, zz, q⟩)

/-- `JacAdd` (R197). -/
def jacAdd (fl : Field) (a : Deg11) (q r : TwistPoint) : TwistPoint × Option LineRecord :=
  if isInf q then (r, none)
  else if isInf r then (q, none)
  else
    let z1z1 := sqr11 fl q.z
    let z2z2 := sqr11 fl r.z
    let u1 := mul11 fl q.x z2z2
    let u2 := mul11 fl r.x z1z1
    let s1 := mul11 fl (mul11 fl q.y r.z) z2z2
    let s2 := mul11 fl (mul11 fl r.y q.z) z1z1
    let h := sub11 fl.p u2 u1
    let d := sub11 fl.p s2 s1
    if h = zero11 then
      if d = zero11 then jacDbl fl a q else (infProjective, none)
    else
      let hh := sqr11 fl h
      let hhh := mul11 fl hh h
      let v := mul11 fl u1 hh
      let x3 := sub11 fl.p (sub11 fl.p (sqr11 fl d) hhh) (scale11 fl.p 2 v)
      let y3 := sub11 fl.p (mul11 fl d (sub11 fl.p v x3)) (mul11 fl s1 hhh)
      let z3 := mul11 fl (mul11 fl q.z r.z) h
      (⟨x3, y3, z3, .projective⟩, some ⟨.add, .projc, d, z3, r⟩)

/-- Doubling in a mode (`42_twist_curve.md` R208, R210). -/
def doublePoint (fl : Field) (a : Deg11) (mode : Mode) (q : TwistPoint) :
    Except Raise (TwistPoint × Option LineRecord) :=
  match mode with
  | .basic => affDbl fl a q
  | .projc => .ok (jacDbl fl a q)

/-- Addition in a mode (R209, R212). -/
def addPoints (fl : Field) (a : Deg11) (mode : Mode) (q r : TwistPoint) :
    Except Raise (TwistPoint × Option LineRecord) :=
  match mode with
  | .basic => affAdd fl a q r
  | .projc => .ok (jacAdd fl a q r)

/-- The curve Frobenius (R213): `psi^-1 . pi^e . psi`, coordinate-wise, the tag kept. -/
def frbPoint (fl : Field) (k : Constants) (tw : Twist) (q : TwistPoint) (e : Nat) : TwistPoint :=
  let m := e % 22
  let up := mnr fl
  let down := dnr fl.p k.c11inv
  let x2 := match tw with
    | .dType => down (frb11 fl.p k (up q.x) m)
    | .mType => up (frb11 fl.p k (down q.x) m)
  let y2 := match tw with
    | .dType => down (frb2map fl.p k (up q.y) m)
    | .mType => up (up (frb2map fl.p k (down (down q.y)) m))
  ⟨x2, if 11 ≤ m then neg11 fl.p y2 else y2, frb11 fl.p k q.z m, q.tag⟩

/-- `T.NORM` (R214). With `inverted` the `z` field is taken as the inverse, unchecked. -/
def normPoint (fl : Field) (q : TwistPoint) (inverted : Bool) : TwistPoint :=
  if isInf q then infAffine
  else match q.tag with
    | .affine => q
    | .projective =>
      let zi := if inverted then q.z else inv11 fl q.z
      let zi2 := sqr11 fl zi
      ⟨mul11 fl q.x zi2, mul11 fl (mul11 fl q.y zi2) zi, one11, .affine⟩

/-- The affine coordinates of a point that is not infinity (`43_isogeny.md` R242). -/
def affineXY (fl : Field) (q : TwistPoint) : Deg11 × Deg11 :=
  match q.tag with
  | .affine => (q.x, q.y)
  | .projective =>
    let zi := inv11 fl q.z
    let zi2 := sqr11 fl zi
    (mul11 fl q.x zi2, mul11 fl q.y (mul11 fl zi2 zi))

/-- `Iso` (`43_isogeny.md` R242). -/
def isoPoint (fl : Field) (tor2 isoT : Deg11) (q : TwistPoint) : TwistPoint :=
  if isInf q then infAffine
  else
    let xy := affineXY fl q
    let bigX := sub11 fl.p xy.1 tor2
    if bigX = zero11 then infAffine
    else
      let d := inv11 fl bigX
      let td := mul11 fl isoT d
      ⟨add11 fl.p xy.1 td, mul11 fl xy.2 (sub11 fl.p one11 (mul11 fl td d)), one11, .affine⟩

/-- The dual isogeny (`43_isogeny.md` R243). -/
def isoDualPoint (fl : Field) (half : Base) (tor2 isoD : Deg11) (q : TwistPoint) : TwistPoint :=
  if isInf q then infAffine
  else
    let xy := affineXY fl q
    let bigX := add11 fl.p xy.1 (scale11 fl.p 2 tor2)
    if bigX = zero11 then infAffine
    else
      let d := inv11 fl bigX
      let yd := mul11 fl xy.2 d
      let h2 := mulP fl.p half half
      let h3 := mulP fl.p h2 half
      ⟨add11 fl.p tor2 (scale11 fl.p h2 (sqr11 fl yd)),
        scale11 fl.p h3 (mul11 fl (mul11 fl yd d) (sub11 fl.p (sqr11 fl bigX) isoD)),
        one11, .affine⟩

/-- The line value (`44_pairing_engine.md` R258) of a record at a base point. -/
def lineValue (fl : Field) (tw : Twist) (r : LineRecord) (g : BasePoint) : Except Raise Deg22 :=
  let b := r.base
  if r.kind = .add ∧ b.tag = .projective then raise .operandFault locLC
  else
    let tangentP := decide (r.kind = .dbl) && decide (r.mode = .projc)
    let k := if tangentP then mul11 fl (scale11 fl.p 2 (mul11 fl b.y b.z)) r.zaux else r.zaux
    let c := if tangentP then sub11 fl.p (mul11 fl r.slope b.x) (scale11 fl.p 2 (sqr11 fl b.y))
      else sub11 fl.p (mul11 fl r.slope b.x) (mul11 fl k b.y)
    let s := if tangentP then mul11 fl r.slope r.zaux else r.slope
    .ok (match tw with
      | .dType => ⟨scale11 fl.p g.y k, sub11 fl.p (mnr fl c) (scale11 fl.p g.x s)⟩
      | .mType => ⟨sub11 fl.p c (mnr fl (scale11 fl.p g.x s)), mnr fl (scale11 fl.p g.y k)⟩)

end Sys2Proof.Machine
end

