-- ==== Sys2Proof/Machine/Miller.lean ====
section
/-! DEFINITION. The Miller-loop state machine (`44_pairing_engine.md` R259 to R271), phase by phase
over the data fields of `ML`. A fault of a phase carries the phase and the index (R267). -/

namespace Sys2Proof.Machine

open Sys2Proof

/-- What a Miller command has before its loop: the field and constants, `TWIST`, `A`, the mode, the
variant, and the free value of log entry 27. -/
structure MillerEnv where
  fl : Field
  k : Constants
  tw : Twist
  a : Deg11
  mode : Mode
  variant : Bool
  past : Nat → BitVec 16

/-- What the 16-bit `ML.i` (`10_state.md` R30) shows of a loop index: the index, or a free value for one
that 16 bits cannot hold (log entry 27). -/
def shownIndex (env : MillerEnv) (i : Nat) : BitVec 16 :=
  if i < 2 ^ 16 then BitVec.ofNat 16 i else env.past i

/-- A phase of the loop: its faults get the step's `ML` values, and `LineInvalid` gets
`EINFO = phase * 2^16 + i` (`60_exceptions.md` R339). -/
def inPhase {α : Type} (env : MillerEnv) (phase : Phase) (i : Nat) (x : Except Raise α) :
    Except Raise α :=
  match x with
  | .ok v => .ok v
  | .error r => .error
      { cause := r.cause
        einfo :=
          if r.cause = .lineInvalid then BitVec.ofNat 32 (phase.code * 2 ^ 16 + (shownIndex env i).toNat)
          else r.einfo
        step := some ⟨env.variant, phase, shownIndex env i⟩ }

/-- `Line(lc)` at a base point (R259): `LineInvalid` when the shared step gave no record (R268). -/
def lineAt (env : MillerEnv) (lc : Option LineRecord) (g : BasePoint) : Except Raise Deg22 :=
  match lc with
  | none => raise .lineInvalid 0#32
  | some r => lineValue env.fl env.tw r g

/-- Phase `CHECK` (R261): the operands latched. `f` is set by the first doubling. -/
def millerStart (env : MillerEnv) (q : TwistPoint) (g : BasePoint) : MillerData where
  mode := env.mode
  f := one22
  f2 := one22
  t := q
  q := q
  nq := negPoint env.fl.p q
  p := g

/-- The accumulator after a doubling (R262): the line itself the first time. -/
def accumulate (env : MillerEnv) (first : Bool) (f l : Deg22) : Deg22 :=
  if first then l else mul22 env.fl (sqr22 env.fl f) l

/-- Phase `DBL` of the standard loop (R262). -/
def phaseDbl (env : MillerEnv) (i : Nat) (first : Bool) (d : MillerData) : Except Raise MillerData :=
  inPhase env .dbl i do
    let r ← doublePoint env.fl env.a env.mode d.t
    let l ← lineAt env r.2 d.p
    pure { d with f := accumulate env first d.f l, t := r.1 }

/-- The operand of an addition step (R263); none for a zero digit. -/
def digitPoint (d : MillerData) : Digit → Option TwistPoint
  | .zero => none
  | .plus => some d.q
  | .minus => some d.nq

/-- Adds `pt` to the running point and multiplies its line into `f` (R263, R265). -/
def addStep (env : MillerEnv) (d : MillerData) (pt : TwistPoint) : Except Raise MillerData := do
  let r ← addPoints env.fl env.a env.mode d.t pt
  let l ← lineAt env r.2 d.p
  pure { d with f := mul22 env.fl d.f l, t := r.1 }

/-- Phase `ADD` of the standard loop (R263), skipped for a zero digit. -/
def phaseAdd (env : MillerEnv) (i : Nat) (digit : Digit) (d : MillerData) : Except Raise MillerData :=
  match digitPoint d digit with
  | none => .ok d
  | some pt => inPhase env .add i (addStep env d pt)

/-- The walk of the standard loop: indices `n - 1` down to 0 (R259). -/
def millerWalk (env : MillerEnv) (digits : List Digit) :
    Nat → Bool → MillerData → Except Raise MillerData
  | 0, _, d => .ok d
  | i + 1, first, d => do
    let d1 ← phaseDbl env i first d
    let d2 ← phaseAdd env i (digits[i]?.getD .zero) d1
    millerWalk env digits i false d2

/-- Phase `FIX` (R264). -/
def phaseFix (env : MillerEnv) (seedfix : Bool) (d : MillerData) : MillerData :=
  if seedfix then { d with f := conj22 env.fl.p d.f, t := negPoint env.fl.p d.t } else d

/-- The source point of a post-loop step (R265); none when it is disabled. -/
def postSource (d : MillerData) : PostSource → Option TwistPoint
  | .input => some d.q
  | .running => some d.t
  | .disabled => none

/-- The point a post-loop step adds (R265). -/
def postPoint (env : MillerEnv) (st : PostStep) (pt : TwistPoint) : TwistPoint :=
  let r := normPoint env.fl (frbPoint env.fl env.k env.tw pt st.e.val) false
  if st.neg then negPoint env.fl.p r else r

/-- Phases `POST0` and `POST1` (R265). `ML.i` is 0 after the walk. -/
def phasePost (env : MillerEnv) (phase : Phase) (st : PostStep) (d : MillerData) :
    Except Raise MillerData :=
  match postSource d st.src with
  | none => .ok d
  | some pt => inPhase env phase 0 (addStep env d (postPoint env st pt))

/-- The standard loop from `CHECK` to before `WRITE` (R259). -/
def millerLoop (env : MillerEnv) (digits : List Digit) (seedfix : Bool) (post : PostStep × PostStep)
    (q : TwistPoint) (g : BasePoint) : Except Raise Deg22 := do
  let d1 ← millerWalk env digits (digits.length - 1) true (millerStart env q g)
  let d2 ← phasePost env .post0 post.1 (phaseFix env seedfix d1)
  let d3 ← phasePost env .post1 post.2 d2
  pure d3.f

/-! ### The super-optimal loop (R270) -/

/-- `SuperOpt.IsoG1`, its value taken as a `BasePoint` (log entry 9). -/
def hookIsoG1 (c : Config) (g : BasePoint) : BasePoint :=
  let r := c.superOpt.isoG1 g
  ⟨r.x % c.p, r.y % c.p, r.inf⟩

/-- A pair of corrections, or the `ArithPrecondition` a hook returns (R271). -/
def hookPair (c : Config) : Option (Deg22 × Deg22) → Except Raise (Deg22 × Deg22)
  | some v => .ok (norm22 c.p v.1, norm22 c.p v.2)
  | none => raise .arithPrecondition 0#32

/-- Phase `DBL` with both accumulators (R270). -/
def phaseDbl2 (env : MillerEnv) (g2 : BasePoint) (i : Nat) (first : Bool) (d : MillerData) :
    Except Raise MillerData :=
  inPhase env .dbl i do
    let r ← doublePoint env.fl env.a env.mode d.t
    let l ← lineAt env r.2 d.p
    let l2 ← lineAt env r.2 g2
    pure { d with f := accumulate env first d.f l, f2 := accumulate env first d.f2 l2, t := r.1 }

/-- Phase `ADD` with both accumulators (R270). -/
def phaseAdd2 (env : MillerEnv) (g2 : BasePoint) (i : Nat) (digit : Digit) (d : MillerData) :
    Except Raise MillerData :=
  match digitPoint d digit with
  | none => .ok d
  | some pt => inPhase env .add i do
    let r ← addPoints env.fl env.a env.mode d.t pt
    let l ← lineAt env r.2 d.p
    let l2 ← lineAt env r.2 g2
    pure { d with f := mul22 env.fl d.f l, f2 := mul22 env.fl d.f2 l2, t := r.1 }

/-- Phase `FOLD` (R270), once an index where `FoldAt` says so (log entry 15). -/
def phaseFold (c : Config) (m : Deg22 × Deg22) (i : Nat) (d : MillerData) : MillerData :=
  if c.superOpt.foldAt i then
    let r := c.superOpt.fold i d.f d.f2 m.1 m.2
    { d with f := norm22 c.p r.1, f2 := norm22 c.p r.2 }
  else d

/-- The walk of the super-optimal loop (R270). -/
def millerWalk2 (c : Config) (env : MillerEnv) (g2 : BasePoint) (m : Deg22 × Deg22)
    (digits : List Digit) : Nat → Bool → MillerData → Except Raise MillerData
  | 0, _, d => .ok d
  | i + 1, first, d => do
    let d1 ← phaseDbl2 env g2 i first d
    let d2 ← phaseAdd2 env g2 i (digits[i]?.getD .zero) d1
    millerWalk2 c env g2 m digits i false (phaseFold c m i d2)

/-- Phase `PRE` up to the image of the base point: `OperandFault` when it is the identity, on the
register of the base point (`60_exceptions.md` R338; log entry 15). -/
def preImage (c : Config) (rg : RegG) (g : BasePoint) : Except Raise BasePoint :=
  if (hookIsoG1 c g).inf then raise .operandFault (locReg .g rg) else .ok (hookIsoG1 c g)

/-- The super-optimal loop from `PRE` to before `WRITE` (R270). -/
def millerLoop2 (c : Config) (env : MillerEnv) (digits : List Digit) (tor2 isoT : Deg11)
    (rg : RegG) (q : TwistPoint) (g : BasePoint) : Except Raise Deg22 := do
  let q2 := isoPoint env.fl tor2 isoT q
  let g2 ← inPhase env .pre (digits.length - 2) (preImage c rg g)
  let m ← inPhase env .pre (digits.length - 2) (hookPair c (c.superOpt.corrPre q q2 g g2))
  let d ← millerWalk2 c env g2 m digits (digits.length - 1) true (millerStart env q g)
  let n ← inPhase env .combine 0 (hookPair c (c.superOpt.corrPost d.t q q2 g g2))
  pure (norm22 c.p (c.superOpt.combine d.f d.f2 m.1 m.2 n.1 n.2))

end Sys2Proof.Machine
end

