-- ==== Sys2Proof/Machine/Pairing.lean ====
section
/-! DEFINITION. The pairing-engine commands `LINE`, `MILLER`, `MILLER2` (`44_pairing_engine.md` R258,
R259, R270). A Miller command is one step; its phases are in `Miller.lean`. -/

namespace Sys2Proof.Machine

open Sys2Proof

/-- `LINE` (R258). -/
def execLine (rd : RegF) (rs1 : RegG) (s : State) (c : Config := Config.machine) :
    Host.Outcome State Fault Refusal :=
  finish c s do
    let _k ← s.needReady
    let g ← s.readG rs1
    let tw ← s.readTwist
    if g.inf then raise .operandFault (locReg .g rs1)
    else match s.lc with
      | none => raise .lineInvalid 0#32
      | some r => do
        let fl ← s.readField c
        let v ← lineValue fl tw r g
        pure (s.writeF rd v)

/-- Phase `WRITE` (R266): the result, the latch invalidated, `ML` at rest with the variant of the
run. The data fields then hold no defined value (`10_state.md` R30). -/
def State.writeMiller (s : State) (rd : RegF) (variant : Bool) (v : Deg22) : State :=
  { (s.writeF rd v).writeLC none with
    ml := ⟨false, variant, .idle, 0, none⟩ }

/-- The operand checks of both Miller commands after the slots are read (R259): the tag invariant,
then the affine tag, in either mode. -/
def checkMillerPoint (rs1 : RegT) (q : TwistPoint) : Except Raise Unit := do
  checkTag rs1 q
  checkAffine rs1 q

/-- `MILLER` (R259); a degenerate input gives one without entering the loop (R261, R268). -/
def execMiller (rd : RegF) (rs1 : RegT) (rs2 : RegG) (mode : Mode) (s : State)
    (c : Config := Config.machine) : Host.Outcome State Fault Refusal :=
  finish c s do
    let k ← s.needReady
    let q ← s.readT rs1
    let g ← s.readG rs2
    let tw ← s.readTwist
    let a ← s.readA
    let naf ← s.readNaf
    let seedfix ← s.readSeedfix
    let post ← s.readPost
    checkMillerPoint rs1 q
    if isInf q || g.inf then pure (s.writeMiller rd false one22)
    else do
      let fl ← s.readField c
      let v ← millerLoop ⟨fl, k, tw, a, mode, false, c.mlIndexPast s.free⟩ naf seedfix post q g
      pure (s.writeMiller rd false v)

/-- `MILLER2` (R270). -/
def execMiller2 (rd : RegF) (rs1 : RegT) (rs2 : RegG) (mode : Mode) (s : State)
    (c : Config := Config.machine) : Host.Outcome State Fault Refusal :=
  finish c s do
    let k ← s.needReady
    let q ← s.readT rs1
    let g ← s.readG rs2
    let tw ← s.readTwist
    let a ← s.readA
    let tor2 ← s.readTor2
    let isoT ← s.readIsoT
    let naf2 ← s.readNaf2
    checkMillerPoint rs1 q
    if isInf q || g.inf then pure (s.writeMiller rd true one22)
    else do
      let fl ← s.readField c
      let v ← millerLoop2 c ⟨fl, k, tw, a, mode, true, c.mlIndexPast s.free⟩ naf2 tor2 isoT rs2 q g
      pure (s.writeMiller rd true v)

end Sys2Proof.Machine
end

