-- ==== Sys2Proof/Machine/TwistCurve.lean ====
section
/-! DEFINITION. The twisted-curve commands (`42_twist_curve.md` R198 to R217) and the isogeny commands
(`43_isogeny.md` R242, R243). The checks stand in the order of R198: registers, parameter slots, tag
invariant, the mode's tag rule, execution. -/

namespace Sys2Proof.Machine

open Sys2Proof

/-- The operands of a group-law command with one source (R198). -/
def State.doubleOperand (s : State) (rs1 : RegT) (mode : Mode) : Except Raise (TwistPoint × Deg11) := do
  let p ← s.readT rs1
  let a ← s.readA
  checkTag rs1 p
  checkMode mode rs1 p
  pure (p, a)

/-- The operands of a group-law command with two sources (R198). -/
def State.addOperands (s : State) (rs1 rs2 : RegT) (mode : Mode) :
    Except Raise (TwistPoint × TwistPoint × Deg11) := do
  let p ← s.readT rs1
  let q ← s.readT rs2
  let a ← s.readA
  checkTag rs1 p
  checkTag rs2 q
  checkMode mode rs1 p
  checkMode mode rs2 q
  pure (p, q, a)

/-- The doubling a command asks for: the point and its line record (R208, R210). -/
def State.doubling (c : Config) (s : State) (rs1 : RegT) (mode : Mode) :
    Except Raise (TwistPoint × Option LineRecord) := do
  let op ← s.doubleOperand rs1 mode
  let fl ← s.readField c
  doublePoint fl op.2 mode op.1

/-- The addition a command asks for (R209, R212). -/
def State.addition (c : Config) (s : State) (rs1 rs2 : RegT) (mode : Mode) :
    Except Raise (TwistPoint × Option LineRecord) := do
  let op ← s.addOperands rs1 rs2 mode
  let fl ← s.readField c
  addPoints fl op.2.2 mode op.1 op.2.1

/-- `T.INF` (R200). -/
def execTInf (rd : RegT) (s : State) (c : Config := Config.machine) :
    Host.Outcome State Fault Refusal :=
  finish c s do
    let _k ← s.needReady
    pure (s.writeT rd infAffine)

/-- `T.CPY` (R201). -/
def execTCpy (rd rs1 : RegT) (s : State) (c : Config := Config.machine) :
    Host.Outcome State Fault Refusal :=
  finish c s do
    let _k ← s.needReady
    let p ← s.readPoint rs1
    pure (s.writeT rd p)

/-- `T.MK` (R202). -/
def execTMk (rd : RegT) (rs1 rs2 : RegE) (s : State) (c : Config := Config.machine) :
    Host.Outcome State Fault Refusal :=
  finish c s do
    let _k ← s.needReady
    let x ← s.readE rs1
    let y ← s.readE rs2
    pure (s.writeT rd ⟨x, y, one11, .affine⟩)

/-- `T.MKP` (R203). -/
def execTMkp (rd : RegT) (rs1 rs2 rs3 : RegE) (s : State) (c : Config := Config.machine) :
    Host.Outcome State Fault Refusal :=
  finish c s do
    let _k ← s.needReady
    let x ← s.readE rs1
    let y ← s.readE rs2
    let z ← s.readE rs3
    pure (s.writeT rd ⟨x, y, z, .projective⟩)

/-- `T.GETX` (R204): the raw coordinate. -/
def execTGetx (rd : RegE) (rs1 : RegT) (s : State) (c : Config := Config.machine) :
    Host.Outcome State Fault Refusal :=
  finish c s do
    let _k ← s.needReady
    let p ← s.readPoint rs1
    pure (s.writeE rd p.x)

/-- `T.GETY` (R205): the raw coordinate. -/
def execTGety (rd : RegE) (rs1 : RegT) (s : State) (c : Config := Config.machine) :
    Host.Outcome State Fault Refusal :=
  finish c s do
    let _k ← s.needReady
    let p ← s.readPoint rs1
    pure (s.writeE rd p.y)

/-- `T.GETZ` (R206): the raw coordinate. -/
def execTGetz (rd : RegE) (rs1 : RegT) (s : State) (c : Config := Config.machine) :
    Host.Outcome State Fault Refusal :=
  finish c s do
    let _k ← s.needReady
    let p ← s.readPoint rs1
    pure (s.writeE rd p.z)

/-- `T.NEG` (R207). -/
def execTNeg (rd rs1 : RegT) (s : State) (c : Config := Config.machine) :
    Host.Outcome State Fault Refusal :=
  finish c s do
    let _k ← s.needReady
    let p ← s.readPoint rs1
    pure (s.writeT rd (negPoint c.p p))

/-- `T.DBL` (R208): the line record is discarded. -/
def execTDbl (rd rs1 : RegT) (mode : Mode) (s : State) (c : Config := Config.machine) :
    Host.Outcome State Fault Refusal :=
  finish c s do
    let _k ← s.needReady
    let r ← s.doubling c rs1 mode
    pure (s.writeT rd r.1)

/-- `T.ADD` (R209): the line record is discarded. -/
def execTAdd (rd rs1 rs2 : RegT) (mode : Mode) (s : State) (c : Config := Config.machine) :
    Host.Outcome State Fault Refusal :=
  finish c s do
    let _k ← s.needReady
    let r ← s.addition c rs1 rs2 mode
    pure (s.writeT rd r.1)

/-- `T.SDBL` (R210): the record goes to the latch. -/
def execTSdbl (rd rs1 : RegT) (mode : Mode) (s : State) (c : Config := Config.machine) :
    Host.Outcome State Fault Refusal :=
  finish c s do
    let _k ← s.needReady
    let r ← s.doubling c rs1 mode
    pure ((s.writeT rd r.1).writeLC r.2)

/-- `T.SDBL1` (R211): as `T.SDBL`. -/
def execTSdbl1 (rd rs1 : RegT) (mode : Mode) (s : State) (c : Config := Config.machine) :
    Host.Outcome State Fault Refusal :=
  finish c s do
    let _k ← s.needReady
    let r ← s.doubling c rs1 mode
    pure ((s.writeT rd r.1).writeLC r.2)

/-- `T.SADD` (R212): the record goes to the latch. -/
def execTSadd (rd rs1 rs2 : RegT) (mode : Mode) (s : State) (c : Config := Config.machine) :
    Host.Outcome State Fault Refusal :=
  finish c s do
    let _k ← s.needReady
    let r ← s.addition c rs1 rs2 mode
    pure ((s.writeT rd r.1).writeLC r.2)

/-- `T.FRB` (R213). -/
def execTFrb (rd rs1 : RegT) (exp : Exponent) (s : State) (c : Config := Config.machine) :
    Host.Outcome State Fault Refusal :=
  finish c s do
    let k ← s.needReady
    let p ← s.readT rs1
    let tw ← s.readTwist
    checkTag rs1 p
    let fl ← s.readField c
    pure (s.writeT rd (frbPoint fl k tw p exp.val))

/-- `T.NORM` (R214). -/
def execTNorm (rd rs1 : RegT) (inverted : Bool) (s : State) (c : Config := Config.machine) :
    Host.Outcome State Fault Refusal :=
  finish c s do
    let _k ← s.needReady
    let p ← s.readPoint rs1
    let fl ← s.readField c
    pure (s.writeT rd (normPoint fl p inverted))

/-- `T.CMP` (R215). -/
def execTCmp (rs1 rs2 : RegT) (s : State) (c : Config := Config.machine) :
    Host.Outcome State Fault Refusal :=
  finish c s do
    let _k ← s.needReady
    let p ← s.readT rs1
    let q ← s.readT rs2
    checkTag rs1 p
    checkTag rs2 q
    let fl ← s.readField c
    pure (s.writeEq (equalPoint fl p q))

/-- `T.ONC` (R216). -/
def execTOnc (rs1 : RegT) (s : State) (c : Config := Config.machine) :
    Host.Outcome State Fault Refusal :=
  finish c s do
    let _k ← s.needReady
    let p ← s.readT rs1
    let a ← s.readA
    let b ← s.readB
    checkTag rs1 p
    let fl ← s.readField c
    pure (s.writeOnc (onCurve fl a b p))

/-- `T.GEN` (R217). -/
def execTGen (rd : RegT) (s : State) (c : Config := Config.machine) :
    Host.Outcome State Fault Refusal :=
  finish c s do
    let _k ← s.needReady
    let g ← s.readGen
    pure (s.writeT rd ⟨g.1, g.2, one11, .affine⟩)

/-- `T.ISO` (`43_isogeny.md` R242). -/
def execTIso (rd rs1 : RegT) (s : State) (c : Config := Config.machine) :
    Host.Outcome State Fault Refusal :=
  finish c s do
    let _k ← s.needReady
    let p ← s.readT rs1
    let tor2 ← s.readTor2
    let isoT ← s.readIsoT
    checkTag rs1 p
    let fl ← s.readField c
    pure (s.writeT rd (isoPoint fl tor2 isoT p))

/-- `T.ISOD` (`43_isogeny.md` R243). -/
def execTIsod (rd rs1 : RegT) (s : State) (c : Config := Config.machine) :
    Host.Outcome State Fault Refusal :=
  finish c s do
    let k ← s.needReady
    let p ← s.readT rs1
    let tor2 ← s.readTor2
    let isoD ← s.readIsoD
    checkTag rs1 p
    let fl ← s.readField c
    pure (s.writeT rd (isoDualPoint fl k.half tor2 isoD p))

end Sys2Proof.Machine
end

