-- ==== Sys2Proof/Machine/Dispatch.lean ====
section
/-! DEFINITION. The meaning of every command, one arm a constructor. -/

namespace Sys2Proof.Machine

open Sys2Proof

def exec (i : Instr) (s : State) : Host.Outcome State Fault Refusal :=
  match i with
  | .nop => Sys2Proof.Machine.execNop s
  | .halt => Sys2Proof.Machine.execHalt s
  | .finit => Sys2Proof.Machine.execFinit s
  | .ldp slot addr => Sys2Proof.Machine.execLdp slot addr s
  | .ldE r addr => Sys2Proof.Machine.execLdE r addr s
  | .stE r addr => Sys2Proof.Machine.execStE r addr s
  | .ldF r addr => Sys2Proof.Machine.execLdF r addr s
  | .stF r addr => Sys2Proof.Machine.execStF r addr s
  | .ldT r addr => Sys2Proof.Machine.execLdT r addr s
  | .stT r addr => Sys2Proof.Machine.execStT r addr s
  | .ldG r addr => Sys2Proof.Machine.execLdG r addr s
  | .stG r addr => Sys2Proof.Machine.execStG r addr s
  | .eZero rd => Sys2Proof.Machine.execEZero rd s
  | .eOne rd => Sys2Proof.Machine.execEOne rd s
  | .eCpy rd rs1 => Sys2Proof.Machine.execECpy rd rs1 s
  | .eAdd rd rs1 rs2 => Sys2Proof.Machine.execEAdd rd rs1 rs2 s
  | .eSub rd rs1 rs2 => Sys2Proof.Machine.execESub rd rs1 rs2 s
  | .eNeg rd rs1 => Sys2Proof.Machine.execENeg rd rs1 s
  | .eCmp rs1 rs2 => Sys2Proof.Machine.execECmp rs1 rs2 s
  | .eMul rd rs1 rs2 => Sys2Proof.Machine.execEMul rd rs1 rs2 s
  | .eSqr rd rs1 => Sys2Proof.Machine.execESqr rd rs1 s
  | .eMulu rd rs1 rs2 => Sys2Proof.Machine.execEMulu rd rs1 rs2 s
  | .eSqru rd rs1 => Sys2Proof.Machine.execESqru rd rs1 s
  | .eRed rd rs1 => Sys2Proof.Machine.execERed rd rs1 s
  | .eMnr rd rs1 => Sys2Proof.Machine.execEMnr rd rs1 s
  | .eFrb rd rs1 exp => Sys2Proof.Machine.execEFrb rd rs1 exp s
  | .eFrb2 rd rs1 exp => Sys2Proof.Machine.execEFrb2 rd rs1 exp s
  | .eInv rd rs1 => Sys2Proof.Machine.execEInv rd rs1 s
  | .fOne rd => Sys2Proof.Machine.execFOne rd s
  | .fCpy rd rs1 => Sys2Proof.Machine.execFCpy rd rs1 s
  | .fPack rd rs1 rs2 => Sys2Proof.Machine.execFPack rd rs1 rs2 s
  | .fGetr rd rs1 => Sys2Proof.Machine.execFGetr rd rs1 s
  | .fGeti rd rs1 => Sys2Proof.Machine.execFGeti rd rs1 s
  | .fCmp rs1 rs2 => Sys2Proof.Machine.execFCmp rs1 rs2 s
  | .fMul rd rs1 rs2 => Sys2Proof.Machine.execFMul rd rs1 rs2 s
  | .fSqr rd rs1 => Sys2Proof.Machine.execFSqr rd rs1 s
  | .fSqrc rd rs1 => Sys2Proof.Machine.execFSqrc rd rs1 s
  | .fInvc rd rs1 => Sys2Proof.Machine.execFInvc rd rs1 s
  | .fFrb rd rs1 exp => Sys2Proof.Machine.execFFrb rd rs1 exp s
  | .tInf rd => Sys2Proof.Machine.execTInf rd s
  | .tCpy rd rs1 => Sys2Proof.Machine.execTCpy rd rs1 s
  | .tMk rd rs1 rs2 => Sys2Proof.Machine.execTMk rd rs1 rs2 s
  | .tMkp rd rs1 rs2 rs3 => Sys2Proof.Machine.execTMkp rd rs1 rs2 rs3 s
  | .tGetx rd rs1 => Sys2Proof.Machine.execTGetx rd rs1 s
  | .tGety rd rs1 => Sys2Proof.Machine.execTGety rd rs1 s
  | .tGetz rd rs1 => Sys2Proof.Machine.execTGetz rd rs1 s
  | .tNeg rd rs1 => Sys2Proof.Machine.execTNeg rd rs1 s
  | .tDbl rd rs1 mode => Sys2Proof.Machine.execTDbl rd rs1 mode s
  | .tAdd rd rs1 rs2 mode => Sys2Proof.Machine.execTAdd rd rs1 rs2 mode s
  | .tSdbl rd rs1 mode => Sys2Proof.Machine.execTSdbl rd rs1 mode s
  | .tSdbl1 rd rs1 mode => Sys2Proof.Machine.execTSdbl1 rd rs1 mode s
  | .tSadd rd rs1 rs2 mode => Sys2Proof.Machine.execTSadd rd rs1 rs2 mode s
  | .tFrb rd rs1 exp => Sys2Proof.Machine.execTFrb rd rs1 exp s
  | .tNorm rd rs1 inverted => Sys2Proof.Machine.execTNorm rd rs1 inverted s
  | .tCmp rs1 rs2 => Sys2Proof.Machine.execTCmp rs1 rs2 s
  | .tOnc rs1 => Sys2Proof.Machine.execTOnc rs1 s
  | .tGen rd => Sys2Proof.Machine.execTGen rd s
  | .tIso rd rs1 => Sys2Proof.Machine.execTIso rd rs1 s
  | .tIsod rd rs1 => Sys2Proof.Machine.execTIsod rd rs1 s
  | .line rd rs1 => Sys2Proof.Machine.execLine rd rs1 s
  | .miller rd rs1 rs2 mode => Sys2Proof.Machine.execMiller rd rs1 rs2 mode s
  | .miller2 rd rs1 rs2 mode => Sys2Proof.Machine.execMiller2 rd rs1 rs2 mode s

end Sys2Proof.Machine
end

