-- ==== Sys2Proof/Machine/Step.lean ====
section
/-! DEFINITION. One step of the block (`60_exceptions.md` R351): while `RS = RUN` it fetches, decodes
and executes one command; in any other run state it fetches nothing and all state survives (R357). -/

namespace Sys2Proof.Machine

open Sys2Proof

/-- One step. A fetch or decode fault is a fault entry like any other (R341, R343). -/
def step (s : State) : Host.Outcome State Fault Refusal :=
  match s.run with
  | .run =>
    match s.fetch Config.machine with
    | .error r => .next (s.enterFault r)
    | .ok w =>
      match decode w with
      | .error _ => .next (s.enterFault (illegalCommand w))
      | .ok i => exec i s
  | _ => .next s

/-- `s` with one command word stored where the next step fetches, and running: what the host does by
`HostWriteCM` and `CTRL.START` (log entry 11). Every command is one 32-bit word (R90). -/
def State.withFetchWord (s : State) (nbits w : Nat) : State :=
  { s with
    pastTop := false
    cm := Memory.write s.cm s.pc.toNat (BitVec.ofNat 32 (w % 2 ^ nbits))
    run := .run }

end Sys2Proof.Machine
end

