-- ==== Sys2Proof/Machine/FinalExp.lean ====
section
/-! DEFINITION. The final exponentiation, which is no command but a list of commands the host issues
(`44_pairing_engine.md` R280 to R282; `92_eei_decisions.md` D36): the easy part as R281 writes it out,
the hard part from the parameter `HardChain`. -/

namespace Sys2Proof.Machine

open Sys2Proof

/-- Commands executed one after another, as the host's list has them, up to the first fault. -/
def runCommands : List Instr → State → Host.Outcome State Fault Refusal
  | [], s => .next s
  | i :: is, s =>
    match exec i s with
    | .next t => if t.run = .faulted then .next t else runCommands is t
    | .fault x => .fault x
    | .refused x => .refused x

/-- The easy part (R281): for `a` in `F[1]`, `a^((P + 1)(P^11 - 1))` in `F[5]`. -/
def easyPart : List Instr :=
  [.fFrb 2 1 1, .fMul 2 2 1, .fInvc 3 2, .fGetr 1 2, .fGeti 2 2, .eSqr 3 1, .eSqr 4 2, .eMnr 4 4,
    .eSub 3 3 4, .eInv 3 3, .fGetr 5 3, .fGeti 6 3, .eMul 5 5 3, .eMul 6 6 3, .fPack 4 5 6, .fMul 5 3 4]

/-- The exponent of `F.FRB` an offset stands for (R282). -/
def offsetExponent : HardOffset → Exponent
  | .one => 1
  | .nine => 9
  | .twentyOne => 21

/-- The command of a step of the hard part (R282). -/
def hardCommand : HardStep → Instr
  | .sqrc rd rs1 => .fSqrc rd rs1
  | .mul rd rs1 rs2 => .fMul rd rs1 rs2
  | .invc rd rs1 => .fInvc rd rs1
  | .frb rd rs1 offset => .fFrb rd rs1 (offsetExponent offset)

/-- The hard part (R282). -/
def hardPart (c : Config) : List Instr := c.hardChain.steps.map hardCommand

/-- The whole final exponentiation (R280): the easy part, then the hard part. -/
def finalExponentiation (c : Config) : List Instr := easyPart ++ hardPart c

end Sys2Proof.Machine
end

