-- ==== Sys2Proof/Machine/HostPort.lean ====
section
/-! DEFINITION. The host's transactions (`20_memory.md` R64, R80; `10_state.md` R35 to R43) and the
`irq` output (`60_exceptions.md` R346). A host move lands between two commands (log entry 10). -/

namespace Sys2Proof.Machine

open Sys2Proof

/-! ### Transactions on the memories: refused while `RS = RUN` (`20_memory.md` R72) -/

/-- `HostWriteDM` (R80): the value is any `W`-bit word; an address past the memory is ignored. -/
def hostWriteDM (s : State) (a : Nat) (v : Nat) (c : Config := Config.machine) :
    Host.Outcome State Fault Refusal :=
  if s.run = .run then .refused .hostAccessWhileRunning
  else .next (if a < c.dmWords then { s with dm := Memory.write s.dm a (v % 2 ^ c.w) } else s)

/-- `HostReadDM` (R80): an unwritten or absent word reads 0. -/
def hostReadDM (s : State) (a : Nat) : Except Refusal Nat :=
  if s.run = .run then .error .hostAccessWhileRunning
  else .ok ((Memory.read s.dm a).getD 0)

/-- `HostWriteCM` (R80). -/
def hostWriteCM (s : State) (i : Nat) (w : BitVec 32) (c : Config := Config.machine) :
    Host.Outcome State Fault Refusal :=
  if s.run = .run then .refused .hostAccessWhileRunning
  else .next (if i < c.cmWords then { s with cm := Memory.write s.cm i w } else s)

/-- `HostReadCM` (R80). -/
def hostReadCM (s : State) (i : Nat) : Except Refusal (BitVec 32) :=
  if s.run = .run then .error .hostAccessWhileRunning
  else .ok ((Memory.read s.cm i).getD 0)

/-! ### Control registers -/

/-- A bit at a place of a 32-bit register. -/
def bitAt (b : Bool) (i : Nat) : BitVec 32 := (BitVec.ofBool b).setWidth 32 <<< i

/-- `CTRL` as read (R36): `START` and `SRST` read 0. -/
def State.ctrlWord (s : State) : BitVec 32 := bitAt s.ie 2

/-- `LS = READY`. -/
def State.isReady (s : State) : Bool :=
  match s.lifecycle with
  | .config => false
  | .ready _ => true

/-- `STATUS` (R37). -/
def State.statusWord (s : State) : BitVec 32 :=
  bitAt (decide (s.run = .run)) 0 ||| bitAt (decide (s.run = .halted)) 1 |||
    bitAt (decide (s.run = .faulted)) 2 ||| bitAt s.isReady 3 ||| bitAt s.lc.isSome 4

/-- `FLAGS` (R41). -/
def State.flagsWord (s : State) : BitVec 32 := bitAt s.eq 0 ||| bitAt s.onc 1

/-- `MLSTAT` (R42). -/
def State.mlstatWord (s : State) : BitVec 32 :=
  s.ml.i.setWidth 32 ||| (BitVec.ofNat 32 s.ml.phase.code <<< 16) |||
    bitAt s.ml.active 20 ||| bitAt s.ml.variant 21

/-- `VERSION` (R40). -/
def versionWord : BitVec 32 := 0x00000001#32

/-- `HostReadCSR` (R35 to R43): allowed in every run state; no register past 8 exists. -/
def hostReadCSR (s : State) : Nat → BitVec 32
  | 0 => s.ctrlWord
  | 1 => s.statusWord
  | 2 => s.pc.setWidth 32
  | 3 => s.ecause.setWidth 32
  | 4 => s.epc.setWidth 32
  | 5 => s.einfo
  | 6 => s.flagsWord
  | 7 => s.mlstatWord
  | 8 => versionWord
  | _ => 0

/-- The block neither runs nor has faulted: `START` and `PC` writes act (R36, R38). -/
def State.startable (s : State) : Bool := decide (s.run = .idle) || decide (s.run = .halted)

/-- A write of `CTRL` (R36): `SRST` alone acts when it is set; else `IE` is written and `START` acts. -/
def State.writeCtrl (s : State) (v : BitVec 32) : State :=
  if v.getLsbD 1 then s.softReset
  else { s with
    ie := v.getLsbD 2
    run := if v.getLsbD 0 && s.startable then .run else s.run }

/-- `HostWriteCSR` (R35 to R43): only `CTRL` and `PC` can be written; nothing faults. -/
def hostWriteCSR (s : State) (n : Nat) (v : BitVec 32) : State :=
  match n with
  | 0 => s.writeCtrl v
  | 2 => if s.startable then { s with pc := v.setWidth 16, pastTop := false } else s
  | _ => s

/-- The level output `irq` (`60_exceptions.md` R346). -/
def State.irq (s : State) : Bool :=
  s.ie && (decide (s.run = .halted) || decide (s.run = .faulted))

end Sys2Proof.Machine
end

