-- ==== Sys2Proof/Safety.lean ====
section
/-! DEFINITION. What the statements speak of: values in range, the invariants of a run, the admission
class of a command, the opcode map as a table of field limits, and the Miller loops phase by phase. A
run is safe while `Sound` holds. -/

namespace Sys2Proof.Machine

open Sys2Proof

/-! ### Values in range (`00_scope.md` R12, R13) -/

/-- Every coefficient is in `[0, P)`. -/
def Below11 (p : Nat) (x : Deg11) : Prop := ∀ (i : Nat) (h : i < 11), x[i] < p

/-- Both halves are in range. -/
def Below22 (p : Nat) (a : Deg22) : Prop := Below11 p a.re ∧ Below11 p a.im

/-- All three coordinates are in range. -/
def BelowPoint (p : Nat) (q : TwistPoint) : Prop := Below11 p q.x ∧ Below11 p q.y ∧ Below11 p q.z

/-- Both coordinates are in range. -/
def BelowBase (p : Nat) (g : BasePoint) : Prop := g.x < p ∧ g.y < p

/-- Every entry of a Frobenius table is in range. -/
def BelowTable (p : Nat) (t : Vector (Vector Base 11) 11) : Prop :=
  ∀ (j : Nat) (h : j < 11), Below11 p t[j]

/-- Every value the machine holds is a value of its type (`00_scope.md` R12, `20_memory.md` R61). -/
structure State.InRange (c : Config) (s : State) : Prop where
  e : ∀ (r : RegE) (v : Deg11), s.e[r.val] = some v → Below11 c.p v
  u : ∀ (r : RegU) (v : Unred11), s.u[r.val] = some v → Below11 c.p v
  f : ∀ (r : RegF) (v : Deg22), s.f[r.val] = some v → Below22 c.p v
  t : ∀ (r : RegT) (v : TwistPoint), s.t[r.val] = some v → BelowPoint c.p v
  g : ∀ (r : RegG) (v : BasePoint), s.g[r.val] = some v → BelowBase c.p v
  lc : ∀ r : LineRecord, s.lc = some r →
    Below11 c.p r.slope ∧ Below11 c.p r.zaux ∧ BelowPoint c.p r.base
  c11 : ∀ v : Base, s.prm.c11 = some v → 0 < v ∧ v < c.p
  a : ∀ v : Deg11, s.prm.a = some v → Below11 c.p v
  b : ∀ v : Deg11, s.prm.b = some v → Below11 c.p v
  gen : ∀ v : Deg11 × Deg11, s.prm.gen = some v → Below11 c.p v.1 ∧ Below11 c.p v.2
  tor2 : ∀ v : Deg11, s.prm.tor2 = some v → Below11 c.p v
  isoT : ∀ v : Deg11, s.prm.isoT = some v → Below11 c.p v
  isoD : ∀ v : Deg11, s.prm.isoD = some v → Below11 c.p v
  consts : ∀ k : Constants, s.lifecycle = .ready k →
    k.half < c.p ∧ k.c11inv < c.p ∧ k.gam < c.p ∧ k.del < c.p ∧
      BelowTable c.p k.frb ∧ BelowTable c.p k.frb2
  dm : ∀ a v : Nat, Memory.read s.dm a = some v → v < 2 ^ c.w

/-- `t_k` of the product of two `Deg11` values (`40_deg11_tower.md` R122, R137): the sum over
`i + j = k` of `x_i * y_j`, in the integers; a coefficient past 10 is 0. -/
def productSum (x y : Deg11) (k : Nat) : Nat :=
  ∑ i ∈ Finset.range (k + 1), coeff x i * coeff y (k - i)

/-! ### The other invariants -/

/-- Every valid T register keeps the tag invariant (`10_state.md` R25, `42_twist_curve.md` R192). -/
def State.TagsSound (s : State) : Prop :=
  ∀ (r : RegT) (v : TwistPoint), s.t[r.val] = some v → tagOk v = true

/-- A digit string as slots 8 and 9 hold it (`10_state.md` R33). -/
def DigitsSound (c : Config) (ds : List Digit) : Prop :=
  2 ≤ ds.length ∧ ds.length ≤ c.nafMax ∧ ds.getLast? = some .plus

/-- The digit strings loaded are sound (`10_state.md` R33 slots 8 and 9). -/
def State.DigitStringsSound (c : Config) (s : State) : Prop :=
  (∀ ds : List Digit, s.prm.naf = some ds → DigitsSound c ds) ∧
    (∀ ds : List Digit, s.prm.naf2 = some ds → DigitsSound c ds)

/-- In `READY` slot `C11` is loaded, `FINIT`'s check holds of it, and the constants are those `FINIT`
computes from it (`10_state.md` R34, `40_deg11_tower.md` R146). -/
def State.LifecycleSound (c : Config) (s : State) : Prop :=
  ∀ k : Constants, s.lifecycle = .ready k →
    ∃ v : Base, s.prm.c11 = some v ∧ c11Accepted c.p v = true ∧ k = constantsOf c.p v

/-- Both memories are in canonical form and list only addresses that exist
(`20_memory.md` R60 to R62). -/
def State.MemorySound (c : Config) (s : State) : Prop :=
  Memory.wf s.dm = true ∧ Memory.wf s.cm = true ∧
    (∀ a v : Nat, Memory.read s.dm a = some v → a < c.dmWords) ∧
    (∀ (a : Nat) (w : BitVec 32), Memory.read s.cm a = some w → a < c.cmWords)

/-- Between commands `ML` is at rest (`10_state.md` R30); the cause registers and `ML.phase`, `ML.i`
are clear until a fault, and a faulted block holds one of the ten causes with `EPC = pc`
(`10_state.md` R39, `60_exceptions.md` R330, R341, R347). A counter past 0xFFFF is that of a block that
still runs or has faulted on the next fetch (`45_data_movement_system.md` R302; log entry 5). -/
def State.RunSound (s : State) : Prop :=
  s.ml.active = false ∧ s.ml.data = none ∧
    (s.run ≠ .faulted → s.ml.phase = .idle ∧ s.ml.i = 0#16 ∧
      s.ecause = 0#4 ∧ s.epc = 0#16 ∧ s.einfo = 0#32) ∧
    (s.run = .faulted → 1 ≤ s.ecause.toNat ∧ s.ecause.toNat ≤ 10 ∧ s.epc = s.pc) ∧
    (s.pastTop = true → s.run = .run ∨ s.run = .faulted)

/-- All the invariants together. -/
structure State.Sound (c : Config) (s : State) : Prop where
  inRange : s.InRange c
  tags : s.TagsSound
  digits : s.DigitStringsSound c
  lifecycle : s.LifecycleSound c
  memory : s.MemorySound c
  run : s.RunSound

/-! ### Admission (`60_exceptions.md` R352) -/

/-- The three rows of the admission table. -/
inductive Admission where
  | always
  | inConfig
  | inReady
deriving DecidableEq, Repr

/-- The row of the admission table a command is on. -/
def admission : Instr → Admission
  | .nop | .halt | .ldE _ _ | .stE _ _ | .ldF _ _ | .stF _ _ | .ldT _ _ | .stT _ _ => .always
  | .ldG _ _ | .stG _ _ => .always
  | .finit | .ldp _ _ => .inConfig
  | .eZero _ | .eOne _ | .eCpy _ _ | .eAdd _ _ _ | .eSub _ _ _ | .eNeg _ _ | .eCmp _ _ => .inReady
  | .eMul _ _ _ | .eSqr _ _ | .eMulu _ _ _ | .eSqru _ _ | .eRed _ _ | .eMnr _ _ => .inReady
  | .eFrb _ _ _ | .eFrb2 _ _ _ | .eInv _ _ | .fOne _ | .fCpy _ _ | .fPack _ _ _ | .fGetr _ _ => .inReady
  | .fGeti _ _ | .fCmp _ _ | .fMul _ _ _ | .fSqr _ _ | .fSqrc _ _ | .fInvc _ _ | .fFrb _ _ _ => .inReady
  | .tInf _ | .tCpy _ _ | .tMk _ _ _ | .tMkp _ _ _ _ | .tGetx _ _ | .tGety _ _ | .tGetz _ _ => .inReady
  | .tNeg _ _ | .tDbl _ _ _ | .tAdd _ _ _ _ | .tSdbl _ _ _ | .tSdbl1 _ _ _ | .tSadd _ _ _ _ => .inReady
  | .tFrb _ _ _ | .tNorm _ _ _ | .tCmp _ _ | .tOnc _ | .tGen _ | .tIso _ _ | .tIsod _ _ => .inReady
  | .line _ _ | .miller _ _ _ _ | .miller2 _ _ _ _ => .inReady

/-! ### The opcode map (`30_encoding.md` R95 to R98) as field limits -/

/-- The opcode of a command's row (`30_encoding.md` R98). -/
def opcode : Instr → Nat
  | .nop => 0x01
  | .halt => 0x02
  | .finit => 0x03
  | .ldp _ _ => 0x04
  | .ldE _ _ => 0x08
  | .stE _ _ => 0x09
  | .ldF _ _ => 0x0A
  | .stF _ _ => 0x0B
  | .ldT _ _ => 0x0C
  | .stT _ _ => 0x0D
  | .ldG _ _ => 0x0E
  | .stG _ _ => 0x0F
  | .eZero _ => 0x20
  | .eOne _ => 0x21
  | .eCpy _ _ => 0x22
  | .eAdd _ _ _ => 0x23
  | .eSub _ _ _ => 0x24
  | .eNeg _ _ => 0x25
  | .eCmp _ _ => 0x26
  | .eMul _ _ _ => 0x27
  | .eSqr _ _ => 0x28
  | .eMulu _ _ _ => 0x29
  | .eSqru _ _ => 0x2A
  | .eRed _ _ => 0x2B
  | .eMnr _ _ => 0x2C
  | .eFrb _ _ _ => 0x2D
  | .eFrb2 _ _ _ => 0x2E
  | .eInv _ _ => 0x2F
  | .fOne _ => 0x40
  | .fCpy _ _ => 0x41
  | .fPack _ _ _ => 0x42
  | .fGetr _ _ => 0x43
  | .fGeti _ _ => 0x44
  | .fCmp _ _ => 0x45
  | .fMul _ _ _ => 0x46
  | .fSqr _ _ => 0x47
  | .fSqrc _ _ => 0x48
  | .fInvc _ _ => 0x49
  | .fFrb _ _ _ => 0x4A
  | .tInf _ => 0x60
  | .tCpy _ _ => 0x61
  | .tMk _ _ _ => 0x62
  | .tMkp _ _ _ _ => 0x63
  | .tGetx _ _ => 0x64
  | .tGety _ _ => 0x65
  | .tGetz _ _ => 0x66
  | .tNeg _ _ => 0x67
  | .tDbl _ _ _ => 0x68
  | .tAdd _ _ _ _ => 0x69
  | .tSdbl _ _ _ => 0x6A
  | .tSdbl1 _ _ _ => 0x6B
  | .tSadd _ _ _ _ => 0x6C
  | .tFrb _ _ _ => 0x6D
  | .tNorm _ _ _ => 0x6E
  | .tCmp _ _ => 0x6F
  | .tOnc _ => 0x70
  | .tGen _ => 0x71
  | .tIso _ _ => 0x72
  | .tIsod _ _ => 0x73
  | .line _ _ => 0x80
  | .miller _ _ _ _ => 0x81
  | .miller2 _ _ _ _ => 0x82

/-- One row: the opcode, and how many values each 6-bit field may take (1 for an unused field). A
Z row uses no field, an M row's low 18 bits are free. -/
structure OpcodeRow where
  op : Nat
  rd : Nat
  rs1 : Nat
  rs2 : Nat
  aux : Nat
deriving DecidableEq, Repr

/-- A word is on a row: its opcode is the row's and every field is below its limit. -/
def OpcodeRow.admits (r : OpcodeRow) (w : BitVec 32) : Bool :=
  decide (fieldOp w = r.op) && decide (fieldRd w < r.rd) && decide (fieldRs1 w < r.rs1) &&
    decide (fieldRs2 w < r.rs2) && decide (fieldAux w < r.aux)

/-- System and data-movement rows. -/
def systemRows : List OpcodeRow :=
  [⟨0x01, 1, 1, 1, 1⟩, ⟨0x02, 1, 1, 1, 1⟩, ⟨0x03, 1, 1, 1, 1⟩, ⟨0x04, 12, 64, 64, 64⟩,
    ⟨0x08, 32, 64, 64, 64⟩, ⟨0x09, 32, 64, 64, 64⟩, ⟨0x0A, 16, 64, 64, 64⟩, ⟨0x0B, 16, 64, 64, 64⟩,
    ⟨0x0C, 8, 64, 64, 64⟩, ⟨0x0D, 8, 64, 64, 64⟩, ⟨0x0E, 4, 64, 64, 64⟩, ⟨0x0F, 4, 64, 64, 64⟩]

/-- Degree-11 and degree-22 rows. -/
def towerRows : List OpcodeRow :=
  [⟨0x20, 32, 1, 1, 1⟩, ⟨0x21, 32, 1, 1, 1⟩, ⟨0x22, 32, 32, 1, 1⟩, ⟨0x23, 32, 32, 32, 1⟩,
    ⟨0x24, 32, 32, 32, 1⟩, ⟨0x25, 32, 32, 1, 1⟩, ⟨0x26, 1, 32, 32, 1⟩, ⟨0x27, 32, 32, 32, 1⟩,
    ⟨0x28, 32, 32, 1, 1⟩, ⟨0x29, 4, 32, 32, 1⟩, ⟨0x2A, 4, 32, 1, 1⟩, ⟨0x2B, 32, 4, 1, 1⟩,
    ⟨0x2C, 32, 32, 1, 1⟩, ⟨0x2D, 32, 32, 1, 64⟩, ⟨0x2E, 32, 32, 1, 64⟩, ⟨0x2F, 32, 32, 1, 1⟩,
    ⟨0x40, 16, 1, 1, 1⟩, ⟨0x41, 16, 16, 1, 1⟩, ⟨0x42, 16, 32, 32, 1⟩, ⟨0x43, 32, 16, 1, 1⟩,
    ⟨0x44, 32, 16, 1, 1⟩, ⟨0x45, 1, 16, 16, 1⟩, ⟨0x46, 16, 16, 16, 1⟩, ⟨0x47, 16, 16, 1, 1⟩,
    ⟨0x48, 16, 16, 1, 1⟩, ⟨0x49, 16, 16, 1, 1⟩, ⟨0x4A, 16, 16, 1, 64⟩]

/-- Twisted-curve, isogeny and pairing rows. -/
def curveRows : List OpcodeRow :=
  [⟨0x60, 8, 1, 1, 1⟩, ⟨0x61, 8, 8, 1, 1⟩, ⟨0x62, 8, 32, 32, 1⟩, ⟨0x63, 8, 32, 32, 32⟩,
    ⟨0x64, 32, 8, 1, 1⟩, ⟨0x65, 32, 8, 1, 1⟩, ⟨0x66, 32, 8, 1, 1⟩, ⟨0x67, 8, 8, 1, 1⟩,
    ⟨0x68, 8, 8, 1, 2⟩, ⟨0x69, 8, 8, 8, 2⟩, ⟨0x6A, 8, 8, 1, 2⟩, ⟨0x6B, 8, 8, 1, 2⟩,
    ⟨0x6C, 8, 8, 8, 2⟩, ⟨0x6D, 8, 8, 1, 64⟩, ⟨0x6E, 8, 8, 1, 2⟩, ⟨0x6F, 1, 8, 8, 1⟩,
    ⟨0x70, 1, 8, 1, 1⟩, ⟨0x71, 8, 1, 1, 1⟩, ⟨0x72, 8, 8, 1, 1⟩, ⟨0x73, 8, 8, 1, 1⟩,
    ⟨0x80, 16, 4, 1, 1⟩, ⟨0x81, 16, 8, 4, 2⟩, ⟨0x82, 16, 8, 4, 2⟩]

/-- The 62 rows of R98. -/
def opcodeRows : List OpcodeRow := systemRows ++ (towerRows ++ curveRows)

/-! ### The product and the tower as the spec writes them -/

/-- The product of two `Deg11` values with `u^11 = c` (`40_deg11_tower.md` R137). -/
def product11 (p c : Nat) (x y : Deg11) : Deg11 :=
  Vector.ofFn fun k : Fin 11 =>
    if k.val = 10 then productSum x y 10 % p
    else (productSum x y k.val + c * productSum x y (k.val + 11)) % p

/-- `MNR` (`40_deg11_tower.md` R142): `(C11 *p x_10, x_0, ..., x_9)`. -/
def timesU (p c : Nat) (x : Deg11) : Deg11 :=
  Vector.ofFn fun k : Fin 11 => if k.val = 0 then c * coeff x 10 % p else coeff x (k.val - 1)

/-- Coefficient-wise sum modulo `P` (R133). -/
def plus11 (p : Nat) (x y : Deg11) : Deg11 := Vector.ofFn fun k : Fin 11 => (x[k] + y[k]) % p

/-- Coefficient-wise difference modulo `P`, the representative in `[0, P)` (R134). -/
def minus11 (p : Nat) (x y : Deg11) : Deg11 :=
  Vector.ofFn fun k : Fin 11 => (((x[k] : Int) - (y[k] : Int)) % (p : Int)).toNat

/-- The product in the degree-22 field (`41_deg22_tower.md` R171):
`(a.re b.re + u a.im b.im) + (a.re b.im + a.im b.re) w`. -/
def product22 (p c : Nat) (a b : Deg22) : Deg22 where
  re := plus11 p (product11 p c a.re b.re) (timesU p c (product11 p c a.im b.im))
  im := plus11 p (product11 p c a.re b.im) (product11 p c a.im b.re)

/-- `Cyc` (`41_deg22_tower.md` R161): the norm is one. -/
def NormOne (p c : Nat) (a : Deg22) : Prop :=
  minus11 p (product11 p c a.re a.re) (timesU p c (product11 p c a.im a.im)) = one11

/-- What R282 of `44_pairing_engine.md` lets a model assume of `HardChain`, and no more: on a value of
the cyclotomic subgroup in `F[5]` it computes the power `λ`. The machine does not assume it. -/
def HardChainComputes (c : Config) : Prop :=
  ∀ (s : State) (k : Constants) (c11 : Base) (x : Deg22), s.run = .run → s.lifecycle = .ready k →
    s.prm.c11 = some c11 → s.LifecycleSound c → s.f[5] = some x → Below22 c.p x →
    NormOne c.p c11 x → ∃ t : State, runCommands (hardPart c) s = .next t ∧ t.run = .run ∧
      t.f[c.hardChain.result.val] = some (power (product22 c.p c11) one22 x c.lambda)

/-! ### Fault entry, and the checks before execution -/

/-- Fault entry of a command that is not inside a Miller loop (`60_exceptions.md` R341), with the
cause by its code (R330). -/
def State.faultEntry (s : State) (code : Nat) (einfo : BitVec 32) : State :=
  { s with
    ecause := BitVec.ofNat 4 code
    epc := s.pc
    einfo := einfo
    run := .faulted
    ml := { s.ml with active := false } }

/-- Whether a slot of `PRM` has been loaded. -/
def slotLoaded (p : ParamStore) : Nat → Bool
  | 0 => p.c11.isSome
  | 1 => p.twist.isSome
  | 2 => p.a.isSome
  | 3 => p.b.isSome
  | 4 => p.gen.isSome
  | 5 => p.tor2.isSome
  | 6 => p.isoT.isSome
  | 7 => p.isoD.isSome
  | 8 => p.naf.isSome
  | 9 => p.naf2.isSome
  | 10 => p.seedfix.isSome
  | 11 => p.post.isSome
  | _ => false

/-- A register operand: its location code and its valid bit. -/
def State.opE (s : State) (r : RegE) : BitVec 32 × Bool := (locReg .e r, s.e[r.val].isSome)
/-- A U operand. -/
def State.opU (s : State) (r : RegU) : BitVec 32 × Bool := (locReg .u r, s.u[r.val].isSome)
/-- An F operand. -/
def State.opF (s : State) (r : RegF) : BitVec 32 × Bool := (locReg .f r, s.f[r.val].isSome)
/-- A T operand. -/
def State.opT (s : State) (r : RegT) : BitVec 32 × Bool := (locReg .t r, s.t[r.val].isSome)
/-- A G operand. -/
def State.opG (s : State) (r : RegG) : BitVec 32 × Bool := (locReg .g r, s.g[r.val].isSome)
/-- A parameter operand. -/
def State.opSlot (s : State) (n : Nat) : BitVec 32 × Bool := (locPRM n, slotLoaded s.prm n)

/-- What a command reads before it executes, in the order of `60_exceptions.md` R343 steps 4 and 5:
its source registers, then the slots its rule lists. -/
def State.operands (s : State) : Instr → List (BitVec 32 × Bool)
  | .nop | .halt | .ldp _ _ | .ldE _ _ | .ldF _ _ | .ldT _ _ | .ldG _ _ => []
  | .eZero _ | .eOne _ | .fOne _ | .tInf _ => []
  | .finit => [s.opSlot 0]
  | .stE r _ => [s.opE r]
  | .stF r _ => [s.opF r]
  | .stT r _ => [s.opT r]
  | .stG r _ => [s.opG r]
  | .eCpy _ a | .eNeg _ a | .eSqr _ a | .eSqru _ a | .eMnr _ a | .eInv _ a => [s.opE a]
  | .eFrb _ a _ | .eFrb2 _ a _ => [s.opE a]
  | .eAdd _ a b | .eSub _ a b | .eMul _ a b | .eCmp a b => [s.opE a, s.opE b]
  | .eMulu _ a b => [s.opE a, s.opE b]
  | .eRed _ a => [s.opU a]
  | .fPack _ a b | .tMk _ a b => [s.opE a, s.opE b]
  | .tMkp _ a b d => [s.opE a, s.opE b, s.opE d]
  | .fCpy _ a | .fSqr _ a | .fSqrc _ a | .fInvc _ a | .fFrb _ a _ => [s.opF a]
  | .fGetr _ a | .fGeti _ a => [s.opF a]
  | .fMul _ a b | .fCmp a b => [s.opF a, s.opF b]
  | .tCpy _ a | .tNeg _ a | .tNorm _ a _ => [s.opT a]
  | .tGetx _ a | .tGety _ a | .tGetz _ a => [s.opT a]
  | .tDbl _ a _ | .tSdbl _ a _ | .tSdbl1 _ a _ => [s.opT a, s.opSlot 2]
  | .tAdd _ a b _ | .tSadd _ a b _ => [s.opT a, s.opT b, s.opSlot 2]
  | .tFrb _ a _ => [s.opT a, s.opSlot 1]
  | .tCmp a b => [s.opT a, s.opT b]
  | .tOnc a => [s.opT a, s.opSlot 2, s.opSlot 3]
  | .tGen _ => [s.opSlot 4]
  | .tIso _ a => [s.opT a, s.opSlot 5, s.opSlot 6]
  | .tIsod _ a => [s.opT a, s.opSlot 5, s.opSlot 7]
  | .line _ g => [s.opG g, s.opSlot 1]
  | .miller _ a g _ =>
    [s.opT a, s.opG g, s.opSlot 1, s.opSlot 2, s.opSlot 8, s.opSlot 10, s.opSlot 11]
  | .miller2 _ a g _ =>
    [s.opT a, s.opG g, s.opSlot 1, s.opSlot 2, s.opSlot 5, s.opSlot 6, s.opSlot 9]

/-- The tag invariant on a T operand (`42_twist_curve.md` R192). -/
def State.tagFault (s : State) (r : RegT) : Option (Nat × BitVec 32) :=
  match s.t[r.val] with
  | some q =>
    if q.tag = .affine ∧ q.z ≠ zero11 ∧ q.z ≠ one11 then some (3, locReg .t r) else none
  | none => none

/-- The rule that admits affine-tagged points only (R193, `60_exceptions.md` R338). -/
def State.affineFault (s : State) (r : RegT) : Option (Nat × BitVec 32) :=
  match s.t[r.val] with
  | some q => if q.tag = .projective then some (8, locReg .t r) else none
  | none => none

/-- The mode's tag rule on a T operand (R193). -/
def State.modeFault (s : State) (m : Mode) (r : RegT) : Option (Nat × BitVec 32) :=
  match m with
  | .basic => s.affineFault r
  | .projc => none

/-- The checks on twist points, in the order of `60_exceptions.md` R343 step 6; that of `ST.T` is R192's
(log entry 25). -/
def State.pointChecks (s : State) : Instr → List (Option (Nat × BitVec 32))
  | .tCpy _ a | .tNeg _ a | .tNorm _ a _ | .tFrb _ a _ | .tOnc a => [s.tagFault a]
  | .tGetx _ a | .tGety _ a | .tGetz _ a | .tIso _ a | .tIsod _ a | .stT a _ => [s.tagFault a]
  | .tDbl _ a m | .tSdbl _ a m | .tSdbl1 _ a m => [s.tagFault a, s.modeFault m a]
  | .tAdd _ a b m | .tSadd _ a b m =>
    [s.tagFault a, s.tagFault b, s.modeFault m a, s.modeFault m b]
  | .tCmp a b => [s.tagFault a, s.tagFault b]
  | .miller _ a _ _ | .miller2 _ a _ _ => [s.tagFault a, s.affineFault a]
  | _ => []

/-- The lifecycle check (`60_exceptions.md` R337, R352). -/
def State.lifecycleFault (s : State) (i : Instr) : Option (Nat × BitVec 32) :=
  match admission i, s.lifecycle with
  | .inReady, .config => some (7, 0#32)
  | .inConfig, .ready _ => some (7, 1#32)
  | _, _ => none

/-- The first fault of steps 3 to 6 of `60_exceptions.md` R343: its code and `EINFO`. -/
def State.earlyFault (s : State) (i : Instr) : Option (Nat × BitVec 32) :=
  (s.lifecycleFault i ::
    ((s.operands i).map fun op => if op.2 then none else some (5, op.1)) ++ s.pointChecks i).findSome?
      id

/-- A command that fails one of those checks enters that fault. -/
def EarlyFaults (i : Instr) (s : State) : Prop :=
  ∀ (code : Nat) (einfo : BitVec 32), s.earlyFault i = some (code, einfo) →
    exec i s = .next (s.faultEntry code einfo)

/-! ### What a command may write -/

/-- The E register a command writes (`30_encoding.md` R92, R98). -/
def destE : Instr → Option RegE
  | .ldE r _ | .eZero r | .eOne r | .eCpy r _ | .eAdd r _ _ | .eSub r _ _ | .eNeg r _ => some r
  | .eMul r _ _ | .eSqr r _ | .eRed r _ | .eMnr r _ | .eFrb r _ _ | .eFrb2 r _ _ => some r
  | .eInv r _ | .fGetr r _ | .fGeti r _ | .tGetx r _ | .tGety r _ | .tGetz r _ => some r
  | _ => none

/-- The U register a command writes. -/
def destU : Instr → Option RegU
  | .eMulu r _ _ | .eSqru r _ => some r
  | _ => none

/-- The F register a command writes. -/
def destF : Instr → Option RegF
  | .ldF r _ | .fOne r | .fCpy r _ | .fPack r _ _ | .fMul r _ _ | .fSqr r _ | .fSqrc r _ => some r
  | .fInvc r _ | .fFrb r _ _ | .line r _ | .miller r _ _ _ | .miller2 r _ _ _ => some r
  | _ => none

/-- The T register a command writes. -/
def destT : Instr → Option RegT
  | .ldT r _ | .tInf r | .tCpy r _ | .tMk r _ _ | .tMkp r _ _ _ | .tNeg r _ | .tDbl r _ _ => some r
  | .tAdd r _ _ _ | .tSdbl r _ _ | .tSdbl1 r _ _ | .tSadd r _ _ _ | .tFrb r _ _ => some r
  | .tNorm r _ _ | .tGen r | .tIso r _ | .tIsod r _ => some r
  | _ => none

/-- The G register a command writes. -/
def destG : Instr → Option RegG
  | .ldG r _ => some r
  | _ => none

/-- The commands that write `FLAGS.EQ` (`10_state.md` R28). -/
def writesEq : Instr → Bool
  | .eCmp _ _ | .fCmp _ _ | .tCmp _ _ => true
  | _ => false

/-- The command that writes `FLAGS.ONC` (R28). -/
def writesOnc : Instr → Bool
  | .tOnc _ => true
  | _ => false

/-- The two Miller commands. -/
def isMiller : Instr → Bool
  | .miller _ _ _ _ | .miller2 _ _ _ _ => true
  | _ => false

/-- The commands that write the latch (`10_state.md` R29). -/
def writesLatch : Instr → Bool
  | .tSdbl _ _ _ | .tSdbl1 _ _ _ | .tSadd _ _ _ _ => true
  | i => isMiller i

/-- The commands that write data memory (`20_memory.md` R69). -/
def isStore : Instr → Bool
  | .stE _ _ | .stF _ _ | .stT _ _ | .stG _ _ => true
  | _ => false

/-- The command that writes a parameter slot. -/
def isLdp : Instr → Bool
  | .ldp _ _ => true
  | _ => false

/-! ### Memory accesses -/

/-- The first read of a command that reads `DM`: its address and width (`20_memory.md` R68, R79). -/
def readAccess : Instr → Option (Nat × Nat)
  | .ldE _ a => some (a.val, 11)
  | .ldF _ a => some (a.val, 22)
  | .ldT _ a => some (a.val, 34)
  | .ldG _ a => some (a.val, 3)
  | .ldp slot a =>
    match slot.val with
    | 0 | 1 | 8 | 9 | 10 => some (a.val, 1)
    | 2 | 3 | 5 | 6 | 7 => some (a.val, 11)
    | 4 => some (a.val, 22)
    | 11 => some (a.val, 6)
    | _ => none
  | _ => none

/-- The write of a store: its address and width (R68). -/
def writeAccess : Instr → Option (Nat × Nat)
  | .stE _ a => some (a.val, 11)
  | .stF _ a => some (a.val, 22)
  | .stT _ a => some (a.val, 34)
  | .stG _ a => some (a.val, 3)
  | _ => none

/-- `exec` of a command that reads or writes `DM`, in a block of the configuration `c`. -/
def execIn (c : Config) (i : Instr) (s : State) : Host.Outcome State Fault Refusal :=
  match i with
  | .ldp slot a => execLdp slot a s c
  | .ldE r a => execLdE r a s c
  | .stE r a => execStE r a s c
  | .ldF r a => execLdF r a s c
  | .stF r a => execStF r a s c
  | .ldT r a => execLdT r a s c
  | .stT r a => execStT r a s c
  | .ldG r a => execLdG r a s c
  | .stG r a => execStG r a s c
  | _ => exec i s

/-- `execute` is the `exec` of a block of configuration `c`: that of the machine itself, or that of the
machine with another size of `DM` and of the digit slot, which the spec leaves open (`00_scope.md` R10;
`20_memory.md` R61 bounds `DM_WORDS` alone). -/
def Executes (c : Config) (execute : Instr → State → Host.Outcome State Fault Refusal) : Prop :=
  (c = Config.machine ∧ execute = exec) ∨
  ∃ dmWords nafMax : Nat, dmWords ≤ 2 ^ 18 ∧
    c = { Config.machine with dmWords := dmWords, nafMax := nafMax } ∧ execute = execIn c

/-- `DM[a .. a + n - 1]` is inside the memory and holds `v 0 .. v (n - 1)`. -/
def State.Holds (s : State) (c : Config) (a n : Nat) (v : Nat → Nat) : Prop :=
  a + n ≤ c.dmWords ∧ ∀ k, k < n → Memory.read s.dm (a + k) = some (v k)

/-- Word `k` is the first of `n` words of which `bad` holds. -/
def FirstBad (n : Nat) (bad : Nat → Prop) (k : Nat) : Prop := k < n ∧ bad k ∧ ∀ j, j < k → ¬bad j

/-! ### The Miller-loop state machine, one phase a step (`44_pairing_engine.md` R260 to R270) -/

/-- What a Miller command holds fixed through its phases: the operands that `CHECK` latches (R261), the
slots it has read, the hooks, and the values `past` that the 16-bit `ML.i` shows of indices it cannot hold
(R30 leaves them open; log entry 27). The standard loop uses `seedfix` and `post`, the super-optimal loop
`tor2`, `isoT`, the hooks of `c`, and the location of its base point. -/
structure MillerFsm where
  c : Config
  fl : Field
  k : Constants
  tw : Twist
  a : Deg11
  mode : Mode
  superOptimal : Bool
  digits : List Digit
  q : TwistPoint
  g : BasePoint
  past : Nat → BitVec 16
  seedfix : Bool := false
  post : PostStep × PostStep := (⟨.disabled, 0, false⟩, ⟨.disabled, 0, false⟩)
  tor2 : Deg11 := zero11
  isoT : Deg11 := zero11
  gLoc : BitVec 32 := 0

/-- What the phases change: `ML.phase`, `ML.i`, `first`, `ML.f`, `ML.f2`, `ML.T`, and the corrections
`m1`, `m2` of `PRE` (R261, R262, R270). -/
structure MillerPoint where
  phase : Phase
  i : Nat
  first : Bool
  f : Deg22
  f2 : Deg22
  t : TwistPoint
  m : Deg22 × Deg22

namespace MillerFsm

/-- The phase after `CHECK` for operands that are not degenerate (R261, R270). -/
def start (e : MillerFsm) : MillerPoint where
  phase := if e.superOptimal then .pre else .dbl
  i := e.digits.length - 2
  first := true
  f := one22
  f2 := one22
  t := e.q
  m := (one22, one22)

/-- What `ML.i` shows of a loop index (`10_state.md` R30; log entry 27). -/
def shown (e : MillerFsm) (i : Nat) : BitVec 16 :=
  if i < 2 ^ 16 then BitVec.ofNat 16 i else e.past i

/-- A product of the target field. -/
def mul (e : MillerFsm) (x y : Deg22) : Deg22 := product22 e.fl.p e.fl.c11 x y

/-- `Q2` (R270). -/
def q2 (e : MillerFsm) : TwistPoint := isoPoint e.fl e.tor2 e.isoT e.q

/-- `P2` (R270), as a value of its type (log entry 9). -/
def g2 (e : MillerFsm) : BasePoint :=
  ⟨(e.c.superOpt.isoG1 e.g).x % e.c.p, (e.c.superOpt.isoG1 e.g).y % e.c.p, (e.c.superOpt.isoG1 e.g).inf⟩

/-- `Line(lc)` at a base point, with the fault of a step that gave no record (R259, R267, R268): a fault
is its code and `EINFO`. -/
def line (e : MillerFsm) (x : MillerPoint) (lc : Option LineRecord) (g : BasePoint) :
    Except (Nat × BitVec 32) Deg22 :=
  match lc with
  | none => .error (9, BitVec.ofNat 32 (x.phase.code * 2 ^ 16 + (e.shown x.i).toNat))
  | some r =>
    match lineValue e.fl e.tw r g with
    | .ok l => .ok l
    | .error z => .error (z.cause.code.toNat, z.einfo)

/-- A shared step of the group law, its lines at the base points, and `first` cleared. `acc` takes an
accumulator and a line to the new accumulator; the second one is that of the super-optimal loop. -/
def groupStep (e : MillerFsm) (x : MillerPoint) (r : Except Raise (TwistPoint × Option LineRecord))
    (acc : Deg22 → Deg22 → Deg22) : Except (Nat × BitVec 32) MillerPoint :=
  match r with
  | .error z => .error (z.cause.code.toNat, z.einfo)
  | .ok (t, lc) => do
    let l ← e.line x lc e.g
    let l2 ← if e.superOptimal then e.line x lc e.g2 else .ok one22
    .ok { x with
      f := acc x.f l
      f2 := if e.superOptimal then acc x.f2 l2 else x.f2
      t := t
      first := false }

/-- Digit `i` of the string. -/
def digit (e : MillerFsm) (i : Nat) : Digit := e.digits[i]?.getD .zero

/-- The phase after the last one of an index (R262, R263, R270). -/
def nextIndex (e : MillerFsm) (x : MillerPoint) : MillerPoint :=
  if x.i = 0 then { x with phase := if e.superOptimal then .combine else .fix }
  else { x with phase := .dbl, i := x.i - 1 }

/-- The phase after the group law of an index: `FOLD` where the configuration says so (R270; log
entry 15). -/
def afterIndex (e : MillerFsm) (x : MillerPoint) : MillerPoint :=
  if e.superOptimal && e.c.superOpt.foldAt x.i then { x with phase := .fold } else e.nextIndex x

/-- The addition of a post-loop step (R265), and the phase after it. -/
def postStep (e : MillerFsm) (x : MillerPoint) (p : PostStep) (next : Phase) :
    Except (Nat × BitVec 32) MillerPoint :=
  let add := fun s : TwistPoint => do
    let r := normPoint e.fl (frbPoint e.fl e.k e.tw s p.e.val) false
    let y ← e.groupStep x (addPoints e.fl e.a e.mode x.t (if p.neg then negPoint e.fl.p r else r)) e.mul
    .ok { y with phase := next }
  match p.src with
  | .disabled => .ok { x with phase := next }
  | .input => add e.q
  | .running => add x.t

/-- One phase: the state after it, or the fault it raises. `WRITE` is the last. -/
def phaseStep (e : MillerFsm) (x : MillerPoint) : Except (Nat × BitVec 32) MillerPoint :=
  match x.phase with
  | .pre =>
    if e.g2.inf then .error (8, e.gLoc)
    else match e.c.superOpt.corrPre e.q e.q2 e.g e.g2 with
      | none => .error (1, 0#32)
      | some m => .ok { x with phase := .dbl, m := (norm22 e.c.p m.1, norm22 e.c.p m.2) }
  | .dbl => do
    let y ← e.groupStep x (doublePoint e.fl e.a e.mode x.t) fun f l =>
      if x.first then l else e.mul (e.mul f f) l
    .ok (if e.digit x.i = .zero then e.afterIndex y else { y with phase := .add })
  | .add => do
    let s := if e.digit x.i = .plus then e.q else negPoint e.fl.p e.q
    let y ← e.groupStep x (addPoints e.fl e.a e.mode x.t s) e.mul
    .ok (e.afterIndex y)
  | .fold =>
    let r := e.c.superOpt.fold x.i x.f x.f2 x.m.1 x.m.2
    .ok (e.nextIndex { x with f := norm22 e.c.p r.1, f2 := norm22 e.c.p r.2 })
  | .fix =>
    .ok (if e.seedfix then
        { x with phase := .post0, f := conj22 e.fl.p x.f, t := negPoint e.fl.p x.t }
      else { x with phase := .post0 })
  | .post0 => e.postStep x e.post.1 .post1
  | .post1 => e.postStep x e.post.2 .write
  | .combine =>
    match e.c.superOpt.corrPost x.t e.q e.q2 e.g e.g2 with
    | none => .error (1, 0#32)
    | some n =>
      .ok { x with
        phase := .write
        f := norm22 e.c.p (e.c.superOpt.combine x.f x.f2 x.m.1 x.m.2 (norm22 e.c.p n.1)
          (norm22 e.c.p n.2)) }
  | .idle | .check | .write => .ok x

/-- The phases that a run passes through. -/
def Reaches (e : MillerFsm) (x : MillerPoint) : Prop :=
  Relation.ReflTransGen (fun y z => e.phaseStep y = .ok z) e.start x

/-- The answer of a Miller command is what the phases say (R260): when they come to `WRITE` it completes with
`ML.f` (R266); when one of them faults it enters that fault, which leaves the phase and the index
(R267); and one of the two happens. `ML.variant` and the data fields after a fault are log entries 16
and 8. -/
def Decides (e : MillerFsm) (s : State) (fd : RegF) (answer : Host.Outcome State Fault Refusal) :
    Prop :=
  (∀ x, e.Reaches x → x.phase = .write →
    answer = .next
      ({ s with
          f := s.f.set fd.val (some x.f) fd.isLt
          lc := none
          ml := ⟨false, e.superOptimal, .idle, 0#16, none⟩ }.advance e.c)) ∧
  (∀ x code einfo, e.Reaches x → e.phaseStep x = .error (code, einfo) →
    answer = .next
      { s with
        ecause := BitVec.ofNat 4 code
        epc := s.pc
        einfo := einfo
        run := .faulted
        ml := ⟨false, e.superOptimal, x.phase, e.shown x.i, none⟩ }) ∧
  ∃ x, e.Reaches x ∧ (x.phase = .write ∨ ∃ z, e.phaseStep x = .error z)

end MillerFsm

end Sys2Proof.Machine
end

