-- ==== Sys2Proof/Certificates/Slice0/Obligations.lean ====
section
/-! DEFINITION. The statements for the provers. `P` is `Config.prime`; `.advance Config.machine` is the
end of a command that completes, of which `RunStateAndCounter` says what it does; a fault entry is
`faultEntry` with the code of `60_exceptions.md` R330; `EarlyFaults` says when a command faults before
it executes. -/

open Sys2Proof Sys2Proof.Machine

/-! ### Encoding -/

/-- `30_encoding.md` R90 to R98: decoding the word of a well-formed command gives that command, with
every operand at every value. -/
def Obligations.DecodeOfEncode : Prop :=
  ∀ i : Instr, i.wf = true → decode (encode i) = .ok i

/-- `30_encoding.md` R90 to R101: a word that decodes is the word of the command it decodes to, and that
command is well formed; so no word is a second spelling and no bit is ignored. -/
def Obligations.EncodeOfDecode : Prop :=
  ∀ (w : BitVec 32) (i : Instr), decode w = .ok i → encode i = w ∧ i.wf = true

/-- `30_encoding.md` R101 with R98, R99 and the slot range of R303: a word decodes exactly when a row of
the opcode map admits its fields; at most one row does, and it is the row of the command decoded. -/
def Obligations.DecodeMatchesOpcodeMap : Prop :=
  opcodeRows.length = 62 ∧
  ∀ w : BitVec 32,
    ((∃ i, decode w = .ok i) ↔ ∃ r ∈ opcodeRows, r.admits w = true) ∧
    (∀ r ∈ opcodeRows, ∀ r' ∈ opcodeRows, r.admits w = true → r'.admits w = true → r = r') ∧
    (∀ i, decode w = .ok i → fieldOp w = opcode i)

/-- Words written out in `30_encoding.md` R102 and in the command rules decode to what they are said
to be. -/
def Obligations.SampleWordsDecode : Prop :=
  decode 0x270C1080#32 = .ok (.eMul 3 1 2) ∧
  decode 0x6A040001#32 = .ok (.tSdbl 1 0 .projc) ∧
  decode 0x4A081015#32 = .ok (.fFrb 2 1 21) ∧
  decode 0x08140040#32 = .ok (.ldE 5 0x40) ∧
  decode 0x04200200#32 = .ok (.ldp 8 0x200) ∧
  decode 0x02000000#32 = .ok .halt ∧
  decode 0x01000000#32 = .ok .nop ∧
  decode 0x63041083#32 = .ok (.tMkp 1 1 2 3) ∧
  decode 0x42041080#32 = .ok (.fPack 1 1 2) ∧
  decode 0x00000000#32 = .error .unassignedOpcode

/-! ### The step -/

/-- `60_exceptions.md` R351: while the block runs, the command whose word stands at `pc` is executed,
and the step does nothing else around it. -/
def Obligations.StepRunsDecoded : Prop :=
  ∀ (s : State) (w : BitVec 32) (i : Instr), s.run = .run → s.pastTop = false →
    s.pc.toNat < Config.machine.cmWords → Memory.read s.cm s.pc.toNat = some w → decode w = .ok i →
    step s = exec i s

/-- `60_exceptions.md` R343 steps 1 and 2, R334 to R336: fetch past the memory, of an unwritten word,
and of a word no row of the opcode map admits. The first clause is over every configuration, since
`CM_WORDS` may be 2^16; a counter past 0xFFFF is past every memory (`10_state.md` R27; log entry 5). The
last clause is `45_data_movement_system.md` R302: a run that meets no `HALT` up to the last index of the
counter ends with `AddressFault`; what the 16 bits of `pc` hold then is the model's free value. -/
def Obligations.FetchAndDecodeFaults : Prop :=
  (∀ (c : Config) (s : State), s.pastTop = true ∨ c.cmWords ≤ s.pc.toNat →
    s.fetch c = .error ⟨.addressFault, BitVec.ofNat 32 (2 * 2 ^ 28 + s.pc.toNat), none⟩) ∧
  (∀ (s : State) (r : Raise), s.run = .run → s.fetch Config.machine = .error r →
    step s = .next (s.faultEntry r.cause.code.toNat r.einfo)) ∧
  (∀ s : State, s.run = .run → s.pastTop = false → s.pc.toNat < Config.machine.cmWords →
    Memory.read s.cm s.pc.toNat = none →
    step s = .next (s.faultEntry 5 (BitVec.ofNat 32 (2 * 2 ^ 28 + s.pc.toNat)))) ∧
  (∀ (s : State) (w : BitVec 32), s.run = .run → s.pastTop = false →
    s.pc.toNat < Config.machine.cmWords →
    Memory.read s.cm s.pc.toNat = some w → (∀ r ∈ opcodeRows, r.admits w = false) →
    step s = .next (s.faultEntry 4 w)) ∧
  (∀ (i : Instr) (s t : State), s.run = .run → s.pc = 0xFFFF#16 → i ≠ .halt → exec i s = .next t →
    t.run = .run → step t = .next (t.faultEntry 6 (BitVec.ofNat 32 (2 * 2 ^ 28 + t.pc.toNat))))

/-- `10_state.md` R27, R32, `60_exceptions.md` R351: outside `RUN` nothing happens; in `RUN` a command
completes and moves `pc` on, or is `HALT`, or faults, and only then does `RS` change. Completion changes
the command counter and the model's counter only; past index 0xFFFF the 16 bits of `pc` are the model's
free value and `pastTop` is set (log entry 5). -/
def Obligations.RunStateAndCounter : Prop :=
  (∀ s : State, s.run ≠ .run → step s = .next s) ∧
  (∀ s : State, ∃ (v : BitVec 16) (b : Bool) (n : Nat),
    s.advance Config.machine = { s with pc := v, pastTop := b, free := n } ∧
    (s.pc ≠ 0xFFFF#16 → v = s.pc + 1#16 ∧ b = s.pastTop ∧ n = s.free) ∧
    (s.pc = 0xFFFF#16 → b = true)) ∧
  (∀ (i : Instr) (s t : State), s.run = .run → exec i s = .next t →
    (i ≠ .halt ∧ t.run = .run ∧ (s.pc ≠ 0xFFFF#16 → t.pc = s.pc + 1#16)) ∨
    (i = .halt ∧ t.run = .halted ∧ t.pc = s.pc) ∨
    (i ≠ .halt ∧ t.run = .faulted ∧ t.pc = s.pc ∧ t.epc = s.pc))

/-- No command ends in a fault of the model or a refusal: every one answers a next state. A host move on
`DM` or `CM` is refused exactly while the block runs, which is the model's choice for
`93_implementation_defined.md` U2 (log entry 10). -/
def Obligations.NothingElseRefuses : Prop :=
  (∀ (i : Instr) (s : State), ∃ t, exec i s = .next t) ∧
  (∀ s : State, ∃ t, step s = .next t) ∧
  (∀ (s : State) (a v : Nat) (w : BitVec 32),
    (s.run = .run → hostWriteDM s a v = .refused .hostAccessWhileRunning ∧
      hostWriteCM s a w = .refused .hostAccessWhileRunning ∧
      hostReadDM s a = .error .hostAccessWhileRunning ∧
      hostReadCM s a = .error .hostAccessWhileRunning) ∧
    (s.run ≠ .run → (∃ t, hostWriteDM s a v = .next t) ∧ (∃ t, hostWriteCM s a w = .next t) ∧
      (∃ x, hostReadDM s a = .ok x) ∧ ∃ x, hostReadCM s a = .ok x))

/-! ### Faults and admission -/

/-- `60_exceptions.md` R341, R342: a faulting command writes the cause registers and the run state, and
of the Miller state only what R341 names; it has written no register, flag, latch field, slot or word. -/
def Obligations.NoPartialResult : Prop :=
  ∀ (i : Instr) (s t : State), s.run = .run → exec i s = .next t → t.run = .faulted →
    ∃ (code : Nat) (einfo : BitVec 32) (ml : MillerState), 1 ≤ code ∧ code ≤ 10 ∧ ml.active = false ∧
      t = { s with ecause := BitVec.ofNat 4 code, epc := s.pc, einfo := einfo, run := .faulted,
                   ml := ml } ∧
      (isMiller i = false → ml = { s.ml with active := false })

/-- `60_exceptions.md` R352: what each lifecycle state admits. A command that is admitted never reports
`LifecycleFault`. -/
def Obligations.LifecycleAdmission : Prop :=
  ∀ (i : Instr) (s : State),
    (admission i = .inReady → s.lifecycle = .config → exec i s = .next (s.faultEntry 7 0#32)) ∧
    (admission i = .inConfig → i.wf = true → (∃ k, s.lifecycle = .ready k) →
      exec i s = .next (s.faultEntry 7 1#32)) ∧
    (admission i = .always ∨ (admission i = .inConfig ∧ s.lifecycle = .config) ∨
        (admission i = .inReady ∧ ∃ k, s.lifecycle = .ready k) →
      ∀ einfo : BitVec 32, exec i s ≠ .next (s.faultEntry 7 einfo))

/-- `60_exceptions.md` R343 steps 3 to 6, R333, `42_twist_curve.md` R192, R198: the first check that
fails, in the order lifecycle, source registers, parameter slots, tag invariant, admission of the tags,
is the fault reported. That `ST.T` is among the commands that check the tag invariant is the model's
choice of R192 over `45_data_movement_system.md` R300 (log entry 25). -/
def Obligations.EarlyChecksInOrder : Prop :=
  ∀ (i : Instr) (s : State), i.wf = true → EarlyFaults i s

/-- `20_memory.md` R66, R68, `60_exceptions.md` R335, R336: a read checks the range of the whole access
first and then reports the lowest unwritten word; a store whose register is written checks the range.
The second read of `LDP` of a digit string is in `LoadDigitParameters`. It is said of the machine
(`execute = exec`) and of the machine with `DM` and digit slot of every size (`Executes`, `00_scope.md`
R10). -/
def Obligations.MemoryAccessChecks : Prop :=
  ∀ (c : Config) (execute : Instr → State → Host.Outcome State Fault Refusal), Executes c execute →
    ∀ (i : Instr) (a n : Nat) (s : State),
    (readAccess i = some (a, n) → s.earlyFault i = none →
      (c.dmWords < a + n →
        execute i s = .next (s.faultEntry 6 (BitVec.ofNat 32 (2 ^ 28 + (a + n - 1))))) ∧
      (a + n ≤ c.dmWords →
        ∀ k, FirstBad n (fun j => Memory.read s.dm (a + j) = none) k →
          execute i s = .next (s.faultEntry 5 (BitVec.ofNat 32 (2 ^ 28 + (a + k)))))) ∧
    (writeAccess i = some (a, n) → s.earlyFault i = none → c.dmWords < a + n →
      execute i s = .next (s.faultEntry 6 (BitVec.ofNat 32 (2 ^ 28 + (a + n - 1)))))

/-! ### Frames -/

/-- `10_state.md` R28, R29, R30, `60_exceptions.md` R341: which commands may change a flag, the latch and
the Miller state. Any other command than the two Miller commands keeps `ML` as it is, and clears
`ML.active` when it faults, changing nothing else of `ML`. -/
def Obligations.FlagsAndLatchFrame : Prop :=
  ∀ (i : Instr) (s t : State), exec i s = .next t →
    (writesEq i = false → t.eq = s.eq) ∧
    (writesOnc i = false → t.onc = s.onc) ∧
    (writesLatch i = false → t.lc = s.lc) ∧
    (isMiller i = false →
      (t.run ≠ .faulted → t.ml = s.ml) ∧
      (s.run ≠ .faulted → t.run = .faulted → t.ml = { s.ml with active := false }) ∧
      (t.ml = s.ml ∨ t.run = .faulted ∧ t.ml = { s.ml with active := false }))

/-- `20_memory.md` R62, R69, `10_state.md` R31, R33, R36, R39: no command writes `CM` or `CTRL.IE`; only
stores write `DM`, only `LDP` writes a slot, only `FINIT` changes `LS`, and the cause registers keep their
values while no fault is taken. -/
def Obligations.MemoryAndParameterFrame : Prop :=
  ∀ (i : Instr) (s t : State), exec i s = .next t →
    (∀ a, Memory.read t.cm a = Memory.read s.cm a) ∧ t.cm = s.cm ∧ t.ie = s.ie ∧
    (isStore i = false → (∀ a, Memory.read t.dm a = Memory.read s.dm a) ∧ t.dm = s.dm) ∧
    (isLdp i = false → t.prm = s.prm) ∧
    (i ≠ .finit → t.lifecycle = s.lifecycle) ∧
    (t.run ≠ .faulted → t.ecause = s.ecause ∧ t.epc = s.epc ∧ t.einfo = s.einfo)

/-- `30_encoding.md` R92, R98: a command changes no register but the destination its row names. -/
def Obligations.RegisterFrame : Prop :=
  ∀ (i : Instr) (s t : State), exec i s = .next t →
    (∀ r : RegE, destE i ≠ some r → t.e[r.val] = s.e[r.val]) ∧
    (∀ r : RegU, destU i ≠ some r → t.u[r.val] = s.u[r.val]) ∧
    (∀ r : RegF, destF i ≠ some r → t.f[r.val] = s.f[r.val]) ∧
    (∀ r : RegT, destT i ≠ some r → t.t[r.val] = s.t[r.val]) ∧
    (∀ r : RegG, destG i ≠ some r → t.g[r.val] = s.g[r.val])

/-! ### System commands -/

/-- `45_data_movement_system.md` R301, and of R302 what `HALT` itself does; how a run ends that meets no
`HALT` is `FetchAndDecodeFaults`. -/
def Obligations.NopAndHalt : Prop :=
  ∀ s : State, exec .nop s = .next (s.advance Config.machine) ∧
    exec .halt s = .next { s with run := .halted }

/-- `40_deg11_tower.md` R146: `FINIT` checks `C11`, computes the constants, and moves to `READY`. -/
def Obligations.FieldInitialisation : Prop :=
  ∀ (s : State), EarlyFaults .finit s ∧
    ∀ c : Base, s.lifecycle = .config → s.prm.c11 = some c →
      let g := c ^ ((Config.prime - 1) / 11) % Config.prime
      let d := c ^ ((Config.prime - 1) / 22) % Config.prime
      if g = 1 ∨ d ^ 11 % Config.prime ≠ Config.prime - 1 then
        exec .finit s = .next (s.faultEntry 10 0#32)
      else
        ∃ k : Constants,
          exec .finit s = .next ({ s with lifecycle := .ready k }.advance Config.machine) ∧
          k.half = (Config.prime + 1) / 2 ∧
          (1 ≤ k.c11inv ∧ k.c11inv < Config.prime ∧ c * k.c11inv % Config.prime = 1) ∧
          k.gam = g ∧ k.del = d ∧
          (∀ j i : Fin 11, k.frb[j.val][i.val] = g ^ (i.val * j.val % 11) % Config.prime) ∧
          (∀ j i : Fin 11,
            k.frb2[j.val][i.val] = d ^ (j.val * (2 * i.val + 1) % 22) % Config.prime)

/-- `45_data_movement_system.md` R303, `20_memory.md` R79: `LDP` of the slots of one word, and of slot
`POST`, whose words have the ranges 2, 21, 1, 2, 21, 1; the first word that breaks its range is
reported. It is said of the machine (`execute = exec`) and of the machine with `DM` and digit slot of
every size (`Executes`, `00_scope.md` R10). -/
def Obligations.LoadWordParameters : Prop :=
  ∀ (c : Config) (execute : Instr → State → Host.Outcome State Fault Refusal), Executes c execute →
    ∀ (addr : Addr) (s : State) (v : Nat → Nat), s.lifecycle = .config →
    (s.Holds c addr.val 1 v →
      execute (.ldp 0 addr) s = .next
        (if v 0 ≠ 0 ∧ v 0 < Config.prime then
          { s with prm := { s.prm with c11 := some (v 0) } }.advance c
        else s.faultEntry 10 0#32) ∧
      execute (.ldp 1 addr) s = .next
        (if v 0 = 0 then { s with prm := { s.prm with twist := some .dType } }.advance c
        else if v 0 = 1 then
          { s with prm := { s.prm with twist := some .mType } }.advance c
        else s.faultEntry 10 1#32) ∧
      execute (.ldp 10 addr) s = .next
        (if v 0 = 0 then { s with prm := { s.prm with seedfix := some false } }.advance c
        else if v 0 = 1 then
          { s with prm := { s.prm with seedfix := some true } }.advance c
        else s.faultEntry 10 10#32)) ∧
    (s.Holds c addr.val 6 v →
      let bound : Nat → Nat := fun k => if k % 3 = 0 then 2 else if k % 3 = 1 then 21 else 1
      let src : Nat → PostSource := fun x =>
        if x = 0 then .input else if x = 1 then .running else .disabled
      let entry : Nat → PostStep := fun k =>
        ⟨src (v k), Fin.ofNat 22 (v (k + 1)), decide (v (k + 2) = 1)⟩
      ((∀ k, k < 6 → v k ≤ bound k) →
        execute (.ldp 11 addr) s =
          .next ({ s with prm := { s.prm with post := some (entry 0, entry 3) } }.advance
            c)) ∧
      (∀ k, FirstBad 6 (fun j => bound j < v j) k →
        execute (.ldp 11 addr) s = .next (s.faultEntry 10 (BitVec.ofNat 32 (11 + 256 * k)))))

/-- `45_data_movement_system.md` R303, `20_memory.md` R79: `LDP` of the slots that hold tower elements;
the first word that is not below `P` is reported. It is said of the machine (`execute = exec`) and of
the machine with `DM` and digit slot of every size (`Executes`, `00_scope.md` R10). -/
def Obligations.LoadElementParameters : Prop :=
  ∀ (c : Config) (execute : Instr → State → Host.Outcome State Fault Refusal), Executes c execute →
    ∀ (addr : Addr) (s : State) (v : Nat → Nat), s.lifecycle = .config →
    (s.Holds c addr.val 11 v → (∀ k, k < 11 → v k < Config.prime) →
      let x : Deg11 := Vector.ofFn fun i : Fin 11 => v i.val
      execute (.ldp 2 addr) s = .next ({ s with prm := { s.prm with a := some x } }.advance c) ∧
      execute (.ldp 3 addr) s = .next ({ s with prm := { s.prm with b := some x } }.advance c) ∧
      execute (.ldp 5 addr) s =
        .next ({ s with prm := { s.prm with tor2 := some x } }.advance c) ∧
      execute (.ldp 6 addr) s =
        .next ({ s with prm := { s.prm with isoT := some x } }.advance c) ∧
      execute (.ldp 7 addr) s =
        .next ({ s with prm := { s.prm with isoD := some x } }.advance c)) ∧
    (s.Holds c addr.val 22 v → (∀ k, k < 22 → v k < Config.prime) →
      let x : Deg11 := Vector.ofFn fun i : Fin 11 => v i.val
      let y : Deg11 := Vector.ofFn fun i : Fin 11 => v (11 + i.val)
      execute (.ldp 4 addr) s =
        .next ({ s with prm := { s.prm with gen := some (x, y) } }.advance c)) ∧
    (∀ k, s.Holds c addr.val 11 v → FirstBad 11 (fun j => Config.prime ≤ v j) k →
      ∀ slot : SlotField, slot.val ∈ [2, 3, 5, 6, 7] →
        execute (.ldp slot addr) s = .next (s.faultEntry 10 (BitVec.ofNat 32 (slot.val + 256 * k)))) ∧
    (∀ k, s.Holds c addr.val 22 v → FirstBad 22 (fun j => Config.prime ≤ v j) k →
      execute (.ldp 4 addr) s = .next (s.faultEntry 10 (BitVec.ofNat 32 (4 + 256 * k))))

/-- `45_data_movement_system.md` R303, `20_memory.md` R79: `LDP` of the digit strings `NAF` and `NAF2`.
The length word is checked before the digits are read; then the digits are read like any access of `n`
words at `addr + 1` (`20_memory.md` R66): its range first, then its lowest unwritten word. It is said of
the machine (`execute = exec`) and of the machine with `DM` and digit slot of every size (`Executes`,
`00_scope.md` R10). -/
def Obligations.LoadDigitParameters : Prop :=
  ∀ (c : Config) (execute : Instr → State → Host.Outcome State Fault Refusal), Executes c execute →
    ∀ (addr : Addr) (s : State) (n : Nat) (v : Nat → Nat), s.lifecycle = .config →
    s.Holds c addr.val 1 (fun _ => n) →
    let digits : List Digit := (List.range n).map fun i =>
      if v i = 0 then .zero else if v i = 1 then .plus else .minus
    (c.nafMax < n →
      execute (.ldp 8 addr) s = .next (s.faultEntry 2 (BitVec.ofNat 32 n)) ∧
      execute (.ldp 9 addr) s = .next (s.faultEntry 2 (BitVec.ofNat 32 n))) ∧
    (n ≤ c.nafMax → n < 2 →
      execute (.ldp 8 addr) s = .next (s.faultEntry 10 8#32) ∧
      execute (.ldp 9 addr) s = .next (s.faultEntry 10 9#32)) ∧
    (2 ≤ n → n ≤ c.nafMax → c.dmWords < addr.val + 1 + n →
      execute (.ldp 8 addr) s =
        .next (s.faultEntry 6 (BitVec.ofNat 32 (2 ^ 28 + (addr.val + n) % 2 ^ 28))) ∧
      execute (.ldp 9 addr) s =
        .next (s.faultEntry 6 (BitVec.ofNat 32 (2 ^ 28 + (addr.val + n) % 2 ^ 28)))) ∧
    (2 ≤ n → n ≤ c.nafMax → addr.val + 1 + n ≤ c.dmWords →
      ∀ k, FirstBad n (fun j => Memory.read s.dm (addr.val + 1 + j) = none) k →
        execute (.ldp 8 addr) s =
          .next (s.faultEntry 5 (BitVec.ofNat 32 (2 ^ 28 + (addr.val + 1 + k)))) ∧
        execute (.ldp 9 addr) s =
          .next (s.faultEntry 5 (BitVec.ofNat 32 (2 ^ 28 + (addr.val + 1 + k))))) ∧
    (2 ≤ n → n ≤ c.nafMax → s.Holds c (addr.val + 1) n v →
      ((∀ i, i < n → v i ≤ 2) → v (n - 1) = 1 →
        execute (.ldp 8 addr) s =
          .next ({ s with prm := { s.prm with naf := some digits } }.advance c) ∧
        execute (.ldp 9 addr) s =
          .next ({ s with prm := { s.prm with naf2 := some digits } }.advance c)) ∧
      ((∀ i, i < n → v i ≤ 2) → v (n - 1) ≠ 1 →
        execute (.ldp 8 addr) s = .next (s.faultEntry 10 (BitVec.ofNat 32 (8 + 256 * n))) ∧
        execute (.ldp 9 addr) s = .next (s.faultEntry 10 (BitVec.ofNat 32 (9 + 256 * n)))) ∧
      (∀ i, FirstBad n (fun j => 2 < v j) i →
        execute (.ldp 8 addr) s = .next (s.faultEntry 10 (BitVec.ofNat 32 (8 + 256 * (1 + i)))) ∧
        execute (.ldp 9 addr) s = .next (s.faultEntry 10 (BitVec.ofNat 32 (9 + 256 * (1 + i))))))

/-! ### Loads and stores -/

/-- `45_data_movement_system.md` R300, R304, R306: `LD.E` and `LD.F` of words below `P`, and the first
word that is not. It is said of the machine (`execute = exec`) and of the machine with `DM` and digit
slot of every size (`Executes`, `00_scope.md` R10). -/
def Obligations.LoadElements : Prop :=
  ∀ (c : Config) (execute : Instr → State → Host.Outcome State Fault Refusal), Executes c execute →
    ∀ (re : RegE) (rf : RegF) (addr : Addr) (s : State) (v : Nat → Nat),
    (s.Holds c addr.val 11 v → (∀ k, k < 11 → v k < Config.prime) →
      execute (.ldE re addr) s = .next
        ({ s with e := s.e.set re.val (some (Vector.ofFn fun i : Fin 11 => v i.val)) re.isLt
          }.advance c)) ∧
    (s.Holds c addr.val 22 v → (∀ k, k < 22 → v k < Config.prime) →
      execute (.ldF rf addr) s = .next
        ({ s with f := s.f.set rf.val (some ⟨Vector.ofFn fun i : Fin 11 => v i.val,
            Vector.ofFn fun i : Fin 11 => v (11 + i.val)⟩) rf.isLt }.advance c)) ∧
    (∀ k, s.Holds c addr.val 11 v → FirstBad 11 (fun j => Config.prime ≤ v j) k →
      execute (.ldE re addr) s = .next (s.faultEntry 3 (BitVec.ofNat 32 (2 ^ 28 + (addr.val + k))))) ∧
    (∀ k, s.Holds c addr.val 22 v → FirstBad 22 (fun j => Config.prime ≤ v j) k →
      execute (.ldF rf addr) s = .next (s.faultEntry 3 (BitVec.ofNat 32 (2 ^ 28 + (addr.val + k)))))

/-- `45_data_movement_system.md` R300, R308, R310: `LD.T` and `LD.G`, their value checks in ascending
order, and the tag invariant of a loaded twist point. It is said of the machine (`execute = exec`) and
of the machine with `DM` and digit slot of every size (`Executes`, `00_scope.md` R10). -/
def Obligations.LoadPoints : Prop :=
  ∀ (c : Config) (execute : Instr → State → Host.Outcome State Fault Refusal), Executes c execute →
    ∀ (rt : RegT) (rg : RegG) (addr : Addr) (s : State) (v : Nat → Nat),
    (s.Holds c addr.val 34 v →
      let x : Deg11 := Vector.ofFn fun i : Fin 11 => v i.val
      let y : Deg11 := Vector.ofFn fun i : Fin 11 => v (11 + i.val)
      let z : Deg11 := Vector.ofFn fun i : Fin 11 => v (22 + i.val)
      let bad : Nat → Prop := fun k => if k < 33 then Config.prime ≤ v k else 1 < v k
      (∀ k, FirstBad 34 bad k →
        execute (.ldT rt addr) s = .next (s.faultEntry 3 (BitVec.ofNat 32 (2 ^ 28 + (addr.val + k))))) ∧
      ((∀ k, k < 34 → ¬bad k) →
        (v 33 = 0 → z ≠ zero11 → z ≠ one11 →
          execute (.ldT rt addr) s =
            .next (s.faultEntry 3 (BitVec.ofNat 32 (2 ^ 28 + (addr.val + 33))))) ∧
        (v 33 = 0 → z = zero11 ∨ z = one11 →
          execute (.ldT rt addr) s = .next
            ({ s with t := s.t.set rt.val (some ⟨x, y, z, .affine⟩) rt.isLt
              }.advance c)) ∧
        (v 33 = 1 →
          execute (.ldT rt addr) s = .next
            ({ s with t := s.t.set rt.val (some ⟨x, y, z, .projective⟩) rt.isLt
              }.advance c)))) ∧
    (s.Holds c addr.val 3 v →
      let bad : Nat → Prop := fun k => if k < 2 then Config.prime ≤ v k else 1 < v k
      (∀ k, FirstBad 3 bad k →
        execute (.ldG rg addr) s = .next (s.faultEntry 3 (BitVec.ofNat 32 (2 ^ 28 + (addr.val + k))))) ∧
      ((∀ k, k < 3 → ¬bad k) →
        execute (.ldG rg addr) s = .next
          ({ s with g := s.g.set rg.val (some ⟨v 0, v 1, decide (v 2 = 1)⟩) rg.isLt
            }.advance c)))

/-- `45_data_movement_system.md` R305, R307, R309, R311, `20_memory.md` R78: a store of a written
register whose image is inside `DM` writes exactly the words of the image at `addr` and up; every other
address reads as before, and nothing else changes. That a memory in canonical form stays so is a clause
about the form the model chose for memories (log entry 4). `ST.T` of a point that breaks the tag
invariant faults before its store, which `EarlyFaults` says: the model's choice of `42_twist_curve.md`
R192 over R300 (log entry 25). It is said of the machine (`execute = exec`) and of the machine with `DM`
and digit slot of every size (`Executes`, `00_scope.md` R10). -/
def Obligations.StoresWriteTheImage : Prop :=
  ∀ (c : Config) (execute : Instr → State → Host.Outcome State Fault Refusal), Executes c execute →
    ∀ (re : RegE) (rf : RegF) (rt : RegT) (rg : RegG) (addr : Addr) (s : State),
    (EarlyFaults (.stE re addr) s ∧ EarlyFaults (.stF rf addr) s ∧ EarlyFaults (.stT rt addr) s ∧
      EarlyFaults (.stG rg addr) s) ∧
    ∀ (i : Instr) (image : List Nat),
      ((∃ x, i = .stE re addr ∧ s.e[re.val] = some x ∧ image = x.toList) ∨
        (∃ a, i = .stF rf addr ∧ s.f[rf.val] = some a ∧ image = a.re.toList ++ a.im.toList) ∨
        (∃ q, i = .stT rt addr ∧ s.t[rt.val] = some q ∧ tagOk q = true ∧
          image = q.x.toList ++ q.y.toList ++ q.z.toList ++
            [if q.tag = .projective then 1 else 0]) ∨
        (∃ g, i = .stG rg addr ∧ s.g[rg.val] = some g ∧
          image = [g.x, g.y, if g.inf then 1 else 0])) →
      (addr.val + image.length ≤ c.dmWords →
        ∃ m : Memory Nat, execute i s = .next ({ s with dm := m }.advance c) ∧
          (∀ k, k < image.length → Memory.read m (addr.val + k) = image[k]?) ∧
          (∀ b, b < addr.val ∨ addr.val + image.length ≤ b → Memory.read m b = Memory.read s.dm b) ∧
          (Memory.wf s.dm = true → Memory.wf m = true)) ∧
      (c.dmWords < addr.val + image.length →
        execute i s =
          .next (s.faultEntry 6 (BitVec.ofNat 32 (2 ^ 28 + (addr.val + image.length - 1)))))

/-! ### Degree-11 tower -/

/-- `40_deg11_tower.md` R130, R131, R132. -/
def Obligations.ElementConstantsAndCopy : Prop :=
  ∀ (rd rs1 : RegE) (s : State),
    (EarlyFaults (.eZero rd) s ∧ EarlyFaults (.eOne rd) s ∧ EarlyFaults (.eCpy rd rs1) s) ∧
    ∀ k : Constants, s.lifecycle = .ready k →
      let zero : Deg11 := Vector.ofFn fun _ : Fin 11 => 0
      let one : Deg11 := Vector.ofFn fun i : Fin 11 => if i.val = 0 then 1 else 0
      exec (.eZero rd) s = .next
        ({ s with e := s.e.set rd.val (some zero) rd.isLt }.advance Config.machine) ∧
      exec (.eOne rd) s = .next
        ({ s with e := s.e.set rd.val (some one) rd.isLt }.advance Config.machine) ∧
      ∀ x : Deg11, s.e[rs1.val] = some x →
        exec (.eCpy rd rs1) s = .next
          ({ s with e := s.e.set rd.val (some x) rd.isLt }.advance Config.machine)

/-- `40_deg11_tower.md` R133, R134, R135, with the base-field operations of `00_scope.md` R12. -/
def Obligations.ElementSumDifferenceNegation : Prop :=
  ∀ (rd rs1 rs2 : RegE) (s : State),
    (EarlyFaults (.eAdd rd rs1 rs2) s ∧ EarlyFaults (.eSub rd rs1 rs2) s ∧
      EarlyFaults (.eNeg rd rs1) s) ∧
    ∀ (k : Constants) (x : Deg11), s.lifecycle = .ready k → s.e[rs1.val] = some x →
      exec (.eNeg rd rs1) s = .next
        ({ s with e := s.e.set rd.val (some (Vector.ofFn fun i : Fin 11 =>
            (((Config.prime : Int) - (x[i] : Int)) % (Config.prime : Int)).toNat)) rd.isLt
          }.advance Config.machine) ∧
      ∀ y : Deg11, s.e[rs2.val] = some y →
        exec (.eAdd rd rs1 rs2) s = .next
          ({ s with e := s.e.set rd.val (some (Vector.ofFn fun i : Fin 11 =>
              (x[i] + y[i]) % Config.prime)) rd.isLt }.advance Config.machine) ∧
        exec (.eSub rd rs1 rs2) s = .next
          ({ s with e := s.e.set rd.val (some (Vector.ofFn fun i : Fin 11 =>
              (((x[i] : Int) - (y[i] : Int)) % (Config.prime : Int)).toNat)) rd.isLt
            }.advance Config.machine)

/-- `40_deg11_tower.md` R137, R138: the product modulo `P` and `u^11 = C11`, coefficient by coefficient. -/
def Obligations.ElementProduct : Prop :=
  ∀ (rd rs1 rs2 : RegE) (s : State),
    (EarlyFaults (.eMul rd rs1 rs2) s ∧ EarlyFaults (.eSqr rd rs1) s) ∧
    ∀ (k : Constants) (c : Base) (x : Deg11), s.lifecycle = .ready k → s.prm.c11 = some c →
      s.e[rs1.val] = some x →
      exec (.eSqr rd rs1) s = .next
        ({ s with e := s.e.set rd.val (some (product11 Config.prime c x x)) rd.isLt
          }.advance Config.machine) ∧
      ∀ y : Deg11, s.e[rs2.val] = some y →
        exec (.eMul rd rs1 rs2) s = .next
          ({ s with e := s.e.set rd.val (some (product11 Config.prime c x y)) rd.isLt
            }.advance Config.machine)

/-- `40_deg11_tower.md` R139, R140, R141: an unreduced product has the residues of the product, whatever
integers it holds, and `E.RED` reduces each slot. -/
def Obligations.UnreducedProductAndReduction : Prop :=
  ∀ (rd : RegE) (ru : RegU) (rs1 rs2 : RegE) (s : State),
    (EarlyFaults (.eMulu ru rs1 rs2) s ∧ EarlyFaults (.eSqru ru rs1) s ∧
      EarlyFaults (.eRed rd ru) s) ∧
    ∀ k : Constants, s.lifecycle = .ready k →
      (∀ w : Unred11, s.u[ru.val] = some w →
        let x : Deg11 := Vector.ofFn fun i : Fin 11 => w[i] % Config.prime
        exec (.eRed rd ru) s = .next
          ({ s with e := s.e.set rd.val (some x) rd.isLt }.advance Config.machine)) ∧
      ∀ (c : Base) (x : Deg11), s.prm.c11 = some c → s.e[rs1.val] = some x →
        (∃ w : Unred11,
          exec (.eSqru ru rs1) s = .next
            ({ s with u := s.u.set ru.val (some w) ru.isLt }.advance Config.machine) ∧
          (∀ i, i < 10 → coeff w i % Config.prime =
            (productSum x x i + c * productSum x x (i + 11)) % Config.prime) ∧
          coeff w 10 % Config.prime = productSum x x 10 % Config.prime) ∧
        ∀ y : Deg11, s.e[rs2.val] = some y →
          ∃ w : Unred11,
            exec (.eMulu ru rs1 rs2) s = .next
              ({ s with u := s.u.set ru.val (some w) ru.isLt }.advance Config.machine) ∧
            (∀ i, i < 10 → coeff w i % Config.prime =
              (productSum x y i + c * productSum x y (i + 11)) % Config.prime) ∧
            coeff w 10 % Config.prime = productSum x y 10 % Config.prime

/-- `40_deg11_tower.md` R142, R143, R144: multiplication by `u`, and the two Frobenius maps through the
tables that `FINIT` computed. -/
def Obligations.NonResidueAndFrobeniusMaps : Prop :=
  ∀ (rd rs1 : RegE) (exp : Exponent) (s : State),
    (EarlyFaults (.eMnr rd rs1) s ∧ EarlyFaults (.eFrb rd rs1 exp) s ∧
      EarlyFaults (.eFrb2 rd rs1 exp) s) ∧
    ∀ (k : Constants) (x : Deg11), s.lifecycle = .ready k → s.e[rs1.val] = some x →
      (∀ c : Base, s.prm.c11 = some c →
        exec (.eMnr rd rs1) s = .next
          ({ s with e := s.e.set rd.val (some (Vector.ofFn fun i : Fin 11 =>
              if i.val = 0 then c * x[10] % Config.prime else coeff x (i.val - 1))) rd.isLt
            }.advance Config.machine)) ∧
      ∀ j : Fin 11, j.val = exp.val % 11 →
        exec (.eFrb rd rs1 exp) s = .next
          ({ s with e := s.e.set rd.val (some (Vector.ofFn fun i : Fin 11 =>
              if i.val = 0 then x[0] else k.frb[j][i] * x[i] % Config.prime)) rd.isLt
            }.advance Config.machine) ∧
        exec (.eFrb2 rd rs1 exp) s = .next
          ({ s with e := s.e.set rd.val (some (Vector.ofFn fun i : Fin 11 =>
              k.frb2[j][i] * x[i] % Config.prime)) rd.isLt }.advance Config.machine)

/-- `40_deg11_tower.md` R145: `E.INV` of zero faults; of any other value it writes the unique inverse. The
constants are those of an accepted `C11`, so that the degree-11 extension is a field. -/
def Obligations.ElementInverse : Prop :=
  ∀ (rd rs1 : RegE) (s : State), EarlyFaults (.eInv rd rs1) s ∧
    ∀ (k : Constants) (c : Base) (x : Deg11), s.lifecycle = .ready k → s.prm.c11 = some c →
      s.e[rs1.val] = some x →
      (x = zero11 → exec (.eInv rd rs1) s = .next (s.faultEntry 1 0#32)) ∧
      (x ≠ zero11 → Below11 Config.prime x → s.LifecycleSound Config.machine →
        ∃ y : Deg11, Below11 Config.prime y ∧ product11 Config.prime c x y = one11 ∧
          (∀ y' : Deg11, Below11 Config.prime y' → product11 Config.prime c x y' = one11 → y' = y) ∧
          exec (.eInv rd rs1) s = .next
            ({ s with e := s.e.set rd.val (some y) rd.isLt }.advance Config.machine))

/-! ### Compare and test commands -/

/-- `40_deg11_tower.md` R136, `41_deg22_tower.md` R170, `42_twist_curve.md` R215, R216: the compares write
`FLAGS.EQ` alone, `T.ONC` writes `FLAGS.ONC` alone. Points are compared by cross-multiplication. -/
def Obligations.CompareAndTestFlags : Prop :=
  ∀ (x y : RegE) (a b : RegF) (p q : RegT) (s : State),
    (EarlyFaults (.eCmp x y) s ∧ EarlyFaults (.fCmp a b) s ∧ EarlyFaults (.tCmp p q) s ∧
      EarlyFaults (.tOnc p) s) ∧
    ∀ k : Constants, s.lifecycle = .ready k →
      (∀ vx vy : Deg11, s.e[x.val] = some vx → s.e[y.val] = some vy →
        exec (.eCmp x y) s = .next
          ({ s with eq := decide (∀ i : Fin 11, vx[i] = vy[i]) }.advance Config.machine)) ∧
      (∀ va vb : Deg22, s.f[a.val] = some va → s.f[b.val] = some vb →
        exec (.fCmp a b) s = .next
          ({ s with eq := decide (∀ i : Fin 11, va.re[i] = vb.re[i] ∧ va.im[i] = vb.im[i])
            }.advance Config.machine)) ∧
      ∀ (c : Base) (vp : TwistPoint), s.prm.c11 = some c → s.t[p.val] = some vp → tagOk vp = true →
        let mul := product11 Config.prime c
        (∀ vq : TwistPoint, s.t[q.val] = some vq → tagOk vq = true →
          let za := mul vp.z vp.z
          let zb := mul vq.z vq.z
          exec (.tCmp p q) s = .next
            ({ s with eq :=
                if vp.z = zero11 ∨ vq.z = zero11 then decide (vp.z = zero11 ∧ vq.z = zero11)
                else decide (mul vp.x zb = mul vq.x za ∧
                  mul vp.y (mul zb vq.z) = mul vq.y (mul za vp.z)) }.advance Config.machine)) ∧
        (∀ ca cb : Deg11, s.prm.a = some ca → s.prm.b = some cb →
          let z2 := mul vp.z vp.z
          let z4 := mul z2 z2
          let z6 := mul z4 z2
          exec (.tOnc p) s = .next
            ({ s with onc :=
                if vp.z = zero11 then true
                else decide (mul vp.y vp.y = plus11 Config.prime (plus11 Config.prime
                  (mul (mul vp.x vp.x) vp.x) (mul (mul ca vp.x) z4)) (mul cb z6))
              }.advance Config.machine))

/-! ### Degree-22 tower -/

/-- `41_deg22_tower.md` R165 to R169. -/
def Obligations.QuadraticMoves : Prop :=
  ∀ (rd : RegE) (fd fs : RegF) (rs1 rs2 : RegE) (s : State),
    (EarlyFaults (.fOne fd) s ∧ EarlyFaults (.fCpy fd fs) s ∧ EarlyFaults (.fPack fd rs1 rs2) s ∧
      EarlyFaults (.fGetr rd fs) s ∧ EarlyFaults (.fGeti rd fs) s) ∧
    ∀ k : Constants, s.lifecycle = .ready k →
      exec (.fOne fd) s = .next
        ({ s with f := s.f.set fd.val (some ⟨one11, zero11⟩) fd.isLt }.advance Config.machine) ∧
      (∀ a : Deg22, s.f[fs.val] = some a →
        exec (.fCpy fd fs) s = .next
          ({ s with f := s.f.set fd.val (some a) fd.isLt }.advance Config.machine) ∧
        exec (.fGetr rd fs) s = .next
          ({ s with e := s.e.set rd.val (some a.re) rd.isLt }.advance Config.machine) ∧
        exec (.fGeti rd fs) s = .next
          ({ s with e := s.e.set rd.val (some a.im) rd.isLt }.advance Config.machine)) ∧
      (∀ x y : Deg11, s.e[rs1.val] = some x → s.e[rs2.val] = some y →
        exec (.fPack fd rs1 rs2) s = .next
          ({ s with f := s.f.set fd.val (some ⟨x, y⟩) fd.isLt }.advance Config.machine))

/-- `41_deg22_tower.md` R171, R172: the Karatsuba datapath gives the product of the field,
`(p.re q.re + u p.im q.im) + (p.re q.im + p.im q.re) w`. -/
def Obligations.QuadraticProduct : Prop :=
  ∀ (rd rs1 rs2 : RegF) (s : State),
    (EarlyFaults (.fMul rd rs1 rs2) s ∧ EarlyFaults (.fSqr rd rs1) s) ∧
    ∀ (k : Constants) (c : Base) (a : Deg22), s.lifecycle = .ready k → s.prm.c11 = some c →
      s.f[rs1.val] = some a →
      exec (.fSqr rd rs1) s = .next
        ({ s with f := s.f.set rd.val (some (product22 Config.prime c a a)) rd.isLt
          }.advance Config.machine) ∧
      ∀ b : Deg22, s.f[rs2.val] = some b →
        exec (.fMul rd rs1 rs2) s = .next
          ({ s with f := s.f.set rd.val (some (product22 Config.prime c a b)) rd.isLt
            }.advance Config.machine)

/-- `41_deg22_tower.md` R173: on the cyclotomic subgroup the square; elsewhere some `Deg22` value, of which
nothing is said, and no fault. The counter of free values is the model's own (log entry 6). -/
def Obligations.CyclotomicSquare : Prop :=
  ∀ (rd rs1 : RegF) (s : State), EarlyFaults (.fSqrc rd rs1) s ∧
    ∀ (k : Constants) (c : Base) (a : Deg22), s.lifecycle = .ready k → s.prm.c11 = some c →
      s.f[rs1.val] = some a →
      ∃ v : Deg22, Below22 Config.prime v ∧ (NormOne Config.prime c a → v = product22 Config.prime c a a) ∧
        exec (.fSqrc rd rs1) s = .next
          ({ s with f := s.f.set rd.val (some v) rd.isLt, free := s.free + 1 }.advance Config.machine)

/-- `41_deg22_tower.md` R174: `F.INVC` is the conjugation for every operand, and the conjugate is the
inverse exactly on the cyclotomic subgroup. -/
def Obligations.CyclotomicInverse : Prop :=
  ∀ (rd rs1 : RegF) (s : State), EarlyFaults (.fInvc rd rs1) s ∧
    ∀ (k : Constants) (a : Deg22), s.lifecycle = .ready k → s.f[rs1.val] = some a →
      ∃ v : Deg22, v.re = a.re ∧
        (∀ i : Fin 11, v.im[i] =
          (((Config.prime : Int) - (a.im[i] : Int)) % (Config.prime : Int)).toNat) ∧
        exec (.fInvc rd rs1) s = .next
          ({ s with f := s.f.set rd.val (some v) rd.isLt }.advance Config.machine) ∧
        ∀ c : Base, product22 Config.prime c a v = ⟨one11, zero11⟩ ↔ NormOne Config.prime c a

/-- `41_deg22_tower.md` R175: the Frobenius of the degree-22 field, the imaginary half negated in the upper
half of the exponents; exponent 11 is the conjugation and exponents 0, 22, 44 the identity. -/
def Obligations.QuadraticFrobenius : Prop :=
  ∀ (rd rs1 : RegF) (s : State),
    (∀ exp : Exponent, EarlyFaults (.fFrb rd rs1 exp) s) ∧
    ∀ (k : Constants) (a : Deg22), s.lifecycle = .ready k → s.f[rs1.val] = some a →
      (∀ (exp : Exponent) (j : Fin 11), j.val = exp.val % 22 % 11 →
        let re : Deg11 := Vector.ofFn fun i : Fin 11 =>
          if i.val = 0 then a.re[0] else k.frb[j][i] * a.re[i] % Config.prime
        let im : Deg11 := Vector.ofFn fun i : Fin 11 =>
          if 11 ≤ exp.val % 22 then
            (Config.prime - k.frb2[j][i] * a.im[i] % Config.prime) % Config.prime
          else k.frb2[j][i] * a.im[i] % Config.prime
        exec (.fFrb rd rs1 exp) s = .next
          ({ s with f := s.f.set rd.val (some ⟨re, im⟩) rd.isLt }.advance Config.machine)) ∧
      (s.LifecycleSound Config.machine → Below22 Config.prime a →
        exec (.fFrb rd rs1 11) s = exec (.fInvc rd rs1) s ∧
        ∀ exp : Exponent, exp.val % 22 = 0 → exec (.fFrb rd rs1 exp) s = exec (.fCpy rd rs1) s)

/-! ### Twisted curve -/

/-- `42_twist_curve.md` R200 to R207, R217: the commands that make, take apart, copy and negate points. -/
def Obligations.PointMoves : Prop :=
  ∀ (td ts : RegT) (rd x y z : RegE) (s : State),
    (∀ i ∈ [Instr.tInf td, .tCpy td ts, .tMk td x y, .tMkp td x y z, .tGetx rd ts, .tGety rd ts,
      .tGetz rd ts, .tNeg td ts, .tGen td], EarlyFaults i s) ∧
    ∀ k : Constants, s.lifecycle = .ready k →
      exec (.tInf td) s = .next
        ({ s with t := s.t.set td.val (some ⟨zero11, zero11, zero11, .affine⟩) td.isLt
          }.advance Config.machine) ∧
      (∀ vx vy : Deg11, s.e[x.val] = some vx → s.e[y.val] = some vy →
        exec (.tMk td x y) s = .next
          ({ s with t := s.t.set td.val (some ⟨vx, vy, one11, .affine⟩) td.isLt
            }.advance Config.machine) ∧
        ∀ vz : Deg11, s.e[z.val] = some vz →
          exec (.tMkp td x y z) s = .next
            ({ s with t := s.t.set td.val (some ⟨vx, vy, vz, .projective⟩) td.isLt
              }.advance Config.machine)) ∧
      (∀ gx gy : Deg11, s.prm.gen = some (gx, gy) →
        exec (.tGen td) s = .next
          ({ s with t := s.t.set td.val (some ⟨gx, gy, one11, .affine⟩) td.isLt
            }.advance Config.machine)) ∧
      ∀ q : TwistPoint, s.t[ts.val] = some q → tagOk q = true →
        let minusY : Deg11 := Vector.ofFn fun i : Fin 11 =>
          (((Config.prime : Int) - (q.y[i] : Int)) % (Config.prime : Int)).toNat
        exec (.tCpy td ts) s = .next
          ({ s with t := s.t.set td.val (some q) td.isLt }.advance Config.machine) ∧
        exec (.tNeg td ts) s = .next
          ({ s with t := s.t.set td.val (some ⟨q.x, minusY, q.z, q.tag⟩) td.isLt
            }.advance Config.machine) ∧
        exec (.tGetx rd ts) s = .next
          ({ s with e := s.e.set rd.val (some q.x) rd.isLt }.advance Config.machine) ∧
        exec (.tGety rd ts) s = .next
          ({ s with e := s.e.set rd.val (some q.y) rd.isLt }.advance Config.machine) ∧
        exec (.tGetz rd ts) s = .next
          ({ s with e := s.e.set rd.val (some q.z) rd.isLt }.advance Config.machine)

/-- `42_twist_curve.md` R194, R208, R210, R211: doubling in `BASIC` mode. The shared forms write the same
point and put the record in the latch, or invalidate it. -/
def Obligations.AffineDoubling : Prop :=
  ∀ (rd rs1 : RegT) (s : State),
    (∀ i ∈ [Instr.tDbl rd rs1 .basic, .tSdbl rd rs1 .basic, .tSdbl1 rd rs1 .basic], EarlyFaults i s) ∧
    ∀ (k : Constants) (c : Base) (a : Deg11) (q : TwistPoint), s.lifecycle = .ready k →
      s.prm.c11 = some c → s.prm.a = some a → s.t[rs1.val] = some q → tagOk q = true →
      q.tag = .affine →
      let mul := product11 Config.prime c
      let sub := minus11 Config.prime
      let dbl := fun v : Deg11 => plus11 Config.prime v v
      let lam := mul (plus11 Config.prime (plus11 Config.prime (dbl (mul q.x q.x)) (mul q.x q.x)) a)
        (inv11 ⟨Config.prime, c⟩ (dbl q.y))
      let x3 := sub (mul lam lam) (dbl q.x)
      let y3 := sub (mul lam (sub q.x x3)) q.y
      let r : TwistPoint := ⟨x3, y3, one11, .affine⟩
      let record : LineRecord := ⟨.dbl, .basic, lam, one11, q⟩
      (q.z = zero11 →
        exec (.tDbl rd rs1 .basic) s = .next
          ({ s with t := s.t.set rd.val (some q) rd.isLt }.advance Config.machine) ∧
        exec (.tSdbl rd rs1 .basic) s = .next
          ({ s with t := s.t.set rd.val (some q) rd.isLt, lc := none }.advance Config.machine) ∧
        exec (.tSdbl1 rd rs1 .basic) s = .next
          ({ s with t := s.t.set rd.val (some q) rd.isLt, lc := none }.advance Config.machine)) ∧
      (q.z ≠ zero11 → q.y = zero11 →
        exec (.tDbl rd rs1 .basic) s = .next (s.faultEntry 1 0#32) ∧
        exec (.tSdbl rd rs1 .basic) s = .next (s.faultEntry 1 0#32) ∧
        exec (.tSdbl1 rd rs1 .basic) s = .next (s.faultEntry 1 0#32)) ∧
      (q.z ≠ zero11 → q.y ≠ zero11 →
        exec (.tDbl rd rs1 .basic) s = .next
          ({ s with t := s.t.set rd.val (some r) rd.isLt }.advance Config.machine) ∧
        exec (.tSdbl rd rs1 .basic) s = .next
          ({ s with t := s.t.set rd.val (some r) rd.isLt, lc := some record
            }.advance Config.machine) ∧
        exec (.tSdbl1 rd rs1 .basic) s = .next
          ({ s with t := s.t.set rd.val (some r) rd.isLt, lc := some record }.advance Config.machine))

/-- `42_twist_curve.md` R195, R209, R212: addition in `BASIC` mode of two points with different operands or
an infinity; equal operands are `EqualOperandsDouble`. -/
def Obligations.AffineAddition : Prop :=
  ∀ (rd rs1 rs2 : RegT) (s : State),
    (EarlyFaults (.tAdd rd rs1 rs2 .basic) s ∧ EarlyFaults (.tSadd rd rs1 rs2 .basic) s) ∧
    ∀ (k : Constants) (c : Base) (a : Deg11) (p q : TwistPoint), s.lifecycle = .ready k →
      s.prm.c11 = some c → s.prm.a = some a → s.t[rs1.val] = some p → s.t[rs2.val] = some q →
      tagOk p = true → tagOk q = true → p.tag = .affine → q.tag = .affine →
      let mul := product11 Config.prime c
      let sub := minus11 Config.prime
      let lam := mul (sub q.y p.y) (inv11 ⟨Config.prime, c⟩ (sub q.x p.x))
      let x3 := sub (sub (mul lam lam) p.x) q.x
      let y3 := sub (mul lam (sub p.x x3)) p.y
      let Writes := fun (r : TwistPoint) (lc : Option LineRecord) =>
        exec (.tAdd rd rs1 rs2 .basic) s = .next
          ({ s with t := s.t.set rd.val (some r) rd.isLt }.advance Config.machine) ∧
        exec (.tSadd rd rs1 rs2 .basic) s = .next
          ({ s with t := s.t.set rd.val (some r) rd.isLt, lc := lc }.advance Config.machine)
      (p.z = zero11 → Writes q none) ∧
      (p.z ≠ zero11 → q.z = zero11 → Writes p none) ∧
      (p.z ≠ zero11 → q.z ≠ zero11 → p.x = q.x → p.y ≠ q.y →
        Writes ⟨zero11, zero11, zero11, .affine⟩ none) ∧
      (p.z ≠ zero11 → q.z ≠ zero11 → p.x ≠ q.x →
        Writes ⟨x3, y3, one11, .affine⟩ (some ⟨.add, .basic, lam, one11, q⟩))

/-- `42_twist_curve.md` R196, R208, R210, R211: doubling in `PROJC` mode; it never faults. -/
def Obligations.ProjectiveDoubling : Prop :=
  ∀ (rd rs1 : RegT) (s : State),
    (∀ i ∈ [Instr.tDbl rd rs1 .projc, .tSdbl rd rs1 .projc, .tSdbl1 rd rs1 .projc], EarlyFaults i s) ∧
    ∀ (k : Constants) (c : Base) (a : Deg11) (q : TwistPoint), s.lifecycle = .ready k →
      s.prm.c11 = some c → s.prm.a = some a → s.t[rs1.val] = some q → tagOk q = true →
      let mul := product11 Config.prime c
      let sub := minus11 Config.prime
      let dbl := fun v : Deg11 => plus11 Config.prime v v
      let xx := mul q.x q.x
      let yy := mul q.y q.y
      let zz := mul q.z q.z
      let sv := dbl (dbl (mul q.x yy))
      let m := plus11 Config.prime (plus11 Config.prime (dbl xx) xx) (mul a (mul zz zz))
      let x3 := sub (mul m m) (dbl sv)
      let y3 := sub (mul m (sub sv x3)) (dbl (dbl (dbl (mul yy yy))))
      let z3 := dbl (mul q.y q.z)
      let Writes := fun (r : TwistPoint) (lc : Option LineRecord) =>
        exec (.tDbl rd rs1 .projc) s = .next
          ({ s with t := s.t.set rd.val (some r) rd.isLt }.advance Config.machine) ∧
        exec (.tSdbl rd rs1 .projc) s = .next
          ({ s with t := s.t.set rd.val (some r) rd.isLt, lc := lc }.advance Config.machine) ∧
        exec (.tSdbl1 rd rs1 .projc) s = .next
          ({ s with t := s.t.set rd.val (some r) rd.isLt, lc := lc }.advance Config.machine)
      (q.z = zero11 → Writes q none) ∧
      (q.z ≠ zero11 → Writes ⟨x3, y3, z3, .projective⟩ (some ⟨.dbl, .projc, m, zz, q⟩))

/-- `42_twist_curve.md` R197, R209, R212: addition in `PROJC` mode. Two operands that stand for the same
point (`H = 0` and `R = 0`), in the same coordinates or in others, double the first one, which
`ProjectiveDoubling` says; the record then has kind `DBL` and that base. -/
def Obligations.ProjectiveAddition : Prop :=
  ∀ (rd rs1 rs2 : RegT) (s : State),
    (EarlyFaults (.tAdd rd rs1 rs2 .projc) s ∧ EarlyFaults (.tSadd rd rs1 rs2 .projc) s) ∧
    ∀ (k : Constants) (c : Base) (a : Deg11) (p q : TwistPoint), s.lifecycle = .ready k →
      s.prm.c11 = some c → s.prm.a = some a → s.t[rs1.val] = some p → s.t[rs2.val] = some q →
      tagOk p = true → tagOk q = true →
      let mul := product11 Config.prime c
      let sub := minus11 Config.prime
      let zp := mul p.z p.z
      let zq := mul q.z q.z
      let u1 := mul p.x zq
      let s1 := mul (mul p.y q.z) zq
      let h := sub (mul q.x zp) u1
      let d := sub (mul (mul q.y p.z) zp) s1
      let hh := mul h h
      let hhh := mul hh h
      let v := mul u1 hh
      let x3 := sub (sub (mul d d) hhh) (plus11 Config.prime v v)
      let y3 := sub (mul d (sub v x3)) (mul s1 hhh)
      let z3 := mul (mul p.z q.z) h
      let Writes := fun (r : TwistPoint) (lc : Option LineRecord) =>
        exec (.tAdd rd rs1 rs2 .projc) s = .next
          ({ s with t := s.t.set rd.val (some r) rd.isLt }.advance Config.machine) ∧
        exec (.tSadd rd rs1 rs2 .projc) s = .next
          ({ s with t := s.t.set rd.val (some r) rd.isLt, lc := lc }.advance Config.machine)
      (p.z = zero11 → Writes q none) ∧
      (p.z ≠ zero11 → q.z = zero11 → Writes p none) ∧
      (p.z ≠ zero11 → q.z ≠ zero11 → h = zero11 → d ≠ zero11 →
        Writes ⟨zero11, zero11, zero11, .projective⟩ none) ∧
      (p.z ≠ zero11 → q.z ≠ zero11 → h = zero11 → d = zero11 →
        exec (.tAdd rd rs1 rs2 .projc) s = exec (.tDbl rd rs1 .projc) s ∧
        exec (.tSadd rd rs1 rs2 .projc) s = exec (.tSdbl rd rs1 .projc) s ∧
        ∃ (r : TwistPoint) (m : Deg11),
          Writes r (some ⟨.dbl, .projc, m, mul p.z p.z, p⟩)) ∧
      (p.z ≠ zero11 → q.z ≠ zero11 → h ≠ zero11 →
        Writes ⟨x3, y3, z3, .projective⟩ (some ⟨.add, .projc, d, z3, q⟩))

/-- `42_twist_curve.md` R195, R197, R209, R212, R218 ("`dbl(a) == add(a, a)`"): when the two source
registers hold the same, the addition is the doubling, faults and line record included, in either mode;
and `T.SDBL1` is `T.SDBL` (R211). Two forms of one point in different coordinates are in
`ProjectiveAddition`. -/
def Obligations.EqualOperandsDouble : Prop :=
  ∀ (rd rs1 rs2 : RegT) (mode : Mode) (s : State), s.t[rs1.val] = s.t[rs2.val] →
    exec (.tAdd rd rs1 rs2 mode) s = exec (.tDbl rd rs1 mode) s ∧
    exec (.tSadd rd rs1 rs2 mode) s = exec (.tSdbl rd rs1 mode) s ∧
    exec (.tSdbl1 rd rs1 mode) s = exec (.tSdbl rd rs1 mode) s

/-- `42_twist_curve.md` R213: the closed form of the curve Frobenius. With `m = e mod 22` and `j = m mod 11`,
`x` is multiplied by `GAM^(s j)` and `y` by `DEL^(3 s m)` after the tower Frobenius, `s = 1` for a D-type
and `s = -1` for an M-type twist; `z` takes the tower Frobenius and the tag is kept. -/
def Obligations.CurveFrobenius : Prop :=
  ∀ (rd rs1 : RegT) (exp : Exponent) (s : State), EarlyFaults (.tFrb rd rs1 exp) s ∧
    ∀ (k : Constants) (tw : Twist) (q : TwistPoint), s.lifecycle = .ready k →
      s.prm.twist = some tw → s.t[rs1.val] = some q → tagOk q = true →
      BelowPoint Config.prime q → s.LifecycleSound Config.machine →
      let m := exp.val % 22
      let j := m % 11
      let frob : Deg11 → Deg11 := fun x =>
        Vector.ofFn fun i : Fin 11 => k.gam ^ (i.val * j % 11) * x[i] % Config.prime
      let ex := match tw with
        | .dType => j
        | .mType => 10 * j % 11
      let ey := match tw with
        | .dType => 3 * m % 22
        | .mType => 19 * m % 22
      let x : Deg11 := Vector.ofFn fun i : Fin 11 => k.gam ^ ex * (frob q.x)[i] % Config.prime
      let y : Deg11 := Vector.ofFn fun i : Fin 11 => k.del ^ ey * (frob q.y)[i] % Config.prime
      exec (.tFrb rd rs1 exp) s = .next
        ({ s with t := s.t.set rd.val (some ⟨x, y, frob q.z, q.tag⟩) rd.isLt
          }.advance Config.machine)

/-- `42_twist_curve.md` R214. -/
def Obligations.Normalisation : Prop :=
  ∀ (rd rs1 : RegT) (inverted : Bool) (s : State), EarlyFaults (.tNorm rd rs1 inverted) s ∧
    ∀ (k : Constants) (c : Base) (q : TwistPoint), s.lifecycle = .ready k → s.prm.c11 = some c →
      s.t[rs1.val] = some q → tagOk q = true →
      let mul := product11 Config.prime c
      let zi := if inverted then q.z else inv11 ⟨Config.prime, c⟩ q.z
      let zi2 := mul zi zi
      let r : TwistPoint :=
        if q.z = zero11 then ⟨zero11, zero11, zero11, .affine⟩
        else if q.tag = .affine then q
        else ⟨mul q.x zi2, mul (mul q.y zi2) zi, one11, .affine⟩
      exec (.tNorm rd rs1 inverted) s = .next
        ({ s with t := s.t.set rd.val (some r) rd.isLt }.advance Config.machine)

/-- `43_isogeny.md` R242, R243: the 2-isogeny and its dual; the result is always tagged affine. -/
def Obligations.Isogenies : Prop :=
  ∀ (rd rs1 : RegT) (s : State),
    (EarlyFaults (.tIso rd rs1) s ∧ EarlyFaults (.tIsod rd rs1) s) ∧
    ∀ (k : Constants) (c : Base) (tor2 : Deg11) (q : TwistPoint), s.lifecycle = .ready k →
      s.prm.c11 = some c → s.prm.tor2 = some tor2 → s.t[rs1.val] = some q → tagOk q = true →
      let mul := product11 Config.prime c
      let add := plus11 Config.prime
      let sub := minus11 Config.prime
      let inv := inv11 ⟨Config.prime, c⟩
      let zi := inv q.z
      let x := if q.tag = .affine then q.x else mul q.x (mul zi zi)
      let y := if q.tag = .affine then q.y else mul q.y (mul (mul zi zi) zi)
      let infinity : TwistPoint := ⟨zero11, zero11, zero11, .affine⟩
      (∀ isoT : Deg11, s.prm.isoT = some isoT →
        let d := inv (sub x tor2)
        let t := mul isoT d
        let r : TwistPoint :=
          if q.z = zero11 then infinity else if sub x tor2 = zero11 then infinity
          else ⟨add x t, mul y (sub one11 (mul t d)), one11, .affine⟩
        exec (.tIso rd rs1) s = .next
          ({ s with t := s.t.set rd.val (some r) rd.isLt }.advance Config.machine)) ∧
      (∀ isoD : Deg11, s.prm.isoD = some isoD →
        let bigX := add x (add tor2 tor2)
        let d := inv bigX
        let yd := mul y d
        let h2 := k.half * k.half % Config.prime
        let h3 := h2 * k.half % Config.prime
        let scale : Nat → Deg11 → Deg11 := fun n v =>
          Vector.ofFn fun i : Fin 11 => n * v[i] % Config.prime
        let r : TwistPoint :=
          if q.z = zero11 then infinity else if bigX = zero11 then infinity
          else ⟨add tor2 (scale h2 (mul yd yd)),
            scale h3 (mul (mul yd d) (sub (mul bigX bigX) isoD)), one11, .affine⟩
        exec (.tIsod rd rs1) s = .next
          ({ s with t := s.t.set rd.val (some r) rd.isLt }.advance Config.machine))

/-! ### Pairing engine -/

/-- `44_pairing_engine.md` R258: the line value of the latch at a base point, with the checks in the order
identity, latch, tag of the base. The latch is kept. -/
def Obligations.LineEvaluation : Prop :=
  ∀ (fd : RegF) (gs : RegG) (s : State), EarlyFaults (.line fd gs) s ∧
    ∀ (k : Constants) (c : Base) (g : BasePoint) (tw : Twist), s.lifecycle = .ready k →
      s.prm.c11 = some c → s.g[gs.val] = some g → s.prm.twist = some tw →
      (g.inf = true →
        exec (.line fd gs) s = .next (s.faultEntry 8 (BitVec.ofNat 32 (4 * 2 ^ 8 + gs.val)))) ∧
      (g.inf = false → s.lc = none → exec (.line fd gs) s = .next (s.faultEntry 9 0#32)) ∧
      ∀ r : LineRecord, g.inf = false → s.lc = some r →
        let b := r.base
        let mul := product11 Config.prime c
        let sub := minus11 Config.prime
        let dbl := fun v : Deg11 => plus11 Config.prime v v
        let scale : Nat → Deg11 → Deg11 := fun n v =>
          Vector.ofFn fun i : Fin 11 => n * v[i] % Config.prime
        let chord := r.kind = .add ∨ r.mode = .basic
        let kv := if chord then r.zaux else mul (dbl (mul b.y b.z)) r.zaux
        let cv := if chord then sub (mul r.slope b.x) (mul kv b.y)
          else sub (mul r.slope b.x) (dbl (mul b.y b.y))
        let sv := if chord then r.slope else mul r.slope r.zaux
        (r.kind = .add → b.tag = .projective →
          exec (.line fd gs) s = .next (s.faultEntry 8 (BitVec.ofNat 32 (4 * 2 ^ 28)))) ∧
        (¬(r.kind = .add ∧ b.tag = .projective) →
          let l : Deg22 := match tw with
            | .dType => ⟨scale g.y kv, sub (timesU Config.prime c cv) (scale g.x sv)⟩
            | .mType => ⟨sub cv (timesU Config.prime c (scale g.x sv)),
                timesU Config.prime c (scale g.y kv)⟩
          exec (.line fd gs) s = .next
            ({ s with f := s.f.set fd.val (some l) fd.isLt }.advance Config.machine))

/-- `44_pairing_engine.md` R261, R266, R268, R270: an identity on either side gives one in the target group
without entering the loop, for both Miller commands and in both modes, and invalidates the latch. -/
def Obligations.DegeneratePairing : Prop :=
  ∀ (fd : RegF) (ts : RegT) (gs : RegG) (mode : Mode) (s : State),
    (EarlyFaults (.miller fd ts gs mode) s ∧ EarlyFaults (.miller2 fd ts gs mode) s) ∧
    ∀ (k : Constants) (q : TwistPoint) (g : BasePoint), s.lifecycle = .ready k →
      s.t[ts.val] = some q → s.g[gs.val] = some g → tagOk q = true → q.tag = .affine →
      s.prm.twist.isSome = true → s.prm.a.isSome = true → q.z = zero11 ∨ g.inf = true →
      (s.prm.naf.isSome = true → s.prm.seedfix.isSome = true → s.prm.post.isSome = true →
        exec (.miller fd ts gs mode) s = .next
          ({ s with
              f := s.f.set fd.val (some ⟨one11, zero11⟩) fd.isLt
              lc := none
              ml := ⟨false, false, .idle, 0#16, none⟩ }.advance Config.machine)) ∧
      (s.prm.tor2.isSome = true → s.prm.isoT.isSome = true → s.prm.naf2.isSome = true →
        exec (.miller2 fd ts gs mode) s = .next
          ({ s with
              f := s.f.set fd.val (some ⟨one11, zero11⟩) fd.isLt
              lc := none
              ml := ⟨false, true, .idle, 0#16, none⟩ }.advance Config.machine))

/-- `44_pairing_engine.md` R259 to R268: the standard loop, for every digit string, in both modes, with
any `SEEDFIX` and `POST`: `MILLER` answers as the phases of R262 to R265 say, one after another, with
the value they come to or the fault of the first phase that faults. The group law, the line value, the
curve Frobenius and the normalisation that the phases call are those that the statements on `T.SDBL`,
`T.SADD`, `LINE`, `T.FRB` and `T.NORM` are about; the degenerate inputs are `DegeneratePairing`.
`ML.variant` and the data fields after a fault are log entries 16 and 8; what the 16-bit `ML.i` shows of
an index of 2^16 or more is a free value, `past`, of which nothing is said (log entry 27).
The last part writes out the shortest loop: two digits in `PROJC` mode with both post-loop steps
disabled. The accumulator is the line of the one doubling, times the line of the addition where the low
digit is not zero and the addition gives a record (of either kind), conjugated when `SEEDFIX` is 1. -/
def Obligations.StandardMillerLoop : Prop :=
  (∀ (fd : RegF) (ts : RegT) (gs : RegG) (mode : Mode) (s : State) (k : Constants) (c : Base)
    (q : TwistPoint) (g : BasePoint) (tw : Twist) (a : Deg11) (naf : List Digit) (seedfix : Bool)
    (post : PostStep × PostStep), s.lifecycle = .ready k → s.prm.c11 = some c → s.t[ts.val] = some q →
    s.g[gs.val] = some g → s.prm.twist = some tw → s.prm.a = some a → s.prm.naf = some naf →
    s.prm.seedfix = some seedfix → s.prm.post = some post →
    tagOk q = true → q.tag = .affine → q.z ≠ zero11 → g.inf = false → 2 ≤ naf.length →
    ∃ past : Nat → BitVec 16,
    let e : MillerFsm :=
      { c := Config.machine, fl := ⟨Config.prime, c⟩, k := k, tw := tw, a := a, mode := mode,
        superOptimal := false, digits := naf, q := q, g := g, past := past, seedfix := seedfix,
        post := post }
    e.Decides s fd (exec (.miller fd ts gs mode) s)) ∧
  (∀ (fd : RegF) (ts : RegT) (gs : RegG) (s : State) (k : Constants) (c : Base) (q : TwistPoint)
    (g : BasePoint) (tw : Twist) (a : Deg11) (digit : Digit) (seedfix : Bool) (e0 e1 : Fin 22)
    (n0 n1 : Bool), s.lifecycle = .ready k → s.prm.c11 = some c → s.t[ts.val] = some q →
    s.g[gs.val] = some g → s.prm.twist = some tw → s.prm.a = some a →
    s.prm.naf = some [digit, .plus] → s.prm.seedfix = some seedfix →
    s.prm.post = some (⟨.disabled, e0, n0⟩, ⟨.disabled, e1, n1⟩) →
    tagOk q = true → q.tag = .affine → q.z ≠ zero11 → g.inf = false →
    let fl : Field := ⟨Config.prime, c⟩
    let conj := fun (v : Deg22) => if seedfix then
      (⟨v.re, Vector.ofFn fun i : Fin 11 =>
        (((Config.prime : Int) - (v.im[i] : Int)) % (Config.prime : Int)).toNat⟩ : Deg22) else v
    let Writes := fun (v : Deg22) =>
      exec (.miller fd ts gs .projc) s = .next
        ({ s with
            f := s.f.set fd.val (some (conj v)) fd.isLt
            lc := none
            ml := ⟨false, false, .idle, 0#16, none⟩ }.advance Config.machine)
    ∃ (r1 : LineRecord) (l1 : Deg22), (jacDbl fl a q).2 = some r1 ∧ lineValue fl tw r1 g = .ok l1 ∧
      (digit = .zero → Writes l1) ∧
      (∀ pt : TwistPoint,
        (digit = .plus ∧ pt = q) ∨ (digit = .minus ∧ pt = ⟨q.x, Vector.ofFn fun i : Fin 11 =>
          (((Config.prime : Int) - (q.y[i] : Int)) % (Config.prime : Int)).toNat, q.z, q.tag⟩) →
        ∀ r2 : LineRecord, (jacAdd fl a (jacDbl fl a q).1 pt).2 = some r2 →
          ∃ l2 : Deg22, lineValue fl tw r2 g = .ok l2 ∧ Writes (product22 Config.prime c l1 l2)))

/-- `44_pairing_engine.md` R267, R268, `60_exceptions.md` R331, R339: the step at which a loop faults
when the input has `y = 0`. In `BASIC` mode the first doubling raises `ArithPrecondition`; in `PROJC`
mode it gives infinity, and the next step, the addition of the same index or the doubling of the next
one, raises `LineInvalid` with `EINFO = phase * 2^16 + i`. Nothing but the cause registers, `RS` and
`ML` changes. That `ML.variant` is then that of the run is the model's reading (log entry 16), and that
the data fields hold nothing is its representation (log entry 8). `i` is the index as `ML.i` shows it:
of one of 2^16 or more, a free value (log entry 27). -/
def Obligations.MillerFaultSteps : Prop :=
  ∀ (fd : RegF) (ts : RegT) (gs : RegG) (s : State) (k : Constants) (c : Base) (q : TwistPoint)
    (g : BasePoint) (naf : List Digit) (digit : Digit), s.lifecycle = .ready k →
    s.prm.c11 = some c → s.t[ts.val] = some q → s.g[gs.val] = some g → s.prm.twist.isSome = true →
    s.prm.a.isSome = true → s.prm.naf = some naf → s.prm.seedfix.isSome = true →
    s.prm.post.isSome = true → tagOk q = true → q.tag = .affine → q.z ≠ zero11 → q.y = zero11 →
    g.inf = false → 2 ≤ naf.length → naf[naf.length - 2]? = some digit →
    let Faults := fun (mode : Mode) (code : Nat) (einfo : BitVec 16 → BitVec 32) (phase : Phase)
        (i : Nat) =>
      ∃ v : BitVec 16, (i < 2 ^ 16 → v = BitVec.ofNat 16 i) ∧
      exec (.miller fd ts gs mode) s = .next
        { s with
          ecause := BitVec.ofNat 4 code
          epc := s.pc
          einfo := einfo v
          run := .faulted
          ml := ⟨false, false, phase, v, none⟩ }
    Faults .basic 1 (fun _ => 0#32) .dbl (naf.length - 2) ∧
    (digit ≠ .zero →
      Faults .projc 9 (fun v => BitVec.ofNat 32 (3 * 2 ^ 16 + v.toNat)) .add (naf.length - 2)) ∧
    (digit = .zero → 3 ≤ naf.length →
      Faults .projc 9 (fun v => BitVec.ofNat 32 (2 * 2 ^ 16 + v.toNat)) .dbl (naf.length - 3))

/-- `44_pairing_engine.md` R270, R271: the super-optimal loop, for every digit string, in both modes and
for every configuration of the hooks, the machine's open one among them: `MILLER2` answers as its phases
say, with the second accumulator, the corrections, `FOLD` and `COMBINE`, with `OperandFault` where
`IsoG1` gives the identity and `ArithPrecondition` where a correction does. The values of the hooks are
reduced modulo `P` (log entry 9); the `EINFO` of that `OperandFault`, the place of `FOLD` and the phase
of a hook's fault are the model's reading (log entries 15 and 23). The hypothesis on `conf` fixes its prime
and leaves its hooks open. `past` is as in `StandardMillerLoop` (log entry 27).
The last part: with the trivial configuration, `MILLER2` with `NAF2 = NAF` gives what `MILLER` gives
with `SEEDFIX = 0` and both `POST` steps disabled. -/
def Obligations.SuperOptimalMillerLoop : Prop :=
  (∀ (fd : RegF) (ts : RegT) (gs : RegG) (mode : Mode) (s : State) (conf : Config) (k : Constants)
    (c : Base) (q : TwistPoint) (g : BasePoint) (tw : Twist) (a tor2 isoT : Deg11)
    (naf2 : List Digit), conf.p = Config.prime → s.lifecycle = .ready k → s.prm.c11 = some c →
    s.t[ts.val] = some q → s.g[gs.val] = some g → s.prm.twist = some tw → s.prm.a = some a →
    s.prm.tor2 = some tor2 → s.prm.isoT = some isoT → s.prm.naf2 = some naf2 →
    tagOk q = true → q.tag = .affine → q.z ≠ zero11 → g.inf = false → 2 ≤ naf2.length →
    (∃ past : Nat → BitVec 16,
    let e : MillerFsm :=
      { c := conf, fl := ⟨Config.prime, c⟩, k := k, tw := tw, a := a, mode := mode,
        superOptimal := true, digits := naf2, q := q, g := g, past := past, tor2 := tor2,
        isoT := isoT,
        gLoc := BitVec.ofNat 32 (4 * 2 ^ 8 + gs.val) }
    e.Decides s fd (execMiller2 fd ts gs mode s conf)) ∧
      exec (.miller2 fd ts gs mode) s = execMiller2 fd ts gs mode s Config.machine) ∧
  (∀ (fd : RegF) (ts : RegT) (gs : RegG) (mode : Mode) (s : State) (v : Deg22) (e0 e1 : Fin 22)
    (n0 n1 : Bool),
    let c : Config := { Config.machine with superOpt := SuperOpt.trivial }
    s.prm.naf2 = s.prm.naf → s.prm.seedfix = some false →
    s.prm.post = some (⟨.disabled, e0, n0⟩, ⟨.disabled, e1, n1⟩) →
    s.prm.tor2.isSome = true → s.prm.isoT.isSome = true →
    execMiller fd ts gs mode s c = .next
      ({ s with
          f := s.f.set fd.val (some v) fd.isLt
          lc := none
          ml := ⟨false, false, .idle, 0#16, none⟩ }.advance c) →
    execMiller2 fd ts gs mode s c = .next
      ({ s with
          f := s.f.set fd.val (some v) fd.isLt
          lc := none
          ml := ⟨false, true, .idle, 0#16, none⟩ }.advance c))

/-! ### Invariants that every step keeps -/

/-- `20_memory.md` R60 to R62: both memories stay in canonical form and list only words that exist. -/
def Obligations.StepKeepsMemorySound : Prop :=
  ∀ s t : State, s.MemorySound Config.machine → step s = .next t → t.MemorySound Config.machine

/-- `00_scope.md` R12, R13, `40_deg11_tower.md` R126, `41_deg22_tower.md` R162: every coefficient the machine
holds stays in `[0, P)`, and every word of `DM` stays below `2^W`. The part on U registers is of the model's
representation alone: it stores residues, where `10_state.md` R23 leaves the integers in the slots open
(log entry 7, `93_implementation_defined.md` U8). -/
def Obligations.StepKeepsInRange : Prop :=
  ∀ s t : State, s.InRange Config.machine → step s = .next t → t.InRange Config.machine

/-- `10_state.md` R25, `42_twist_curve.md` R192: every writer of a T register keeps the tag invariant. -/
def Obligations.StepKeepsTagsSound : Prop :=
  ∀ s t : State, s.TagsSound → step s = .next t → t.TagsSound

/-- `10_state.md` R31, R33, R34: in `READY` the constants stay those of the accepted `C11`, and the digit
strings loaded stay of a legal length with top digit +1. -/
def Obligations.StepKeepsParametersSound : Prop :=
  ∀ s t : State, step s = .next t →
    (s.LifecycleSound Config.machine → t.LifecycleSound Config.machine) ∧
    (s.DigitStringsSound Config.machine → t.DigitStringsSound Config.machine)

/-- `10_state.md` R30, R39, `60_exceptions.md` R341, R347: between commands the Miller machine rests, and the
cause registers are clear until a fault and then name one of the ten causes at `pc`; a counter past 0xFFFF
(`45_data_movement_system.md` R302; log entry 5) is that of a block that runs or has faulted. -/
def Obligations.StepKeepsRunSound : Prop :=
  ∀ s t : State, s.RunSound → step s = .next t → t.RunSound

/-- The state after reset satisfies every invariant. -/
def Obligations.ResetIsSound : Prop := State.reset.Sound Config.machine

/-! ### Reset and the host -/

/-- `10_state.md` R45, `70_reset_and_hazards.md` R371, R372: the value of every piece of state after reset;
soft reset keeps the two memories. The counter `free` is the model's own (log entry 24). -/
def Obligations.ResetValues : Prop :=
  (∀ s : State, s.hardReset = { State.reset with free := s.free + 1 } ∧
    s.softReset = { State.reset with dm := s.dm, cm := s.cm, free := s.free + 1 }) ∧
  (∀ r : RegE, State.reset.e[r.val] = none) ∧ (∀ r : RegU, State.reset.u[r.val] = none) ∧
  (∀ r : RegF, State.reset.f[r.val] = none) ∧ (∀ r : RegT, State.reset.t[r.val] = none) ∧
  (∀ r : RegG, State.reset.g[r.val] = none) ∧
  State.reset.pc = 0#16 ∧ State.reset.pastTop = false ∧ State.reset.eq = false ∧ State.reset.onc = false ∧
  State.reset.lc = none ∧ State.reset.ml = ⟨false, false, .idle, 0#16, none⟩ ∧
  State.reset.lifecycle = .config ∧ State.reset.run = .idle ∧
  (∀ n, slotLoaded State.reset.prm n = false) ∧ State.reset.ie = false ∧
  State.reset.ecause = 0#4 ∧ State.reset.epc = 0#16 ∧ State.reset.einfo = 0#32 ∧
  (∀ a, Memory.read State.reset.dm a = none) ∧ (∀ a, Memory.read State.reset.cm a = none) ∧
  hostReadCSR State.reset 1 = 0#32 ∧ hostReadCSR State.reset 8 = 1#32 ∧ State.reset.irq = false

/-- `10_state.md` R37, R40, R41, R43, `60_exceptions.md` R346: what the host reads in the control registers,
and the `irq` output. -/
def Obligations.ControlRegisterReads : Prop :=
  ∀ (s : State) (i : Nat),
    ((hostReadCSR s 1).getLsbD i =
      (decide (i = 0 ∧ s.run = .run) || decide (i = 1 ∧ s.run = .halted) ||
        decide (i = 2 ∧ s.run = .faulted) || decide (i = 3 ∧ s.lifecycle ≠ .config) ||
        decide (i = 4 ∧ s.lc ≠ none))) ∧
    hostReadCSR s 3 = s.ecause.setWidth 32 ∧ hostReadCSR s 4 = s.epc.setWidth 32 ∧
    hostReadCSR s 5 = s.einfo ∧
    ((hostReadCSR s 6).getLsbD i = (decide (i = 0 ∧ s.eq = true) || decide (i = 1 ∧ s.onc = true))) ∧
    ((hostReadCSR s 7).getLsbD i =
      if i < 16 then s.ml.i.getLsbD i
      else if i < 20 then s.ml.phase.code.testBit (i - 16)
      else if i = 20 then s.ml.active else decide (i = 21) && s.ml.variant) ∧
    hostReadCSR s 8 = 0x00000001#32 ∧ (9 ≤ i → hostReadCSR s i = 0#32) ∧
    s.irq = (s.ie && ((hostReadCSR s 1).getLsbD 1 || (hostReadCSR s 1).getLsbD 2))

/-- `10_state.md` R35, R36, R38, R43: what the host writes through the control registers. `SRST` wins over
`START`; `START` and `PC` act only in `IDLE` and `HALTED`; every other register ignores a write. -/
def Obligations.ControlRegisterWrites : Prop :=
  ∀ (s : State) (n : Nat) (v : BitVec 32),
    hostReadCSR s 0 = (if s.ie then 4#32 else 0#32) ∧ hostReadCSR s 2 = s.pc.setWidth 32 ∧
    hostWriteCSR s 0 v =
      (if v.getLsbD 1 then { State.reset with dm := s.dm, cm := s.cm, free := s.free + 1 }
      else if v.getLsbD 0 = true ∧ (s.run = .idle ∨ s.run = .halted) then
        { s with ie := v.getLsbD 2, run := .run }
      else { s with ie := v.getLsbD 2 }) ∧
    hostWriteCSR s 2 v =
      (if s.run = .idle ∨ s.run = .halted then { s with pc := v.setWidth 16, pastTop := false } else s) ∧
    (n ≠ 0 → n ≠ 2 → hostWriteCSR s n v = s)

/-- `20_memory.md` R80: the host's transactions on the memories while the block does not run. A sound
state lists no word past a memory, so that a read there returns 0. It is said of a block of every
configuration, the machine's among them. -/
def Obligations.HostMemoryTransactions : Prop :=
  ∀ (c : Config) (s : State) (a v : Nat) (w : BitVec 32), s.run ≠ .run → v < 2 ^ c.w →
    (∃ m : Memory Nat, hostWriteDM s a v c = .next { s with dm := m } ∧
      (c.dmWords ≤ a → m = s.dm) ∧
      (a < c.dmWords → ∀ b,
        Memory.read m b = if b = a then some v else Memory.read s.dm b)) ∧
    (∃ m : Memory (BitVec 32), hostWriteCM s a w c = .next { s with cm := m } ∧
      (c.cmWords ≤ a → m = s.cm) ∧
      (a < c.cmWords → ∀ b,
        Memory.read m b = if b = a then some w else Memory.read s.cm b)) ∧
    hostReadDM s a = .ok ((Memory.read s.dm a).getD 0) ∧
    hostReadCM s a = .ok ((Memory.read s.cm a).getD 0#32) ∧
    (s.MemorySound c →
      (c.dmWords ≤ a → hostReadDM s a = .ok 0) ∧
      (c.cmWords ≤ a → hostReadCM s a = .ok 0#32))

/-- `20_memory.md` R80, `10_state.md` R36, R38, `70_reset_and_hazards.md` R371, R372: no move of the host breaks
an invariant. -/
def Obligations.HostMovesKeepSound : Prop :=
  ∀ s : State, s.Sound Config.machine →
    (∀ (a v : Nat) (t : State), hostWriteDM s a v = .next t → t.Sound Config.machine) ∧
    (∀ (a : Nat) (w : BitVec 32) (t : State), hostWriteCM s a w = .next t → t.Sound Config.machine) ∧
    (∀ (n : Nat) (v : BitVec 32), (hostWriteCSR s n v).Sound Config.machine) ∧
    s.softReset.Sound Config.machine ∧ s.hardReset.Sound Config.machine
end

