-- ==== Sys2Proof/Laws/Config.lean ====
section
/-! SUPPORT. What is known of the machine's configuration: the constraints the spec states, and no
more. -/

namespace Sys2Proof

@[simp] theorem Config.machine_p : Config.machine.p = Config.prime := rfl

theorem Config.prime_admissible : Config.admissiblePrime Config.prime := by
  unfold Config.prime
  split
  · assumption
  · exact ⟨by norm_num, by norm_num⟩

theorem Config.prime_prime : Config.prime.Prime := Config.prime_admissible.1

theorem Config.prime_mod : Config.prime % 22 = 1 := Config.prime_admissible.2

theorem Config.prime_pos : 0 < Config.prime := Config.prime_prime.pos

/-- The least prime congruent to 1 modulo 22 is 23. -/
theorem Config.prime_ge : 23 ≤ Config.prime := by
  have h := Config.prime_mod
  have h2 := Config.prime_prime.two_le
  omega

theorem Config.dmWords_le : Config.machine.dmWords ≤ 2 ^ 18 :=
  Nat.le_of_lt_succ (Nat.mod_lt Config.dmWordsRaw (by decide))

theorem Config.cmWords_bounds :
    1 ≤ Config.machine.cmWords ∧ Config.machine.cmWords ≤ 2 ^ 16 := by
  have h := Nat.mod_lt Config.cmWordsRaw (y := 2 ^ 16) (by decide)
  simp only [Config.machine]
  omega

/-- A base-field value fits a word of data memory. -/
theorem Config.prime_le_word : Config.prime ≤ 2 ^ Config.machine.w := by
  have h := Nat.lt_log2_self (n := Config.prime - 1)
  have h1 := Config.prime_pos
  simp only [Config.w, Config.machine_p]
  omega

end Sys2Proof
end

