-- ==== Sys2Proof/Laws/Field.lean ====
section
/-! SUPPORT. The laws of the base field and of the degree-11 tower: what each coefficient of a result
is, that results are in range, and that the operations are the ring operations modulo `P` with
`u^11 = C11`. -/

namespace Sys2Proof.Machine

open Sys2Proof

/-! ### Base field -/

theorem addP_lt {p : Nat} (hp : 0 < p) (a b : Nat) : addP p a b < p := Nat.mod_lt _ hp

theorem mulP_lt {p : Nat} (hp : 0 < p) (a b : Nat) : mulP p a b < p := Nat.mod_lt _ hp

theorem subP_lt {p : Nat} (hp : 0 < p) (a b : Nat) : subP p a b < p := by
  have h1 := Int.emod_nonneg ((a : Int) - b) (b := (p : Int)) (by omega)
  have h2 := Int.emod_lt_of_pos ((a : Int) - b) (b := (p : Int)) (by omega)
  unfold subP
  omega

theorem negP_lt {p : Nat} (hp : 0 < p) (a : Nat) : negP p a < p := subP_lt hp p a

@[simp] theorem addP_cast (p a b : Nat) : ((addP p a b : Nat) : ZMod p) = a + b := by
  simp [addP]

@[simp] theorem mulP_cast (p a b : Nat) : ((mulP p a b : Nat) : ZMod p) = a * b := by
  simp [mulP]

theorem subP_cast {p : Nat} (hp : 0 < p) (a b : Nat) : ((subP p a b : Nat) : ZMod p) = a - b := by
  have h1 := Int.emod_nonneg ((a : Int) - b) (b := (p : Int)) (by omega)
  have h2 : ((subP p a b : Nat) : Int) = ((a : Int) - b) % p := Int.toNat_of_nonneg h1
  have h3 : (((subP p a b : Nat) : Int) : ZMod p) = ((((a : Int) - b) % p : Int) : ZMod p) := by rw [h2]
  rw [ZMod.intCast_mod] at h3
  simpa using h3

theorem negP_cast {p : Nat} (hp : 0 < p) (a : Nat) : ((negP p a : Nat) : ZMod p) = -a := by
  rw [negP, subP_cast hp]
  simp

/-- The spec's `-p a = (P - a) mod P` for a value in range. -/
theorem negP_eq {p a : Nat} (ha : a ≤ p) : negP p a = (p - a) % p := by
  unfold negP subP
  rw [← Nat.cast_sub ha, ← Int.natCast_mod, Int.toNat_natCast]

/-- The spec's `a -p b` for values in range, without negative numbers. -/
theorem subP_eq {p a b : Nat} (hb : b ≤ p) : subP p a b = (a + (p - b)) % p := by
  unfold subP
  have h : (a : Int) - b = ((a + (p - b) : Nat) : Int) - p := by push_cast [hb]; ring
  rw [h, Int.sub_emod_right, ← Int.natCast_mod, Int.toNat_natCast]

/-- Equal modulo `P` and in range is equal. -/
theorem eq_of_cast {p a b : Nat} (ha : a < p) (hb : b < p) (h : (a : ZMod p) = b) : a = b := by
  have h1 := (ZMod.natCast_eq_natCast_iff' a b p).mp h
  rwa [Nat.mod_eq_of_lt ha, Nat.mod_eq_of_lt hb] at h1

/-- Power by squaring is the power, in any monoid an interpretation maps to. -/
theorem powBits_map {α M : Type} [Monoid M] {mul : α → α → α} {one : α} (φ : α → M)
    (hone : φ one = 1) (hmul : ∀ x y, φ (mul x y) = φ x * φ y) (fuel : Nat) (x : α) (n : Nat)
    (h : n < 2 ^ fuel) : φ (powBits mul one fuel x n) = φ x ^ n := by
  induction fuel generalizing x n with
  | zero => simp [powBits, hone, show n = 0 by omega]
  | succ fuel ih =>
    rw [powBits]
    split
    · next h0 => simp [h0, hone]
    · have hn : n / 2 < 2 ^ fuel := by rw [pow_succ] at h; omega
      have hsq : φ (powBits mul one fuel (mul x x) (n / 2)) = φ x ^ (2 * (n / 2)) := by
        rw [ih _ _ hn, hmul, ← pow_two, ← pow_mul]
      dsimp only
      split
      · next h1 => rw [hmul, hsq, ← pow_succ', show 2 * (n / 2) + 1 = n by omega]
      · next h1 => rw [hsq, show 2 * (n / 2) = n by omega]

theorem power_map {α M : Type} [Monoid M] {mul : α → α → α} {one : α} (φ : α → M)
    (hone : φ one = 1) (hmul : ∀ x y, φ (mul x y) = φ x * φ y) (x : α) (n : Nat) :
    φ (power mul one x n) = φ x ^ n :=
  powBits_map φ hone hmul _ x n Nat.lt_log2_self

/-- A property of the unit that every product has holds of every power. -/
theorem power_induct {α : Type} {mul : α → α → α} {one : α} (good : α → Prop) (hone : good one)
    (hmul : ∀ x y, good (mul x y)) (x : α) (n : Nat) : good (power mul one x n) := by
  have key : ∀ (fuel : Nat) (x : α) (n : Nat), good (powBits mul one fuel x n) := by
    intro fuel
    induction fuel with
    | zero => exact fun _ _ => hone
    | succ fuel ih =>
      intro x n
      rw [powBits]
      split
      · exact hone
      · dsimp only
        split
        · exact hmul _ _
        · exact ih _ _
  exact key _ x n

theorem powP_lt {p : Nat} (hp : 0 < p) (a n : Nat) : powP p a n < p :=
  power_induct (fun v => v < p) (Nat.mod_lt _ hp) (fun x y => mulP_lt hp x y) a n

theorem powP_cast (p a n : Nat) : ((powP p a n : Nat) : ZMod p) = (a : ZMod p) ^ n :=
  power_map (fun v : Nat => (v : ZMod p)) (by simp) (fun x y => mulP_cast p x y) a n

/-- `a ^p n` is `a^n mod P` (`00_scope.md` R12). -/
theorem powP_eq {p : Nat} (hp : 0 < p) (a n : Nat) : powP p a n = a ^ n % p := by
  refine eq_of_cast (powP_lt hp a n) (Nat.mod_lt _ hp) ?_
  rw [powP_cast]
  simp

/-- `inv_p(a)` is the inverse, for a prime `P` (`00_scope.md` R12). -/
theorem invP_spec {p a : Nat} (hp : p.Prime) (ha : (a : ZMod p) ≠ 0) :
    a * invP p a % p = 1 ∧ 1 ≤ invP p a ∧ invP p a < p := by
  have hf : Fact p.Prime := ⟨hp⟩
  have h2 := hp.two_le
  have h1 : ((a * invP p a : Nat) : ZMod p) = 1 := by
    rw [Nat.cast_mul, invP, powP_cast, ← pow_succ', show p - 2 + 1 = p - 1 by omega]
    exact ZMod.pow_card_sub_one_eq_one ha
  have h3 : a * invP p a % p = 1 := by
    refine eq_of_cast (Nat.mod_lt _ hp.pos) hp.one_lt ?_
    rw [ZMod.natCast_mod, h1, Nat.cast_one]
  refine ⟨h3, ?_, powP_lt hp.pos _ _⟩
  rcases Nat.eq_zero_or_pos (invP p a) with h | h
  · rw [h, Nat.mul_zero, Nat.zero_mod] at h3
    exact absurd h3 (by decide)
  · exact h

/-! ### Coefficients of the degree-11 operations -/

theorem coeff_of_lt (x : Deg11) {i : Nat} (h : i < 11) : coeff x i = x[i] := by
  simp [coeff, h]

theorem coeff_of_ge (x : Deg11) {i : Nat} (h : 11 ≤ i) : coeff x i = 0 := by
  simp [coeff, h]

theorem add11_get (p : Nat) (x y : Deg11) (i : Nat) (h : i < 11) :
    (add11 p x y)[i] = (x[i] + y[i]) % p := by
  simp [add11, addP]

theorem sub11_get (p : Nat) (x y : Deg11) (i : Nat) (h : i < 11) :
    (sub11 p x y)[i] = subP p x[i] y[i] := by
  simp [sub11]

theorem neg11_get (p : Nat) (x : Deg11) (i : Nat) (h : i < 11) : (neg11 p x)[i] = negP p x[i] := by
  simp [neg11]

theorem scale11_get (p : Nat) (s : Base) (x : Deg11) (i : Nat) (h : i < 11) :
    (scale11 p s x)[i] = s * x[i] % p := by
  simp [scale11, mulP]

theorem red11_get (p : Nat) (x : Unred11) (i : Nat) (h : i < 11) : (red11 p x)[i] = x[i] % p := by
  simp [red11]

theorem mnr_get (fl : Field) (x : Deg11) (i : Nat) (h : i < 11) :
    (mnr fl x)[i] = if i = 0 then fl.c11 * coeff x 10 % fl.p else coeff x (i - 1) := by
  simp [mnr, mulP]

theorem dnr_get (p c11inv : Nat) (x : Deg11) (i : Nat) (h : i < 11) :
    (dnr p c11inv x)[i] = if i = 10 then c11inv * coeff x 0 % p else coeff x (i + 1) := by
  simp [dnr, mulP]

theorem frb11_get (p : Nat) (k : Constants) (x : Deg11) (e i : Nat) (h : i < 11) :
    (frb11 p k x e)[i] =
      if i = 0 then x[0] else (k.frb[e % 11]'(Nat.mod_lt _ (by decide)))[i] * x[i] % p := by
  simp only [frb11, Vector.getElem_ofFn, mulP, tableRow, coeff_of_lt _ h]
  simp [coeff]

theorem frb2map_get (p : Nat) (k : Constants) (x : Deg11) (e i : Nat) (h : i < 11) :
    (frb2map p k x e)[i] = (k.frb2[e % 11]'(Nat.mod_lt _ (by decide)))[i] * x[i] % p := by
  simp [frb2map, mulP, tableRow, coeff_of_lt _ h]

/-- The model's `t_k` is the spec's. -/
theorem convolution_eq (x y : Deg11) (k : Nat) : convolution x y k = productSum x y k := by
  have h1 : convolution x y k =
      ∑ i ∈ Finset.range 11, if i ≤ k then coeff x i * coeff y (k - i) else 0 := by
    simp [convolution, Finset.sum_range_succ, List.range_succ, Nat.add_assoc]
  rw [h1, ← Finset.sum_filter, productSum]
  refine Finset.sum_subset_zero_on_sdiff ?_ ?_ (fun _ _ => rfl)
  · intro i hi
    simp only [Finset.mem_filter, Finset.mem_range] at hi ⊢
    omega
  · intro i hi
    simp only [Finset.mem_sdiff, Finset.mem_filter, Finset.mem_range] at hi
    rw [coeff_of_ge x (by omega), Nat.zero_mul]

/-- The product (`40_deg11_tower.md` R137), one equation for all coefficients. -/
theorem mul11_get (fl : Field) (x y : Deg11) (k : Nat) (h : k < 11) :
    (mul11 fl x y)[k] = (productSum x y k + fl.c11 * productSum x y (k + 11)) % fl.p := by
  rw [mul11, Vector.getElem_ofFn, convolution_eq, convolution_eq]

/-- Nothing is folded into the top coefficient. -/
theorem productSum_top (x y : Deg11) : productSum x y 21 = 0 := by
  refine Finset.sum_eq_zero fun i hi => ?_
  have h21 := Finset.mem_range.mp hi
  rcases Nat.lt_or_ge i 11 with h | h
  · rw [coeff_of_ge y (by omega), Nat.mul_zero]
  · rw [coeff_of_ge x h, Nat.zero_mul]

/-! ### Results are in range -/

theorem Below11.coeff_lt {p : Nat} {x : Deg11} (hx : Below11 p x) {i : Nat} (h : i < 11) :
    coeff x i < p := by
  rw [coeff_of_lt x h]; exact hx i h

theorem below11_add (p : Nat) (hp : 0 < p) (x y : Deg11) : Below11 p (add11 p x y) := fun i h => by
  rw [add11_get p x y i h]; exact Nat.mod_lt _ hp

theorem below11_sub (p : Nat) (hp : 0 < p) (x y : Deg11) : Below11 p (sub11 p x y) := fun i h => by
  rw [sub11_get p x y i h]; exact subP_lt hp _ _

theorem below11_neg (p : Nat) (hp : 0 < p) (x : Deg11) : Below11 p (neg11 p x) := fun i h => by
  rw [neg11_get p x i h]; exact negP_lt hp _

theorem below11_scale (p : Nat) (hp : 0 < p) (s : Base) (x : Deg11) : Below11 p (scale11 p s x) :=
  fun i h => by rw [scale11_get p s x i h]; exact Nat.mod_lt _ hp

theorem below11_red (p : Nat) (hp : 0 < p) (x : Unred11) : Below11 p (red11 p x) := fun i h => by
  rw [red11_get p x i h]; exact Nat.mod_lt _ hp

theorem below11_mul (fl : Field) (hp : 0 < fl.p) (x y : Deg11) : Below11 fl.p (mul11 fl x y) :=
  fun i h => by rw [mul11_get fl x y i h]; exact Nat.mod_lt _ hp

theorem below11_mnr (fl : Field) (hp : 0 < fl.p) {x : Deg11} (hx : Below11 fl.p x) :
    Below11 fl.p (mnr fl x) := fun i h => by
  rw [mnr_get fl x i h]
  split
  · exact Nat.mod_lt _ hp
  · exact hx.coeff_lt (by omega)

theorem below11_dnr (p c11inv : Nat) (hp : 0 < p) {x : Deg11} (hx : Below11 p x) :
    Below11 p (dnr p c11inv x) := fun i h => by
  rw [dnr_get p c11inv x i h]
  split
  · exact Nat.mod_lt _ hp
  · exact hx.coeff_lt (by omega)

theorem below11_frb (p : Nat) (hp : 0 < p) (k : Constants) {x : Deg11} (hx : Below11 p x) (e : Nat) :
    Below11 p (frb11 p k x e) := fun i h => by
  rw [frb11_get p k x e i h]
  split
  · exact hx 0 (by decide)
  · exact Nat.mod_lt _ hp

theorem below11_frb2 (p : Nat) (hp : 0 < p) (k : Constants) (x : Deg11) (e : Nat) :
    Below11 p (frb2map p k x e) := fun i h => by
  rw [frb2map_get p k x e i h]; exact Nat.mod_lt _ hp

theorem below11_emb (p : Nat) (s : Base) (hs : s < p) : Below11 p (emb s) := by
  intro i h
  have h0 : 0 < p := Nat.zero_lt_of_lt hs
  match i, h with
  | 0, _ => exact hs
  | 1, _ | 2, _ | 3, _ | 4, _ | 5, _ | 6, _ | 7, _ | 8, _ | 9, _ | 10, _ => exact h0

theorem below11_zero (p : Nat) (hp : 0 < p) : Below11 p zero11 := below11_emb p 0 hp

theorem below11_one (p : Nat) (hp : 1 < p) : Below11 p one11 := below11_emb p 1 hp

theorem below11_inv (fl : Field) (hp : 1 < fl.p) (x : Deg11) : Below11 fl.p (inv11 fl x) :=
  power_induct (Below11 fl.p) (below11_one fl.p hp) (below11_mul fl (by omega)) x _

/-- Two values in range with the same residues are equal. -/
theorem Below11.ext {p : Nat} {x y : Deg11} (hx : Below11 p x) (hy : Below11 p y)
    (h : ∀ (i : Nat) (hi : i < 11), (x[i] : ZMod p) = (y[i] : ZMod p)) : x = y := by
  ext i hi
  exact eq_of_cast (hx i hi) (hy i hi) (h i hi)

/-! ### The tower as a ring -/

/-- The element a tuple stands for (`40_deg11_tower.md` R120), in any ring with a `u`. -/
def eval11 {R : Type} [CommRing R] (u : R) (x : Deg11) : R :=
  ∑ i ∈ Finset.range 11, (coeff x i : R) * u ^ i

/-- Reducing coefficients modulo `P` does not change the element. -/
theorem eval11_congr {R : Type} [CommRing R] {p : Nat} [CharP R p] (u : R) (x : Deg11) (f : Nat → Nat)
    (h : ∀ (i : Nat) (hi : i < 11), x[i] = f i % p) :
    eval11 u x = ∑ i ∈ Finset.range 11, (f i : R) * u ^ i := by
  refine Finset.sum_congr rfl fun i hi => ?_
  have hlt := Finset.mem_range.mp hi
  rw [coeff_of_lt x hlt, h i hlt, CharP.cast_eq_mod R p (f i)]

theorem eval11_one {R : Type} [CommRing R] (u : R) : eval11 u one11 = 1 := by
  simp [eval11, one11, emb, coeff, Finset.sum_range_succ]

theorem eval11_zero {R : Type} [CommRing R] (u : R) : eval11 u zero11 = 0 := by
  simp [eval11, zero11, emb, coeff, Finset.sum_range_succ]

theorem eval11_add {R : Type} [CommRing R] {p : Nat} [CharP R p] (u : R) (x y : Deg11) :
    eval11 u (add11 p x y) = eval11 u x + eval11 u y := by
  rw [eval11_congr (p := p) u _ (fun i => coeff x i + coeff y i) fun i hi => by
    rw [add11_get p x y i hi, coeff_of_lt x hi, coeff_of_lt y hi]]
  simp [eval11, add_mul, Finset.sum_add_distrib]

/-- `Mul11` is the product of the ring, when `u^11 = C11` (`40_deg11_tower.md` R122). -/
theorem eval11_mul {R : Type} [CommRing R] (fl : Field) [CharP R fl.p] (u : R)
    (hu : u ^ 11 = (fl.c11 : R)) (x y : Deg11) :
    eval11 u (mul11 fl x y) = eval11 u x * eval11 u y := by
  rw [eval11_congr (p := fl.p) u _ _ fun i hi => mul11_get fl x y i hi]
  have key : eval11 u x * eval11 u y =
      ∑ k ∈ Finset.range 22, ((productSum x y k : Nat) : R) * u ^ k := by
    simp only [← convolution_eq, eval11, convolution]
    simp only [Finset.sum_range_succ, Finset.sum_range_zero, List.range_succ, List.range_zero]
    simp [coeff_of_ge]
    ring
  rw [key, show (22 : Nat) = 11 + 11 by rfl, Finset.sum_range_add, ← Finset.sum_add_distrib]
  refine Finset.sum_congr rfl fun k _ => ?_
  rw [show (11 : Nat) + k = k + 11 by omega, pow_add, hu]
  push_cast
  ring

end Sys2Proof.Machine
end

