-- ==== Sys2Proof/Laws/Constants.lean ====
section
/-! SUPPORT. The constants `FINIT` computes (`40_deg11_tower.md` R124, R125, R146): their values as
powers, and what its check on `C11` means. Every admissible prime has an accepted `C11`. -/

namespace Sys2Proof.Machine

open Sys2Proof

theorem admissible_div {p : Nat} (hp : Config.admissiblePrime p) :
    22 * ((p - 1) / 22) = p - 1 ∧ 11 * ((p - 1) / 11) = p - 1 ∧
      (p - 1) / 22 * 11 = (p - 1) / 2 ∧ (p - 1) / 22 * 2 = (p - 1) / 11 ∧ 23 ≤ p := by
  have h1 := hp.2
  have h2 := hp.1.two_le
  omega

/-- The check of `FINIT` in the field: `C11` is no 11th power and no square. -/
theorem c11Accepted_iff {p c : Nat} (hp : Config.admissiblePrime p) :
    c11Accepted p c = true ↔
      (c : ZMod p) ^ ((p - 1) / 11) ≠ 1 ∧ (c : ZMod p) ^ ((p - 1) / 2) = -1 := by
  obtain ⟨-, -, hd, -, h23⟩ := admissible_div hp
  have hpos : 0 < p := by omega
  have h1 : powP p c ((p - 1) / 11) = 1 ↔ (c : ZMod p) ^ ((p - 1) / 11) = 1 := by
    rw [← powP_cast]
    constructor
    · intro h; rw [h, Nat.cast_one]
    · intro h; exact eq_of_cast (powP_lt hpos _ _) (by omega) (by rw [h, Nat.cast_one])
  have h2 : powP p (powP p c ((p - 1) / 22)) 11 = p - 1 ↔ (c : ZMod p) ^ ((p - 1) / 2) = -1 := by
    have hcast : ((p - 1 : Nat) : ZMod p) = -1 := by
      rw [Nat.cast_sub (by omega)]
      simp
    rw [← hd, pow_mul, ← powP_cast p c, ← powP_cast]
    constructor
    · intro h; rw [h, hcast]
    · intro h; exact eq_of_cast (powP_lt hpos _ _) (by omega) (by rw [h, hcast])
  simp only [c11Accepted, Bool.and_eq_true, decide_eq_true_eq, ne_eq, h1, h2]

/-- An accepted `C11` is not zero. -/
theorem c11Accepted_ne_zero {p c : Nat} (hp : Config.admissiblePrime p)
    (h : c11Accepted p c = true) : (c : ZMod p) ≠ 0 := by
  obtain ⟨-, h2⟩ := (c11Accepted_iff hp).mp h
  obtain ⟨-, -, -, -, h23⟩ := admissible_div hp
  intro h0
  have hf : Fact p.Prime := ⟨hp.1⟩
  rw [h0, zero_pow (by omega)] at h2
  exact one_ne_zero (neg_eq_zero.mp h2.symm)

/-- A primitive root is accepted. -/
theorem exists_c11Accepted {p : Nat} (hp : Config.admissiblePrime p) :
    ∃ c, 0 < c ∧ c < p ∧ c11Accepted p c = true := by
  have hf : Fact p.Prime := ⟨hp.1⟩
  obtain ⟨-, he, -, -, h23⟩ := admissible_div hp
  obtain ⟨g, hg⟩ := IsCyclic.exists_generator (α := (ZMod p)ˣ)
  have hord : orderOf g = p - 1 := by
    rw [orderOf_eq_card_of_forall_mem_zpowers hg, Nat.card_eq_fintype_card, ZMod.card_units]
  have hval : (((g : ZMod p).val : Nat) : ZMod p) = (g : ZMod p) := ZMod.natCast_zmod_val _
  have hne : (g : ZMod p) ^ ((p - 1) / 11) ≠ 1 := by
    intro h
    have h1 : g ^ ((p - 1) / 11) = 1 := by ext; simpa using h
    have h2 := orderOf_dvd_of_pow_eq_one h1
    rw [hord] at h2
    have h3 := Nat.le_of_dvd (by omega) h2
    omega
  have hsq : (g : ZMod p) ^ ((p - 1) / 2) = -1 := by
    have h2p := hp.2
    rcases mul_self_eq_one_iff.mp (show (g : ZMod p) ^ ((p - 1) / 2) * (g : ZMod p) ^ ((p - 1) / 2) = 1
      by
        rw [← pow_add, show (p - 1) / 2 + (p - 1) / 2 = p - 1 by omega]
        exact ZMod.pow_card_sub_one_eq_one g.ne_zero) with h | h
    · have h1 : g ^ ((p - 1) / 2) = 1 := by ext; simpa using h
      have h2 := orderOf_dvd_of_pow_eq_one h1
      rw [hord] at h2
      have h3 := Nat.le_of_dvd (by omega) h2
      omega
    · exact h
  refine ⟨(g : ZMod p).val, ?_, ZMod.val_lt _, (c11Accepted_iff hp).mpr (by rw [hval]; exact ⟨hne, hsq⟩)⟩
  rcases Nat.eq_zero_or_pos (g : ZMod p).val with h | h
  · exact absurd ((ZMod.val_eq_zero _).mp h) g.ne_zero
  · exact h

theorem constantsOf_gam {p : Nat} (hp : 0 < p) (c : Nat) :
    (constantsOf p c).gam = c ^ ((p - 1) / 11) % p := powP_eq hp _ _

theorem constantsOf_del {p : Nat} (hp : 0 < p) (c : Nat) :
    (constantsOf p c).del = c ^ ((p - 1) / 22) % p := powP_eq hp _ _

/-- R124: `FRB[j][i] = GAM ^p ((i j) mod 11)`. -/
theorem constantsOf_frb {p : Nat} (hp : 0 < p) (c j i : Nat) (hj : j < 11) (hi : i < 11) :
    (constantsOf p c).frb[j][i] = (constantsOf p c).gam ^ (i * j % 11) % p := by
  rw [← powP_eq hp]
  simp [constantsOf, frbTable]

/-- R125: `FRB2[j][i] = DEL ^p ((j (2 i + 1)) mod 22)`. -/
theorem constantsOf_frb2 {p : Nat} (hp : 0 < p) (c j i : Nat) (hj : j < 11) (hi : i < 11) :
    (constantsOf p c).frb2[j][i] = (constantsOf p c).del ^ (j * (2 * i + 1) % 22) % p := by
  rw [← powP_eq hp]
  simp [constantsOf, frb2Table]

/-- R12: `C11INV` is the inverse of an accepted `C11`. -/
theorem constantsOf_c11inv {p c : Nat} (hp : Config.admissiblePrime p)
    (h : c11Accepted p c = true) :
    c * (constantsOf p c).c11inv % p = 1 ∧ 1 ≤ (constantsOf p c).c11inv ∧
      (constantsOf p c).c11inv < p :=
  invP_spec hp.1 (c11Accepted_ne_zero hp h)

/-- `DEL` squared is `GAM`, `DEL^11` is minus one, `GAM^11` is one (R125). -/
theorem constantsOf_roots {p c : Nat} (hp : Config.admissiblePrime p)
    (h : c11Accepted p c = true) :
    ((constantsOf p c).del : ZMod p) ^ 2 = (constantsOf p c).gam ∧
      ((constantsOf p c).del : ZMod p) ^ 11 = -1 ∧
      ((constantsOf p c).gam : ZMod p) ^ 11 = 1 := by
  have hf : Fact p.Prime := ⟨hp.1⟩
  obtain ⟨-, he, hd, hg, h23⟩ := admissible_div hp
  have hdel : ((constantsOf p c).del : ZMod p) = (c : ZMod p) ^ ((p - 1) / 22) := powP_cast p c _
  have hgam : ((constantsOf p c).gam : ZMod p) = (c : ZMod p) ^ ((p - 1) / 11) := powP_cast p c _
  rw [hdel, hgam, ← pow_mul, ← pow_mul, ← pow_mul, hd, hg, Nat.mul_comm _ 11, he]
  exact ⟨rfl, ((c11Accepted_iff hp).mp h).2, ZMod.pow_card_sub_one_eq_one (c11Accepted_ne_zero hp h)⟩

/-- Everything `FINIT` computes is in range. -/
theorem constantsOf_below {p : Nat} (hp : 2 ≤ p) (c : Nat) :
    (constantsOf p c).half < p ∧ (constantsOf p c).c11inv < p ∧ (constantsOf p c).gam < p ∧
      (constantsOf p c).del < p ∧ BelowTable p (constantsOf p c).frb ∧
      BelowTable p (constantsOf p c).frb2 := by
  have h0 : 0 < p := by omega
  refine ⟨?_, powP_lt h0 _ _, powP_lt h0 _ _, powP_lt h0 _ _, fun j hj i hi => ?_, fun j hj i hi => ?_⟩
  · show (p + 1) / 2 < p; omega
  · rw [constantsOf_frb h0 c j i hj hi]; exact Nat.mod_lt _ h0
  · rw [constantsOf_frb2 h0 c j i hj hi]; exact Nat.mod_lt _ h0

end Sys2Proof.Machine
end

