-- ==== Sys2Proof/Laws/FinalExp.lean ====
section
/-! SUPPORT. What a list of host commands does, and what the hard part may hold. -/

namespace Sys2Proof.Machine

open Sys2Proof

@[simp] theorem runCommands_nil (s : State) : runCommands [] s = .next s := rfl

/-- The first command completes, and the rest runs on from there. -/
theorem runCommands_cons {i : Instr} {is : List Instr} {s t : State} (h : exec i s = .next t)
    (ht : t.run ≠ .faulted) : runCommands (i :: is) s = runCommands is t := by
  simp [runCommands, h, ht]

/-- The first command faults, and no later one starts (`60_exceptions.md` R342). -/
theorem runCommands_fault {i : Instr} {is : List Instr} {s t : State} (h : exec i s = .next t)
    (ht : t.run = .faulted) : runCommands (i :: is) s = .next t := by
  simp [runCommands, h, ht]

/-- A list that completes is followed by the next one. -/
theorem runCommands_append {is js : List Instr} {s t : State} (h : runCommands is s = .next t)
    (ht : t.run ≠ .faulted) : runCommands (is ++ js) s = runCommands js t := by
  induction is generalizing s with
  | nil =>
    cases h
    rfl
  | cons i is ih =>
    simp only [List.cons_append, runCommands] at h ⊢
    cases hi : exec i s with
    | next u =>
      rw [hi] at h
      dsimp only at h ⊢
      split at h
      · next hu =>
        cases h
        exact absurd hu ht
      · next hu => rw [if_neg hu, ih h]
    | fault x => cases x
    | refused x => rw [hi] at h; cases h

/-- The commands of the hard part (`44_pairing_engine.md` R282). -/
theorem hardPart_mem {c : Config} {i : Instr} (h : i ∈ hardPart c) :
    (∃ rd rs1, i = .fSqrc rd rs1) ∨ (∃ rd rs1 rs2, i = .fMul rd rs1 rs2) ∨
      (∃ rd rs1, i = .fInvc rd rs1) ∨
      ∃ rd rs1, ∃ e ∈ ([1, 9, 21] : List Exponent), i = .fFrb rd rs1 e := by
  obtain ⟨st, -, rfl⟩ := List.mem_map.mp h
  cases st with
  | sqrc rd rs1 => exact .inl ⟨rd, rs1, rfl⟩
  | mul rd rs1 rs2 => exact .inr (.inl ⟨rd, rs1, rs2, rfl⟩)
  | invc rd rs1 => exact .inr (.inr (.inl ⟨rd, rs1, rfl⟩))
  | frb rd rs1 offset =>
    exact .inr (.inr (.inr ⟨rd, rs1, _, by cases offset <;> decide, rfl⟩))

end Sys2Proof.Machine
end

