-- ==== Sys2Proof/Laws/Memory.lean ====
section
/-! SUPPORT. The laws of the memories: what a write leaves, that the canonical form is kept, and that
two canonical memories that read alike are equal. -/

namespace Sys2Proof.Machine

variable {α : Type}

/-! ### The canonical form -/

theorem Memory.wfFrom_cons (lo k : Nat) (v : α) (rest : Memory α) :
    Memory.wfFrom lo ((k, v) :: rest) = true ↔ lo ≤ k ∧ Memory.wfFrom (k + 1) rest = true := by
  simp [Memory.wfFrom]

theorem Memory.wfFrom_mono {lo hi : Nat} (h : lo ≤ hi) {m : Memory α}
    (hm : Memory.wfFrom hi m = true) : Memory.wfFrom lo m = true := by
  cases m with
  | nil => rfl
  | cons e rest =>
    rw [Memory.wfFrom_cons] at hm ⊢
    exact ⟨h.trans hm.1, hm.2⟩

/-- Nothing is listed below the bound. -/
theorem Memory.read_below {lo a : Nat} {m : Memory α} (hm : Memory.wfFrom lo m = true) (h : a < lo) :
    Memory.read m a = none := by
  induction m generalizing lo with
  | nil => rfl
  | cons e rest ih =>
    rw [Memory.wfFrom_cons] at hm
    rw [Memory.read, if_neg (by omega)]
    exact ih hm.2 (by omega)

/-! ### One word -/

theorem Memory.read_write_same (m : Memory α) (a : Nat) (v : α) :
    Memory.read (Memory.write m a v) a = some v := by
  induction m with
  | nil => simp [Memory.write, Memory.read]
  | cons e rest ih =>
    rw [Memory.write]
    split
    · simp [Memory.read]
    · split
      · simp [Memory.read]
      · rw [Memory.read, if_neg (by omega), ih]

theorem Memory.read_write_other (m : Memory α) {a b : Nat} (v : α) (h : b ≠ a) :
    Memory.read (Memory.write m a v) b = Memory.read m b := by
  induction m with
  | nil => simp [Memory.write, Memory.read, h.symm]
  | cons e rest ih =>
    rw [Memory.write]
    split
    · rw [Memory.read, if_neg h.symm]
    · split
      · rw [Memory.read, if_neg h.symm, Memory.read, if_neg (by omega)]
      · rw [Memory.read, ih, Memory.read]

theorem Memory.read_write (m : Memory α) (a b : Nat) (v : α) :
    Memory.read (Memory.write m a v) b = if b = a then some v else Memory.read m b := by
  split
  · next h => rw [h, Memory.read_write_same]
  · next h => exact Memory.read_write_other m v h

theorem Memory.wfFrom_write {lo a : Nat} {m : Memory α} (v : α) (hm : Memory.wfFrom lo m = true)
    (h : lo ≤ a) : Memory.wfFrom lo (Memory.write m a v) = true := by
  induction m generalizing lo with
  | nil => simp [Memory.write, Memory.wfFrom, h]
  | cons e rest ih =>
    rw [Memory.wfFrom_cons] at hm
    rw [Memory.write]
    split
    · rw [Memory.wfFrom_cons, Memory.wfFrom_cons]
      exact ⟨h, by omega, hm.2⟩
    · split
      · next hk =>
        rw [Memory.wfFrom_cons, hk]
        exact ⟨hm.1, hm.2⟩
      · rw [Memory.wfFrom_cons]
        exact ⟨hm.1, ih hm.2 (by omega)⟩

/-- A write keeps the canonical form. -/
theorem Memory.wf_write {m : Memory α} (hm : Memory.wf m = true) (a : Nat) (v : α) :
    Memory.wf (Memory.write m a v) = true :=
  Memory.wfFrom_write v hm (Nat.zero_le a)

/-! ### Several words -/

/-- What every address reads after a write of several words. -/
theorem Memory.read_writeAll (m : Memory α) (a b : Nat) (vs : List α) :
    Memory.read (Memory.writeAll m a vs) b =
      if h : a ≤ b ∧ b < a + vs.length then some (vs[b - a]'(by omega)) else Memory.read m b := by
  induction vs generalizing m a with
  | nil => simp [Memory.writeAll, show ¬(a ≤ b ∧ b < a) by omega]
  | cons v vs ih =>
    rw [Memory.writeAll, ih, Memory.read_write]
    by_cases hb : b = a
    · subst hb
      simp [show ¬(b + 1 ≤ b) by omega]
    · by_cases hin : a ≤ b ∧ b < a + (v :: vs).length
      · have hlen : (v :: vs).length = vs.length + 1 := rfl
        rw [dif_pos (by omega), dif_pos hin]
        obtain ⟨k, hk⟩ : ∃ k, b - a = k + 1 := ⟨b - a - 1, by omega⟩
        simp [hk, show b - (a + 1) = k by omega]
      · have hlen : (v :: vs).length = vs.length + 1 := rfl
        rw [dif_neg (by omega), dif_neg hin, if_neg hb]

/-- The words written read back. -/
theorem Memory.read_writeAll_inside (m : Memory α) (a k : Nat) (vs : List α) (h : k < vs.length) :
    Memory.read (Memory.writeAll m a vs) (a + k) = some vs[k] := by
  rw [Memory.read_writeAll, dif_pos (by omega)]
  simp

/-- Every other address reads as before. -/
theorem Memory.read_writeAll_outside (m : Memory α) (a b : Nat) (vs : List α)
    (h : b < a ∨ a + vs.length ≤ b) : Memory.read (Memory.writeAll m a vs) b = Memory.read m b := by
  rw [Memory.read_writeAll, dif_neg (by omega)]

/-- A write of several words keeps the canonical form. -/
theorem Memory.wf_writeAll {m : Memory α} (hm : Memory.wf m = true) (a : Nat) (vs : List α) :
    Memory.wf (Memory.writeAll m a vs) = true := by
  induction vs generalizing m a with
  | nil => exact hm
  | cons v vs ih => exact ih (Memory.wf_write hm a v) (a + 1)

/-! ### Equality -/

/-- Two canonical memories that read alike are the same list. -/
theorem Memory.ext_of_read {lo : Nat} {m m' : Memory α} (hm : Memory.wfFrom lo m = true)
    (hm' : Memory.wfFrom lo m' = true) (h : ∀ a, Memory.read m a = Memory.read m' a) : m = m' := by
  induction m generalizing lo m' with
  | nil =>
    cases m' with
    | nil => rfl
    | cons e rest => simpa [Memory.read] using h e.1
  | cons e rest ih =>
    cases m' with
    | nil => simpa [Memory.read] using h e.1
    | cons e' rest' =>
      obtain ⟨k, v⟩ := e
      obtain ⟨k', v'⟩ := e'
      rw [Memory.wfFrom_cons] at hm hm'
      have hk : k = k' := by
        by_contra hne
        rcases Nat.lt_or_gt_of_ne hne with hlt | hlt
        · have h1 := h k
          rw [Memory.read, if_pos rfl, Memory.read, if_neg (by omega),
            Memory.read_below hm'.2 (by omega)] at h1
          exact Option.some_ne_none v h1
        · have h1 := h k'
          rw [Memory.read, if_neg (by omega), Memory.read_below hm.2 (by omega), Memory.read,
            if_pos rfl] at h1
          exact Option.some_ne_none v' h1.symm
      subst hk
      have hv : v = v' := by simpa [Memory.read] using h k
      subst hv
      congr 1
      refine ih hm.2 hm'.2 fun a => ?_
      by_cases ha : k = a
      · rw [Memory.read_below hm.2 (by omega), Memory.read_below hm'.2 (by omega)]
      · simpa [Memory.read, ha] using h a

/-- The memories after reset are in canonical form. -/
theorem State.reset_memory_wf : Memory.wf State.reset.dm = true ∧ Memory.wf State.reset.cm = true :=
  ⟨rfl, rfl⟩

end Sys2Proof.Machine
end

