-- ==== Sys2Proof/Laws/State.lean ====
section
/-! SUPPORT. One lemma per field per update of the state, true by definition, so that no later proof
unfolds an update. -/

namespace Sys2Proof.Machine

open Sys2Proof

@[simp] theorem State.writeE_e (s : State) (r : RegE) (v : Deg11) :
    (s.writeE r v).e = s.e.set r.val (some v) r.isLt := rfl
@[simp] theorem State.writeE_u (s : State) (r : RegE) (v : Deg11) : (s.writeE r v).u = s.u := rfl
@[simp] theorem State.writeE_f (s : State) (r : RegE) (v : Deg11) : (s.writeE r v).f = s.f := rfl
@[simp] theorem State.writeE_t (s : State) (r : RegE) (v : Deg11) : (s.writeE r v).t = s.t := rfl
@[simp] theorem State.writeE_g (s : State) (r : RegE) (v : Deg11) : (s.writeE r v).g = s.g := rfl
@[simp] theorem State.writeE_pc (s : State) (r : RegE) (v : Deg11) : (s.writeE r v).pc = s.pc := rfl
@[simp] theorem State.writeE_pastTop (s : State) (r : RegE) (v : Deg11) : (s.writeE r v).pastTop = s.pastTop := rfl
@[simp] theorem State.writeE_eq (s : State) (r : RegE) (v : Deg11) : (s.writeE r v).eq = s.eq := rfl
@[simp] theorem State.writeE_onc (s : State) (r : RegE) (v : Deg11) :
    (s.writeE r v).onc = s.onc := rfl
@[simp] theorem State.writeE_lc (s : State) (r : RegE) (v : Deg11) : (s.writeE r v).lc = s.lc := rfl
@[simp] theorem State.writeE_ml (s : State) (r : RegE) (v : Deg11) : (s.writeE r v).ml = s.ml := rfl
@[simp] theorem State.writeE_lifecycle (s : State) (r : RegE) (v : Deg11) :
    (s.writeE r v).lifecycle = s.lifecycle := rfl
@[simp] theorem State.writeE_run (s : State) (r : RegE) (v : Deg11) :
    (s.writeE r v).run = s.run := rfl
@[simp] theorem State.writeE_prm (s : State) (r : RegE) (v : Deg11) :
    (s.writeE r v).prm = s.prm := rfl
@[simp] theorem State.writeE_ie (s : State) (r : RegE) (v : Deg11) : (s.writeE r v).ie = s.ie := rfl
@[simp] theorem State.writeE_ecause (s : State) (r : RegE) (v : Deg11) :
    (s.writeE r v).ecause = s.ecause := rfl
@[simp] theorem State.writeE_epc (s : State) (r : RegE) (v : Deg11) :
    (s.writeE r v).epc = s.epc := rfl
@[simp] theorem State.writeE_einfo (s : State) (r : RegE) (v : Deg11) :
    (s.writeE r v).einfo = s.einfo := rfl
@[simp] theorem State.writeE_dm (s : State) (r : RegE) (v : Deg11) : (s.writeE r v).dm = s.dm := rfl
@[simp] theorem State.writeE_cm (s : State) (r : RegE) (v : Deg11) : (s.writeE r v).cm = s.cm := rfl
@[simp] theorem State.writeE_free (s : State) (r : RegE) (v : Deg11) :
    (s.writeE r v).free = s.free := rfl

@[simp] theorem State.writeU_e (s : State) (r : RegU) (v : Unred11) : (s.writeU r v).e = s.e := rfl
@[simp] theorem State.writeU_u (s : State) (r : RegU) (v : Unred11) :
    (s.writeU r v).u = s.u.set r.val (some v) r.isLt := rfl
@[simp] theorem State.writeU_f (s : State) (r : RegU) (v : Unred11) : (s.writeU r v).f = s.f := rfl
@[simp] theorem State.writeU_t (s : State) (r : RegU) (v : Unred11) : (s.writeU r v).t = s.t := rfl
@[simp] theorem State.writeU_g (s : State) (r : RegU) (v : Unred11) : (s.writeU r v).g = s.g := rfl
@[simp] theorem State.writeU_pc (s : State) (r : RegU) (v : Unred11) :
    (s.writeU r v).pc = s.pc := rfl
@[simp] theorem State.writeU_pastTop (s : State) (r : RegU) (v : Unred11) :
    (s.writeU r v).pastTop = s.pastTop := rfl
@[simp] theorem State.writeU_eq (s : State) (r : RegU) (v : Unred11) :
    (s.writeU r v).eq = s.eq := rfl
@[simp] theorem State.writeU_onc (s : State) (r : RegU) (v : Unred11) :
    (s.writeU r v).onc = s.onc := rfl
@[simp] theorem State.writeU_lc (s : State) (r : RegU) (v : Unred11) :
    (s.writeU r v).lc = s.lc := rfl
@[simp] theorem State.writeU_ml (s : State) (r : RegU) (v : Unred11) :
    (s.writeU r v).ml = s.ml := rfl
@[simp] theorem State.writeU_lifecycle (s : State) (r : RegU) (v : Unred11) :
    (s.writeU r v).lifecycle = s.lifecycle := rfl
@[simp] theorem State.writeU_run (s : State) (r : RegU) (v : Unred11) :
    (s.writeU r v).run = s.run := rfl
@[simp] theorem State.writeU_prm (s : State) (r : RegU) (v : Unred11) :
    (s.writeU r v).prm = s.prm := rfl
@[simp] theorem State.writeU_ie (s : State) (r : RegU) (v : Unred11) :
    (s.writeU r v).ie = s.ie := rfl
@[simp] theorem State.writeU_ecause (s : State) (r : RegU) (v : Unred11) :
    (s.writeU r v).ecause = s.ecause := rfl
@[simp] theorem State.writeU_epc (s : State) (r : RegU) (v : Unred11) :
    (s.writeU r v).epc = s.epc := rfl
@[simp] theorem State.writeU_einfo (s : State) (r : RegU) (v : Unred11) :
    (s.writeU r v).einfo = s.einfo := rfl
@[simp] theorem State.writeU_dm (s : State) (r : RegU) (v : Unred11) :
    (s.writeU r v).dm = s.dm := rfl
@[simp] theorem State.writeU_cm (s : State) (r : RegU) (v : Unred11) :
    (s.writeU r v).cm = s.cm := rfl
@[simp] theorem State.writeU_free (s : State) (r : RegU) (v : Unred11) :
    (s.writeU r v).free = s.free := rfl

@[simp] theorem State.writeF_e (s : State) (r : RegF) (v : Deg22) : (s.writeF r v).e = s.e := rfl
@[simp] theorem State.writeF_u (s : State) (r : RegF) (v : Deg22) : (s.writeF r v).u = s.u := rfl
@[simp] theorem State.writeF_f (s : State) (r : RegF) (v : Deg22) :
    (s.writeF r v).f = s.f.set r.val (some v) r.isLt := rfl
@[simp] theorem State.writeF_t (s : State) (r : RegF) (v : Deg22) : (s.writeF r v).t = s.t := rfl
@[simp] theorem State.writeF_g (s : State) (r : RegF) (v : Deg22) : (s.writeF r v).g = s.g := rfl
@[simp] theorem State.writeF_pc (s : State) (r : RegF) (v : Deg22) : (s.writeF r v).pc = s.pc := rfl
@[simp] theorem State.writeF_pastTop (s : State) (r : RegF) (v : Deg22) : (s.writeF r v).pastTop = s.pastTop := rfl
@[simp] theorem State.writeF_eq (s : State) (r : RegF) (v : Deg22) : (s.writeF r v).eq = s.eq := rfl
@[simp] theorem State.writeF_onc (s : State) (r : RegF) (v : Deg22) :
    (s.writeF r v).onc = s.onc := rfl
@[simp] theorem State.writeF_lc (s : State) (r : RegF) (v : Deg22) : (s.writeF r v).lc = s.lc := rfl
@[simp] theorem State.writeF_ml (s : State) (r : RegF) (v : Deg22) : (s.writeF r v).ml = s.ml := rfl
@[simp] theorem State.writeF_lifecycle (s : State) (r : RegF) (v : Deg22) :
    (s.writeF r v).lifecycle = s.lifecycle := rfl
@[simp] theorem State.writeF_run (s : State) (r : RegF) (v : Deg22) :
    (s.writeF r v).run = s.run := rfl
@[simp] theorem State.writeF_prm (s : State) (r : RegF) (v : Deg22) :
    (s.writeF r v).prm = s.prm := rfl
@[simp] theorem State.writeF_ie (s : State) (r : RegF) (v : Deg22) : (s.writeF r v).ie = s.ie := rfl
@[simp] theorem State.writeF_ecause (s : State) (r : RegF) (v : Deg22) :
    (s.writeF r v).ecause = s.ecause := rfl
@[simp] theorem State.writeF_epc (s : State) (r : RegF) (v : Deg22) :
    (s.writeF r v).epc = s.epc := rfl
@[simp] theorem State.writeF_einfo (s : State) (r : RegF) (v : Deg22) :
    (s.writeF r v).einfo = s.einfo := rfl
@[simp] theorem State.writeF_dm (s : State) (r : RegF) (v : Deg22) : (s.writeF r v).dm = s.dm := rfl
@[simp] theorem State.writeF_cm (s : State) (r : RegF) (v : Deg22) : (s.writeF r v).cm = s.cm := rfl
@[simp] theorem State.writeF_free (s : State) (r : RegF) (v : Deg22) :
    (s.writeF r v).free = s.free := rfl

@[simp] theorem State.writeT_e (s : State) (r : RegT) (v : TwistPoint) :
    (s.writeT r v).e = s.e := rfl
@[simp] theorem State.writeT_u (s : State) (r : RegT) (v : TwistPoint) :
    (s.writeT r v).u = s.u := rfl
@[simp] theorem State.writeT_f (s : State) (r : RegT) (v : TwistPoint) :
    (s.writeT r v).f = s.f := rfl
@[simp] theorem State.writeT_t (s : State) (r : RegT) (v : TwistPoint) :
    (s.writeT r v).t = s.t.set r.val (some v) r.isLt := rfl
@[simp] theorem State.writeT_g (s : State) (r : RegT) (v : TwistPoint) :
    (s.writeT r v).g = s.g := rfl
@[simp] theorem State.writeT_pc (s : State) (r : RegT) (v : TwistPoint) :
    (s.writeT r v).pc = s.pc := rfl
@[simp] theorem State.writeT_pastTop (s : State) (r : RegT) (v : TwistPoint) :
    (s.writeT r v).pastTop = s.pastTop := rfl
@[simp] theorem State.writeT_eq (s : State) (r : RegT) (v : TwistPoint) :
    (s.writeT r v).eq = s.eq := rfl
@[simp] theorem State.writeT_onc (s : State) (r : RegT) (v : TwistPoint) :
    (s.writeT r v).onc = s.onc := rfl
@[simp] theorem State.writeT_lc (s : State) (r : RegT) (v : TwistPoint) :
    (s.writeT r v).lc = s.lc := rfl
@[simp] theorem State.writeT_ml (s : State) (r : RegT) (v : TwistPoint) :
    (s.writeT r v).ml = s.ml := rfl
@[simp] theorem State.writeT_lifecycle (s : State) (r : RegT) (v : TwistPoint) :
    (s.writeT r v).lifecycle = s.lifecycle := rfl
@[simp] theorem State.writeT_run (s : State) (r : RegT) (v : TwistPoint) :
    (s.writeT r v).run = s.run := rfl
@[simp] theorem State.writeT_prm (s : State) (r : RegT) (v : TwistPoint) :
    (s.writeT r v).prm = s.prm := rfl
@[simp] theorem State.writeT_ie (s : State) (r : RegT) (v : TwistPoint) :
    (s.writeT r v).ie = s.ie := rfl
@[simp] theorem State.writeT_ecause (s : State) (r : RegT) (v : TwistPoint) :
    (s.writeT r v).ecause = s.ecause := rfl
@[simp] theorem State.writeT_epc (s : State) (r : RegT) (v : TwistPoint) :
    (s.writeT r v).epc = s.epc := rfl
@[simp] theorem State.writeT_einfo (s : State) (r : RegT) (v : TwistPoint) :
    (s.writeT r v).einfo = s.einfo := rfl
@[simp] theorem State.writeT_dm (s : State) (r : RegT) (v : TwistPoint) :
    (s.writeT r v).dm = s.dm := rfl
@[simp] theorem State.writeT_cm (s : State) (r : RegT) (v : TwistPoint) :
    (s.writeT r v).cm = s.cm := rfl
@[simp] theorem State.writeT_free (s : State) (r : RegT) (v : TwistPoint) :
    (s.writeT r v).free = s.free := rfl

@[simp] theorem State.writeG_e (s : State) (r : RegG) (v : BasePoint) :
    (s.writeG r v).e = s.e := rfl
@[simp] theorem State.writeG_u (s : State) (r : RegG) (v : BasePoint) :
    (s.writeG r v).u = s.u := rfl
@[simp] theorem State.writeG_f (s : State) (r : RegG) (v : BasePoint) :
    (s.writeG r v).f = s.f := rfl
@[simp] theorem State.writeG_t (s : State) (r : RegG) (v : BasePoint) :
    (s.writeG r v).t = s.t := rfl
@[simp] theorem State.writeG_g (s : State) (r : RegG) (v : BasePoint) :
    (s.writeG r v).g = s.g.set r.val (some v) r.isLt := rfl
@[simp] theorem State.writeG_pc (s : State) (r : RegG) (v : BasePoint) :
    (s.writeG r v).pc = s.pc := rfl
@[simp] theorem State.writeG_pastTop (s : State) (r : RegG) (v : BasePoint) :
    (s.writeG r v).pastTop = s.pastTop := rfl
@[simp] theorem State.writeG_eq (s : State) (r : RegG) (v : BasePoint) :
    (s.writeG r v).eq = s.eq := rfl
@[simp] theorem State.writeG_onc (s : State) (r : RegG) (v : BasePoint) :
    (s.writeG r v).onc = s.onc := rfl
@[simp] theorem State.writeG_lc (s : State) (r : RegG) (v : BasePoint) :
    (s.writeG r v).lc = s.lc := rfl
@[simp] theorem State.writeG_ml (s : State) (r : RegG) (v : BasePoint) :
    (s.writeG r v).ml = s.ml := rfl
@[simp] theorem State.writeG_lifecycle (s : State) (r : RegG) (v : BasePoint) :
    (s.writeG r v).lifecycle = s.lifecycle := rfl
@[simp] theorem State.writeG_run (s : State) (r : RegG) (v : BasePoint) :
    (s.writeG r v).run = s.run := rfl
@[simp] theorem State.writeG_prm (s : State) (r : RegG) (v : BasePoint) :
    (s.writeG r v).prm = s.prm := rfl
@[simp] theorem State.writeG_ie (s : State) (r : RegG) (v : BasePoint) :
    (s.writeG r v).ie = s.ie := rfl
@[simp] theorem State.writeG_ecause (s : State) (r : RegG) (v : BasePoint) :
    (s.writeG r v).ecause = s.ecause := rfl
@[simp] theorem State.writeG_epc (s : State) (r : RegG) (v : BasePoint) :
    (s.writeG r v).epc = s.epc := rfl
@[simp] theorem State.writeG_einfo (s : State) (r : RegG) (v : BasePoint) :
    (s.writeG r v).einfo = s.einfo := rfl
@[simp] theorem State.writeG_dm (s : State) (r : RegG) (v : BasePoint) :
    (s.writeG r v).dm = s.dm := rfl
@[simp] theorem State.writeG_cm (s : State) (r : RegG) (v : BasePoint) :
    (s.writeG r v).cm = s.cm := rfl
@[simp] theorem State.writeG_free (s : State) (r : RegG) (v : BasePoint) :
    (s.writeG r v).free = s.free := rfl

@[simp] theorem State.writeEq_e (s : State) (b : Bool) : (s.writeEq b).e = s.e := rfl
@[simp] theorem State.writeEq_u (s : State) (b : Bool) : (s.writeEq b).u = s.u := rfl
@[simp] theorem State.writeEq_f (s : State) (b : Bool) : (s.writeEq b).f = s.f := rfl
@[simp] theorem State.writeEq_t (s : State) (b : Bool) : (s.writeEq b).t = s.t := rfl
@[simp] theorem State.writeEq_g (s : State) (b : Bool) : (s.writeEq b).g = s.g := rfl
@[simp] theorem State.writeEq_pc (s : State) (b : Bool) : (s.writeEq b).pc = s.pc := rfl
@[simp] theorem State.writeEq_pastTop (s : State) (b : Bool) : (s.writeEq b).pastTop = s.pastTop := rfl
@[simp] theorem State.writeEq_eq (s : State) (b : Bool) : (s.writeEq b).eq = b := rfl
@[simp] theorem State.writeEq_onc (s : State) (b : Bool) : (s.writeEq b).onc = s.onc := rfl
@[simp] theorem State.writeEq_lc (s : State) (b : Bool) : (s.writeEq b).lc = s.lc := rfl
@[simp] theorem State.writeEq_ml (s : State) (b : Bool) : (s.writeEq b).ml = s.ml := rfl
@[simp] theorem State.writeEq_lifecycle (s : State) (b : Bool) :
    (s.writeEq b).lifecycle = s.lifecycle := rfl
@[simp] theorem State.writeEq_run (s : State) (b : Bool) : (s.writeEq b).run = s.run := rfl
@[simp] theorem State.writeEq_prm (s : State) (b : Bool) : (s.writeEq b).prm = s.prm := rfl
@[simp] theorem State.writeEq_ie (s : State) (b : Bool) : (s.writeEq b).ie = s.ie := rfl
@[simp] theorem State.writeEq_ecause (s : State) (b : Bool) : (s.writeEq b).ecause = s.ecause := rfl
@[simp] theorem State.writeEq_epc (s : State) (b : Bool) : (s.writeEq b).epc = s.epc := rfl
@[simp] theorem State.writeEq_einfo (s : State) (b : Bool) : (s.writeEq b).einfo = s.einfo := rfl
@[simp] theorem State.writeEq_dm (s : State) (b : Bool) : (s.writeEq b).dm = s.dm := rfl
@[simp] theorem State.writeEq_cm (s : State) (b : Bool) : (s.writeEq b).cm = s.cm := rfl
@[simp] theorem State.writeEq_free (s : State) (b : Bool) : (s.writeEq b).free = s.free := rfl

@[simp] theorem State.writeOnc_e (s : State) (b : Bool) : (s.writeOnc b).e = s.e := rfl
@[simp] theorem State.writeOnc_u (s : State) (b : Bool) : (s.writeOnc b).u = s.u := rfl
@[simp] theorem State.writeOnc_f (s : State) (b : Bool) : (s.writeOnc b).f = s.f := rfl
@[simp] theorem State.writeOnc_t (s : State) (b : Bool) : (s.writeOnc b).t = s.t := rfl
@[simp] theorem State.writeOnc_g (s : State) (b : Bool) : (s.writeOnc b).g = s.g := rfl
@[simp] theorem State.writeOnc_pc (s : State) (b : Bool) : (s.writeOnc b).pc = s.pc := rfl
@[simp] theorem State.writeOnc_pastTop (s : State) (b : Bool) : (s.writeOnc b).pastTop = s.pastTop := rfl
@[simp] theorem State.writeOnc_eq (s : State) (b : Bool) : (s.writeOnc b).eq = s.eq := rfl
@[simp] theorem State.writeOnc_onc (s : State) (b : Bool) : (s.writeOnc b).onc = b := rfl
@[simp] theorem State.writeOnc_lc (s : State) (b : Bool) : (s.writeOnc b).lc = s.lc := rfl
@[simp] theorem State.writeOnc_ml (s : State) (b : Bool) : (s.writeOnc b).ml = s.ml := rfl
@[simp] theorem State.writeOnc_lifecycle (s : State) (b : Bool) :
    (s.writeOnc b).lifecycle = s.lifecycle := rfl
@[simp] theorem State.writeOnc_run (s : State) (b : Bool) : (s.writeOnc b).run = s.run := rfl
@[simp] theorem State.writeOnc_prm (s : State) (b : Bool) : (s.writeOnc b).prm = s.prm := rfl
@[simp] theorem State.writeOnc_ie (s : State) (b : Bool) : (s.writeOnc b).ie = s.ie := rfl
@[simp] theorem State.writeOnc_ecause (s : State) (b : Bool) :
    (s.writeOnc b).ecause = s.ecause := rfl
@[simp] theorem State.writeOnc_epc (s : State) (b : Bool) : (s.writeOnc b).epc = s.epc := rfl
@[simp] theorem State.writeOnc_einfo (s : State) (b : Bool) : (s.writeOnc b).einfo = s.einfo := rfl
@[simp] theorem State.writeOnc_dm (s : State) (b : Bool) : (s.writeOnc b).dm = s.dm := rfl
@[simp] theorem State.writeOnc_cm (s : State) (b : Bool) : (s.writeOnc b).cm = s.cm := rfl
@[simp] theorem State.writeOnc_free (s : State) (b : Bool) : (s.writeOnc b).free = s.free := rfl

@[simp] theorem State.writeLC_e (s : State) (r : Option LineRecord) : (s.writeLC r).e = s.e := rfl
@[simp] theorem State.writeLC_u (s : State) (r : Option LineRecord) : (s.writeLC r).u = s.u := rfl
@[simp] theorem State.writeLC_f (s : State) (r : Option LineRecord) : (s.writeLC r).f = s.f := rfl
@[simp] theorem State.writeLC_t (s : State) (r : Option LineRecord) : (s.writeLC r).t = s.t := rfl
@[simp] theorem State.writeLC_g (s : State) (r : Option LineRecord) : (s.writeLC r).g = s.g := rfl
@[simp] theorem State.writeLC_pc (s : State) (r : Option LineRecord) :
    (s.writeLC r).pc = s.pc := rfl
@[simp] theorem State.writeLC_pastTop (s : State) (r : Option LineRecord) :
    (s.writeLC r).pastTop = s.pastTop := rfl
@[simp] theorem State.writeLC_eq (s : State) (r : Option LineRecord) :
    (s.writeLC r).eq = s.eq := rfl
@[simp] theorem State.writeLC_onc (s : State) (r : Option LineRecord) :
    (s.writeLC r).onc = s.onc := rfl
@[simp] theorem State.writeLC_lc (s : State) (r : Option LineRecord) : (s.writeLC r).lc = r := rfl
@[simp] theorem State.writeLC_ml (s : State) (r : Option LineRecord) :
    (s.writeLC r).ml = s.ml := rfl
@[simp] theorem State.writeLC_lifecycle (s : State) (r : Option LineRecord) :
    (s.writeLC r).lifecycle = s.lifecycle := rfl
@[simp] theorem State.writeLC_run (s : State) (r : Option LineRecord) :
    (s.writeLC r).run = s.run := rfl
@[simp] theorem State.writeLC_prm (s : State) (r : Option LineRecord) :
    (s.writeLC r).prm = s.prm := rfl
@[simp] theorem State.writeLC_ie (s : State) (r : Option LineRecord) :
    (s.writeLC r).ie = s.ie := rfl
@[simp] theorem State.writeLC_ecause (s : State) (r : Option LineRecord) :
    (s.writeLC r).ecause = s.ecause := rfl
@[simp] theorem State.writeLC_epc (s : State) (r : Option LineRecord) :
    (s.writeLC r).epc = s.epc := rfl
@[simp] theorem State.writeLC_einfo (s : State) (r : Option LineRecord) :
    (s.writeLC r).einfo = s.einfo := rfl
@[simp] theorem State.writeLC_dm (s : State) (r : Option LineRecord) :
    (s.writeLC r).dm = s.dm := rfl
@[simp] theorem State.writeLC_cm (s : State) (r : Option LineRecord) :
    (s.writeLC r).cm = s.cm := rfl
@[simp] theorem State.writeLC_free (s : State) (r : Option LineRecord) :
    (s.writeLC r).free = s.free := rfl

@[simp] theorem State.takeFree_e (s : State) : (s.takeFree).e = s.e := rfl
@[simp] theorem State.takeFree_u (s : State) : (s.takeFree).u = s.u := rfl
@[simp] theorem State.takeFree_f (s : State) : (s.takeFree).f = s.f := rfl
@[simp] theorem State.takeFree_t (s : State) : (s.takeFree).t = s.t := rfl
@[simp] theorem State.takeFree_g (s : State) : (s.takeFree).g = s.g := rfl
@[simp] theorem State.takeFree_pc (s : State) : (s.takeFree).pc = s.pc := rfl
@[simp] theorem State.takeFree_pastTop (s : State) : (s.takeFree).pastTop = s.pastTop := rfl
@[simp] theorem State.takeFree_eq (s : State) : (s.takeFree).eq = s.eq := rfl
@[simp] theorem State.takeFree_onc (s : State) : (s.takeFree).onc = s.onc := rfl
@[simp] theorem State.takeFree_lc (s : State) : (s.takeFree).lc = s.lc := rfl
@[simp] theorem State.takeFree_ml (s : State) : (s.takeFree).ml = s.ml := rfl
@[simp] theorem State.takeFree_lifecycle (s : State) : (s.takeFree).lifecycle = s.lifecycle := rfl
@[simp] theorem State.takeFree_run (s : State) : (s.takeFree).run = s.run := rfl
@[simp] theorem State.takeFree_prm (s : State) : (s.takeFree).prm = s.prm := rfl
@[simp] theorem State.takeFree_ie (s : State) : (s.takeFree).ie = s.ie := rfl
@[simp] theorem State.takeFree_ecause (s : State) : (s.takeFree).ecause = s.ecause := rfl
@[simp] theorem State.takeFree_epc (s : State) : (s.takeFree).epc = s.epc := rfl
@[simp] theorem State.takeFree_einfo (s : State) : (s.takeFree).einfo = s.einfo := rfl
@[simp] theorem State.takeFree_dm (s : State) : (s.takeFree).dm = s.dm := rfl
@[simp] theorem State.takeFree_cm (s : State) : (s.takeFree).cm = s.cm := rfl
@[simp] theorem State.takeFree_free (s : State) : (s.takeFree).free = s.free + 1 := rfl

@[simp] theorem State.enterFault_e (s : State) (r : Raise) : (s.enterFault r).e = s.e := rfl
@[simp] theorem State.enterFault_u (s : State) (r : Raise) : (s.enterFault r).u = s.u := rfl
@[simp] theorem State.enterFault_f (s : State) (r : Raise) : (s.enterFault r).f = s.f := rfl
@[simp] theorem State.enterFault_t (s : State) (r : Raise) : (s.enterFault r).t = s.t := rfl
@[simp] theorem State.enterFault_g (s : State) (r : Raise) : (s.enterFault r).g = s.g := rfl
@[simp] theorem State.enterFault_pc (s : State) (r : Raise) : (s.enterFault r).pc = s.pc := rfl
@[simp] theorem State.enterFault_pastTop (s : State) (r : Raise) : (s.enterFault r).pastTop = s.pastTop := rfl
@[simp] theorem State.enterFault_eq (s : State) (r : Raise) : (s.enterFault r).eq = s.eq := rfl
@[simp] theorem State.enterFault_onc (s : State) (r : Raise) : (s.enterFault r).onc = s.onc := rfl
@[simp] theorem State.enterFault_lc (s : State) (r : Raise) : (s.enterFault r).lc = s.lc := rfl
@[simp] theorem State.enterFault_lifecycle (s : State) (r : Raise) :
    (s.enterFault r).lifecycle = s.lifecycle := rfl
@[simp] theorem State.enterFault_run (s : State) (r : Raise) :
    (s.enterFault r).run = .faulted := rfl
@[simp] theorem State.enterFault_prm (s : State) (r : Raise) : (s.enterFault r).prm = s.prm := rfl
@[simp] theorem State.enterFault_ie (s : State) (r : Raise) : (s.enterFault r).ie = s.ie := rfl
@[simp] theorem State.enterFault_ecause (s : State) (r : Raise) :
    (s.enterFault r).ecause = r.cause.code := rfl
@[simp] theorem State.enterFault_epc (s : State) (r : Raise) : (s.enterFault r).epc = s.pc := rfl
@[simp] theorem State.enterFault_einfo (s : State) (r : Raise) :
    (s.enterFault r).einfo = r.einfo := rfl
@[simp] theorem State.enterFault_dm (s : State) (r : Raise) : (s.enterFault r).dm = s.dm := rfl
@[simp] theorem State.enterFault_cm (s : State) (r : Raise) : (s.enterFault r).cm = s.cm := rfl
@[simp] theorem State.enterFault_free (s : State) (r : Raise) :
    (s.enterFault r).free = s.free := rfl

@[simp] theorem State.writeMiller_e (s : State) (r : RegF) (b : Bool) (v : Deg22) :
    (s.writeMiller r b v).e = s.e := rfl
@[simp] theorem State.writeMiller_u (s : State) (r : RegF) (b : Bool) (v : Deg22) :
    (s.writeMiller r b v).u = s.u := rfl
@[simp] theorem State.writeMiller_f (s : State) (r : RegF) (b : Bool) (v : Deg22) :
    (s.writeMiller r b v).f = s.f.set r.val (some v) r.isLt := rfl
@[simp] theorem State.writeMiller_t (s : State) (r : RegF) (b : Bool) (v : Deg22) :
    (s.writeMiller r b v).t = s.t := rfl
@[simp] theorem State.writeMiller_g (s : State) (r : RegF) (b : Bool) (v : Deg22) :
    (s.writeMiller r b v).g = s.g := rfl
@[simp] theorem State.writeMiller_pc (s : State) (r : RegF) (b : Bool) (v : Deg22) :
    (s.writeMiller r b v).pc = s.pc := rfl
@[simp] theorem State.writeMiller_pastTop (s : State) (r : RegF) (b : Bool) (v : Deg22) :
    (s.writeMiller r b v).pastTop = s.pastTop := rfl
@[simp] theorem State.writeMiller_eq (s : State) (r : RegF) (b : Bool) (v : Deg22) :
    (s.writeMiller r b v).eq = s.eq := rfl
@[simp] theorem State.writeMiller_onc (s : State) (r : RegF) (b : Bool) (v : Deg22) :
    (s.writeMiller r b v).onc = s.onc := rfl
@[simp] theorem State.writeMiller_lc (s : State) (r : RegF) (b : Bool) (v : Deg22) :
    (s.writeMiller r b v).lc = none := rfl
@[simp] theorem State.writeMiller_ml (s : State) (r : RegF) (b : Bool) (v : Deg22) :
    (s.writeMiller r b v).ml = ⟨false, b, .idle, 0, none⟩ := rfl
@[simp] theorem State.writeMiller_lifecycle (s : State) (r : RegF) (b : Bool) (v : Deg22) :
    (s.writeMiller r b v).lifecycle = s.lifecycle := rfl
@[simp] theorem State.writeMiller_run (s : State) (r : RegF) (b : Bool) (v : Deg22) :
    (s.writeMiller r b v).run = s.run := rfl
@[simp] theorem State.writeMiller_prm (s : State) (r : RegF) (b : Bool) (v : Deg22) :
    (s.writeMiller r b v).prm = s.prm := rfl
@[simp] theorem State.writeMiller_ie (s : State) (r : RegF) (b : Bool) (v : Deg22) :
    (s.writeMiller r b v).ie = s.ie := rfl
@[simp] theorem State.writeMiller_ecause (s : State) (r : RegF) (b : Bool) (v : Deg22) :
    (s.writeMiller r b v).ecause = s.ecause := rfl
@[simp] theorem State.writeMiller_epc (s : State) (r : RegF) (b : Bool) (v : Deg22) :
    (s.writeMiller r b v).epc = s.epc := rfl
@[simp] theorem State.writeMiller_einfo (s : State) (r : RegF) (b : Bool) (v : Deg22) :
    (s.writeMiller r b v).einfo = s.einfo := rfl
@[simp] theorem State.writeMiller_dm (s : State) (r : RegF) (b : Bool) (v : Deg22) :
    (s.writeMiller r b v).dm = s.dm := rfl
@[simp] theorem State.writeMiller_cm (s : State) (r : RegF) (b : Bool) (v : Deg22) :
    (s.writeMiller r b v).cm = s.cm := rfl
@[simp] theorem State.writeMiller_free (s : State) (r : RegF) (b : Bool) (v : Deg22) :
    (s.writeMiller r b v).free = s.free := rfl

@[simp] theorem State.advance_e (c : Config) (s : State) : (s.advance c).e = s.e := by
  unfold State.advance
  split <;> rfl
@[simp] theorem State.advance_u (c : Config) (s : State) : (s.advance c).u = s.u := by
  unfold State.advance
  split <;> rfl
@[simp] theorem State.advance_f (c : Config) (s : State) : (s.advance c).f = s.f := by
  unfold State.advance
  split <;> rfl
@[simp] theorem State.advance_t (c : Config) (s : State) : (s.advance c).t = s.t := by
  unfold State.advance
  split <;> rfl
@[simp] theorem State.advance_g (c : Config) (s : State) : (s.advance c).g = s.g := by
  unfold State.advance
  split <;> rfl
@[simp] theorem State.advance_eq (c : Config) (s : State) : (s.advance c).eq = s.eq := by
  unfold State.advance
  split <;> rfl
@[simp] theorem State.advance_onc (c : Config) (s : State) : (s.advance c).onc = s.onc := by
  unfold State.advance
  split <;> rfl
@[simp] theorem State.advance_lc (c : Config) (s : State) : (s.advance c).lc = s.lc := by
  unfold State.advance
  split <;> rfl
@[simp] theorem State.advance_ml (c : Config) (s : State) : (s.advance c).ml = s.ml := by
  unfold State.advance
  split <;> rfl
@[simp] theorem State.advance_lifecycle (c : Config) (s : State) : (s.advance c).lifecycle = s.lifecycle := by
  unfold State.advance
  split <;> rfl
@[simp] theorem State.advance_run (c : Config) (s : State) : (s.advance c).run = s.run := by
  unfold State.advance
  split <;> rfl
@[simp] theorem State.advance_prm (c : Config) (s : State) : (s.advance c).prm = s.prm := by
  unfold State.advance
  split <;> rfl
@[simp] theorem State.advance_ie (c : Config) (s : State) : (s.advance c).ie = s.ie := by
  unfold State.advance
  split <;> rfl
@[simp] theorem State.advance_ecause (c : Config) (s : State) : (s.advance c).ecause = s.ecause := by
  unfold State.advance
  split <;> rfl
@[simp] theorem State.advance_epc (c : Config) (s : State) : (s.advance c).epc = s.epc := by
  unfold State.advance
  split <;> rfl
@[simp] theorem State.advance_einfo (c : Config) (s : State) : (s.advance c).einfo = s.einfo := by
  unfold State.advance
  split <;> rfl
@[simp] theorem State.advance_dm (c : Config) (s : State) : (s.advance c).dm = s.dm := by
  unfold State.advance
  split <;> rfl
@[simp] theorem State.advance_cm (c : Config) (s : State) : (s.advance c).cm = s.cm := by
  unfold State.advance
  split <;> rfl

/-- A fault entry leaves the Miller machine inactive. -/
@[simp] theorem State.enterFault_active (s : State) (r : Raise) : (s.enterFault r).ml.active = false := by
  cases h : r.step <;> simp [State.enterFault, h]

/-- A fault outside a Miller loop changes nothing of `ML` but `ML.active`. -/
theorem State.enterFault_ml_none (s : State) (r : Raise) (h : r.step = none) :
    (s.enterFault r).ml = { s.ml with active := false } := by
  simp [State.enterFault, h]

/-- A fault inside a Miller loop leaves its step. -/
theorem State.enterFault_ml_some (s : State) (r : Raise) (m : MillerStep) (h : r.step = some m) :
    (s.enterFault r).ml = ⟨false, m.variant, m.phase, m.i, none⟩ := by
  simp [State.enterFault, h]

/-- Below 0xFFFF the counter moves by one and nothing else does. -/
theorem State.advance_succ (c : Config) (s : State) (h : s.pc ≠ 0xFFFF#16) :
    s.advance c = { s with pc := s.pc + 1#16 } := by
  simp [State.advance, h]

/-- At 0xFFFF the counter goes past the top, where the next fetch faults. -/
theorem State.advance_top (c : Config) (s : State) (h : s.pc = 0xFFFF#16) :
    s.advance c = { s with pc := c.pcPastTop s.free, pastTop := true, free := s.free + 1 } := by
  simp [State.advance, h]

end Sys2Proof.Machine
end

