-- ==== Sys2Proof/Laws/Ops.lean ====
section
/-! SUPPORT. One lemma for each shared operation, saying once everything it can do: when it succeeds
and with what, and which fault it raises otherwise. Proofs cite these and do not unfold. -/

namespace Sys2Proof.Machine

open Sys2Proof

/-! ### Sequencing -/

/-- A sequence succeeds when both parts do. -/
theorem bind_ok_iff {α β : Type} {x : Except Raise α} {f : α → Except Raise β} {b : β} :
    (x >>= f) = .ok b ↔ ∃ a, x = .ok a ∧ f a = .ok b := by
  cases x <;> simp [bind, Except.bind]

/-- A sequence faults when its first part does, or its second part after the first. -/
theorem bind_error_iff {α β : Type} {x : Except Raise α} {f : α → Except Raise β} {r : Raise} :
    (x >>= f) = .error r ↔ x = .error r ∨ ∃ a, x = .ok a ∧ f a = .error r := by
  cases x <;> simp [bind, Except.bind]

@[simp] theorem ok_bind {α β : Type} (a : α) (f : α → Except Raise β) :
    ((Except.ok a : Except Raise α) >>= f) = f a := rfl

@[simp] theorem error_bind {α β : Type} (r : Raise) (f : α → Except Raise β) :
    ((Except.error r : Except Raise α) >>= f) = .error r := rfl

@[simp] theorem pure_eq_ok {α : Type} (a : α) : (pure a : Except Raise α) = .ok a := rfl

theorem raise_ne_ok {α : Type} {cause : Cause} {info : BitVec 32} {a : α} :
    (raise cause info : Except Raise α) ≠ .ok a := fun h => nomatch h

/-! ### The end of a command -/

@[simp] theorem finish_ok (c : Config) (s t : State) : finish c s (.ok t) = .next (t.advance c) := rfl

@[simp] theorem finish_error (c : Config) (s : State) (r : Raise) :
    finish c s (.error r) = .next (s.enterFault r) := rfl

/-- Every command but `HALT` completes and advances, or enters a fault. -/
theorem finish_next (c : Config) (s t : State) (x : Except Raise State) :
    finish c s x = .next t ↔
      (∃ u, x = .ok u ∧ t = u.advance c) ∨ ∃ r, x = .error r ∧ t = s.enterFault r := by
  cases x <;> simp [finish, eq_comm]

/-! ### Items with a valid bit -/

@[simp] theorem readItem_some {α : Type} (loc : BitVec 32) (v : α) : readItem loc (some v) = .ok v := rfl

@[simp] theorem readItem_none {α : Type} (loc : BitVec 32) :
    (readItem loc none : Except Raise α) = raise .unwrittenRead loc := rfl

theorem readItem_ok_iff {α : Type} {loc : BitVec 32} {o : Option α} {v : α} :
    readItem loc o = .ok v ↔ o = some v := by
  cases o <;> simp [raise_ne_ok]

theorem readItem_error_iff {α : Type} {loc : BitVec 32} {o : Option α} {r : Raise} :
    readItem loc o = .error r ↔ o = none ∧ r = ⟨.unwrittenRead, loc, none⟩ := by
  cases o <;> simp [raise, eq_comm]

theorem State.readE_ok_iff {s : State} {r : RegE} {v : Deg11} :
    s.readE r = .ok v ↔ s.e[r.val] = some v := readItem_ok_iff

theorem State.readU_ok_iff {s : State} {r : RegU} {v : Unred11} :
    s.readU r = .ok v ↔ s.u[r.val] = some v := readItem_ok_iff

theorem State.readF_ok_iff {s : State} {r : RegF} {v : Deg22} :
    s.readF r = .ok v ↔ s.f[r.val] = some v := readItem_ok_iff

theorem State.readT_ok_iff {s : State} {r : RegT} {v : TwistPoint} :
    s.readT r = .ok v ↔ s.t[r.val] = some v := readItem_ok_iff

theorem State.readG_ok_iff {s : State} {r : RegG} {v : BasePoint} :
    s.readG r = .ok v ↔ s.g[r.val] = some v := readItem_ok_iff

/-! ### Lifecycle -/

theorem State.needReady_ok_iff {s : State} {k : Constants} :
    s.needReady = .ok k ↔ s.lifecycle = .ready k := by
  unfold State.needReady
  cases s.lifecycle <;> simp [raise_ne_ok]

theorem State.needReady_error_iff {s : State} {r : Raise} :
    s.needReady = .error r ↔ s.lifecycle = .config ∧ r = ⟨.lifecycleFault, 0#32, none⟩ := by
  unfold State.needReady
  cases s.lifecycle <;> simp [raise, eq_comm]

theorem State.needConfig_ok_iff {s : State} {u : Unit} :
    s.needConfig = .ok u ↔ s.lifecycle = .config := by
  unfold State.needConfig
  cases s.lifecycle <;> simp [raise_ne_ok]

theorem State.needConfig_error_iff {s : State} {r : Raise} :
    s.needConfig = .error r ↔ (∃ k, s.lifecycle = .ready k) ∧ r = ⟨.lifecycleFault, 1#32, none⟩ := by
  unfold State.needConfig
  cases s.lifecycle <;> simp [raise, eq_comm]

theorem State.readField_ok_iff {c : Config} {s : State} {fl : Field} :
    s.readField c = .ok fl ↔ ∃ v, s.prm.c11 = some v ∧ fl = ⟨c.p, v⟩ := by
  simp only [State.readField, State.readC11, bind_ok_iff, readItem_ok_iff, pure_eq_ok,
    Except.ok.injEq, @eq_comm Field]

/-! ### Twist-point operands -/

theorem checkTag_ok_iff {r : RegT} {q : TwistPoint} {u : Unit} :
    checkTag r q = .ok u ↔ tagOk q = true := by
  unfold checkTag
  split <;> simp_all [raise]

theorem checkAffine_ok_iff {r : RegT} {q : TwistPoint} {u : Unit} :
    checkAffine r q = .ok u ↔ q.tag = .affine := by
  unfold checkAffine
  cases q.tag <;> simp [raise]

theorem checkMode_ok_iff {mode : Mode} {r : RegT} {q : TwistPoint} {u : Unit} :
    checkMode mode r q = .ok u ↔ (mode = .basic → q.tag = .affine) := by
  cases mode <;> simp [checkMode, checkAffine_ok_iff]

theorem State.readPoint_ok_iff {s : State} {r : RegT} {q : TwistPoint} :
    s.readPoint r = .ok q ↔ s.t[r.val] = some q ∧ tagOk q = true := by
  simp only [State.readPoint, bind_ok_iff, State.readT_ok_iff, checkTag_ok_iff, pure_eq_ok,
    Except.ok.injEq, exists_and_left]
  grind

theorem tagOk_iff {q : TwistPoint} :
    tagOk q = true ↔ (q.tag = .affine → q.z = zero11 ∨ q.z = one11) := by
  unfold tagOk
  cases q.tag <;> simp

/-! ### Data memory -/

/-- `n` words are read when all of them are written, and they are those words in order. -/
theorem readWords_ok_iff {m : Memory Nat} {a n : Nat} {ws : List Nat} :
    readWords m a n = .ok ws ↔ ws.length = n ∧ ∀ k, k < n → Memory.read m (a + k) = ws[k]? := by
  induction n generalizing a ws with
  | zero =>
    simp only [readWords, Except.ok.injEq]
    constructor
    · rintro rfl; simp
    · rintro ⟨h, -⟩; exact (List.length_eq_zero_iff.mp h).symm
  | succ n ih =>
    simp only [readWords, bind_ok_iff, readItem_ok_iff, ih, pure_eq_ok, Except.ok.injEq]
    constructor
    · rintro ⟨v, hv, vs, ⟨hl, hr⟩, rfl⟩
      refine ⟨by simp [hl], fun k hk => ?_⟩
      cases k with
      | zero => simpa using hv
      | succ k => simpa [Nat.add_assoc, Nat.add_comm 1 k] using hr k (by omega)
    · rintro ⟨hl, hr⟩
      cases ws with
      | nil => simp at hl
      | cons v vs =>
        refine ⟨v, by simpa using hr 0 (by omega), vs, ⟨by simpa using hl, fun k hk => ?_⟩, rfl⟩
        simpa [Nat.add_assoc, Nat.add_comm 1 k] using hr (k + 1) (by omega)

/-- The fault of a read is at the lowest unwritten word. -/
theorem readWords_error_iff {m : Memory Nat} {a n : Nat} {r : Raise} :
    readWords m a n = .error r ↔
      ∃ k, k < n ∧ Memory.read m (a + k) = none ∧ (∀ j, j < k → Memory.read m (a + j) ≠ none) ∧
        r = ⟨.unwrittenRead, locDM (a + k), none⟩ := by
  induction n generalizing a with
  | zero => simp [readWords]
  | succ n ih =>
    simp only [readWords, bind_error_iff, readItem_error_iff, readItem_ok_iff, ih, pure_eq_ok]
    constructor
    · rintro (⟨h, rfl⟩ | ⟨v, hv, ⟨k, hk, hn, hj, rfl⟩ | ⟨_, _, h⟩⟩)
      · exact ⟨0, by omega, h, by simp, rfl⟩
      · refine ⟨k + 1, by omega, by rwa [show a + (k + 1) = a + 1 + k by omega], fun j hjk => ?_, ?_⟩
        · cases j with
          | zero => simp [hv]
          | succ j => rw [show a + (j + 1) = a + 1 + j by omega]; exact hj j (by omega)
        · rw [show a + (k + 1) = a + 1 + k by omega]
      · exact nomatch h
    · rintro ⟨k, hk, hn, hj, rfl⟩
      cases k with
      | zero => exact .inl ⟨hn, rfl⟩
      | succ k =>
        right
        have h0 := hj 0 (by omega)
        rw [Nat.add_zero] at h0
        obtain ⟨v, hv⟩ := Option.ne_none_iff_exists'.mp h0
        refine ⟨v, hv, .inl ⟨k, by omega, ?_, fun j hjk => ?_, ?_⟩⟩
        · rwa [show a + 1 + k = a + (k + 1) by omega]
        · rw [show a + 1 + j = a + (j + 1) by omega]; exact hj (j + 1) (by omega)
        · rw [show a + 1 + k = a + (k + 1) by omega]

/-- `MemRead` (`20_memory.md` R66) when it succeeds. -/
theorem State.memRead_ok_iff {c : Config} {s : State} {a n : Nat} {ws : List Nat} :
    s.memRead c a n = .ok ws ↔ a + n ≤ c.dmWords ∧ ws.length = n ∧
      ∀ k, k < n → Memory.read s.dm (a + k) = ws[k]? := by
  unfold State.memRead
  split
  · simp [raise_ne_ok, show ¬a + n ≤ c.dmWords by omega]
  · rw [readWords_ok_iff]
    simp [show a + n ≤ c.dmWords by omega]

/-- `MemRead` when it faults: the range of the whole access first, then the lowest unwritten word. -/
theorem State.memRead_error_iff {c : Config} {s : State} {a n : Nat} {r : Raise} :
    s.memRead c a n = .error r ↔
      (c.dmWords < a + n ∧ r = ⟨.addressFault, locDM (a + n - 1), none⟩) ∨
      (a + n ≤ c.dmWords ∧ ∃ k, k < n ∧ Memory.read s.dm (a + k) = none ∧
        (∀ j, j < k → Memory.read s.dm (a + j) ≠ none) ∧
        r = ⟨.unwrittenRead, locDM (a + k), none⟩) := by
  unfold State.memRead
  split
  · next h => simp [raise, h, show ¬a + n ≤ c.dmWords by omega, eq_comm]
  · next h => rw [readWords_error_iff]; simp [h, show a + n ≤ c.dmWords by omega]

/-- `MemWrite` (R66) when it succeeds. -/
theorem State.memWrite_ok_iff {c : Config} {s t : State} {a : Nat} {vs : List Nat} :
    s.memWrite c a vs = .ok t ↔
      a + vs.length ≤ c.dmWords ∧ t = { s with dm := Memory.writeAll s.dm a vs } := by
  unfold State.memWrite
  split
  · simp [raise_ne_ok, show ¬a + vs.length ≤ c.dmWords by omega]
  · simp [show a + vs.length ≤ c.dmWords by omega, eq_comm]

/-- `MemWrite` when it faults. -/
theorem State.memWrite_error_iff {c : Config} {s : State} {a : Nat} {vs : List Nat} {r : Raise} :
    s.memWrite c a vs = .error r ↔
      c.dmWords < a + vs.length ∧ r = ⟨.addressFault, locDM (a + vs.length - 1), none⟩ := by
  unfold State.memWrite
  split
  · next h => simp [raise, h, eq_comm]
  · next h => simp [h]

/-! ### Command fetch -/

theorem State.fetch_ok_iff {c : Config} {s : State} {w : BitVec 32} :
    s.fetch c = .ok w ↔
      s.pastTop = false ∧ s.pc.toNat < c.cmWords ∧ Memory.read s.cm s.pc.toNat = some w := by
  unfold State.fetch
  split
  · next h =>
    refine ⟨fun h2 => (raise_ne_ok h2).elim, fun ⟨h1, h2, _⟩ => ?_⟩
    rcases h with h | h
    · simp [h] at h1
    · omega
  · next h =>
    rw [not_or, Bool.not_eq_true, Nat.not_le] at h
    simp [readItem_ok_iff, h]

theorem State.fetch_error_iff {c : Config} {s : State} {r : Raise} :
    s.fetch c = .error r ↔
      ((s.pastTop = true ∨ c.cmWords ≤ s.pc.toNat) ∧ r = ⟨.addressFault, locCM s.pc, none⟩) ∨
      (s.pastTop = false ∧ s.pc.toNat < c.cmWords ∧ Memory.read s.cm s.pc.toNat = none ∧
        r = ⟨.unwrittenRead, locCM s.pc, none⟩) := by
  unfold State.fetch
  split
  · next h =>
    have h3 : ¬(s.pastTop = false ∧ s.pc.toNat < c.cmWords) := fun ⟨h1, h2⟩ => by
      rcases h with h | h
      · simp [h] at h1
      · omega
    constructor
    · intro h4
      cases h4
      exact .inl ⟨h, rfl⟩
    · rintro (⟨-, rfl⟩ | ⟨h1, h2, -⟩)
      · rfl
      · exact absurd ⟨h1, h2⟩ h3
  · next h =>
    rw [readItem_error_iff]
    rw [not_or, Bool.not_eq_true, Nat.not_le] at h
    simp [h]

end Sys2Proof.Machine
end

