-- ==== Sys2Proof/Laws/PerInstr.lean ====
section
/-! SUPPORT. The per-instruction family `EncodeOpcode`: bits 31:24 of a command's word are the opcode
of its row, whatever its operands (`30_encoding.md` R90, R98). -/

namespace Sys2Proof.Laws

open Sys2Proof

theorem fieldOp_wordR {op rd rs1 rs2 aux : Nat} (hop : op < 256) (hrd : rd < 64) (hrs1 : rs1 < 64)
    (hrs2 : rs2 < 64) (haux : aux < 64) : fieldOp (wordR op rd rs1 rs2 aux) = op := by
  simp only [fieldOp, wordR, BitVec.toNat_ofNat]
  omega

theorem fieldOp_wordM {op r addr : Nat} (hop : op < 256) (hr : r < 64) (haddr : addr < 2 ^ 18) :
    fieldOp (wordM op r addr) = op := by
  simp only [fieldOp, wordM, BitVec.toNat_ofNat]
  omega

theorem fieldOp_wordZ {op : Nat} (hop : op < 256) : fieldOp (wordZ op) = op := by
  simp only [fieldOp, wordZ, BitVec.toNat_ofNat]
  omega

theorem modeBit_lt (m : Mode) : modeBit m < 64 := by cases m <;> decide

theorem flagBit_lt (b : Bool) : b.toNat < 64 := by cases b <;> decide

/-- The encoder writes the opcode of the command's row. -/
def EncodeOpcode.Statement (i : Instr) : Prop := fieldOp (encode i) = Machine.opcode i

theorem EncodeOpcode.nop :
    EncodeOpcode.Statement .nop :=
  fieldOp_wordZ (by decide)

theorem EncodeOpcode.halt :
    EncodeOpcode.Statement .halt :=
  fieldOp_wordZ (by decide)

theorem EncodeOpcode.finit :
    EncodeOpcode.Statement .finit :=
  fieldOp_wordZ (by decide)

theorem EncodeOpcode.ldp (slot : SlotField) (addr : Addr) :
    EncodeOpcode.Statement (.ldp slot addr) :=
  fieldOp_wordM (by decide) (by omega) (by omega)

theorem EncodeOpcode.ldE (r : RegE) (addr : Addr) :
    EncodeOpcode.Statement (.ldE r addr) :=
  fieldOp_wordM (by decide) (by omega) (by omega)

theorem EncodeOpcode.stE (r : RegE) (addr : Addr) :
    EncodeOpcode.Statement (.stE r addr) :=
  fieldOp_wordM (by decide) (by omega) (by omega)

theorem EncodeOpcode.ldF (r : RegF) (addr : Addr) :
    EncodeOpcode.Statement (.ldF r addr) :=
  fieldOp_wordM (by decide) (by omega) (by omega)

theorem EncodeOpcode.stF (r : RegF) (addr : Addr) :
    EncodeOpcode.Statement (.stF r addr) :=
  fieldOp_wordM (by decide) (by omega) (by omega)

theorem EncodeOpcode.ldT (r : RegT) (addr : Addr) :
    EncodeOpcode.Statement (.ldT r addr) :=
  fieldOp_wordM (by decide) (by omega) (by omega)

theorem EncodeOpcode.stT (r : RegT) (addr : Addr) :
    EncodeOpcode.Statement (.stT r addr) :=
  fieldOp_wordM (by decide) (by omega) (by omega)

theorem EncodeOpcode.ldG (r : RegG) (addr : Addr) :
    EncodeOpcode.Statement (.ldG r addr) :=
  fieldOp_wordM (by decide) (by omega) (by omega)

theorem EncodeOpcode.stG (r : RegG) (addr : Addr) :
    EncodeOpcode.Statement (.stG r addr) :=
  fieldOp_wordM (by decide) (by omega) (by omega)

theorem EncodeOpcode.eZero (rd : RegE) :
    EncodeOpcode.Statement (.eZero rd) :=
  fieldOp_wordR (by decide) (by omega) (by decide) (by decide) (by decide)

theorem EncodeOpcode.eOne (rd : RegE) :
    EncodeOpcode.Statement (.eOne rd) :=
  fieldOp_wordR (by decide) (by omega) (by decide) (by decide) (by decide)

theorem EncodeOpcode.eCpy (rd rs1 : RegE) :
    EncodeOpcode.Statement (.eCpy rd rs1) :=
  fieldOp_wordR (by decide) (by omega) (by omega) (by decide) (by decide)

theorem EncodeOpcode.eAdd (rd rs1 rs2 : RegE) :
    EncodeOpcode.Statement (.eAdd rd rs1 rs2) :=
  fieldOp_wordR (by decide) (by omega) (by omega) (by omega) (by decide)

theorem EncodeOpcode.eSub (rd rs1 rs2 : RegE) :
    EncodeOpcode.Statement (.eSub rd rs1 rs2) :=
  fieldOp_wordR (by decide) (by omega) (by omega) (by omega) (by decide)

theorem EncodeOpcode.eNeg (rd rs1 : RegE) :
    EncodeOpcode.Statement (.eNeg rd rs1) :=
  fieldOp_wordR (by decide) (by omega) (by omega) (by decide) (by decide)

theorem EncodeOpcode.eCmp (rs1 rs2 : RegE) :
    EncodeOpcode.Statement (.eCmp rs1 rs2) :=
  fieldOp_wordR (by decide) (by decide) (by omega) (by omega) (by decide)

theorem EncodeOpcode.eMul (rd rs1 rs2 : RegE) :
    EncodeOpcode.Statement (.eMul rd rs1 rs2) :=
  fieldOp_wordR (by decide) (by omega) (by omega) (by omega) (by decide)

theorem EncodeOpcode.eSqr (rd rs1 : RegE) :
    EncodeOpcode.Statement (.eSqr rd rs1) :=
  fieldOp_wordR (by decide) (by omega) (by omega) (by decide) (by decide)

theorem EncodeOpcode.eMulu (rd : RegU) (rs1 rs2 : RegE) :
    EncodeOpcode.Statement (.eMulu rd rs1 rs2) :=
  fieldOp_wordR (by decide) (by omega) (by omega) (by omega) (by decide)

theorem EncodeOpcode.eSqru (rd : RegU) (rs1 : RegE) :
    EncodeOpcode.Statement (.eSqru rd rs1) :=
  fieldOp_wordR (by decide) (by omega) (by omega) (by decide) (by decide)

theorem EncodeOpcode.eRed (rd : RegE) (rs1 : RegU) :
    EncodeOpcode.Statement (.eRed rd rs1) :=
  fieldOp_wordR (by decide) (by omega) (by omega) (by decide) (by decide)

theorem EncodeOpcode.eMnr (rd rs1 : RegE) :
    EncodeOpcode.Statement (.eMnr rd rs1) :=
  fieldOp_wordR (by decide) (by omega) (by omega) (by decide) (by decide)

theorem EncodeOpcode.eFrb (rd rs1 : RegE) (exp : Exponent) :
    EncodeOpcode.Statement (.eFrb rd rs1 exp) :=
  fieldOp_wordR (by decide) (by omega) (by omega) (by decide) (by omega)

theorem EncodeOpcode.eFrb2 (rd rs1 : RegE) (exp : Exponent) :
    EncodeOpcode.Statement (.eFrb2 rd rs1 exp) :=
  fieldOp_wordR (by decide) (by omega) (by omega) (by decide) (by omega)

theorem EncodeOpcode.eInv (rd rs1 : RegE) :
    EncodeOpcode.Statement (.eInv rd rs1) :=
  fieldOp_wordR (by decide) (by omega) (by omega) (by decide) (by decide)

theorem EncodeOpcode.fOne (rd : RegF) :
    EncodeOpcode.Statement (.fOne rd) :=
  fieldOp_wordR (by decide) (by omega) (by decide) (by decide) (by decide)

theorem EncodeOpcode.fCpy (rd rs1 : RegF) :
    EncodeOpcode.Statement (.fCpy rd rs1) :=
  fieldOp_wordR (by decide) (by omega) (by omega) (by decide) (by decide)

theorem EncodeOpcode.fPack (rd : RegF) (rs1 rs2 : RegE) :
    EncodeOpcode.Statement (.fPack rd rs1 rs2) :=
  fieldOp_wordR (by decide) (by omega) (by omega) (by omega) (by decide)

theorem EncodeOpcode.fGetr (rd : RegE) (rs1 : RegF) :
    EncodeOpcode.Statement (.fGetr rd rs1) :=
  fieldOp_wordR (by decide) (by omega) (by omega) (by decide) (by decide)

theorem EncodeOpcode.fGeti (rd : RegE) (rs1 : RegF) :
    EncodeOpcode.Statement (.fGeti rd rs1) :=
  fieldOp_wordR (by decide) (by omega) (by omega) (by decide) (by decide)

theorem EncodeOpcode.fCmp (rs1 rs2 : RegF) :
    EncodeOpcode.Statement (.fCmp rs1 rs2) :=
  fieldOp_wordR (by decide) (by decide) (by omega) (by omega) (by decide)

theorem EncodeOpcode.fMul (rd rs1 rs2 : RegF) :
    EncodeOpcode.Statement (.fMul rd rs1 rs2) :=
  fieldOp_wordR (by decide) (by omega) (by omega) (by omega) (by decide)

theorem EncodeOpcode.fSqr (rd rs1 : RegF) :
    EncodeOpcode.Statement (.fSqr rd rs1) :=
  fieldOp_wordR (by decide) (by omega) (by omega) (by decide) (by decide)

theorem EncodeOpcode.fSqrc (rd rs1 : RegF) :
    EncodeOpcode.Statement (.fSqrc rd rs1) :=
  fieldOp_wordR (by decide) (by omega) (by omega) (by decide) (by decide)

theorem EncodeOpcode.fInvc (rd rs1 : RegF) :
    EncodeOpcode.Statement (.fInvc rd rs1) :=
  fieldOp_wordR (by decide) (by omega) (by omega) (by decide) (by decide)

theorem EncodeOpcode.fFrb (rd rs1 : RegF) (exp : Exponent) :
    EncodeOpcode.Statement (.fFrb rd rs1 exp) :=
  fieldOp_wordR (by decide) (by omega) (by omega) (by decide) (by omega)

theorem EncodeOpcode.tInf (rd : RegT) :
    EncodeOpcode.Statement (.tInf rd) :=
  fieldOp_wordR (by decide) (by omega) (by decide) (by decide) (by decide)

theorem EncodeOpcode.tCpy (rd rs1 : RegT) :
    EncodeOpcode.Statement (.tCpy rd rs1) :=
  fieldOp_wordR (by decide) (by omega) (by omega) (by decide) (by decide)

theorem EncodeOpcode.tMk (rd : RegT) (rs1 rs2 : RegE) :
    EncodeOpcode.Statement (.tMk rd rs1 rs2) :=
  fieldOp_wordR (by decide) (by omega) (by omega) (by omega) (by decide)

theorem EncodeOpcode.tMkp (rd : RegT) (rs1 rs2 rs3 : RegE) :
    EncodeOpcode.Statement (.tMkp rd rs1 rs2 rs3) :=
  fieldOp_wordR (by decide) (by omega) (by omega) (by omega) (by omega)

theorem EncodeOpcode.tGetx (rd : RegE) (rs1 : RegT) :
    EncodeOpcode.Statement (.tGetx rd rs1) :=
  fieldOp_wordR (by decide) (by omega) (by omega) (by decide) (by decide)

theorem EncodeOpcode.tGety (rd : RegE) (rs1 : RegT) :
    EncodeOpcode.Statement (.tGety rd rs1) :=
  fieldOp_wordR (by decide) (by omega) (by omega) (by decide) (by decide)

theorem EncodeOpcode.tGetz (rd : RegE) (rs1 : RegT) :
    EncodeOpcode.Statement (.tGetz rd rs1) :=
  fieldOp_wordR (by decide) (by omega) (by omega) (by decide) (by decide)

theorem EncodeOpcode.tNeg (rd rs1 : RegT) :
    EncodeOpcode.Statement (.tNeg rd rs1) :=
  fieldOp_wordR (by decide) (by omega) (by omega) (by decide) (by decide)

theorem EncodeOpcode.tDbl (rd rs1 : RegT) (mode : Mode) :
    EncodeOpcode.Statement (.tDbl rd rs1 mode) :=
  fieldOp_wordR (by decide) (by omega) (by omega) (by decide) (modeBit_lt _)

theorem EncodeOpcode.tAdd (rd rs1 rs2 : RegT) (mode : Mode) :
    EncodeOpcode.Statement (.tAdd rd rs1 rs2 mode) :=
  fieldOp_wordR (by decide) (by omega) (by omega) (by omega) (modeBit_lt _)

theorem EncodeOpcode.tSdbl (rd rs1 : RegT) (mode : Mode) :
    EncodeOpcode.Statement (.tSdbl rd rs1 mode) :=
  fieldOp_wordR (by decide) (by omega) (by omega) (by decide) (modeBit_lt _)

theorem EncodeOpcode.tSdbl1 (rd rs1 : RegT) (mode : Mode) :
    EncodeOpcode.Statement (.tSdbl1 rd rs1 mode) :=
  fieldOp_wordR (by decide) (by omega) (by omega) (by decide) (modeBit_lt _)

theorem EncodeOpcode.tSadd (rd rs1 rs2 : RegT) (mode : Mode) :
    EncodeOpcode.Statement (.tSadd rd rs1 rs2 mode) :=
  fieldOp_wordR (by decide) (by omega) (by omega) (by omega) (modeBit_lt _)

theorem EncodeOpcode.tFrb (rd rs1 : RegT) (exp : Exponent) :
    EncodeOpcode.Statement (.tFrb rd rs1 exp) :=
  fieldOp_wordR (by decide) (by omega) (by omega) (by decide) (by omega)

theorem EncodeOpcode.tNorm (rd rs1 : RegT) (inverted : Bool) :
    EncodeOpcode.Statement (.tNorm rd rs1 inverted) :=
  fieldOp_wordR (by decide) (by omega) (by omega) (by decide) (flagBit_lt _)

theorem EncodeOpcode.tCmp (rs1 rs2 : RegT) :
    EncodeOpcode.Statement (.tCmp rs1 rs2) :=
  fieldOp_wordR (by decide) (by decide) (by omega) (by omega) (by decide)

theorem EncodeOpcode.tOnc (rs1 : RegT) :
    EncodeOpcode.Statement (.tOnc rs1) :=
  fieldOp_wordR (by decide) (by decide) (by omega) (by decide) (by decide)

theorem EncodeOpcode.tGen (rd : RegT) :
    EncodeOpcode.Statement (.tGen rd) :=
  fieldOp_wordR (by decide) (by omega) (by decide) (by decide) (by decide)

theorem EncodeOpcode.tIso (rd rs1 : RegT) :
    EncodeOpcode.Statement (.tIso rd rs1) :=
  fieldOp_wordR (by decide) (by omega) (by omega) (by decide) (by decide)

theorem EncodeOpcode.tIsod (rd rs1 : RegT) :
    EncodeOpcode.Statement (.tIsod rd rs1) :=
  fieldOp_wordR (by decide) (by omega) (by omega) (by decide) (by decide)

theorem EncodeOpcode.line (rd : RegF) (rs1 : RegG) :
    EncodeOpcode.Statement (.line rd rs1) :=
  fieldOp_wordR (by decide) (by omega) (by omega) (by decide) (by decide)

theorem EncodeOpcode.miller (rd : RegF) (rs1 : RegT) (rs2 : RegG) (mode : Mode) :
    EncodeOpcode.Statement (.miller rd rs1 rs2 mode) :=
  fieldOp_wordR (by decide) (by omega) (by omega) (by omega) (modeBit_lt _)

theorem EncodeOpcode.miller2 (rd : RegF) (rs1 : RegT) (rs2 : RegG) (mode : Mode) :
    EncodeOpcode.Statement (.miller2 rd rs1 rs2 mode) :=
  fieldOp_wordR (by decide) (by omega) (by omega) (by omega) (modeBit_lt _)

end Sys2Proof.Laws
end

