-- ==== Sys2Proof/Laws/SpecForms.lean ====
section
/-! SUPPORT. The operations of the machine equal the forms of `Safety.lean`, which the statements use. -/

namespace Sys2Proof.Machine

open Sys2Proof

/-! ### Fault entry -/

/-- A fault outside a Miller loop is the fault entry of `60_exceptions.md` R341. -/
theorem State.enterFault_plain (s : State) (cause : Cause) (einfo : BitVec 32) :
    s.enterFault ⟨cause, einfo, none⟩ = s.faultEntry cause.code.toNat einfo := by
  cases cause <;> rfl

@[simp] theorem finish_raise (c : Config) (s : State) (cause : Cause) (einfo : BitVec 32) :
    finish c s (raise cause einfo) = .next (s.faultEntry cause.code.toNat einfo) := by
  rw [← State.enterFault_plain]
  rfl

/-- The causes are numbered from 1 to 10 (`60_exceptions.md` R330). -/
theorem Cause.code_bounds (cause : Cause) : 1 ≤ cause.code.toNat ∧ cause.code.toNat ≤ 10 := by
  cases cause <;> decide

/-- Location codes are exact for the addresses a command can name (R330). -/
theorem locDM_eq {a : Nat} (h : a < 2 ^ 28) : locDM a = BitVec.ofNat 32 (2 ^ 28 + a) := by
  rw [locDM, Nat.mod_eq_of_lt h, Nat.one_mul]

/-! ### Degree-11 tower -/

theorem mul11_eq (p c : Nat) (x y : Deg11) : mul11 ⟨p, c⟩ x y = product11 p c x y := by
  ext k hk
  rw [mul11_get, product11, Vector.getElem_ofFn]
  split
  · next h =>
    have hk10 : k = 10 := h
    subst hk10
    rw [productSum_top, Nat.mul_zero, Nat.add_zero]
  · rfl

theorem sqr11_eq (p c : Nat) (x : Deg11) : sqr11 ⟨p, c⟩ x = product11 p c x x := mul11_eq p c x x

theorem mnr_eq (p c : Nat) (x : Deg11) : mnr ⟨p, c⟩ x = timesU p c x := rfl

theorem add11_eq (p : Nat) (x y : Deg11) : add11 p x y = plus11 p x y := by
  ext i hi
  simp [add11_get, plus11]

theorem sub11_eq (p : Nat) (x y : Deg11) : sub11 p x y = minus11 p x y := by
  ext i hi
  simp [sub11_get, minus11, subP]

theorem neg11_eq (p : Nat) (x : Deg11) :
    neg11 p x = Vector.ofFn fun i : Fin 11 => (((p : Int) - (x[i] : Int)) % (p : Int)).toNat := by
  ext i hi
  simp [neg11_get, negP, subP]

theorem scale11_eq (p n : Nat) (x : Deg11) :
    scale11 p n x = Vector.ofFn fun i : Fin 11 => n * x[i] % p := by
  ext i hi
  simp [scale11_get]

/-- `2 . a` is `a + a`. -/
theorem scale11_two (p : Nat) (x : Deg11) : scale11 p 2 x = plus11 p x x := by
  ext i hi
  simp [scale11_get, plus11, Nat.two_mul]

/-- `3 . a` is `a + a + a`. -/
theorem scale11_three (p : Nat) (x : Deg11) : scale11 p 3 x = plus11 p (plus11 p x x) x := by
  ext i hi
  simp only [scale11_get, plus11, Vector.getElem_ofFn, Fin.getElem_fin, Nat.mod_add_mod]
  congr 1
  ring

/-- `4 . a` is twice `2 . a`. -/
theorem scale11_four (p : Nat) (x : Deg11) :
    scale11 p 4 x = plus11 p (plus11 p x x) (plus11 p x x) := by
  ext i hi
  simp only [scale11_get, plus11, Vector.getElem_ofFn, Fin.getElem_fin, Nat.mod_add_mod, Nat.add_mod_mod]
  congr 1
  ring

/-- `8 . a` is twice `4 . a`. -/
theorem scale11_eight (p : Nat) (x : Deg11) :
    scale11 p 8 x = plus11 p (plus11 p (plus11 p x x) (plus11 p x x))
      (plus11 p (plus11 p x x) (plus11 p x x)) := by
  ext i hi
  simp only [scale11_get, plus11, Vector.getElem_ofFn, Fin.getElem_fin, Nat.mod_add_mod, Nat.add_mod_mod]
  congr 1
  ring

theorem below11_plus {p : Nat} (hp : 0 < p) (x y : Deg11) : Below11 p (plus11 p x y) := by
  rw [← add11_eq]
  exact below11_add p hp x y

theorem below11_minus {p : Nat} (hp : 0 < p) (x y : Deg11) : Below11 p (minus11 p x y) := by
  rw [← sub11_eq]
  exact below11_sub p hp x y

theorem below11_product {p : Nat} (hp : 0 < p) (c : Nat) (x y : Deg11) :
    Below11 p (product11 p c x y) := by
  rw [← mul11_eq]
  exact below11_mul ⟨p, c⟩ hp x y

/-- A coefficient of a product, as a residue. -/
theorem product11_cast (p c : Nat) (x y : Deg11) (k : Nat) (hk : k < 11) :
    ((product11 p c x y)[k] : ZMod p) =
      (productSum x y k : ZMod p) + c * (productSum x y (k + 11) : ZMod p) := by
  rw [← mul11_eq, mul11_get _ _ _ _ hk, ZMod.natCast_mod]
  push_cast
  rfl

theorem plus11_cast (p : Nat) (x y : Deg11) (k : Nat) (hk : k < 11) :
    ((plus11 p x y)[k] : ZMod p) = x[k] + y[k] := by
  simp [plus11]

theorem minus11_cast {p : Nat} (hp : 0 < p) (x y : Deg11) (k : Nat) (hk : k < 11) :
    ((minus11 p x y)[k] : ZMod p) = x[k] - y[k] := by
  rw [← sub11_eq, sub11_get _ _ _ _ hk, subP_cast hp]

/-- A difference of a difference is the difference of the sum. -/
theorem minus11_plus11 {p : Nat} (hp : 0 < p) (x y z : Deg11) :
    minus11 p x (plus11 p y z) = minus11 p (minus11 p x y) z := by
  refine Below11.ext (below11_minus hp _ _) (below11_minus hp _ _) fun k hk => ?_
  rw [minus11_cast hp _ _ _ hk, plus11_cast _ _ _ _ hk, minus11_cast hp _ _ _ hk,
    minus11_cast hp _ _ _ hk]
  ring

end Sys2Proof.Machine
end

