-- ==== Sys2Proof/Tests/Slice0.lean ====
section
/-! SUPPORT. Tests: the words of the commands written out field by field from `30_encoding.md` R91 and
R98; single steps against `95_test_vectors.md`; and, for each statement with hypotheses, a witness that
meets them. -/

namespace Sys2Proof.Tests

open Sys2Proof Sys2Proof.Machine

/-! ### Words: opcode, then `rd`, `rs1`, `rs2`, `aux`, or the register and the address -/

/-- Z format, and `LDP` of the M format. -/
theorem test_decode_system_and_parameters :
    decode (0x01#8 ++ 0#24) = .ok (.nop) ∧
    decode (0x02#8 ++ 0#24) = .ok (.halt) ∧
    decode (0x03#8 ++ 0#24) = .ok (.finit) ∧
    decode (0x04#8 ++ 0b001011#6 ++ 0b111111000000101101#18) = .ok (.ldp 11 0b111111000000101101) := by
  decide

/-- M format. -/
theorem test_decode_loads_and_stores :
    decode (0x08#8 ++ 0b011111#6 ++ 0b111111000000101101#18) = .ok (.ldE 31 0b111111000000101101) ∧
    decode (0x09#8 ++ 0b011111#6 ++ 0b111111000000101101#18) = .ok (.stE 31 0b111111000000101101) ∧
    decode (0x0A#8 ++ 0b001111#6 ++ 0b111111000000101101#18) = .ok (.ldF 15 0b111111000000101101) ∧
    decode (0x0B#8 ++ 0b001111#6 ++ 0b111111000000101101#18) = .ok (.stF 15 0b111111000000101101) ∧
    decode (0x0C#8 ++ 0b000111#6 ++ 0b111111000000101101#18) = .ok (.ldT 7 0b111111000000101101) ∧
    decode (0x0D#8 ++ 0b000111#6 ++ 0b111111000000101101#18) = .ok (.stT 7 0b111111000000101101) ∧
    decode (0x0E#8 ++ 0b000011#6 ++ 0b111111000000101101#18) = .ok (.ldG 3 0b111111000000101101) ∧
    decode (0x0F#8 ++ 0b000011#6 ++ 0b111111000000101101#18) = .ok (.stG 3 0b111111000000101101) := by
  decide

/-- R format, `40_deg11_tower.md`. -/
theorem test_decode_degree11 :
    decode (0x20#8 ++ 0b011111#6 ++ 0b000000#6 ++ 0b000000#6 ++ 0b000000#6) = .ok (.eZero 31) ∧
    decode (0x21#8 ++ 0b011111#6 ++ 0b000000#6 ++ 0b000000#6 ++ 0b000000#6) = .ok (.eOne 31) ∧
    decode (0x22#8 ++ 0b011111#6 ++ 0b000001#6 ++ 0b000000#6 ++ 0b000000#6) = .ok (.eCpy 31 1) ∧
    decode (0x23#8 ++ 0b011111#6 ++ 0b000001#6 ++ 0b010110#6 ++ 0b000000#6) = .ok (.eAdd 31 1 22) ∧
    decode (0x24#8 ++ 0b011111#6 ++ 0b000001#6 ++ 0b010110#6 ++ 0b000000#6) = .ok (.eSub 31 1 22) ∧
    decode (0x25#8 ++ 0b011111#6 ++ 0b000001#6 ++ 0b000000#6 ++ 0b000000#6) = .ok (.eNeg 31 1) ∧
    decode (0x26#8 ++ 0b000000#6 ++ 0b011111#6 ++ 0b000001#6 ++ 0b000000#6) = .ok (.eCmp 31 1) ∧
    decode (0x27#8 ++ 0b011111#6 ++ 0b000001#6 ++ 0b010110#6 ++ 0b000000#6) = .ok (.eMul 31 1 22) ∧
    decode (0x28#8 ++ 0b011111#6 ++ 0b000001#6 ++ 0b000000#6 ++ 0b000000#6) = .ok (.eSqr 31 1) ∧
    decode (0x29#8 ++ 0b000011#6 ++ 0b011111#6 ++ 0b000001#6 ++ 0b000000#6) = .ok (.eMulu 3 31 1) ∧
    decode (0x2A#8 ++ 0b000011#6 ++ 0b011111#6 ++ 0b000000#6 ++ 0b000000#6) = .ok (.eSqru 3 31) ∧
    decode (0x2B#8 ++ 0b011111#6 ++ 0b000011#6 ++ 0b000000#6 ++ 0b000000#6) = .ok (.eRed 31 3) ∧
    decode (0x2C#8 ++ 0b011111#6 ++ 0b000001#6 ++ 0b000000#6 ++ 0b000000#6) = .ok (.eMnr 31 1) ∧
    decode (0x2D#8 ++ 0b011111#6 ++ 0b000001#6 ++ 0b000000#6 ++ 0b110101#6) = .ok (.eFrb 31 1 0b110101) ∧
    decode (0x2E#8 ++ 0b011111#6 ++ 0b000001#6 ++ 0b000000#6 ++ 0b110101#6) = .ok (.eFrb2 31 1 0b110101) ∧
    decode (0x2F#8 ++ 0b011111#6 ++ 0b000001#6 ++ 0b000000#6 ++ 0b000000#6) = .ok (.eInv 31 1) := by
  decide

/-- R format, `41_deg22_tower.md`. -/
theorem test_decode_degree22 :
    decode (0x40#8 ++ 0b001111#6 ++ 0b000000#6 ++ 0b000000#6 ++ 0b000000#6) = .ok (.fOne 15) ∧
    decode (0x41#8 ++ 0b001111#6 ++ 0b000001#6 ++ 0b000000#6 ++ 0b000000#6) = .ok (.fCpy 15 1) ∧
    decode (0x42#8 ++ 0b001111#6 ++ 0b011111#6 ++ 0b000001#6 ++ 0b000000#6) = .ok (.fPack 15 31 1) ∧
    decode (0x43#8 ++ 0b011111#6 ++ 0b001111#6 ++ 0b000000#6 ++ 0b000000#6) = .ok (.fGetr 31 15) ∧
    decode (0x44#8 ++ 0b011111#6 ++ 0b001111#6 ++ 0b000000#6 ++ 0b000000#6) = .ok (.fGeti 31 15) ∧
    decode (0x45#8 ++ 0b000000#6 ++ 0b001111#6 ++ 0b000001#6 ++ 0b000000#6) = .ok (.fCmp 15 1) ∧
    decode (0x46#8 ++ 0b001111#6 ++ 0b000001#6 ++ 0b001010#6 ++ 0b000000#6) = .ok (.fMul 15 1 10) ∧
    decode (0x47#8 ++ 0b001111#6 ++ 0b000001#6 ++ 0b000000#6 ++ 0b000000#6) = .ok (.fSqr 15 1) ∧
    decode (0x48#8 ++ 0b001111#6 ++ 0b000001#6 ++ 0b000000#6 ++ 0b000000#6) = .ok (.fSqrc 15 1) ∧
    decode (0x49#8 ++ 0b001111#6 ++ 0b000001#6 ++ 0b000000#6 ++ 0b000000#6) = .ok (.fInvc 15 1) ∧
    decode (0x4A#8 ++ 0b001111#6 ++ 0b000001#6 ++ 0b000000#6 ++ 0b110101#6) = .ok (.fFrb 15 1 0b110101) := by
  decide

/-- R format, `42_twist_curve.md`. -/
theorem test_decode_twist_points :
    decode (0x60#8 ++ 0b000111#6 ++ 0b000000#6 ++ 0b000000#6 ++ 0b000000#6) = .ok (.tInf 7) ∧
    decode (0x61#8 ++ 0b000111#6 ++ 0b000001#6 ++ 0b000000#6 ++ 0b000000#6) = .ok (.tCpy 7 1) ∧
    decode (0x62#8 ++ 0b000111#6 ++ 0b011111#6 ++ 0b000001#6 ++ 0b000000#6) = .ok (.tMk 7 31 1) ∧
    decode (0x63#8 ++ 0b000111#6 ++ 0b011111#6 ++ 0b000001#6 ++ 0b010110#6) = .ok (.tMkp 7 31 1 22) ∧
    decode (0x64#8 ++ 0b011111#6 ++ 0b000111#6 ++ 0b000000#6 ++ 0b000000#6) = .ok (.tGetx 31 7) ∧
    decode (0x65#8 ++ 0b011111#6 ++ 0b000111#6 ++ 0b000000#6 ++ 0b000000#6) = .ok (.tGety 31 7) ∧
    decode (0x66#8 ++ 0b011111#6 ++ 0b000111#6 ++ 0b000000#6 ++ 0b000000#6) = .ok (.tGetz 31 7) ∧
    decode (0x67#8 ++ 0b000111#6 ++ 0b000001#6 ++ 0b000000#6 ++ 0b000000#6) = .ok (.tNeg 7 1) ∧
    decode (0x68#8 ++ 0b000111#6 ++ 0b000001#6 ++ 0b000000#6 ++ 0b000001#6) = .ok (.tDbl 7 1 .projc) ∧
    decode (0x69#8 ++ 0b000111#6 ++ 0b000001#6 ++ 0b000100#6 ++ 0b000001#6) = .ok (.tAdd 7 1 4 .projc) ∧
    decode (0x6A#8 ++ 0b000111#6 ++ 0b000001#6 ++ 0b000000#6 ++ 0b000001#6) = .ok (.tSdbl 7 1 .projc) ∧
    decode (0x6B#8 ++ 0b000111#6 ++ 0b000001#6 ++ 0b000000#6 ++ 0b000001#6) = .ok (.tSdbl1 7 1 .projc) ∧
    decode (0x6C#8 ++ 0b000111#6 ++ 0b000001#6 ++ 0b000100#6 ++ 0b000001#6) = .ok (.tSadd 7 1 4 .projc) ∧
    decode (0x6D#8 ++ 0b000111#6 ++ 0b000001#6 ++ 0b000000#6 ++ 0b110101#6) = .ok (.tFrb 7 1 0b110101) ∧
    decode (0x6E#8 ++ 0b000111#6 ++ 0b000001#6 ++ 0b000000#6 ++ 0b000001#6) = .ok (.tNorm 7 1 true) ∧
    decode (0x6F#8 ++ 0b000000#6 ++ 0b000111#6 ++ 0b000001#6 ++ 0b000000#6) = .ok (.tCmp 7 1) ∧
    decode (0x70#8 ++ 0b000000#6 ++ 0b000111#6 ++ 0b000000#6 ++ 0b000000#6) = .ok (.tOnc 7) ∧
    decode (0x71#8 ++ 0b000111#6 ++ 0b000000#6 ++ 0b000000#6 ++ 0b000000#6) = .ok (.tGen 7) := by
  decide

/-- R format, `43_isogeny.md` and `44_pairing_engine.md`. -/
theorem test_decode_isogenies_and_pairing :
    decode (0x72#8 ++ 0b000111#6 ++ 0b000001#6 ++ 0b000000#6 ++ 0b000000#6) = .ok (.tIso 7 1) ∧
    decode (0x73#8 ++ 0b000111#6 ++ 0b000001#6 ++ 0b000000#6 ++ 0b000000#6) = .ok (.tIsod 7 1) ∧
    decode (0x80#8 ++ 0b001111#6 ++ 0b000011#6 ++ 0b000000#6 ++ 0b000000#6) = .ok (.line 15 3) ∧
    decode (0x81#8 ++ 0b001111#6 ++ 0b000111#6 ++ 0b000011#6 ++ 0b000001#6) = .ok (.miller 15 7 3 .projc) ∧
    decode (0x82#8 ++ 0b001111#6 ++ 0b000111#6 ++ 0b000011#6 ++ 0b000001#6) = .ok (.miller2 15 7 3 .projc) := by
  decide

/-! ### Words no row admits, and the one check of `WellFormed` -/

/-- The ill-formed command of each range the operand types leave open: a slot past 11. -/
theorem test_wf_refuses_slot_12 :
    (Instr.ldp 12 0).wf = false ∧ (Instr.ldp 63 0).wf = false ∧ (Instr.ldp 11 0).wf = true ∧
    (decode (encode (.ldp 12 0))).isOk = false := by
  decide

/-- `95_test_vectors.md` V2. -/
theorem test_illegal_words :
    [0x00000000#32, 0x01000001#32, 0x270C10A0#32, 0x27801080#32, 0x29101080#32, 0x6A040002#32,
      0x04300000#32, 0x10000000#32, 0x83000000#32, 0x26041080#32].all
      (fun w => !(decode w).isOk) = true := by
  decide

/-- `95_test_vectors.md` V1. -/
theorem test_vector_words :
    decode 0x26001080#32 = .ok (.eCmp 1 2) ∧ decode 0x290DF000#32 = .ok (.eMulu 3 31 0) ∧
    decode 0x2D04003F#32 = .ok (.eFrb 1 0 63) ∧ decode 0x6C1C7181#32 = .ok (.tSadd 7 7 6 .projc) ∧
    decode 0x6E081001#32 = .ok (.tNorm 2 1 true) ∧ decode 0x803C3000#32 = .ok (.line 15 3) ∧
    decode 0x81000000#32 = .ok (.miller 0 0 0 .basic) ∧
    decode 0x82042041#32 = .ok (.miller2 1 2 1 .projc) ∧
    decode 0x0C1FFFFF#32 = .ok (.ldT 7 0x3FFFF) ∧ decode 0x042C0E40#32 = .ok (.ldp 11 0xE40) ∧
    decode 0x0F0C0000#32 = .ok (.stG 3 0) ∧ decode 0x03000000#32 = .ok .finit := by
  decide

/-! ### One step on the toy block of `95_test_vectors.md` V0 -/

/-- The toy block: `P = 67`. -/
def toy : Config where
  p := 67
  dmWords := 4096
  cmWords := 1024
  nafMax := 256
  superOpt := .trivial
  hardChain := ⟨[.sqrc 6 5, .frb 7 6 .nine, .mul 6 7 5, .invc 6 6], 6⟩
  lambda := 1
  sqrcOff := fun _ => one22
  pcPastTop := fun _ => 0
  mlIndexPast := fun _ _ => 0

/-- A `Deg11` value from its coefficients. -/
def el (l : List Nat) : Deg11 := Vector.ofFn fun i : Fin 11 => l[i.val]?.getD 0

/-- A `DM` of consecutive words. -/
def image (a : Nat) : List Nat → Memory Nat
  | [] => []
  | v :: vs => (a, v) :: image (a + 1) vs

/-- `a` of section 4 of the vectors. -/
def va : Deg11 := el [1, 2, 3, 4, 5, 6, 7, 8, 9, 10, 11]
/-- `b`. -/
def vb : Deg11 := el [11, 10, 9, 8, 7, 6, 5, 4, 3, 2, 1]
/-- `c`. -/
def vc : Deg11 := el [15, 40, 64, 65, 13, 28, 53, 62, 56, 30, 0]
/-- `d`. -/
def vd : Deg11 := el [10, 14, 36, 12, 57, 1, 62, 40, 26, 50, 32]
/-- The point `Q` of section 6. -/
def vQ : TwistPoint :=
  ⟨el [35, 39, 57, 2, 46, 15, 1, 8, 34, 43, 37], el [47, 8, 32, 21, 46, 51, 39, 52, 18, 13, 41],
    el [1], .affine⟩
/-- `2 Q` in `PROJC` mode (V19). -/
def vQ2 : TwistPoint :=
  ⟨el [36, 61, 62, 56, 32, 47, 22, 21, 20, 38, 37], el [14, 27, 61, 48, 5, 61, 34, 34, 46, 45, 55],
    el [27, 16, 64, 42, 25, 35, 11, 37, 36, 26, 15], .projective⟩

/-- The toy block in `READY`, with the operands of the vectors in its low registers. -/
def toyState : State :=
  { State.reset with
    run := .run
    lifecycle := .ready (constantsOf 67 2)
    prm := { ParamStore.empty with
      c11 := some 2, twist := some .dType, a := some (el [0, 0, 0, 0, 0, 0, 0, 0, 0, 34])
      b := some (el [0, 0, 0, 0, 0, 0, 0, 0, 60]), gen := some (vQ.x, vQ.y), tor2 := some zero11
      isoT := some (el [66]), isoD := some (el [4]), naf := some [.zero, .plus]
      naf2 := some [.zero, .plus], seedfix := some false
      post := some (⟨.disabled, 0, false⟩, ⟨.disabled, 0, false⟩) }
    e := (((State.reset.e.set 0 (some zero11)).set 1 (some va)).set 2 (some vb)).set 3 (some vc)
    u := State.reset.u.set 0 (some (el [891, 782, 686, 604, 537, 486, 452, 436, 439, 462, 506]))
    f := ((State.reset.f.set 0 (some one22)).set 1 (some ⟨va, vb⟩)).set 2 (some ⟨vb, va⟩)
    t := (((State.reset.t.set 0 (some vQ)).set 1 (some vQ2)).set 2 (some infAffine)).set 3
      (some ⟨el [4], el [8], el [34], .projective⟩)
    g := (State.reset.g.set 0 (some ⟨1, 16, false⟩)).set 1 (some ⟨0, 0, true⟩) }

/-- The state after a step, if there is one. -/
def after : Host.Outcome State Fault Refusal → Option State
  | .next t => some t
  | _ => none

/-- What a step leaves in an E register. -/
def outE (o : Host.Outcome State Fault Refusal) (r : RegE) : Option Deg11 := (after o).bind (·.e[r.val])
/-- What a step leaves in an F register. -/
def outF (o : Host.Outcome State Fault Refusal) (r : RegF) : Option Deg22 := (after o).bind (·.f[r.val])
/-- What a step leaves in a T register. -/
def outT (o : Host.Outcome State Fault Refusal) (r : RegT) : Option TwistPoint :=
  (after o).bind (·.t[r.val])
/-- The cause registers a step leaves, once it has faulted. -/
def outFault (o : Host.Outcome State Fault Refusal) : Option (Nat × Nat) :=
  (after o).bind fun t => if t.run = .faulted then some (t.ecause.toNat, t.einfo.toNat) else none

/-- V3. -/
theorem test_eAdd_eSub_eNeg :
    outE (execEAdd 4 1 2 toyState toy) 4 = some (el [12, 12, 12, 12, 12, 12, 12, 12, 12, 12, 12]) ∧
    outE (execESub 1 1 2 toyState toy) 1 = some (el [57, 59, 61, 63, 65, 0, 2, 4, 6, 8, 10]) ∧
    outE (execENeg 4 1 toyState toy) 4 = some (el [66, 65, 64, 63, 62, 61, 60, 59, 58, 57, 56]) ∧
    outE (execENeg 4 0 toyState toy) 4 = some zero11 := by
  decide

/-- V4, the destination also a source. -/
theorem test_eMul :
    outE (execEMul 1 1 2 toyState toy) 1 = some (el [20, 45, 16, 1, 1, 17, 50, 34, 37, 60, 37]) := by
  decide

/-- V5. -/
theorem test_eSqr :
    outE (execESqr 4 1 toyState toy) 4 = some (el [11, 29, 22, 56, 63, 42, 59, 46, 2, 60, 18]) := by
  decide

/-- V6: the slots are integers, and `E.RED` takes residues. -/
theorem test_eRed :
    outE (execERed 4 0 toyState toy) 4 = some (el [20, 45, 16, 1, 1, 17, 50, 34, 37, 60, 37]) := by
  decide

/-- V7. -/
theorem test_eMnr :
    outE (execEMnr 4 1 toyState toy) 4 = some (el [22, 1, 2, 3, 4, 5, 6, 7, 8, 9, 10]) := by
  decide

/-- V8, an exponent past 11. -/
theorem test_eFrb :
    outE (execEFrb 4 1 63 toyState toy) 4 = some (el [1, 57, 8, 36, 43, 10, 31, 43, 1, 54, 38]) := by
  decide

/-- V9. -/
theorem test_eFrb2 :
    outE (execEFrb2 4 1 5 toyState toy) 4 = some (el [5, 49, 62, 12, 40, 61, 26, 25, 8, 51, 29]) := by
  decide

/-- V10. -/
theorem test_eInv_zero : outFault (execEInv 4 0 toyState toy) = some (1, 0) := by
  decide

/-- V11. -/
theorem test_eCmp :
    (after (execECmp 1 1 toyState toy)).map (·.eq) = some true ∧
    (after (execECmp 1 2 toyState toy)).map (·.eq) = some false := by
  decide

/-- V12. -/
theorem test_fMul :
    outF (execFMul 3 1 2 toyState toy) 3 = some ⟨el [27, 65, 61, 17, 2, 18, 0, 17, 4, 30, 30],
      el [36, 43, 24, 44, 34, 59, 50, 5, 56, 0, 36]⟩ := by
  decide

/-- V13. -/
theorem test_fSqr :
    outF (execFSqr 3 1 toyState toy) 3 = some ⟨el [47, 54, 36, 58, 51, 13, 9, 37, 28, 47, 25],
      el [40, 23, 32, 2, 2, 34, 33, 1, 7, 53, 7]⟩ := by
  decide

/-- V14 and the free value: one is in the subgroup, `x` is not and gets the free value. -/
theorem test_fSqrc :
    outF (execFSqrc 3 0 toyState toy) 3 = some one22 ∧
    (after (execFSqrc 3 1 toyState toy)).map (·.free) = some 1 := by
  decide

/-- V15. -/
theorem test_fInvc :
    outF (execFInvc 3 1 toyState toy) 3 =
      some ⟨va, el [56, 57, 58, 59, 60, 61, 62, 63, 64, 65, 66]⟩ := by
  decide

/-- V16, the upper half of the exponents. -/
theorem test_fFrb :
    outF (execFFrb 3 1 12 toyState toy) 3 = some ⟨el [1, 61, 27, 26, 3, 16, 11, 58, 22, 16, 41],
      el [46, 39, 22, 53, 20, 6, 52, 36, 53, 28, 25]⟩ := by
  decide

/-- V17. -/
theorem test_fPack_fGeti :
    outF (execFPack 3 1 2 toyState toy) 3 = some ⟨va, vb⟩ ∧
    outE (execFGeti 4 1 toyState toy) 4 = some vb := by
  decide

/-- V19: the point and the record of a `PROJC` doubling. -/
theorem test_tSdbl_projc :
    outT (execTSdbl 4 0 .projc toyState toy) 4 = some vQ2 ∧
    ((after (execTSdbl 4 0 .projc toyState toy)).bind (·.lc)).map (·.slope) =
      some (el [4, 5, 4, 35, 31, 43, 25, 18, 0, 29, 22]) := by
  decide

/-- V20. -/
theorem test_tSadd_projc :
    outT (execTSadd 4 1 0 .projc toyState toy) 4 = some
      ⟨el [42, 29, 32, 13, 22, 28, 18, 61, 52, 4, 61], el [34, 37, 10, 5, 15, 62, 44, 64, 22, 34, 59],
        el [51, 56, 32, 36, 19, 11, 45, 14, 38, 45, 7], .projective⟩ ∧
    ((after (execTSadd 4 1 0 .projc toyState toy)).bind (·.lc)).map (·.slope) =
      some (el [48, 46, 30, 14, 13, 55, 39, 46, 5, 20, 22]) := by
  decide

/-- V21: `BASIC` on a projective-tagged source, first or second. -/
theorem test_basic_refuses_projective :
    outFault (execTDbl 4 1 .basic toyState toy) = some (8, 0x301) ∧
    outFault (execTAdd 4 0 1 .basic toyState toy) = some (8, 0x301) := by
  decide

/-- V22. -/
theorem test_tNeg :
    (outT (execTNeg 4 0 toyState toy) 4).map (·.y) =
      some (el [20, 59, 35, 46, 21, 16, 28, 15, 49, 54, 26]) := by
  decide

/-- V23. -/
theorem test_tFrb :
    outT (execTFrb 4 0 1 toyState toy) 4 = some
      ⟨el [29, 16, 2, 28, 11, 14, 24, 27, 41, 8, 37], el [11, 40, 56, 7, 21, 19, 51, 64, 16, 10, 60],
        el [1], .affine⟩ ∧
    (outT (execTFrb 4 0 12 toyState toy) 4).map (·.y) =
      some (el [56, 27, 11, 60, 46, 48, 16, 3, 51, 57, 7]) := by
  decide

/-- R214 by hand: `x = 4 * 34^2 = 1` and `y = 8 * 34^3 = 1` modulo 67. -/
theorem test_tNorm_inverted :
    outT (execTNorm 4 3 true toyState toy) 4 = some ⟨el [1], el [1], el [1], .affine⟩ := by
  decide

/-- V25. -/
theorem test_tOnc_tCmp :
    (after (execTOnc 1 toyState toy)).map (·.onc) = some true ∧
    (after (execTCmp 0 2 toyState toy)).map (·.eq) = some false := by
  decide

/-- V27: the kernel abscissa, here `x = TOR2 = 0`, goes to infinity. -/
theorem test_tIso_kernel :
    outT (execTIso 4 5 { toyState with
      t := toyState.t.set 5 (some ⟨zero11, zero11, one11, .affine⟩) } toy) 4 = some infAffine := by
  decide

/-- V29, after the `PROJC` doubling of `Q`. -/
theorem test_line_projc :
    outF (execLine 3 0 { toyState with lc := some ⟨.dbl, .projc,
      el [4, 5, 4, 35, 31, 43, 25, 18, 0, 29, 22], one11, vQ⟩ } toy) 3 =
      some ⟨el [30, 55, 19, 2, 65, 24, 42, 56, 40, 14, 39],
        el [24, 49, 60, 63, 0, 10, 32, 26, 43, 5, 1]⟩ := by
  decide

/-- V41: `LINE` at the identity, and with no record. -/
theorem test_line_faults :
    outFault (execLine 3 1 toyState toy) = some (8, 0x401) ∧
    outFault (execLine 3 0 toyState toy) = some (9, 0) := by
  decide

/-- V34, V35: a degenerate pairing, and the variant bit. -/
theorem test_miller2_degenerate :
    outF (execMiller2 3 2 0 .basic toyState toy) 3 = some one22 ∧
    (after (execMiller2 3 2 0 .basic toyState toy)).map (·.ml.variant) = some true := by
  decide

/-- V38: an unwritten word, and a range check that comes before it. -/
theorem test_loads_fault :
    outFault (execLdE 1 0x100 { toyState with dm := image 0x100 [1, 2, 3, 4, 5] } toy) =
      some (5, 0x10000105) ∧
    outFault (execLdF 0 0xFF0 toyState toy) = some (6, 0x10001005) := by
  decide

/-- V38: a tag word of 2. -/
theorem test_ldT_tag :
    outFault (execLdT 0 0x100 { toyState with dm := image 0x100 (List.replicate 33 0 ++ [2]) } toy) =
      some (3, 0x10000121) := by
  decide

/-- V37. -/
theorem test_ldG :
    ((after (execLdG 0 0x130 { toyState with dm := image 0x130 [0, 0, 1] } toy)).bind (·.g[0])).map
      (·.inf) = some true := by
  decide

/-- V36, V38: a store, and a store past the end. -/
theorem test_stE :
    (after (execStE 1 0x200 toyState toy)).map (·.dm) =
      some (image 0x200 [1, 2, 3, 4, 5, 6, 7, 8, 9, 10, 11]) ∧
    outFault (execStE 1 0xFFA toyState toy) = some (6, 0x10001004) := by
  decide

/-- R192: the tag invariant is checked before the range of the store. -/
theorem test_stT_tag :
    outFault (execStT 4 0x3FFFF
      { toyState with t := toyState.t.set 4 (some ⟨va, va, va, .affine⟩) } toy) = some (3, 0x304) := by
  decide

/-- V37: infinity stores 34 zero words. -/
theorem test_stT :
    (after (execStT 2 0x350 toyState toy)).map (·.dm) = some (image 0x350 (List.replicate 34 0)) := by
  decide

/-- V39: `LDP` of a bad image. -/
theorem test_ldp_faults :
    outFault (execLdp 8 0x200 { State.reset with dm := image 0x200 [2, 0, 3] } toy) = some (10, 0x208) ∧
    outFault (execLdp 8 0x200 { State.reset with dm := image 0x200 [2, 0, 2] } toy) = some (10, 0x208) ∧
    outFault (execLdp 9 0x200 { State.reset with dm := image 0x200 [2 ^ 31] } toy) =
      some (2, 0x80000000) ∧
    outFault (execLdp 11 0x200 { State.reset with dm := image 0x200 [0, 1, 0, 0, 22, 0] } toy) =
      some (10, 0x40B) := by
  decide

/-- V39: lifecycle faults. -/
theorem test_lifecycle_faults :
    outFault (execLdp 0 0x200 toyState toy) = some (7, 1) ∧
    outFault (execEOne 0 State.reset toy) = some (7, 0) ∧
    outFault (execFinit State.reset toy) = some (5, 0x30000000) := by
  decide

/-- V40: `C11` of 29 and 4 refused, 2 accepted with the constants of V0. -/
theorem test_finit :
    outFault (execFinit { State.reset with prm := { ParamStore.empty with c11 := some 29 } } toy) =
      some (10, 0) ∧
    outFault (execFinit { State.reset with prm := { ParamStore.empty with c11 := some 4 } } toy) =
      some (10, 0) ∧
    (after (execFinit { State.reset with prm := { ParamStore.empty with c11 := some 2 } } toy)).map
      (·.run) = some .idle ∧
    ((constantsOf 67 2).half, (constantsOf 67 2).c11inv, (constantsOf 67 2).gam,
      (constantsOf 67 2).del) = (34, 34, 64, 8) := by
  decide

/-- V46: a word that fits `W = 7` bits is taken, a word past `DM` is ignored. -/
theorem test_host_writes :
    (after (hostWriteDM State.reset 0x10 67 toy)).map (·.dm) = some [(0x10, 67)] ∧
    (after (hostWriteDM State.reset 4096 1 toy)).map (·.dm) = some [] := by
  decide

/-- V43: `START` after reset, then the first step, over every block. -/
theorem test_start_after_reset :
    step (hostWriteCSR State.reset 0 1) = .next ((hostWriteCSR State.reset 0 1).faultEntry 5 0x20000000) :=
  rfl

/-- The step runs the word that `withFetchWord` places. -/
theorem test_withFetchWord :
    step (State.reset.withFetchWord 32 0x82042041) =
      exec (.miller2 1 2 1 .projc) (State.reset.withFetchWord 32 0x82042041) :=
  rfl

/-- V19 in `BASIC` mode: the slope takes an inverse. -/
theorem test_tDbl_basic :
    outT (execTDbl 4 0 .basic toyState toy) 4 = some
      ⟨el [29, 16, 2, 28, 11, 14, 24, 27, 41, 8, 37], el [56, 27, 11, 60, 46, 48, 16, 3, 51, 57, 7],
        el [1], .affine⟩ := by
  decide +kernel

/-- The toy block with the digits of 25 and a first post-loop step (V31, V33). -/
def toyPost (st : PostStep) : State :=
  { toyState with
    prm := { toyState.prm with
      naf := some [.plus, .zero, .zero, .minus, .zero, .plus], post := some (st, ⟨.disabled, 0, false⟩) } }

/-- V31, `PROJC`: five doublings and two additions. -/
theorem test_miller_25 :
    outF (execMiller 3 0 0 .projc (toyPost ⟨.disabled, 0, false⟩) toy) 3 =
      some ⟨el [17, 43, 65, 40, 2, 57, 45, 49, 65, 56, 52],
        el [50, 18, 16, 21, 20, 21, 63, 6, 58, 31, 49]⟩ := by
  decide +kernel

/-- V33: the post-loop step adds the Frobenius image `21 Q` to `2 Q`, which is opposite to it. -/
theorem test_miller_post_fault :
    outFault (execMiller 3 0 0 .projc (toyPost ⟨.input, 1, false⟩) toy) = some (9, 0x00050000) := by
  decide +kernel

/-- The words of the easy part, from program P5 of the vectors. -/
theorem test_easyPart_words :
    easyPart.map encode = [0x4A081001#32, 0x46082040#32, 0x490C2000#32, 0x43042000#32, 0x44082000#32,
      0x280C1000#32, 0x28102000#32, 0x2C104000#32, 0x240C3100#32, 0x2F0C3000#32, 0x43143000#32,
      0x44183000#32, 0x271450C0#32, 0x271860C0#32, 0x42105180#32, 0x46143100#32] := by
  decide

/-- The commands of a hard part (R282). -/
theorem test_hardPart :
    hardPart toy = [.fSqrc 6 5, .fFrb 7 6 9, .fMul 6 7 5, .fInvc 6 6] := by
  decide

/-- R302: past the last index of the counter the fetch faults, whatever `CM_WORDS` is. -/
theorem test_run_past_the_top :
    (after (execNop { toyState with pc := 0xFFFF#16 } toy)).map (·.pastTop) = some true ∧
    (State.fetch { toy with cmWords := 2 ^ 16 } { toyState with pastTop := true }).isOk = false := by
  decide

/-! ### Witnesses: the hypotheses of every statement that has some, met together -/

/-- A state in `CONFIG`, running, with words in `DM` from address 0. -/
def configState (ws : List Nat) : State := { State.reset with run := .run, dm := image 0 ws }

/-- A state in `READY` whose constants are those of `c`; sound when `c` is accepted. -/
def soundState (c : Base) : State :=
  { State.reset with
    run := .run
    lifecycle := .ready (constantsOf Config.prime c)
    prm := { ParamStore.empty with c11 := some c, twist := some .mType }
    e := State.reset.e.set 1 (some one11)
    f := State.reset.f.set 1 (some one22)
    t := State.reset.t.set 1 (some ⟨zero11, one11, one11, .affine⟩)
    cm := [(0, 0x21000000#32)] }

/-- `toyState` with another point in `T[4]` and in `T[5]`. -/
def pointsState (p q : TwistPoint) : State :=
  { toyState with t := (toyState.t.set 4 (some p)).set 5 (some q) }

/-- The point `(s, y, 1)` with small coordinates. -/
def small (x y : Nat) : TwistPoint := ⟨emb x, emb y, one11, .affine⟩

theorem image_read (a k : Nat) (ws : List Nat) : Memory.read (image a ws) (a + k) = ws[k]? := by
  induction ws generalizing a k with
  | nil => rfl
  | cons v vs ih =>
    cases k with
    | zero => simp [image, Memory.read]
    | succ k =>
      have h := ih (a + 1) k
      rw [show a + 1 + k = a + (k + 1) by omega] at h
      simp [image, Memory.read, h]

/-- The machine with a `DM` and a digit slot of these sizes. -/
def sized (dmWords nafMax : Nat) : Config := { Config.machine with dmWords := dmWords, nafMax := nafMax }

/-- The machine with the default sizes (`00_scope.md` R10). -/
abbrev block : Config := sized 4096 256

/-- Every size up to the bound meets the hypothesis of the memory statements, and so does the machine. -/
theorem executes_sized (dmWords nafMax : Nat) (h : dmWords ≤ 2 ^ 18 := by decide) :
    Executes (sized dmWords nafMax) (execIn (sized dmWords nafMax)) :=
  .inr ⟨dmWords, nafMax, h, rfl, rfl⟩

theorem executes_machine : Executes Config.machine exec := .inl ⟨rfl, rfl⟩

/-- Up to 34 words written from address 0 are held. -/
theorem holds_image (ws : List Nat) (a n : Nat) (v : Nat → Nat) (h : a + n ≤ 34)
    (hv : ∀ k, k < n → ws[a + k]? = some (v k)) : (configState ws).Holds block a n v := by
  have hd : block.dmWords = 4096 := rfl
  refine ⟨by omega, fun k hk => ?_⟩
  have := image_read 0 (a + k) ws
  rw [Nat.zero_add] at this
  exact this.trans (hv k hk)

/-- Encoding statements. -/
theorem witness_DecodeOfEncode_EncodeOfDecode :
    (Instr.ldp 11 0x3FFFF).wf = true ∧ decode 0x042FFFFF#32 = .ok (.ldp 11 0x3FFFF) := by
  decide

theorem witness_StepRunsDecoded :
    (soundState 2).run = .run ∧ (soundState 2).pastTop = false ∧ (soundState 2).pc.toNat < Config.machine.cmWords ∧
      Memory.read (soundState 2).cm (soundState 2).pc.toNat = some 0x21000000#32 ∧
      decode 0x21000000#32 = .ok (.eOne 0) :=
  ⟨rfl, rfl, Config.cmWords_bounds.1, rfl, by decide⟩

/-- A `pc` just past the memory; a counter past the top; an unwritten word; a word no row admits; a
command that completes at the last index. -/
theorem witness_FetchAndDecodeFaults :
    toy.cmWords ≤ ({ toyState with pc := 1024#16 } : State).pc.toNat ∧
    ({ toyState with pastTop := true } : State).pastTop = true ∧
    (toyState.run = .run ∧ toyState.pastTop = false ∧
      toyState.fetch Config.machine = .error ⟨.unwrittenRead, 0x20000000#32, none⟩ ∧
      toyState.pc.toNat < Config.machine.cmWords ∧ Memory.read toyState.cm toyState.pc.toNat = none) ∧
    (∀ r ∈ opcodeRows, r.admits 0x01000001#32 = false) ∧
    ∃ t, exec .nop { toyState with pc := 0xFFFF#16 } = .next t ∧ t.run = .run :=
  ⟨by decide, rfl, ⟨rfl, rfl, rfl, Config.cmWords_bounds.1, rfl⟩, by decide, _, rfl, rfl⟩

/-- A completion, a halt and a fault, at the least and the last `pc` before the free value, and there. -/
theorem witness_RunStateAndCounter :
    State.reset.run ≠ .run ∧ (toyState.run = .run ∧ toyState.pc ≠ 0xFFFF#16) ∧
    (∃ t, exec .nop toyState = .next t) ∧
    (∃ t, exec (.eOne 0) { toyState with pc := 0xFFFE#16 } = .next t ∧ t.pc = 0xFFFF#16) ∧
    (∃ t, exec (.eOne 0) { toyState with pc := 0xFFFF#16 } = .next t ∧ t.pastTop = true) ∧
    (∃ t, exec .halt toyState = .next t) ∧ ∃ t, exec .finit toyState = .next t :=
  ⟨by decide, by decide, ⟨_, rfl⟩, ⟨_, rfl, rfl⟩, ⟨_, rfl, rfl⟩, ⟨_, rfl⟩, ⟨_, rfl⟩⟩

/-- A faulting command, and a Miller command that faults inside its loop. -/
theorem witness_NoPartialResult :
    (toyState.run = .run ∧ isMiller .finit = false ∧
      ∃ t, exec .finit toyState = .next t ∧ t.run = .faulted) ∧
    ∃ t, exec (.miller 0 4 0 .basic) (pointsState (small 5 0) vQ) = .next t ∧ t.run = .faulted :=
  ⟨⟨rfl, rfl, _, rfl, rfl⟩, _, rfl, rfl⟩

theorem witness_LifecycleAdmission :
    (admission (.eOne 0) = .inReady ∧ State.reset.lifecycle = .config) ∧
    (admission (.ldp 11 0) = .inConfig ∧ (Instr.ldp 11 0).wf = true ∧
      ∃ k, toyState.lifecycle = .ready k) ∧
    admission .halt = .always ∧
    (admission .finit = .inConfig ∧ State.reset.lifecycle = .config) ∧
    admission (.eOne 0) = .inReady ∧ ∃ k, toyState.lifecycle = .ready k :=
  ⟨⟨rfl, rfl⟩, ⟨rfl, rfl, _, rfl⟩, rfl, ⟨rfl, rfl⟩, rfl, _, rfl⟩

/-- A first failing check of each kind; also the hypothesis of every `EarlyFaults` clause. -/
theorem witness_EarlyChecksInOrder :
    (State.reset.earlyFault (.eAdd 1 2 3) = some (7, 0) ∧ toyState.earlyFault .finit = some (7, 1)) ∧
    (toyState.earlyFault (.eAdd 4 7 9) = some (5, 7) ∧ toyState.earlyFault (.eAdd 4 1 9) = some (5, 9)) ∧
    State.reset.earlyFault .finit = some (5, 0x30000000) ∧
    ({ toyState with prm := ParamStore.empty } : State).earlyFault (.tIso 1 0) =
      some (5, 0x30000005) ∧
    ((pointsState ⟨va, va, va, .affine⟩ vQ).earlyFault (.tCpy 1 4) = some (3, 0x304) ∧
      (pointsState ⟨va, va, va, .affine⟩ vQ).earlyFault (.stT 4 0) = some (3, 0x304)) ∧
    (toyState.earlyFault (.tAdd 4 0 1 .basic) = some (8, 0x301) ∧
      toyState.earlyFault (.miller 0 1 0 .projc) = some (8, 0x301)) ∧
    toyState.earlyFault (.eAdd 4 1 2) = none := by
  decide

/-- The last address, the first and the last unwritten word of an access, and a store past the end, in the
largest memory; and the first address of a memory one word too small. -/
theorem witness_MemoryAccessChecks :
    (∀ d ∈ [10, 4096, 2 ^ 18], Executes (sized d 256) (execIn (sized d 256))) ∧ (readAccess (.ldE 1 0x3FFFF) = some (0x3FFFF, 11) ∧ toyState.earlyFault (.ldE 1 0x3FFFF) = none ∧
      (sized (2 ^ 18) 256).dmWords < 0x3FFFF + 11 ∧ (sized 10 256).dmWords < 0 + 11) ∧
    (readAccess (.ldE 1 0) = some (0, 11) ∧ 0 + 11 ≤ block.dmWords ∧
      FirstBad 11 (fun j => Memory.read toyState.dm (0 + j) = none) 0 ∧
      FirstBad 11 (fun j => Memory.read (configState (List.replicate 10 0)).dm (0 + j) = none) 10) ∧
    writeAccess (.stT 0 0x3FFFF) = some (0x3FFFF, 34) ∧
      toyState.earlyFault (.stT 0 0x3FFFF) = none ∧ (sized (2 ^ 18) 256).dmWords < 0x3FFFF + 34 := by
  refine ⟨fun d hd => executes_sized d 256 (by revert d; decide), ?_⟩
  unfold FirstBad
  decide

/-- One completing command meets the hypotheses of every clause of the three frame statements. -/
theorem witness_frames :
    ∃ t, exec .nop toyState = .next t ∧ writesEq .nop = false ∧ writesOnc .nop = false ∧
      writesLatch .nop = false ∧ isMiller .nop = false ∧ isStore .nop = false ∧ isLdp .nop = false ∧
      Instr.nop ≠ .finit ∧ t.run ≠ .faulted ∧ destE .nop ≠ some 0 ∧ destU .nop ≠ some 0 ∧
      destF .nop ≠ some 0 ∧ destT .nop ≠ some 0 ∧ destG .nop ≠ some 0 := by
  refine ⟨_, rfl, rfl, rfl, rfl, rfl, rfl, rfl, by decide, ?_, by decide, by decide, by decide,
    by decide, by decide⟩
  have : (toyState.advance Config.machine).run = .run := rfl
  rw [this]
  decide

/-! ### System commands -/

/-- A refused `C11` (1), and an accepted one. -/
theorem witness_FieldInitialisation :
    (let s : State := { State.reset with prm := { ParamStore.empty with c11 := some 1 } };
      s.lifecycle = .config ∧ s.prm.c11 = some 1 ∧
      1 ^ ((Config.prime - 1) / 11) % Config.prime = 1) ∧
    ∃ c : Base, let s : State := { State.reset with prm := { ParamStore.empty with c11 := some c } };
      s.lifecycle = .config ∧ s.prm.c11 = some c ∧
      ¬(c ^ ((Config.prime - 1) / 11) % Config.prime = 1 ∨
        (c ^ ((Config.prime - 1) / 22) % Config.prime) ^ 11 % Config.prime ≠ Config.prime - 1) := by
  have hp := Config.prime_ge
  refine ⟨⟨rfl, rfl, by rw [one_pow]; exact Nat.mod_eq_of_lt (by omega)⟩, ?_⟩
  obtain ⟨c, -, -, h⟩ := exists_c11Accepted Config.prime_admissible
  refine ⟨c, rfl, rfl, ?_⟩
  simp only [c11Accepted, powP_eq Config.prime_pos, Bool.and_eq_true, decide_eq_true_eq] at h
  simp only [not_or, not_not]
  exact h

/-- The boundary values of one-word slots, and `POST` images at their bounds and just past them. -/
theorem witness_LoadWordParameters :
    Executes block (execIn block) ∧ (∀ n ∈ [0, 1, 2, Config.prime - 1, Config.prime],
      (configState [n]).lifecycle = .config ∧ (configState [n]).Holds block 0 1 (fun _ => n)) ∧
    (let v : Nat → Nat := fun k => [2, 21, 1, 2, 21, 1][k]?.getD 0;
      (configState [2, 21, 1, 2, 21, 1]).Holds block 0 6 v ∧
      ∀ k, k < 6 → v k ≤ if k % 3 = 0 then 2 else if k % 3 = 1 then 21 else 1) ∧
    (let v : Nat → Nat := fun k => [0, 0, 0, 2, 22, 2][k]?.getD 0;
      (configState [0, 0, 0, 2, 22, 2]).Holds block 0 6 v ∧
      FirstBad 6 (fun j => (if j % 3 = 0 then 2 else if j % 3 = 1 then 21 else 1) < v j) 4) := by
  refine ⟨executes_sized _ _, fun n _ => ⟨rfl, holds_image _ _ _ _ (by decide) fun k hk => ?_⟩,
    ⟨holds_image _ _ _ _ (by decide) (by decide), by decide⟩,
    holds_image _ _ _ _ (by decide) (by decide), by unfold FirstBad; decide⟩
  interval_cases k
  rfl

/-- Words all `P - 1`, and words of which the last is `P`. -/
theorem witness_words_below_and_at_P (n : Nat) (hn : 0 < n ∧ n ≤ 33) :
    ((configState (List.replicate n (Config.prime - 1))).Holds block 0 n (fun _ => Config.prime - 1) ∧
      ∀ k, k < n → (fun _ : Nat => Config.prime - 1) k < Config.prime) ∧
    (let v : Nat → Nat := fun k => if k = n - 1 then Config.prime else 0;
      (configState ((List.range n).map v)).lifecycle = .config ∧
      (configState ((List.range n).map v)).Holds block 0 n v ∧
      FirstBad n (fun j => Config.prime ≤ v j) (n - 1)) := by
  have hp := Config.prime_pos
  refine ⟨⟨holds_image _ _ _ _ (by omega) fun k hk => by simp [hk], fun k _ => by simp; omega⟩, rfl,
    holds_image _ _ _ _ (by omega) fun k hk => by simp [hk], by omega, by simp, fun j hj => ?_⟩
  have : j ≠ n - 1 := by omega
  simp only [this, if_false]
  omega

/-- For `LDP` of elements and `LD.E`, `LD.F`: 11 and 22 words. -/
theorem witness_LoadElementParameters_LoadElements :
    Executes block (execIn block) ∧ (configState (List.replicate 11 (Config.prime - 1))).Holds block 0 11 (fun _ => Config.prime - 1) ∧
    (configState (List.replicate 22 (Config.prime - 1))).Holds block 0 22 (fun _ => Config.prime - 1) ∧
    FirstBad 11 (fun j => Config.prime ≤ if j = 10 then Config.prime else 0) 10 ∧
    FirstBad 22 (fun j => Config.prime ≤ if j = 21 then Config.prime else 0) 21 :=
  ⟨executes_sized _ _, (witness_words_below_and_at_P 11 (by decide)).1.1, (witness_words_below_and_at_P 22 (by decide)).1.1,
    (witness_words_below_and_at_P 11 (by decide)).2.2.2, (witness_words_below_and_at_P 22 (by decide)).2.2.2⟩

/-- Lengths just past `NAF_MAX`, 1 in digit slots of three sizes, and 2; digits legal, the top one not +1, and a code of 3. -/
theorem witness_LoadDigitParameters :
    (∀ n ∈ [0, 1, 256], Executes (sized 4096 n) (execIn (sized 4096 n))) ∧ ((configState [257]).lifecycle = .config ∧ (configState [257]).Holds block 0 1 (fun _ => 257) ∧
      block.nafMax < 257) ∧
    ((configState [1]).Holds block 0 1 (fun _ => 1) ∧ 1 ≤ block.nafMax ∧ 1 ≤ (sized 4096 1).nafMax ∧
      (sized 4096 0).nafMax < 1) ∧
    2 ≤ block.nafMax ∧
    (∀ ws ∈ [[2, 1], [0, 2], [3, 1], [0, 3]],
      (configState (2 :: ws)).Holds block 0 1 (fun _ => 2) ∧
      (configState (2 :: ws)).Holds block (0 + 1) 2 (fun k => ws[k]?.getD 0)) ∧
    FirstBad 2 (fun j => 2 < [3, 1][j]?.getD 0) 0 ∧ FirstBad 2 (fun j => 2 < [0, 3][j]?.getD 0) 1 := by
  refine ⟨fun n _ => executes_sized _ n, ⟨rfl, holds_image _ _ _ _ (by decide) (by decide), by decide⟩,
    ⟨holds_image _ _ _ _ (by decide) (by decide), by decide⟩, by decide, fun ws hws => ?_,
    by unfold FirstBad; decide, by unfold FirstBad; decide⟩
  simp only [List.mem_cons, List.not_mem_nil, or_false] at hws
  rcases hws with rfl | rfl | rfl | rfl <;>
    exact ⟨holds_image _ _ _ _ (by decide) (by decide), holds_image _ _ _ _ (by decide) (by decide)⟩

/-- The second read: a length word in the last word of `DM`; and digits of which the first, or the second,
is unwritten. -/
theorem witness_LoadDigitParameters_second_read :
    (let s : State := { State.reset with dm := [(4095, 2)] };
      s.lifecycle = .config ∧ s.Holds block (4095 : Addr).val 1 (fun _ => 2) ∧
        block.dmWords < (4095 : Addr).val + 1 + 2) ∧
    ∀ k ∈ [0, 1], (configState (2 :: List.replicate k 0)).Holds block 0 1 (fun _ => 2) ∧
      0 + 1 + 2 ≤ block.dmWords ∧
      FirstBad 2
        (fun j => Memory.read (configState (2 :: List.replicate k 0)).dm (0 + 1 + j) = none) k := by
  refine ⟨⟨rfl, by unfold State.Holds; decide, by decide⟩, fun k hk => ?_⟩
  · simp only [List.mem_cons, List.not_mem_nil, or_false] at hk
    rcases hk with rfl | rfl <;>
      exact ⟨holds_image _ _ _ _ (by decide) (by decide), by decide, by unfold FirstBad; decide⟩

/-! ### Loads and stores -/

/-- Twist images: word 32 equal to `P`, a tag of 2, an affine tag with `z = 2`, with `z = 1`, a projective
tag; base images: a `y` of `P`, an `inf` of 2, the identity. -/
theorem witness_LoadPoints :
    Executes block (execIn block) ∧ (∀ z ∈ [0, 1, 2], ∀ tag ∈ [0, 1, 2],
      (configState (List.replicate 22 0 ++ z :: List.replicate 10 0 ++ [tag])).Holds block 0 34
        (fun k => if k = 22 then z else if k = 33 then tag else 0)) ∧
    FirstBad 34 (fun k => if k < 33 then Config.prime ≤ (if k = 33 then 2 else 0) else
      1 < if k = 33 then 2 else 0) 33 ∧
    ((configState (List.replicate 32 0 ++ [Config.prime, 0])).Holds block 0 34
        (fun k => if k = 32 then Config.prime else 0) ∧
      FirstBad 34 (fun k => if k < 33 then Config.prime ≤ (if k = 32 then Config.prime else 0) else
        1 < if k = 32 then Config.prime else 0) 32) ∧
    (el [2] ≠ zero11 ∧ el [2] ≠ one11) ∧
    (∀ ws ∈ [[0, Config.prime, 2], [0, 0, 2], [0, 0, 1]],
      (configState ws).Holds block 0 3 (fun k => ws[k]?.getD 0)) ∧
    FirstBad 3 (fun k => if k < 2 then Config.prime ≤ [0, Config.prime, 2][k]?.getD 0 else
      1 < [0, Config.prime, 2][k]?.getD 0) 1 ∧
    FirstBad 3 (fun k => if k < 2 then Config.prime ≤ [0, 0, 2][k]?.getD 0 else
      1 < [0, 0, 2][k]?.getD 0) 2 := by
  have hp := Config.prime_pos
  refine ⟨executes_sized _ _, fun z _ tag _ => holds_image _ _ _ _ (by decide) fun k hk => ?_, ⟨by decide, by decide, ?_⟩,
    ⟨holds_image _ _ _ _ (by decide) fun k hk => ?_, by decide, by simp, ?_⟩, by decide,
    fun ws hws => ?_, ⟨by decide, by simp, ?_⟩, by decide, by decide, ?_⟩
  · interval_cases k <;> rfl
  · intro j hj
    interval_cases j <;> simp <;> omega
  · interval_cases k <;> rfl
  · intro j hj
    interval_cases j <;> simp <;> omega
  · simp only [List.mem_cons, List.not_mem_nil, or_false] at hws
    rcases hws with rfl | rfl | rfl <;>
      exact holds_image _ _ _ _ (by decide) fun k hk => by interval_cases k <;> rfl
  · intro j hj
    interval_cases j
    simp
    omega
  · intro j hj
    interval_cases j <;> simp <;> omega

/-- Every store with an image that fills `DM`, and one whose image is one word too long. -/
theorem witness_StoresWriteTheImage :
    (∀ d ∈ [3, 10, 11, 22, 34], Executes (sized d 256) (execIn (sized d 256))) ∧ (toyState.e[1] = some va ∧ toyState.f[1] = some ⟨va, vb⟩ ∧ toyState.t[1] = some vQ2 ∧
      tagOk vQ2 = true ∧ toyState.g[1] = some ⟨0, 0, true⟩) ∧
    (0 + va.toList.length ≤ (sized 11 256).dmWords ∧
      0 + (va.toList ++ vb.toList).length ≤ (sized 22 256).dmWords ∧
      0 + (vQ2.x.toList ++ vQ2.y.toList ++ vQ2.z.toList ++ [1]).length ≤ (sized 34 256).dmWords ∧
      0 + [0, 0, 1].length ≤ (sized 3 256).dmWords) ∧
    (sized 10 256).dmWords < 0 + va.toList.length :=
  ⟨fun d hd => executes_sized d 256 (by revert d; decide), by decide⟩

/-! ### Tower commands -/

/-- `READY`, and the operands of the degree-11 and degree-22 statements, zero and one among them. -/
theorem witness_tower_operands :
    (∃ k, toyState.lifecycle = .ready k) ∧ toyState.prm.c11 = some 2 ∧ toyState.e[0] = some zero11 ∧
      toyState.e[1] = some va ∧ toyState.e[2] = some vb ∧ (∃ w, toyState.u[0] = some w) ∧
      toyState.f[0] = some one22 ∧ toyState.f[1] = some ⟨va, vb⟩ ∧ toyState.f[2] = some ⟨vb, va⟩ ∧
      (∃ j : Fin 11, j.val = (63 : Exponent).val % 11) ∧
      ∃ j : Fin 11, j.val = (63 : Exponent).val % 22 % 11 :=
  ⟨⟨_, rfl⟩, by decide, by decide, by decide, by decide, ⟨_, rfl⟩, by decide, by decide, by decide,
    ⟨8, by decide⟩, 8, by decide⟩

/-- Equal and different operands of the compares; points at infinity, equal and different. -/
theorem witness_CompareAndTestFlags :
    (∃ k, toyState.lifecycle = .ready k) ∧ toyState.prm.c11 = some 2 ∧
      (toyState.e[1] = some va ∧ toyState.e[2] = some vb ∧ va ≠ vb) ∧
      (toyState.t[0] = some vQ ∧ tagOk vQ = true ∧ toyState.t[1] = some vQ2 ∧ tagOk vQ2 = true ∧
        toyState.t[2] = some infAffine ∧ tagOk infAffine = true ∧ infAffine.z = zero11 ∧
        vQ.z ≠ zero11) ∧
      (∃ ca, toyState.prm.a = some ca) ∧ ∃ cb, toyState.prm.b = some cb :=
  ⟨⟨_, rfl⟩, by decide, by decide, by decide, ⟨_, rfl⟩, _, rfl⟩

/-- Some `C11` makes `soundState` satisfy the lifecycle invariant. -/
theorem exists_sound : ∃ c : Base, 0 < c ∧ c < Config.prime ∧
    (soundState c).LifecycleSound Config.machine := by
  obtain ⟨c, h0, hc, h⟩ := exists_c11Accepted Config.prime_admissible
  exact ⟨c, h0, hc, fun k hk => ⟨c, rfl, h, by cases hk; rfl⟩⟩

/-- Inverse of zero, and of one in a sound state. -/
theorem witness_ElementInverse :
    ((∃ k, toyState.lifecycle = .ready k) ∧ toyState.prm.c11 = some 2 ∧ toyState.e[0] = some zero11) ∧
    ∃ (k : Constants) (c : Base), (soundState c).lifecycle = .ready k ∧ (soundState c).prm.c11 = some c ∧
      (soundState c).e[1] = some one11 ∧ one11 ≠ zero11 ∧ Below11 Config.prime one11 ∧
      (soundState c).LifecycleSound Config.machine := by
  obtain ⟨c, -, -, hs⟩ := exists_sound
  exact ⟨⟨⟨_, rfl⟩, by decide, by decide⟩, _, c, rfl, rfl, rfl, by decide,
    below11_one _ Config.prime_prime.one_lt, hs⟩

/-- The product of elements of the base field. -/
theorem product11_emb (c a b : Nat) :
    product11 Config.prime c (emb a) (emb b) = emb (a * b % Config.prime) := by
  ext k hk
  have h0 : ∀ i, i ≠ 0 → coeff (emb a) i = 0 := by
    intro i hi
    rcases Nat.lt_or_ge i 11 with h | h
    · interval_cases i <;> first | rfl | exact absurd rfl hi
    · exact coeff_of_ge _ h
  have h1 : ∀ i, i ≠ 0 → coeff (emb b) i = 0 := by
    intro i hi
    rcases Nat.lt_or_ge i 11 with h | h
    · interval_cases i <;> first | rfl | exact absurd rfl hi
    · exact coeff_of_ge _ h
  have hs : ∀ n, productSum (emb a) (emb b) n = if n = 0 then a * b else 0 := by
    intro n
    rw [productSum]
    rcases Nat.eq_zero_or_pos n with rfl | hn
    · simp [coeff, emb]
    · rw [if_neg (by omega)]
      refine Finset.sum_eq_zero fun i hi => ?_
      rcases Nat.eq_zero_or_pos i with rfl | hi0
      · rw [h1 (n - 0) (by omega), Nat.mul_zero]
      · rw [h0 i (by omega), Nat.zero_mul]
  rw [product11, Vector.getElem_ofFn]
  simp only [hs]
  interval_cases k <;> simp [emb]

/-- A difference of elements of the base field. -/
theorem minus11_emb (a b : Nat) : minus11 Config.prime (emb a) (emb b) =
    emb (((a : Int) - (b : Int)) % (Config.prime : Int)).toNat := by
  ext k hk
  rw [minus11, Vector.getElem_ofFn]
  interval_cases k <;> simp [emb]

/-- A sum of elements of the base field. -/
theorem plus11_emb (a b : Nat) : plus11 Config.prime (emb a) (emb b) = emb ((a + b) % Config.prime) := by
  ext k hk
  rw [plus11, Vector.getElem_ofFn]
  interval_cases k <;> simp [emb]

/-- Inside and outside the cyclotomic subgroup: one, and zero. -/
theorem witness_CyclotomicSquare :
    (∃ k, toyState.lifecycle = .ready k) ∧ toyState.prm.c11 = some 2 ∧
      toyState.f[0] = some one22 ∧ NormOne Config.prime 2 one22 ∧
      ¬NormOne Config.prime 2 ⟨zero11, zero11⟩ := by
  have hp := Config.prime_ge
  have hu : timesU Config.prime 2 zero11 = zero11 := by
    ext k hk
    rw [timesU, Vector.getElem_ofFn]
    interval_cases k <;> simp [zero11, emb, coeff]
  have hz : product11 Config.prime 2 zero11 zero11 = zero11 := by
    rw [zero11, product11_emb, Nat.zero_mul, Nat.zero_mod]
  refine ⟨⟨_, rfl⟩, by decide, by decide, ?_, ?_⟩
  · simp only [NormOne, one22, hz, hu]
    rw [one11, zero11, product11_emb, minus11_emb, Nat.mul_one, Nat.mod_eq_of_lt (by omega)]
    rw [show (((1 : Nat) : Int) - ((0 : Nat) : Int)) % (Config.prime : Int) = 1 by
      exact Int.emod_eq_of_lt (by omega) (by omega)]
    rfl
  · simp only [NormOne, hz, hu]
    rw [zero11, minus11_emb]
    simp only [Int.sub_self, Int.zero_emod]
    decide

/-- `F.FRB` and `T.FRB` in a sound state, with the exponents at the ends of each half. -/
theorem witness_QuadraticFrobenius_CurveFrobenius :
    ∃ (k : Constants) (c : Base), (soundState c).lifecycle = .ready k ∧
      (soundState c).LifecycleSound Config.machine ∧
      (soundState c).f[1] = some one22 ∧ Below22 Config.prime one22 ∧
      (soundState c).prm.twist = some .mType ∧
      (soundState c).t[1] = some ⟨zero11, one11, one11, .affine⟩ ∧
      tagOk ⟨zero11, one11, one11, .affine⟩ = true ∧
      BelowPoint Config.prime ⟨zero11, one11, one11, .affine⟩ ∧
      (∀ e ∈ ([0, 10, 11, 21, 22, 44, 63] : List Exponent),
        ∃ j : Fin 11, j.val = e.val % 22 % 11) ∧
      ∀ e ∈ ([0, 22, 44] : List Exponent), e.val % 22 = 0 := by
  obtain ⟨c, -, -, hs⟩ := exists_sound
  have h0 := below11_zero _ Config.prime_pos
  have h1 := below11_one _ Config.prime_prime.one_lt
  exact ⟨_, c, rfl, hs, rfl, ⟨h1, h0⟩, rfl, rfl, by decide, ⟨h0, h1, h1⟩,
    fun e _ => ⟨⟨e.val % 22 % 11, by omega⟩, rfl⟩, by decide⟩

/-! ### Twisted curve and isogenies -/

/-- The operands of the point moves, of `T.NORM` and of the isogenies: an affine point, a projective
one and infinity. -/
theorem witness_PointMoves_Normalisation_Isogenies :
    (∃ k, toyState.lifecycle = .ready k) ∧ toyState.prm.c11 = some 2 ∧ toyState.e[0] = some zero11 ∧
      toyState.e[1] = some va ∧ toyState.e[2] = some vb ∧ (∃ g, toyState.prm.gen = some g) ∧
      (∃ v, toyState.prm.tor2 = some v) ∧ (∃ v, toyState.prm.isoT = some v) ∧
      (∃ v, toyState.prm.isoD = some v) ∧
      (toyState.t[0] = some vQ ∧ tagOk vQ = true ∧ vQ.tag = .affine ∧ vQ.z ≠ zero11) ∧
      (toyState.t[1] = some vQ2 ∧ tagOk vQ2 = true ∧ vQ2.tag ≠ .affine ∧ vQ2.z ≠ zero11) ∧
      toyState.t[2] = some infAffine ∧ tagOk infAffine = true ∧ infAffine.z = zero11 :=
  ⟨⟨_, rfl⟩, by decide, by decide, by decide, by decide, ⟨_, rfl⟩, ⟨_, rfl⟩, ⟨_, rfl⟩, ⟨_, rfl⟩, by decide,
    by decide, by decide⟩

/-- Doubling: infinity, a point with `y = 0`, a point with `y` not 0; the same for `PROJC`. -/
theorem witness_AffineDoubling_ProjectiveDoubling :
    (∃ k, toyState.lifecycle = .ready k) ∧ toyState.prm.c11 = some 2 ∧ (∃ a, toyState.prm.a = some a) ∧
      (toyState.t[2] = some infAffine ∧ tagOk infAffine = true ∧ infAffine.tag = .affine ∧
        infAffine.z = zero11) ∧
      ((pointsState (small 5 0) vQ).t[4] = some (small 5 0) ∧ tagOk (small 5 0) = true ∧
        (small 5 0).tag = .affine ∧ (small 5 0).z ≠ zero11 ∧ (small 5 0).y = zero11) ∧
      toyState.t[0] = some vQ ∧ tagOk vQ = true ∧ vQ.tag = .affine ∧ vQ.z ≠ zero11 ∧ vQ.y ≠ zero11 :=
  ⟨⟨_, rfl⟩, by decide, ⟨_, rfl⟩, by decide, by decide, by decide⟩

/-- Affine addition: each operand infinity, opposite points, different abscissas. -/
theorem witness_AffineAddition :
    (pointsState (small 1 1) (small 1 2)).t[4] = some (small 1 1) ∧
      (pointsState (small 1 1) (small 1 2)).t[5] = some (small 1 2) ∧
      (∃ k, (pointsState (small 1 1) (small 1 2)).lifecycle = .ready k) ∧
      (tagOk (small 1 1) = true ∧ tagOk (small 1 2) = true ∧ (small 1 1).tag = .affine ∧
        (small 1 2).tag = .affine) ∧
      infAffine.z = zero11 ∧ (small 1 1).z ≠ zero11 ∧ (small 1 2).z ≠ zero11 ∧
      ((small 1 1).x = (small 1 2).x ∧ (small 1 1).y ≠ (small 1 2).y) ∧
      (small 1 1).x ≠ (small 2 1).x :=
  ⟨by decide, by decide, ⟨_, rfl⟩, by decide⟩

/-- A small difference modulo `P`. -/
theorem emb_sub_ne (a b : Nat) (h : b < a) (ha : a < 23) :
    emb (((a : Int) - (b : Int)) % (Config.prime : Int)).toNat ≠ zero11 := by
  have hp := Config.prime_ge
  rw [Int.emod_eq_of_lt (by omega) (by omega)]
  intro h0
  have : ((a : Int) - (b : Int)).toNat = 0 := congrArg (fun v : Deg11 => v[0]) h0
  omega

/-- Projective addition: with `z = 1`, `h` is the difference of the abscissas and `d` that of the
ordinates; opposite points, points with different abscissas, and `(4, 8, 2)p`, which is `(1, 1)` in other
coordinates. -/
theorem witness_ProjectiveAddition :
    let mul := product11 Config.prime 2
    let sub := minus11 Config.prime
    let h := fun p q : TwistPoint => sub (mul q.x (mul p.z p.z)) (mul p.x (mul q.z q.z))
    let d := fun p q : TwistPoint =>
      sub (mul (mul q.y p.z) (mul p.z p.z)) (mul (mul p.y q.z) (mul q.z q.z))
    (∃ k, (pointsState (small 1 1) (small 1 2)).lifecycle = .ready k) ∧
      infAffine.z = zero11 ∧ (small 1 1).z ≠ zero11 ∧
      (h (small 1 1) (small 1 2) = zero11 ∧ d (small 1 1) (small 1 2) ≠ zero11) ∧
      h (small 1 1) (small 2 1) ≠ zero11 ∧
      (let q : TwistPoint := ⟨emb 4, emb 8, emb 2, .projective⟩;
        tagOk q = true ∧ q.z ≠ zero11 ∧ h (small 1 1) q = zero11 ∧ d (small 1 1) q = zero11) := by
  have hp := Config.prime_ge
  have h1 : (1 : Nat) % Config.prime = 1 := Nat.mod_eq_of_lt (by omega)
  have h2 : (2 : Nat) % Config.prime = 2 := Nat.mod_eq_of_lt (by omega)
  have h4 : (4 : Nat) % Config.prime = 4 := Nat.mod_eq_of_lt (by omega)
  have h8 : (8 : Nat) % Config.prime = 8 := Nat.mod_eq_of_lt (by omega)
  refine ⟨⟨_, rfl⟩, by decide, by decide, ⟨?_, ?_⟩, ?_, by decide, by decide, ?_, ?_⟩
  · simp only [small, one11, product11_emb, Nat.mul_one, h1, minus11_emb, Int.sub_self, Int.zero_emod]
    rfl
  · simp only [small, one11, product11_emb, Nat.mul_one, h1, h2, minus11_emb]
    exact emb_sub_ne 2 1 (by decide) (by decide)
  · simp only [small, one11, product11_emb, Nat.mul_one, h1, h2, minus11_emb]
    exact emb_sub_ne 2 1 (by decide) (by decide)
  · simp only [small, one11, product11_emb, Nat.mul_one, Nat.one_mul, Nat.reduceMul, h1, h4, minus11_emb,
      Int.sub_self, Int.zero_emod]
    rfl
  · simp only [small, one11, product11_emb, Nat.mul_one, Nat.one_mul, Nat.reduceMul, h1, h2, h4, h8,
      minus11_emb, Int.sub_self, Int.zero_emod]
    rfl

theorem witness_EqualOperandsDouble : (pointsState vQ vQ).t[4] = (pointsState vQ vQ).t[5] := by
  decide

/-! ### Pairing engine -/

/-- A record of each kind: a doubling, an addition with an affine base, and with a projective one. -/
theorem witness_LineEvaluation :
    (∃ k, toyState.lifecycle = .ready k) ∧ toyState.prm.c11 = some 2 ∧ toyState.prm.twist = some .dType ∧
      (toyState.g[1] = some ⟨0, 0, true⟩ ∧ toyState.g[0] = some ⟨1, 16, false⟩) ∧ toyState.lc = none ∧
      (∀ r : LineRecord, ({ toyState with lc := some r } : State).lc = some r) ∧
      (let r : LineRecord := ⟨.add, .projc, va, vb, vQ2⟩; r.kind = .add ∧ r.base.tag = .projective) ∧
      (let r : LineRecord := ⟨.add, .projc, va, vb, vQ⟩;
        ¬(r.kind = .add ∧ r.base.tag = .projective)) ∧
      (let r : LineRecord := ⟨.dbl, .projc, va, vb, vQ2⟩;
        ¬(r.kind = .add ∧ r.base.tag = .projective)) :=
  ⟨⟨_, rfl⟩, by decide, by decide, by decide, by decide, fun _ => rfl, by decide, by decide, by decide⟩

/-- Infinity on the twist, and the identity on the base curve. -/
theorem witness_DegeneratePairing :
    (∃ k, toyState.lifecycle = .ready k) ∧
      (toyState.t[2] = some infAffine ∧ tagOk infAffine = true ∧ infAffine.tag = .affine ∧
        infAffine.z = zero11) ∧
      (toyState.t[0] = some vQ ∧ tagOk vQ = true ∧ vQ.tag = .affine) ∧
      (toyState.g[0] = some ⟨1, 16, false⟩ ∧ toyState.g[1] = some ⟨0, 0, true⟩) ∧
      (toyState.prm.twist.isSome = true ∧ toyState.prm.a.isSome = true ∧ toyState.prm.naf.isSome = true ∧
        toyState.prm.seedfix.isSome = true ∧ toyState.prm.post.isSome = true ∧
        toyState.prm.tor2.isSome = true ∧ toyState.prm.isoT.isSome = true ∧
        toyState.prm.naf2.isSome = true) :=
  ⟨⟨_, rfl⟩, by decide, by decide, by decide, by decide⟩

/-- A state for the Miller statements: `A = 0`, the digits `naf`, the point `q` in `T[4]`. -/
def millerState (q : TwistPoint) (naf : List Digit) (seedfix : Bool) : State :=
  { pointsState q q with
    prm := { toyState.prm with a := some zero11, naf := some naf, naf2 := some naf,
                               seedfix := some seedfix } }

/-- The hypotheses of `StandardMillerLoop` for every low digit and both values of `SEEDFIX`. -/
theorem witness_StandardMillerLoop :
    ∀ (digit : Digit) (seedfix : Bool), let s := millerState (small 1 1) [digit, .plus] seedfix
      (∃ k, s.lifecycle = .ready k) ∧ s.prm.c11 = some 2 ∧ s.t[4] = some (small 1 1) ∧
      s.g[0] = some ⟨1, 16, false⟩ ∧ s.prm.twist = some .dType ∧ s.prm.a = some zero11 ∧
      s.prm.naf = some [digit, .plus] ∧ s.prm.seedfix = some seedfix ∧
      s.prm.post = some (⟨.disabled, 0, false⟩, ⟨.disabled, 0, false⟩) ∧
      tagOk (small 1 1) = true ∧ (small 1 1).tag = .affine ∧ (small 1 1).z ≠ zero11 := by
  intro digit seedfix
  refine ⟨⟨_, rfl⟩, rfl, rfl, rfl, rfl, rfl, rfl, rfl, rfl, ?_⟩
  decide

/-- A small multiple. -/
theorem scale11_emb (n a : Nat) : scale11 Config.prime n (emb a) = emb (n * a % Config.prime) := by
  ext k hk
  rw [scale11_get _ _ _ _ hk]
  interval_cases k <;> simp [emb]

/-- A small difference that does not wrap. -/
theorem sub_small {a b : Nat} (h : b ≤ a) (ha : a < 23) :
    (((a : Int) - (b : Int)) % (Config.prime : Int)).toNat = a - b := by
  have hp := Config.prime_ge
  rw [Int.emod_eq_of_lt (by omega) (by omega)]
  omega

/-- The addition of that loop: with `A = 0`, `2 (1, 1)` and any point of abscissa 1 have different
abscissas, so that the record is one of an addition; the two nonzero digits use ordinates 1 and `P - 1`. -/
theorem witness_StandardMillerLoop_addition :
    ∀ y : Deg11, ∃ r2 : LineRecord, (jacAdd ⟨Config.prime, 2⟩ zero11
        (jacDbl ⟨Config.prime, 2⟩ zero11 (small 1 1)).1 ⟨emb 1, y, one11, .affine⟩).2 = some r2 ∧
      r2.kind = .add := by
  intro y
  have hp := Config.prime_ge
  have hm : ∀ n, n < 23 → n % Config.prime = n := fun n hn => Nat.mod_eq_of_lt (by omega)
  have hdbl : (jacDbl ⟨Config.prime, 2⟩ zero11 (small 1 1)).1.x = emb 1 ∧
      (jacDbl ⟨Config.prime, 2⟩ zero11 (small 1 1)).1.z = emb 2 := by
    rw [jacDbl, if_neg (by decide)]
    simp only [small, one11, zero11, sqr11_eq, mul11_eq, sub11_eq, add11_eq, product11_emb, scale11_emb,
      plus11_emb, Nat.mul_one, Nat.add_zero, hm, Nat.reduceMul, Nat.reduceLT,
      minus11_emb, sub_small (by decide : 8 ≤ 9) (by decide)]
    exact ⟨trivial, trivial⟩
  have h1 : ¬isInf (jacDbl ⟨Config.prime, 2⟩ zero11 (small 1 1)).1 = true := by
    rw [isInf, hdbl.2]
    decide
  have h2 : ¬isInf ⟨emb 1, y, one11, .affine⟩ = true := fun h =>
    (show one11 ≠ zero11 by decide) (of_decide_eq_true h)
  rw [jacAdd, if_neg h1, if_neg h2, hdbl.1, hdbl.2]
  simp only [one11, sqr11_eq, mul11_eq, sub11_eq, product11_emb, Nat.one_mul, hm, Nat.reduceMul,
    Nat.reduceLT, minus11_emb]
  rw [if_neg (emb_sub_ne 4 1 (by decide) (by decide))]
  exact ⟨_, rfl, rfl⟩

/-- The hypotheses of `MillerFaultSteps`: the shortest strings of each clause. -/
theorem witness_MillerFaultSteps :
    ∀ naf ∈ [[Digit.plus, .plus], [.minus, .plus], [.zero, .plus], [.plus, .zero, .plus]],
      let s := millerState (small 5 0) naf false
      (∃ k, s.lifecycle = .ready k) ∧ s.prm.c11 = some 2 ∧ s.t[4] = some (small 5 0) ∧
      s.g[0] = some ⟨1, 16, false⟩ ∧ s.prm.twist.isSome = true ∧ s.prm.a.isSome = true ∧
      s.prm.naf = some naf ∧ s.prm.seedfix.isSome = true ∧ s.prm.post.isSome = true ∧
      tagOk (small 5 0) = true ∧ (small 5 0).tag = .affine ∧ (small 5 0).z ≠ zero11 ∧
      (small 5 0).y = zero11 ∧ 2 ≤ naf.length ∧ ∃ digit, naf[naf.length - 2]? = some digit := by
  intro naf hnaf
  have h : tagOk (small 5 0) = true ∧ (small 5 0).tag = .affine ∧ (small 5 0).z ≠ zero11 ∧
      (small 5 0).y = zero11 := by decide
  simp only [List.mem_cons, List.not_mem_nil, or_false] at hnaf
  rcases hnaf with rfl | rfl | rfl | rfl <;>
    exact ⟨⟨_, rfl⟩, rfl, rfl, rfl, rfl, rfl, rfl, rfl, rfl, h.1, h.2.1, h.2.2.1, h.2.2.2, by decide,
      _, rfl⟩

/-- The phases of the standard loop over `toyState`'s slots at a point. -/
def standardFsm (mode : Mode) (q : TwistPoint) (seedfix : Bool) : MillerFsm :=
  { c := Config.machine, fl := ⟨Config.prime, 2⟩, k := constantsOf 67 2, tw := .dType, a := zero11,
    mode := mode, superOptimal := false, digits := [.zero, .plus], q := q, g := ⟨1, 16, false⟩,
    past := fun _ => 0, seedfix := seedfix }

/-- The phases come to `WRITE`, with or without the sign fix-up; or the first of them faults. -/
theorem witness_StandardMillerLoop_phases :
    (∀ seedfix : Bool, ∃ x, (standardFsm .projc (small 1 1) seedfix).Reaches x ∧ x.phase = .write) ∧
    ∃ x code einfo, (standardFsm .basic (small 5 0) false).Reaches x ∧
      (standardFsm .basic (small 5 0) false).phaseStep x = .error (code, einfo) := by
  refine ⟨fun seedfix => ?_, _, 1, 0#32, .refl, rfl⟩
  cases seedfix <;>
    exact ⟨_, .head rfl (.head rfl (.head rfl (.head rfl .refl))), rfl⟩

/-- The phases of the super-optimal loop with some hooks. -/
def superOptimalFsm (hooks : SuperOpt) : MillerFsm :=
  { c := { Config.machine with superOpt := hooks }, fl := ⟨Config.prime, 2⟩, k := constantsOf 67 2,
    tw := .dType, a := zero11, mode := .projc, superOptimal := true, digits := [.zero, .plus],
    q := small 1 1, g := ⟨1, 16, false⟩, past := fun _ => 0 }

/-- With hooks that fold at every index the phases come to `WRITE`; an `IsoG1` that gives the identity, and
each correction that fails, is a fault. -/
theorem witness_SuperOptimalMillerLoop_phases :
    (∃ x, (superOptimalFsm { SuperOpt.trivial with foldAt := fun _ => true }).Reaches x ∧
      x.phase = .write) ∧
    (∃ x einfo, (superOptimalFsm { SuperOpt.trivial with isoG1 := fun _ => ⟨0, 0, true⟩ }).Reaches x ∧
      (superOptimalFsm { SuperOpt.trivial with isoG1 := fun _ => ⟨0, 0, true⟩ }).phaseStep x =
        .error (8, einfo)) ∧
    (∃ x, (superOptimalFsm { SuperOpt.trivial with corrPre := fun _ _ _ _ => none }).Reaches x ∧
      (superOptimalFsm { SuperOpt.trivial with corrPre := fun _ _ _ _ => none }).phaseStep x =
        .error (1, 0#32)) ∧
    ∃ x, (superOptimalFsm { SuperOpt.trivial with corrPost := fun _ _ _ _ _ => none }).Reaches x ∧
      (superOptimalFsm { SuperOpt.trivial with corrPost := fun _ _ _ _ _ => none }).phaseStep x =
        .error (1, 0#32) :=
  ⟨⟨_, .head rfl (.head rfl (.head rfl (.head rfl .refl))), rfl⟩, ⟨_, _, .refl, rfl⟩, ⟨_, .refl, rfl⟩,
    _, .head rfl (.head rfl .refl), rfl⟩

/-- The hypotheses of `SuperOptimalMillerLoop`: its operands and slots; and of its last part, a run of one
doubling, and a degenerate one. -/
theorem witness_SuperOptimalMillerLoop :
    let c : Config := { Config.machine with superOpt := SuperOpt.trivial }
    let s := millerState (small 1 1) [.zero, .plus] false
    (s.prm.naf2 = s.prm.naf ∧ s.prm.seedfix = some false ∧
      s.prm.post = some (⟨.disabled, 0, false⟩, ⟨.disabled, 0, false⟩) ∧ s.prm.tor2.isSome = true ∧
      s.prm.isoT.isSome = true) ∧
    ((∃ k, s.lifecycle = .ready k) ∧ s.prm.c11 = some 2 ∧ s.t[4] = some (small 1 1) ∧
      s.g[0] = some ⟨1, 16, false⟩ ∧ s.prm.twist.isSome = true ∧ s.prm.a.isSome = true ∧
      s.prm.naf2 = some [.zero, .plus] ∧ c.p = Config.prime) ∧
    ∀ g ∈ ([0, 1] : List RegG), ∃ v : Deg22, execMiller 3 4 g .projc s c = .next
      ({ s with
          f := s.f.set 3 (some v)
          lc := none
          ml := ⟨false, false, .idle, 0#16, none⟩ }.advance c) := by
  refine ⟨⟨rfl, rfl, rfl, rfl, rfl⟩, ⟨⟨_, rfl⟩, rfl, rfl, rfl, rfl, rfl, rfl, rfl⟩, fun g hg => ?_⟩
  simp only [List.mem_cons, List.not_mem_nil, or_false] at hg
  rcases hg with rfl | rfl <;> exact ⟨_, rfl⟩

/-! ### Invariants, reset and the host -/

/-- A register file with one written register holds that value only. -/
theorem only_entry {α : Type} {n i : Nat} (hi : i < n) (x : α) {v : α} (r : Nat) (hr : r < n)
    (h : ((Vector.replicate n (none : Option α)).set i (some x) hi)[r] = some v) : v = x := by
  rw [Vector.getElem_set] at h
  split at h
  · exact (Option.some.inj h).symm
  · simp at h

/-- A sound state in `READY` that completes `E.ONE`: every hypothesis of the five step invariants. -/
theorem witness_step_invariants :
    ∃ s t : State, s.Sound Config.machine ∧ s.run = .run ∧ (∃ k, s.lifecycle = .ready k) ∧
      step s = .next t ∧ t.e[0] = some one11 := by
  obtain ⟨c, hc0, hc, hs⟩ := exists_sound
  have hp := Config.prime_pos
  have h0 := below11_zero _ hp
  have h1 := below11_one _ Config.prime_prime.one_lt
  have hstep : step (soundState c) = exec (.eOne 0) (soundState c) := rfl
  refine ⟨soundState c, _, ?_, rfl, ⟨_, rfl⟩, hstep.trans rfl, rfl⟩
  refine ⟨⟨?_, ?_, ?_, ?_, ?_, ?_, ?_, ?_, ?_, ?_, ?_, ?_, ?_, ?_, ?_⟩, ?_, ?_, hs, ?_, ?_⟩
  · intro r v hv
    rw [only_entry (by decide) _ _ _ hv]
    exact h1
  · intro r v hv; simp [soundState, State.reset] at hv
  · intro r v hv
    rw [only_entry (by decide) _ _ _ hv]
    exact ⟨h1, h0⟩
  · intro r v hv
    rw [only_entry (by decide) _ _ _ hv]
    exact ⟨h0, h1, h1⟩
  · intro r v hv; simp [soundState, State.reset] at hv
  · intro r hr; cases hr
  · intro v hv; cases hv; exact ⟨hc0, hc⟩
  · intro v hv; cases hv
  · intro v hv; cases hv
  · intro v hv; cases hv
  · intro v hv; cases hv
  · intro v hv; cases hv
  · intro v hv; cases hv
  · intro k hk; cases hk; exact constantsOf_below Config.prime_prime.two_le c
  · intro a v hv; cases hv
  · intro r v hv
    rw [only_entry (by decide) _ _ _ hv]
    decide
  · constructor <;> intro ds hd <;> cases hd
  · refine ⟨rfl, rfl, fun a v hv => (by cases hv), fun a w hw => ?_⟩
    have hcm := Config.cmWords_bounds
    rcases Nat.eq_zero_or_pos a with rfl | ha
    · omega
    · simp [soundState, Memory.read, show (0 : Nat) ≠ a by omega] at hw
  · exact ⟨rfl, rfl, fun _ => ⟨rfl, rfl, rfl, rfl, rfl⟩, fun h => (by cases h), fun h => (by cases h)⟩

/-- The least and greatest words of `DM`, the first and the last address that exists, and the first that
does not. -/
theorem witness_HostMemoryTransactions :
    State.reset.run ≠ .run ∧ (0 < 2 ^ block.w ∧ 2 ^ block.w - 1 < 2 ^ block.w) ∧
      (0 < block.dmWords ∧ 4095 < block.dmWords ∧ block.dmWords ≤ 4096) ∧
      (0 < block.cmWords ∧ block.cmWords ≤ block.cmWords) ∧ State.reset.MemorySound block := by
  have h2 : 1 ≤ block.cmWords := Config.cmWords_bounds.1
  have h3 : 0 < 2 ^ block.w := Nat.two_pow_pos _
  exact ⟨by decide, ⟨h3, by omega⟩, by decide, ⟨h2, le_refl _⟩, rfl, rfl,
    fun a v h => (by cases h), fun a w h => (by cases h)⟩

/-- The two run states of the clauses on host accesses, and a move on each memory. -/
theorem witness_HostMovesKeepSound_NothingElseRefuses :
    (toyState.run = .run ∧ State.reset.run ≠ .run) ∧ (∃ t, hostWriteDM State.reset 0 1 = .next t) ∧
      (∃ t, hostWriteCM State.reset 0 0x01000000#32 = .next t) ∧
      State.reset.lifecycle = .config ∧ State.reset.MemorySound Config.machine := by
  refine ⟨by decide, ⟨_, rfl⟩, ⟨_, rfl⟩, rfl, rfl, rfl, fun a v h => (by cases h), fun a w h => (by cases h)⟩

end Sys2Proof.Tests
end

section
/-! PROOFS. Every step keeps every value in range (O51). What a computation gives when it raises no
fault is said with `Gives`; what is in range is then said once of each register write, each operand
read, each function of the towers, the curve and the Miller loops, and put together command by command. -/

namespace Sys2Proof.Machine

open Sys2Proof

/-! ### What a computation gives -/

/-- Every value `x` gives has the property; a fault gives none. -/
def Gives {α : Type} (x : Except Raise α) (good : α → Prop) : Prop := ∀ a, x = .ok a → good a

section Gives

variable {α β : Type} {x y : Except Raise α} {f : α → Except Raise β} {good : α → Prop}
  {goodAfter : β → Prop}

theorem Gives.pure {a : α} (h : good a) : Gives (pure a) good := by
  rintro _ ⟨⟩
  exact h

theorem Gives.raise (cause : Cause) (einfo : BitVec 32) : Gives (raise cause einfo) good :=
  fun _ h => (raise_ne_ok h).elim

/-- A sequence gives what its second part gives on the values its first part gives. -/
theorem Gives.bind (hx : Gives x good) (hf : ∀ a, good a → Gives (f a) goodAfter) :
    Gives (x >>= f) goodAfter := fun b h => by
  obtain ⟨a, ha, hb⟩ := bind_ok_iff.mp h
  exact hf a (hx a ha) b hb

/-- A sequence of which only the second part matters: a check, or an operand whose value does not. -/
theorem Gives.seq (hf : ∀ a, Gives (f a) goodAfter) : Gives (x >>= f) goodAfter :=
  Gives.bind (good := fun _ => True) (fun _ _ => trivial) fun a _ => hf a

theorem Gives.ite {b : Prop} [Decidable b] (hx : Gives x good) (hy : Gives y good) :
    Gives (if b then x else y) good := by
  split
  · exact hx
  · exact hy

/-- A phase of a Miller loop changes only what a fault says. -/
theorem Gives.inPhase {env : MillerEnv} {phase : Phase} {i : Nat} (hx : Gives x good) :
    Gives (inPhase env phase i x) good := by
  cases x with
  | ok a =>
    rintro _ ⟨⟩
    exact hx a rfl
  | error r =>
    intro _ h
    cases h

end Gives

/-! ### Results of the towers in range -/

section Tower

variable {p : Nat} {fl : Field}

/-- Base-field values fit the words of `DM`. -/
theorem modulus_le_word {c : Config} (hp : 1 < c.p) : c.p ≤ 2 ^ c.w := by
  have h := Nat.lt_log2_self (n := c.p - 1)
  simp only [Config.w]
  omega

theorem Below11.toList_lt {x : Deg11} (hx : Below11 p x) {v : Nat} (hv : v ∈ x.toList) : v < p := by
  obtain ⟨i, hi, rfl⟩ := List.mem_iff_getElem.mp hv
  rw [Vector.getElem_toList]
  exact hx i (by simpa using hi)

theorem below22_one (hp : 1 < p) : Below22 p one22 :=
  ⟨below11_one p hp, below11_zero p hp.pos⟩

theorem below22_mul (hp : 1 < fl.p) (a b : Deg22) : Below22 fl.p (mul22 fl a b) :=
  ⟨below11_add _ hp.pos _ _, below11_sub _ hp.pos _ _⟩

theorem below22_sqr (hp : 1 < fl.p) (a : Deg22) : Below22 fl.p (sqr22 fl a) :=
  ⟨below11_add _ hp.pos _ _, below11_sub _ hp.pos _ _⟩

theorem below22_norm (hp : 1 < p) (a : Deg22) : Below22 p (norm22 p a) :=
  ⟨below11_red _ hp.pos _, below11_red _ hp.pos _⟩

theorem below22_sqrc (hp : 1 < fl.p) (off a : Deg22) : Below22 fl.p (sqrc22 fl off a) := by
  unfold sqrc22
  split
  · exact below22_sqr hp a
  · exact below22_norm hp off

theorem below22_conj (hp : 1 < p) {a : Deg22} (ha : Below22 p a) : Below22 p (conj22 p a) :=
  ⟨ha.1, below11_neg _ hp.pos _⟩

theorem below22_frb (hp : 1 < p) (k : Constants) {a : Deg22} (ha : Below22 p a) (e : Nat) :
    Below22 p (frb22 p k a e) := by
  refine ⟨below11_frb p hp.pos k ha.1 _, ?_⟩
  dsimp only [frb22]
  split
  · exact below11_neg _ hp.pos _
  · exact below11_frb2 _ hp.pos _ _ _

end Tower

/-! ### Results of the group law in range -/

/-- The fields of a line record are in range. -/
def BelowRecord (p : Nat) (r : LineRecord) : Prop :=
  Below11 p r.slope ∧ Below11 p r.zaux ∧ BelowPoint p r.base

/-- A point and the line record it exports, if any, are in range. -/
def BelowStep (p : Nat) (r : TwistPoint × Option LineRecord) : Prop :=
  BelowPoint p r.1 ∧ ∀ l, r.2 = some l → BelowRecord p l

section Curve

variable {p : Nat} {fl : Field} {q r : TwistPoint}

theorem BelowStep.noRecord (hq : BelowPoint p q) : BelowStep p (q, none) :=
  ⟨hq, fun _ h => nomatch h⟩

theorem BelowStep.record {l : LineRecord} (hq : BelowPoint p q) (hl : BelowRecord p l) :
    BelowStep p (q, some l) :=
  ⟨hq, fun _ h => Option.some.inj h ▸ hl⟩

theorem belowPoint_infAffine (hp : 1 < p) : BelowPoint p infAffine :=
  have h0 := below11_zero p hp.pos
  ⟨h0, h0, h0⟩

theorem belowPoint_infProjective (hp : 1 < p) : BelowPoint p infProjective :=
  have h0 := below11_zero p hp.pos
  ⟨h0, h0, h0⟩

theorem belowPoint_neg (hp : 1 < p) (hq : BelowPoint p q) : BelowPoint p (negPoint p q) :=
  ⟨hq.1, below11_neg _ hp.pos _, hq.2.2⟩

theorem belowPoint_chord (hp : 1 < fl.p) (lam xs : Deg11) (q : TwistPoint) :
    BelowPoint fl.p (chordPoint fl lam xs q) :=
  ⟨below11_sub _ hp.pos _ _, below11_sub _ hp.pos _ _, below11_one _ hp⟩

theorem affDbl_below (hp : 1 < fl.p) (a : Deg11) (hq : BelowPoint fl.p q) :
    Gives (affDbl fl a q) (BelowStep fl.p) :=
  .ite (.pure (.noRecord hq)) <| .ite (.raise _ _) <| .pure <|
    .record (belowPoint_chord hp _ _ _) ⟨below11_mul fl hp.pos _ _, below11_one _ hp, hq⟩

theorem affAdd_below (hp : 1 < fl.p) (a : Deg11) (hq : BelowPoint fl.p q) (hr : BelowPoint fl.p r) :
    Gives (affAdd fl a q r) (BelowStep fl.p) :=
  .ite (.pure (.noRecord hr)) <| .ite (.pure (.noRecord hq)) <|
    .ite (.ite (affDbl_below hp a hq) (.pure (.noRecord (belowPoint_infAffine hp)))) <| .pure <|
      .record (belowPoint_chord hp _ _ _) ⟨below11_mul fl hp.pos _ _, below11_one _ hp, hr⟩

theorem jacDbl_below (hp : 1 < fl.p) (a : Deg11) (hq : BelowPoint fl.p q) :
    BelowStep fl.p (jacDbl fl a q) := by
  unfold jacDbl
  split
  · exact .noRecord hq
  · exact .record ⟨below11_sub _ hp.pos _ _, below11_sub _ hp.pos _ _, below11_scale _ hp.pos _ _⟩
      ⟨below11_add _ hp.pos _ _, below11_mul fl hp.pos _ _, hq⟩

theorem jacAdd_below (hp : 1 < fl.p) (a : Deg11) (hq : BelowPoint fl.p q) (hr : BelowPoint fl.p r) :
    BelowStep fl.p (jacAdd fl a q r) := by
  unfold jacAdd
  split
  · exact .noRecord hr
  split
  · exact .noRecord hq
  dsimp only
  split
  · split
    · exact jacDbl_below hp a hq
    · exact .noRecord (belowPoint_infProjective hp)
  · exact .record ⟨below11_sub _ hp.pos _ _, below11_sub _ hp.pos _ _, below11_mul fl hp.pos _ _⟩
      ⟨below11_sub _ hp.pos _ _, below11_mul fl hp.pos _ _, hr⟩

theorem doublePoint_below (hp : 1 < fl.p) (a : Deg11) (mode : Mode) (hq : BelowPoint fl.p q) :
    Gives (doublePoint fl a mode q) (BelowStep fl.p) := by
  cases mode with
  | basic => exact affDbl_below hp a hq
  | projc => exact .pure (jacDbl_below hp a hq)

theorem addPoints_below (hp : 1 < fl.p) (a : Deg11) (mode : Mode) (hq : BelowPoint fl.p q)
    (hr : BelowPoint fl.p r) : Gives (addPoints fl a mode q r) (BelowStep fl.p) := by
  cases mode with
  | basic => exact affAdd_below hp a hq hr
  | projc => exact .pure (jacAdd_below hp a hq hr)

theorem belowPoint_frb (hp : 1 < fl.p) (k : Constants) (tw : Twist) (hq : BelowPoint fl.p q)
    (e : Nat) : BelowPoint fl.p (frbPoint fl k tw q e) := by
  obtain ⟨hx, -, hz⟩ := hq
  have up : ∀ {x : Deg11}, Below11 fl.p x → Below11 fl.p (mnr fl x) := below11_mnr fl hp.pos
  have down : ∀ {x : Deg11}, Below11 fl.p x → Below11 fl.p (dnr fl.p k.c11inv x) :=
    below11_dnr fl.p _ hp.pos
  refine ⟨?_, ?_, below11_frb _ hp.pos k hz _⟩
  · cases tw with
    | dType => exact down (below11_frb _ hp.pos k (up hx) _)
    | mType => exact up (below11_frb _ hp.pos k (down hx) _)
  · dsimp only [frbPoint]
    split
    · exact below11_neg _ hp.pos _
    · cases tw with
      | dType => exact down (below11_frb2 _ hp.pos k _ _)
      | mType => exact up (up (below11_frb2 _ hp.pos k _ _))

theorem belowPoint_norm (hp : 1 < fl.p) (hq : BelowPoint fl.p q) (inverted : Bool) :
    BelowPoint fl.p (normPoint fl q inverted) := by
  unfold normPoint
  split
  · exact belowPoint_infAffine hp
  split
  · exact hq
  · exact ⟨below11_mul fl hp.pos _ _, below11_mul fl hp.pos _ _, below11_one _ hp⟩

theorem belowPoint_iso (hp : 1 < fl.p) (tor2 isoT : Deg11) (q : TwistPoint) :
    BelowPoint fl.p (isoPoint fl tor2 isoT q) := by
  unfold isoPoint
  split
  · exact belowPoint_infAffine hp
  dsimp only
  split
  · exact belowPoint_infAffine hp
  · exact ⟨below11_add _ hp.pos _ _, below11_mul fl hp.pos _ _, below11_one _ hp⟩

theorem belowPoint_isoDual (hp : 1 < fl.p) (half : Base) (tor2 isoD : Deg11) (q : TwistPoint) :
    BelowPoint fl.p (isoDualPoint fl half tor2 isoD q) := by
  unfold isoDualPoint
  split
  · exact belowPoint_infAffine hp
  dsimp only
  split
  · exact belowPoint_infAffine hp
  · exact ⟨below11_add _ hp.pos _ _, below11_scale _ hp.pos _ _, below11_one _ hp⟩

/-- Every coefficient of a line value is reduced, whatever the record and the base point hold. -/
theorem lineValue_below (hp : 1 < fl.p) (tw : Twist) (r : LineRecord) (g : BasePoint) :
    Gives (lineValue fl tw r g) (Below22 fl.p) := by
  refine .ite (.raise _ _) (.pure ?_)
  cases tw with
  | dType => exact ⟨below11_scale _ hp.pos _ _, below11_sub _ hp.pos _ _⟩
  | mType => exact ⟨below11_sub _ hp.pos _ _, below11_mnr fl hp.pos (below11_scale _ hp.pos _ _)⟩

end Curve

/-! ### Results of the Miller loops in range

Only the accumulator `f` has to be followed: a line value is in range at every point. -/

section Miller

variable {env : MillerEnv} {d : MillerData} (hp : 1 < env.fl.p)
include hp

theorem lineAt_below (lc : Option LineRecord) (g : BasePoint) :
    Gives (lineAt env lc g) (Below22 env.fl.p) := by
  cases lc with
  | none => exact .raise _ _
  | some r => exact lineValue_below hp _ r g

theorem accumulate_below (first : Bool) (f : Deg22) {l : Deg22} (hl : Below22 env.fl.p l) :
    Below22 env.fl.p (accumulate env first f l) := by
  unfold accumulate
  split
  · exact hl
  · exact below22_mul hp _ _

theorem phaseDbl_below (i : Nat) (first : Bool) (d : MillerData) :
    Gives (phaseDbl env i first d) fun d' => Below22 env.fl.p d'.f :=
  .inPhase <| .seq fun _ => (lineAt_below hp _ _).bind fun _ hl =>
    .pure (accumulate_below hp _ _ hl)

theorem addStep_below (d : MillerData) (pt : TwistPoint) :
    Gives (addStep env d pt) fun d' => Below22 env.fl.p d'.f :=
  .seq fun _ => .seq fun _ => .pure (below22_mul hp _ _)

theorem phaseAdd_below (i : Nat) (digit : Digit) (hd : Below22 env.fl.p d.f) :
    Gives (phaseAdd env i digit d) fun d' => Below22 env.fl.p d'.f := by
  unfold phaseAdd
  split
  · exact .pure hd
  · exact .inPhase (addStep_below hp d _)

theorem millerWalk_below (digits : List Digit) (n : Nat) (first : Bool)
    (hd : Below22 env.fl.p d.f) :
    Gives (millerWalk env digits n first d) fun d' => Below22 env.fl.p d'.f := by
  induction n generalizing d first with
  | zero => exact .pure hd
  | succ i ih =>
    exact (phaseDbl_below hp i first d).bind fun _ h1 =>
      (phaseAdd_below hp i _ h1).bind fun _ h2 => ih false h2

theorem phaseFix_below (seedfix : Bool) (hd : Below22 env.fl.p d.f) :
    Below22 env.fl.p (phaseFix env seedfix d).f := by
  unfold phaseFix
  split
  · exact below22_conj hp hd
  · exact hd

theorem phasePost_below (phase : Phase) (st : PostStep) (hd : Below22 env.fl.p d.f) :
    Gives (phasePost env phase st d) fun d' => Below22 env.fl.p d'.f := by
  unfold phasePost
  split
  · exact .pure hd
  · exact .inPhase (addStep_below hp d _)

theorem millerLoop_below (digits : List Digit) (seedfix : Bool) (post : PostStep × PostStep)
    (q : TwistPoint) (g : BasePoint) :
    Gives (millerLoop env digits seedfix post q g) (Below22 env.fl.p) :=
  (millerWalk_below hp digits _ true (below22_one hp)).bind fun _ h1 =>
    (phasePost_below hp _ _ (phaseFix_below hp seedfix h1)).bind fun _ h2 =>
      (phasePost_below hp _ _ h2).bind fun _ h3 => .pure h3

end Miller

/-- The value of the hook `Combine` is reduced, whatever the loop before it gave. -/
theorem millerLoop2_below {c : Config} (hp : 1 < c.p) (env : MillerEnv) (digits : List Digit)
    (tor2 isoT : Deg11) (rg : RegG) (q : TwistPoint) (g : BasePoint) :
    Gives (millerLoop2 c env digits tor2 isoT rg q g) (Below22 c.p) :=
  .seq fun _ => .seq fun _ => .seq fun _ => .seq fun _ => .pure (below22_norm hp _)

/-! ### Words of an image -/

section Images

variable {p n : Nat} {ws : List Nat}

theorem checkWords_ok_iff {ok : Nat → Bool} {a : Nat} {u : Unit} :
    checkWords ok a ws = .ok u ↔ ∀ v ∈ ws, ok v = true := by
  induction ws generalizing a with
  | nil => simp [checkWords]
  | cons v vs ih =>
    rw [checkWords, List.forall_mem_cons]
    split
    · next hv => simp [ih, hv]
    · next hv => simp [hv, badWord, raise_ne_ok]

theorem checkImage_ok_iff {slot : Nat} {ok : Nat → Bool} {k : Nat} {u : Unit} :
    checkImage slot ok k ws = .ok u ↔ ∀ v ∈ ws, ok v = true := by
  induction ws generalizing k with
  | nil => simp [checkImage]
  | cons v vs ih =>
    rw [checkImage, List.forall_mem_cons]
    split
    · next hv => simp [ih, hv]
    · next hv => simp [hv, paramFault, raise_ne_ok]

/-- Words that pass the check of a load are base-field values. -/
theorem checkWords_isBase (c : Config) (a : Nat) (ws : List Nat) :
    Gives (checkWords (isBase c) a ws) fun _ => ∀ v ∈ ws, v < c.p :=
  fun _ h v hv => of_decide_eq_true (checkWords_ok_iff.mp h v hv)

/-- Words that pass the check of an element slot are base-field values. -/
theorem checkImage_isBase (c : Config) (slot k : Nat) (ws : List Nat) :
    Gives (checkImage slot (fun v => decide (v < c.p)) k ws) fun _ => ∀ v ∈ ws, v < c.p :=
  fun _ h v hv => of_decide_eq_true (checkImage_ok_iff.mp h v hv)

theorem word_lt (hp : 1 < p) (hws : ∀ v ∈ ws.take n, v < p) {k : Nat} (hk : k < n) :
    word ws k < p := by
  unfold word
  cases h : ws[k]? with
  | none => exact hp.pos
  | some v => exact hws v (List.mem_of_getElem? (by rw [List.getElem?_take_of_lt hk, h]))

theorem below11_deg11At (hp : 1 < p) (hws : ∀ v ∈ ws.take n, v < p) {off : Nat}
    (hoff : off + 11 ≤ n) : Below11 p (deg11At ws off) := fun i hi => by
  rw [deg11At, Vector.getElem_ofFn]
  exact word_lt hp hws (by dsimp only; omega)

/-- A `Deg11` of a wholly checked image is in range, wherever in the image it begins. -/
theorem below11_deg11At_all (hp : 1 < p) (hws : ∀ v ∈ ws, v < p) (off : Nat) :
    Below11 p (deg11At ws off) :=
  below11_deg11At hp (fun v hv => hws v (List.mem_of_mem_take hv)) le_rfl

theorem twistPointAt_below (hp : 1 < p) (hws : ∀ v ∈ ws.take 33, v < p) :
    BelowPoint p (twistPointAt ws) :=
  ⟨below11_deg11At hp hws (by decide), below11_deg11At hp hws (by decide),
    below11_deg11At hp hws (by decide)⟩

theorem basePointAt_below (hp : 1 < p) (hws : ∀ v ∈ ws.take 2, v < p) :
    BelowBase p (basePointAt ws) :=
  ⟨word_lt hp hws (by decide), word_lt hp hws (by decide)⟩

theorem loadWord_ok (c : Config) (s : State) (slot a : Nat) (ok : Nat → Bool) :
    Gives (loadWord c s slot a ok) fun v => ok v = true := by
  intro v h
  simp only [loadWord, bind_ok_iff, pure_eq_ok, Except.ok.injEq, checkImage_ok_iff,
    State.memRead_ok_iff] at h
  obtain ⟨ws, ⟨-, hlen, -⟩, -, hok, rfl⟩ := h
  obtain ⟨w, rfl⟩ := List.length_eq_one_iff.mp hlen
  exact hok w (List.mem_singleton_self w)

theorem loadElement_below {c : Config} (hp : 1 < c.p) (s : State) (slot a : Nat) :
    Gives (loadElement c s slot a) (Below11 c.p) :=
  .seq fun ws => (checkImage_isBase c slot 0 ws).bind fun _ hws =>
    .pure (below11_deg11At_all hp hws 0)

theorem loadGen_below {c : Config} (hp : 1 < c.p) (s : State) (a : Nat) :
    Gives (loadGen c s a) fun v => Below11 c.p v.1 ∧ Below11 c.p v.2 :=
  .seq fun ws => (checkImage_isBase c 4 0 ws).bind fun _ hws =>
    .pure ⟨below11_deg11At_all hp hws 0, below11_deg11At_all hp hws 11⟩

theorem twistPointWords_lt (hp : 1 < p) {q : TwistPoint} (hq : BelowPoint p q) :
    ∀ v ∈ twistPointWords q, v < p := by
  obtain ⟨hx, hy, hz⟩ := hq
  simp only [twistPointWords, List.mem_append, List.mem_singleton]
  rintro v (hv | hv | hv | rfl)
  · exact hx.toList_lt hv
  · exact hy.toList_lt hv
  · exact hz.toList_lt hv
  · cases q.tag with
    | affine => exact hp.pos
    | projective => exact hp

theorem basePointWords_lt (hp : 1 < p) {g : BasePoint} (hg : BelowBase p g) :
    ∀ v ∈ basePointWords g, v < p := by
  simp only [basePointWords, List.mem_cons, List.not_mem_nil, or_false]
  rintro v (rfl | rfl | rfl)
  · exact hg.1
  · exact hg.2
  · exact (Bool.toNat_le _).trans_lt hp

end Images

/-! ### Operands of a state in range -/

section Reads

variable {c : Config} {s : State} (h : s.InRange c)
include h

theorem State.InRange.readE (r : RegE) : Gives (s.readE r) (Below11 c.p) :=
  fun v hv => h.e r v (State.readE_ok_iff.mp hv)

theorem State.InRange.readF (r : RegF) : Gives (s.readF r) (Below22 c.p) :=
  fun v hv => h.f r v (State.readF_ok_iff.mp hv)

theorem State.InRange.readT (r : RegT) : Gives (s.readT r) (BelowPoint c.p) :=
  fun v hv => h.t r v (State.readT_ok_iff.mp hv)

theorem State.InRange.readG (r : RegG) : Gives (s.readG r) (BelowBase c.p) :=
  fun v hv => h.g r v (State.readG_ok_iff.mp hv)

theorem State.InRange.readPoint (r : RegT) : Gives (s.readPoint r) (BelowPoint c.p) :=
  fun v hv => h.t r v (State.readPoint_ok_iff.mp hv).1

theorem State.InRange.readGen : Gives s.readGen fun v => Below11 c.p v.1 ∧ Below11 c.p v.2 :=
  fun v hv => h.gen v (readItem_ok_iff.mp hv)

end Reads

/-! ### Updates that keep a state in range -/

/-- A register file in which one register is written with a good value. -/
theorem forall_getElem_set {α : Type} {n : Nat} {xs : Vector (Option α) n} {good : α → Prop}
    (h : ∀ (i : Fin n) (w : α), xs[i.val] = some w → good w) (r : Fin n) {v : α} (hv : good v) :
    ∀ (i : Fin n) (w : α), (xs.set r.val (some v) r.isLt)[i.val] = some w → good w := by
  intro i w hw
  rw [Vector.getElem_set] at hw
  split at hw
  · exact Option.some.inj hw ▸ hv
  · exact h i w hw

/-- A command leaves every value in range. -/
def KeepsInRange (c : Config) (o : Host.Outcome State Fault Refusal) : Prop :=
  ∀ t, o = .next t → t.InRange c

section Updates

variable {c : Config} {s : State} (h : s.InRange c)
include h

theorem State.InRange.writeE (r : RegE) {v : Deg11} (hv : Below11 c.p v) :
    (s.writeE r v).InRange c :=
  { h with e := forall_getElem_set h.e r hv }

theorem State.InRange.writeU (r : RegU) {v : Unred11} (hv : Below11 c.p v) :
    (s.writeU r v).InRange c :=
  { h with u := forall_getElem_set h.u r hv }

theorem State.InRange.writeF (r : RegF) {v : Deg22} (hv : Below22 c.p v) :
    (s.writeF r v).InRange c :=
  { h with f := forall_getElem_set h.f r hv }

theorem State.InRange.writeT (r : RegT) {v : TwistPoint} (hv : BelowPoint c.p v) :
    (s.writeT r v).InRange c :=
  { h with t := forall_getElem_set h.t r hv }

theorem State.InRange.writeG (r : RegG) {v : BasePoint} (hv : BelowBase c.p v) :
    (s.writeG r v).InRange c :=
  { h with g := forall_getElem_set h.g r hv }

theorem State.InRange.writeLC {l : Option LineRecord} (hl : ∀ r, l = some r → BelowRecord c.p r) :
    (s.writeLC l).InRange c :=
  { h with lc := hl }

theorem State.InRange.writeEq (b : Bool) : (s.writeEq b).InRange c := { h with }

theorem State.InRange.writeOnc (b : Bool) : (s.writeOnc b).InRange c := { h with }

theorem State.InRange.takeFree : s.takeFree.InRange c := { h with }

theorem State.InRange.writeMiller (r : RegF) (variant : Bool) {v : Deg22} (hv : Below22 c.p v) :
    (s.writeMiller r variant v).InRange c :=
  { h.writeF r hv with lc := fun _ hl => nomatch hl }

theorem State.InRange.enterFault (r : Raise) : (s.enterFault r).InRange c := { h with }

theorem State.InRange.advance : (s.advance c).InRange c := by
  by_cases htop : s.pc = 0xFFFF#16
  · rw [State.advance_top c s htop]
    exact { h with }
  · rw [State.advance_succ c s htop]
    exact { h with }

/-- A store of words that fit keeps every word of `DM` below `2^W`. -/
theorem State.InRange.memWrite (a : Nat) {vs : List Nat} (hvs : ∀ v ∈ vs, v < 2 ^ c.w) :
    Gives (s.memWrite c a vs) (State.InRange c) := by
  intro t ht
  obtain ⟨-, rfl⟩ := State.memWrite_ok_iff.mp ht
  refine { h with dm := fun b v hv => ?_ }
  rw [Memory.read_writeAll] at hv
  split at hv
  · exact Option.some.inj hv ▸ hvs _ (List.getElem_mem _)
  · exact h.dm b v hv

/-- A store of base-field values. -/
theorem State.InRange.memWriteBelow (hp : 1 < c.p) (a : Nat) {vs : List Nat}
    (hvs : ∀ v ∈ vs, v < c.p) : Gives (s.memWrite c a vs) (State.InRange c) :=
  h.memWrite a fun v hv => (hvs v hv).trans_le (modulus_le_word hp)

/-- Loading any slot leaves the parameter store in range. -/
theorem State.InRange.loadSlot (hp : 1 < c.p) (a slot : Nat) {load : Except Raise ParamStore}
    (hload : loadSlot c s a slot = some load) :
    Gives load fun prm => State.InRange c { s with prm := prm } := by
  unfold Machine.loadSlot at hload
  split at hload <;> cases hload
  · refine (loadWord_ok c s _ _ _).bind fun v hv => .pure { h with c11 := fun _ hw => ?_ }
    cases hw
    simpa [Nat.pos_iff_ne_zero] using hv
  · exact .seq fun _ => .pure { h with }
  · exact (loadElement_below hp s _ _).bind fun v hv =>
      .pure { h with a := fun _ hw => Option.some.inj hw ▸ hv }
  · exact (loadElement_below hp s _ _).bind fun v hv =>
      .pure { h with b := fun _ hw => Option.some.inj hw ▸ hv }
  · exact (loadGen_below hp s _).bind fun v hv =>
      .pure { h with gen := fun _ hw => Option.some.inj hw ▸ hv }
  · exact (loadElement_below hp s _ _).bind fun v hv =>
      .pure { h with tor2 := fun _ hw => Option.some.inj hw ▸ hv }
  · exact (loadElement_below hp s _ _).bind fun v hv =>
      .pure { h with isoT := fun _ hw => Option.some.inj hw ▸ hv }
  · exact (loadElement_below hp s _ _).bind fun v hv =>
      .pure { h with isoD := fun _ hw => Option.some.inj hw ▸ hv }
  · exact .seq fun _ => .pure { h with }
  · exact .seq fun _ => .pure { h with }
  · exact .seq fun _ => .pure { h with }
  · exact .seq fun _ => .pure { h with }

/-- A command completes in a state in range, or its fault entry leaves the state it began in. -/
theorem State.InRange.finish {x : Except Raise State} (hx : Gives x (State.InRange c)) :
    KeepsInRange c (finish c s x) := by
  intro t ht
  obtain ⟨u, hu, rfl⟩ | ⟨r, -, rfl⟩ := (finish_next c s t x).mp ht
  · exact (hx u hu).advance
  · exact h.enterFault r

end Updates

/-! ### Operands of the group law -/

/-- The field a command computes in is that of `P`. -/
theorem Gives.readField {α : Type} {c : Config} {s : State} {f : Field → Except Raise α}
    {good : α → Prop} (hf : ∀ c11, Gives (f ⟨c.p, c11⟩) good) :
    Gives (s.readField c >>= f) good := by
  intro a ha
  obtain ⟨fl, hfl, hb⟩ := bind_ok_iff.mp ha
  obtain ⟨c11, -, rfl⟩ := State.readField_ok_iff.mp hfl
  exact hf c11 a hb

section GroupLaw

variable {c : Config} {s : State} (h : s.InRange c)
include h

theorem State.InRange.doubleOperand (rs1 : RegT) (mode : Mode) :
    Gives (s.doubleOperand rs1 mode) fun op => BelowPoint c.p op.1 :=
  (h.readT rs1).bind fun _ hq => .seq fun _ => .seq fun _ => .seq fun _ => .pure hq

theorem State.InRange.addOperands (rs1 rs2 : RegT) (mode : Mode) :
    Gives (s.addOperands rs1 rs2 mode) fun op => BelowPoint c.p op.1 ∧ BelowPoint c.p op.2.1 :=
  (h.readT rs1).bind fun _ hq => (h.readT rs2).bind fun _ hr =>
    .seq fun _ => .seq fun _ => .seq fun _ => .seq fun _ => .seq fun _ => .pure ⟨hq, hr⟩

theorem State.InRange.doubling (hp : 1 < c.p) (rs1 : RegT) (mode : Mode) :
    Gives (s.doubling c rs1 mode) (BelowStep c.p) :=
  (h.doubleOperand rs1 mode).bind fun _ hq => .readField fun _ => doublePoint_below hp _ mode hq

theorem State.InRange.addition (hp : 1 < c.p) (rs1 rs2 : RegT) (mode : Mode) :
    Gives (s.addition c rs1 rs2 mode) (BelowStep c.p) :=
  (h.addOperands rs1 rs2 mode).bind fun _ hqr =>
    .readField fun _ => addPoints_below hp _ mode hqr.1 hqr.2

/-- `T.SDBL` and `T.SADD` write the point and put its record into the latch. -/
theorem State.InRange.writeStep (rd : RegT) {r : TwistPoint × Option LineRecord}
    (hr : BelowStep c.p r) : ((s.writeT rd r.1).writeLC r.2).InRange c :=
  (h.writeT rd hr.1).writeLC hr.2

end GroupLaw

/-! ### Commands that move values or write flags -/

section Moves

variable {c : Config} {s : State} (h : s.InRange c)
include h

theorem execNop_inRange : KeepsInRange c (execNop s c) :=
  h.finish (.pure h)

theorem execHalt_inRange : KeepsInRange c (execHalt s) := by
  rintro _ ⟨⟩
  exact { h with }

theorem execECpy_inRange (rd rs1 : RegE) : KeepsInRange c (execECpy rd rs1 s c) :=
  h.finish <| .seq fun _ => (h.readE rs1).bind fun _ hx => .pure (h.writeE rd hx)

theorem execECmp_inRange (rs1 rs2 : RegE) : KeepsInRange c (execECmp rs1 rs2 s c) :=
  h.finish <| .seq fun _ => .seq fun _ => .seq fun _ => .pure (h.writeEq _)

theorem execFCpy_inRange (rd rs1 : RegF) : KeepsInRange c (execFCpy rd rs1 s c) :=
  h.finish <| .seq fun _ => (h.readF rs1).bind fun _ ha => .pure (h.writeF rd ha)

theorem execFPack_inRange (rd : RegF) (rs1 rs2 : RegE) : KeepsInRange c (execFPack rd rs1 rs2 s c) :=
  h.finish <| .seq fun _ => (h.readE rs1).bind fun _ hx =>
    (h.readE rs2).bind fun _ hy => .pure (h.writeF rd ⟨hx, hy⟩)

theorem execFGetr_inRange (rd : RegE) (rs1 : RegF) : KeepsInRange c (execFGetr rd rs1 s c) :=
  h.finish <| .seq fun _ => (h.readF rs1).bind fun _ ha => .pure (h.writeE rd ha.1)

theorem execFGeti_inRange (rd : RegE) (rs1 : RegF) : KeepsInRange c (execFGeti rd rs1 s c) :=
  h.finish <| .seq fun _ => (h.readF rs1).bind fun _ ha => .pure (h.writeE rd ha.2)

theorem execFCmp_inRange (rs1 rs2 : RegF) : KeepsInRange c (execFCmp rs1 rs2 s c) :=
  h.finish <| .seq fun _ => .seq fun _ => .seq fun _ => .pure (h.writeEq _)

theorem execTCpy_inRange (rd rs1 : RegT) : KeepsInRange c (execTCpy rd rs1 s c) :=
  h.finish <| .seq fun _ => (h.readPoint rs1).bind fun _ hq => .pure (h.writeT rd hq)

theorem execTMkp_inRange (rd : RegT) (rs1 rs2 rs3 : RegE) : KeepsInRange c (execTMkp rd rs1 rs2 rs3 s c) :=
  h.finish <| .seq fun _ => (h.readE rs1).bind fun _ hx =>
    (h.readE rs2).bind fun _ hy => (h.readE rs3).bind fun _ hz => .pure (h.writeT rd ⟨hx, hy, hz⟩)

theorem execTGetx_inRange (rd : RegE) (rs1 : RegT) : KeepsInRange c (execTGetx rd rs1 s c) :=
  h.finish <| .seq fun _ => (h.readPoint rs1).bind fun _ hq => .pure (h.writeE rd hq.1)

theorem execTGety_inRange (rd : RegE) (rs1 : RegT) : KeepsInRange c (execTGety rd rs1 s c) :=
  h.finish <| .seq fun _ => (h.readPoint rs1).bind fun _ hq => .pure (h.writeE rd hq.2.1)

theorem execTGetz_inRange (rd : RegE) (rs1 : RegT) : KeepsInRange c (execTGetz rd rs1 s c) :=
  h.finish <| .seq fun _ => (h.readPoint rs1).bind fun _ hq => .pure (h.writeE rd hq.2.2)

theorem execTCmp_inRange (rs1 rs2 : RegT) : KeepsInRange c (execTCmp rs1 rs2 s c) :=
  h.finish <| .seq fun _ => .seq fun _ => .seq fun _ => .seq fun _ => .seq fun _ => .seq fun _ =>
    .pure (h.writeEq _)

theorem execTOnc_inRange (rs1 : RegT) : KeepsInRange c (execTOnc rs1 s c) :=
  h.finish <| .seq fun _ => .seq fun _ => .seq fun _ => .seq fun _ => .seq fun _ => .seq fun _ =>
    .pure (h.writeOnc _)

end Moves

/-! ### System commands, loads and stores -/

section Commands

variable {c : Config} {s : State} (h : s.InRange c) (hp : 1 < c.p)
include h hp

theorem execFinit_inRange : KeepsInRange c (execFinit s c) :=
  h.finish <| .seq fun _ => .seq fun v => .ite
    (.pure { h with consts := fun _ hk => Lifecycle.ready.inj hk ▸ constantsOf_below hp v })
    (.raise _ _)

theorem execLdp_inRange (slot : SlotField) (addr : Addr) :
    KeepsInRange c (execLdp slot addr s c) := by
  unfold execLdp
  split
  · exact h.finish fun _ ht => nomatch ht
  · next hload => exact h.finish <| .seq fun _ => (h.loadSlot hp _ _ hload).bind fun _ hprm => .pure hprm

theorem execLdE_inRange (r : RegE) (addr : Addr) : KeepsInRange c (execLdE r addr s c) :=
  h.finish <| .seq fun ws => (checkWords_isBase c _ ws).bind fun _ hws =>
    .pure (h.writeE r (below11_deg11At_all hp hws 0))

theorem execStE_inRange (r : RegE) (addr : Addr) : KeepsInRange c (execStE r addr s c) :=
  h.finish <| (h.readE r).bind fun _ hx => h.memWriteBelow hp _ fun _ hv => hx.toList_lt hv

theorem execLdF_inRange (r : RegF) (addr : Addr) : KeepsInRange c (execLdF r addr s c) :=
  h.finish <| .seq fun ws => (checkWords_isBase c _ ws).bind fun _ hws =>
    .pure (h.writeF r ⟨below11_deg11At_all hp hws 0, below11_deg11At_all hp hws 11⟩)

theorem execStF_inRange (r : RegF) (addr : Addr) : KeepsInRange c (execStF r addr s c) :=
  h.finish <| (h.readF r).bind fun _ ha => h.memWriteBelow hp _ fun _ hv =>
    (List.mem_append.mp hv).elim ha.1.toList_lt ha.2.toList_lt

theorem execLdT_inRange (r : RegT) (addr : Addr) : KeepsInRange c (execLdT r addr s c) :=
  h.finish <| .seq fun ws => (checkWords_isBase c _ (ws.take 33)).bind fun _ hws => .seq fun _ =>
    .ite (.pure (h.writeT r (twistPointAt_below hp hws))) (.raise _ _)

theorem execStT_inRange (r : RegT) (addr : Addr) : KeepsInRange c (execStT r addr s c) :=
  h.finish <| (h.readPoint r).bind fun _ hq => h.memWriteBelow hp _ (twistPointWords_lt hp hq)

theorem execLdG_inRange (r : RegG) (addr : Addr) : KeepsInRange c (execLdG r addr s c) :=
  h.finish <| .seq fun ws => (checkWords_isBase c _ (ws.take 2)).bind fun _ hws => .seq fun _ =>
    .pure (h.writeG r (basePointAt_below hp hws))

theorem execStG_inRange (r : RegG) (addr : Addr) : KeepsInRange c (execStG r addr s c) :=
  h.finish <| (h.readG r).bind fun _ hg => h.memWriteBelow hp _ (basePointWords_lt hp hg)

/-! ### Degree-11 tower -/

theorem execEZero_inRange (rd : RegE) : KeepsInRange c (execEZero rd s c) :=
  h.finish <| .seq fun _ => .pure (h.writeE rd (below11_zero _ hp.pos))

theorem execEOne_inRange (rd : RegE) : KeepsInRange c (execEOne rd s c) :=
  h.finish <| .seq fun _ => .pure (h.writeE rd (below11_one _ hp))

theorem execEAdd_inRange (rd rs1 rs2 : RegE) : KeepsInRange c (execEAdd rd rs1 rs2 s c) :=
  h.finish <| .seq fun _ => .seq fun _ => .seq fun _ =>
    .pure (h.writeE rd (below11_add _ hp.pos _ _))

theorem execESub_inRange (rd rs1 rs2 : RegE) : KeepsInRange c (execESub rd rs1 rs2 s c) :=
  h.finish <| .seq fun _ => .seq fun _ => .seq fun _ =>
    .pure (h.writeE rd (below11_sub _ hp.pos _ _))

theorem execENeg_inRange (rd rs1 : RegE) : KeepsInRange c (execENeg rd rs1 s c) :=
  h.finish <| .seq fun _ => .seq fun _ => .pure (h.writeE rd (below11_neg _ hp.pos _))

theorem execEMul_inRange (rd rs1 rs2 : RegE) : KeepsInRange c (execEMul rd rs1 rs2 s c) :=
  h.finish <| .seq fun _ => .seq fun _ => .seq fun _ =>
    .readField fun _ => .pure (h.writeE rd (below11_mul _ hp.pos _ _))

theorem execESqr_inRange (rd rs1 : RegE) : KeepsInRange c (execESqr rd rs1 s c) :=
  h.finish <| .seq fun _ => .seq fun _ => .readField fun _ =>
    .pure (h.writeE rd (below11_mul _ hp.pos _ _))

theorem execEMulu_inRange (rd : RegU) (rs1 rs2 : RegE) : KeepsInRange c (execEMulu rd rs1 rs2 s c) :=
  h.finish <| .seq fun _ => .seq fun _ => .seq fun _ =>
    .readField fun _ => .pure (h.writeU rd (below11_mul _ hp.pos _ _))

theorem execESqru_inRange (rd : RegU) (rs1 : RegE) : KeepsInRange c (execESqru rd rs1 s c) :=
  h.finish <| .seq fun _ => .seq fun _ => .readField fun _ =>
    .pure (h.writeU rd (below11_mul _ hp.pos _ _))

theorem execERed_inRange (rd : RegE) (rs1 : RegU) : KeepsInRange c (execERed rd rs1 s c) :=
  h.finish <| .seq fun _ => .seq fun _ => .pure (h.writeE rd (below11_red _ hp.pos _))

theorem execEMnr_inRange (rd rs1 : RegE) : KeepsInRange c (execEMnr rd rs1 s c) :=
  h.finish <| .seq fun _ => (h.readE rs1).bind fun _ hx => .readField fun _ =>
    .pure (h.writeE rd (below11_mnr _ hp.pos hx))

theorem execEFrb_inRange (rd rs1 : RegE) (exp : Exponent) : KeepsInRange c (execEFrb rd rs1 exp s c) :=
  h.finish <| .seq fun _ => (h.readE rs1).bind fun _ hx =>
    .pure (h.writeE rd (below11_frb _ hp.pos _ hx _))

theorem execEFrb2_inRange (rd rs1 : RegE) (exp : Exponent) : KeepsInRange c (execEFrb2 rd rs1 exp s c) :=
  h.finish <| .seq fun _ => .seq fun _ => .pure (h.writeE rd (below11_frb2 _ hp.pos _ _ _))

theorem execEInv_inRange (rd rs1 : RegE) : KeepsInRange c (execEInv rd rs1 s c) :=
  h.finish <| .seq fun _ => .seq fun _ => .readField fun _ =>
    .ite (.raise _ _) (.pure (h.writeE rd (below11_inv _ hp _)))

/-! ### Degree-22 tower -/

theorem execFOne_inRange (rd : RegF) : KeepsInRange c (execFOne rd s c) :=
  h.finish <| .seq fun _ => .pure (h.writeF rd (below22_one hp))

theorem execFMul_inRange (rd rs1 rs2 : RegF) : KeepsInRange c (execFMul rd rs1 rs2 s c) :=
  h.finish <| .seq fun _ => .seq fun _ => .seq fun _ =>
    .readField fun _ => .pure (h.writeF rd (below22_mul hp _ _))

theorem execFSqr_inRange (rd rs1 : RegF) : KeepsInRange c (execFSqr rd rs1 s c) :=
  h.finish <| .seq fun _ => .seq fun _ => .readField fun _ =>
    .pure (h.writeF rd (below22_sqr hp _))

theorem execFSqrc_inRange (rd rs1 : RegF) : KeepsInRange c (execFSqrc rd rs1 s c) :=
  h.finish <| .seq fun _ => .seq fun _ => .readField fun _ =>
    .pure (h.writeF rd (below22_sqrc hp _ _)).takeFree

theorem execFInvc_inRange (rd rs1 : RegF) : KeepsInRange c (execFInvc rd rs1 s c) :=
  h.finish <| .seq fun _ => (h.readF rs1).bind fun _ ha => .pure (h.writeF rd (below22_conj hp ha))

theorem execFFrb_inRange (rd rs1 : RegF) (exp : Exponent) : KeepsInRange c (execFFrb rd rs1 exp s c) :=
  h.finish <| .seq fun _ => (h.readF rs1).bind fun _ ha =>
    .pure (h.writeF rd (below22_frb hp _ ha _))

/-! ### Twisted curve and isogenies -/

theorem execTInf_inRange (rd : RegT) : KeepsInRange c (execTInf rd s c) :=
  h.finish <| .seq fun _ => .pure (h.writeT rd (belowPoint_infAffine hp))

theorem execTMk_inRange (rd : RegT) (rs1 rs2 : RegE) : KeepsInRange c (execTMk rd rs1 rs2 s c) :=
  h.finish <| .seq fun _ => (h.readE rs1).bind fun _ hx => (h.readE rs2).bind fun _ hy =>
    .pure (h.writeT rd ⟨hx, hy, below11_one _ hp⟩)

theorem execTNeg_inRange (rd rs1 : RegT) : KeepsInRange c (execTNeg rd rs1 s c) :=
  h.finish <| .seq fun _ => (h.readPoint rs1).bind fun _ hq =>
    .pure (h.writeT rd (belowPoint_neg hp hq))

theorem execTDbl_inRange (rd rs1 : RegT) (mode : Mode) : KeepsInRange c (execTDbl rd rs1 mode s c) :=
  h.finish <| .seq fun _ => (h.doubling hp rs1 mode).bind fun _ hr => .pure (h.writeT rd hr.1)

theorem execTAdd_inRange (rd rs1 rs2 : RegT) (mode : Mode) : KeepsInRange c (execTAdd rd rs1 rs2 mode s c) :=
  h.finish <| .seq fun _ => (h.addition hp rs1 rs2 mode).bind fun _ hr => .pure (h.writeT rd hr.1)

theorem execTSdbl_inRange (rd rs1 : RegT) (mode : Mode) : KeepsInRange c (execTSdbl rd rs1 mode s c) :=
  h.finish <| .seq fun _ => (h.doubling hp rs1 mode).bind fun _ hr => .pure (h.writeStep rd hr)

theorem execTSdbl1_inRange (rd rs1 : RegT) (mode : Mode) : KeepsInRange c (execTSdbl1 rd rs1 mode s c) :=
  execTSdbl_inRange h hp rd rs1 mode

theorem execTSadd_inRange (rd rs1 rs2 : RegT) (mode : Mode) :
    KeepsInRange c (execTSadd rd rs1 rs2 mode s c) :=
  h.finish <| .seq fun _ => (h.addition hp rs1 rs2 mode).bind fun _ hr => .pure (h.writeStep rd hr)

theorem execTFrb_inRange (rd rs1 : RegT) (exp : Exponent) : KeepsInRange c (execTFrb rd rs1 exp s c) :=
  h.finish <| .seq fun _ => (h.readT rs1).bind fun _ hq => .seq fun _ => .seq fun _ =>
    .readField fun _ => .pure (h.writeT rd (belowPoint_frb hp _ _ hq _))

theorem execTNorm_inRange (rd rs1 : RegT) (inverted : Bool) :
    KeepsInRange c (execTNorm rd rs1 inverted s c) :=
  h.finish <| .seq fun _ => (h.readPoint rs1).bind fun _ hq => .readField fun _ =>
    .pure (h.writeT rd (belowPoint_norm hp hq _))

theorem execTGen_inRange (rd : RegT) : KeepsInRange c (execTGen rd s c) :=
  h.finish <| .seq fun _ => h.readGen.bind fun _ hg =>
    .pure (h.writeT rd ⟨hg.1, hg.2, below11_one _ hp⟩)

theorem execTIso_inRange (rd rs1 : RegT) : KeepsInRange c (execTIso rd rs1 s c) :=
  h.finish <| .seq fun _ => .seq fun _ => .seq fun _ => .seq fun _ => .seq fun _ => .readField fun _ =>
    .pure (h.writeT rd (belowPoint_iso hp _ _ _))

theorem execTIsod_inRange (rd rs1 : RegT) : KeepsInRange c (execTIsod rd rs1 s c) :=
  h.finish <| .seq fun _ => .seq fun _ => .seq fun _ => .seq fun _ => .seq fun _ => .readField fun _ =>
    .pure (h.writeT rd (belowPoint_isoDual hp _ _ _ _))

/-! ### Pairing engine -/

theorem execLine_inRange (rd : RegF) (rs1 : RegG) : KeepsInRange c (execLine rd rs1 s c) := by
  refine h.finish <| .seq fun _ => .seq fun _ => .seq fun _ => .ite (.raise _ _) ?_
  cases s.lc with
  | none => exact .raise _ _
  | some r =>
    exact .readField fun _ => (lineValue_below hp _ r _).bind fun _ hv => .pure (h.writeF rd hv)

theorem execMiller_inRange (rd : RegF) (rs1 : RegT) (rs2 : RegG) (mode : Mode) :
    KeepsInRange c (execMiller rd rs1 rs2 mode s c) :=
  h.finish <| .seq fun _ => .seq fun q => .seq fun g => .seq fun _ => .seq fun _ => .seq fun _ =>
    .seq fun _ => .seq fun _ => .seq fun _ => .ite (.pure (h.writeMiller rd false (below22_one hp))) <|
      .readField fun _ => (millerLoop_below hp _ _ _ q g).bind fun _ hv =>
        .pure (h.writeMiller rd false hv)

theorem execMiller2_inRange (rd : RegF) (rs1 : RegT) (rs2 : RegG) (mode : Mode) :
    KeepsInRange c (execMiller2 rd rs1 rs2 mode s c) :=
  h.finish <| .seq fun _ => .seq fun q => .seq fun g => .seq fun _ => .seq fun _ => .seq fun _ =>
    .seq fun _ => .seq fun _ => .seq fun _ => .ite (.pure (h.writeMiller rd true (below22_one hp))) <|
      .readField fun _ => (millerLoop2_below hp _ _ _ _ rs2 q g).bind fun _ hv =>
        .pure (h.writeMiller rd true hv)

end Commands

/-! ### A step -/

/-- Every command of the machine leaves every value in range. -/
theorem exec_inRange {s : State} (h : s.InRange Config.machine) (i : Instr) :
    KeepsInRange Config.machine (exec i s) := by
  have hp : 1 < Config.machine.p := Config.prime_prime.one_lt
  cases i with
  | nop => exact execNop_inRange h
  | halt => exact execHalt_inRange h
  | finit => exact execFinit_inRange h hp
  | ldp slot addr => exact execLdp_inRange h hp slot addr
  | ldE r addr => exact execLdE_inRange h hp r addr
  | stE r addr => exact execStE_inRange h hp r addr
  | ldF r addr => exact execLdF_inRange h hp r addr
  | stF r addr => exact execStF_inRange h hp r addr
  | ldT r addr => exact execLdT_inRange h hp r addr
  | stT r addr => exact execStT_inRange h hp r addr
  | ldG r addr => exact execLdG_inRange h hp r addr
  | stG r addr => exact execStG_inRange h hp r addr
  | eZero rd => exact execEZero_inRange h hp rd
  | eOne rd => exact execEOne_inRange h hp rd
  | eCpy rd rs1 => exact execECpy_inRange h rd rs1
  | eAdd rd rs1 rs2 => exact execEAdd_inRange h hp rd rs1 rs2
  | eSub rd rs1 rs2 => exact execESub_inRange h hp rd rs1 rs2
  | eNeg rd rs1 => exact execENeg_inRange h hp rd rs1
  | eCmp rs1 rs2 => exact execECmp_inRange h rs1 rs2
  | eMul rd rs1 rs2 => exact execEMul_inRange h hp rd rs1 rs2
  | eSqr rd rs1 => exact execESqr_inRange h hp rd rs1
  | eMulu rd rs1 rs2 => exact execEMulu_inRange h hp rd rs1 rs2
  | eSqru rd rs1 => exact execESqru_inRange h hp rd rs1
  | eRed rd rs1 => exact execERed_inRange h hp rd rs1
  | eMnr rd rs1 => exact execEMnr_inRange h hp rd rs1
  | eFrb rd rs1 exp => exact execEFrb_inRange h hp rd rs1 exp
  | eFrb2 rd rs1 exp => exact execEFrb2_inRange h hp rd rs1 exp
  | eInv rd rs1 => exact execEInv_inRange h hp rd rs1
  | fOne rd => exact execFOne_inRange h hp rd
  | fCpy rd rs1 => exact execFCpy_inRange h rd rs1
  | fPack rd rs1 rs2 => exact execFPack_inRange h rd rs1 rs2
  | fGetr rd rs1 => exact execFGetr_inRange h rd rs1
  | fGeti rd rs1 => exact execFGeti_inRange h rd rs1
  | fCmp rs1 rs2 => exact execFCmp_inRange h rs1 rs2
  | fMul rd rs1 rs2 => exact execFMul_inRange h hp rd rs1 rs2
  | fSqr rd rs1 => exact execFSqr_inRange h hp rd rs1
  | fSqrc rd rs1 => exact execFSqrc_inRange h hp rd rs1
  | fInvc rd rs1 => exact execFInvc_inRange h hp rd rs1
  | fFrb rd rs1 exp => exact execFFrb_inRange h hp rd rs1 exp
  | tInf rd => exact execTInf_inRange h hp rd
  | tCpy rd rs1 => exact execTCpy_inRange h rd rs1
  | tMk rd rs1 rs2 => exact execTMk_inRange h hp rd rs1 rs2
  | tMkp rd rs1 rs2 rs3 => exact execTMkp_inRange h rd rs1 rs2 rs3
  | tGetx rd rs1 => exact execTGetx_inRange h rd rs1
  | tGety rd rs1 => exact execTGety_inRange h rd rs1
  | tGetz rd rs1 => exact execTGetz_inRange h rd rs1
  | tNeg rd rs1 => exact execTNeg_inRange h hp rd rs1
  | tDbl rd rs1 mode => exact execTDbl_inRange h hp rd rs1 mode
  | tAdd rd rs1 rs2 mode => exact execTAdd_inRange h hp rd rs1 rs2 mode
  | tSdbl rd rs1 mode => exact execTSdbl_inRange h hp rd rs1 mode
  | tSdbl1 rd rs1 mode => exact execTSdbl1_inRange h hp rd rs1 mode
  | tSadd rd rs1 rs2 mode => exact execTSadd_inRange h hp rd rs1 rs2 mode
  | tFrb rd rs1 exp => exact execTFrb_inRange h hp rd rs1 exp
  | tNorm rd rs1 inverted => exact execTNorm_inRange h hp rd rs1 inverted
  | tCmp rs1 rs2 => exact execTCmp_inRange h rs1 rs2
  | tOnc rs1 => exact execTOnc_inRange h rs1
  | tGen rd => exact execTGen_inRange h hp rd
  | tIso rd rs1 => exact execTIso_inRange h hp rd rs1
  | tIsod rd rs1 => exact execTIsod_inRange h hp rd rs1
  | line rd rs1 => exact execLine_inRange h hp rd rs1
  | miller rd rs1 rs2 mode => exact execMiller_inRange h hp rd rs1 rs2 mode
  | miller2 rd rs1 rs2 mode => exact execMiller2_inRange h hp rd rs1 rs2 mode

/-- A step fetches and executes one command, takes a fetch or decode fault, or leaves a block that does
not run as it is. -/
theorem step_inRange {s : State} (h : s.InRange Config.machine) :
    KeepsInRange Config.machine (step s) := by
  have stays : ∀ {u : State}, u.InRange Config.machine → KeepsInRange Config.machine (.next u) := by
    rintro u hu _ ⟨⟩
    exact hu
  unfold step
  split
  · split
    · exact stays (h.enterFault _)
    · split
      · exact stays (h.enterFault _)
      · exact exec_inRange h _
  · exact stays h

/-- Settles O51: a step that executes a command is `exec_inRange`, one lemma a command; every other step
changes no value. -/
theorem stepKeepsInRange : Obligations.StepKeepsInRange :=
  fun _ t h ht => step_inRange h t ht

end Sys2Proof.Machine
end

section
/-! PROOFS. What a command can do, said once (`exec_cases`, `step_cases`): it completes with one of the
effects of `Effect`, or it is `HALT`, or it enters a fault. The invariants on tags, parameters and the
run state (O52, O53, O54) and the frames (O7, O13, O14) are read off these. -/

namespace Sys2Proof.Machine

open Sys2Proof

/-! ### Faults outside a Miller loop -/

/-- A fault `x` raises belongs to no step of a Miller loop. -/
def Plain {α : Type} (x : Except Raise α) : Prop := ∀ r, x = .error r → r.step = none

section Plain

variable {α β : Type} {x y : Except Raise α} {f : α → Except Raise β} {c : Config} {s : State}

@[simp] theorem plain_ok (a : α) : Plain (.ok a : Except Raise α) := fun _ h => nomatch h

@[simp] theorem plain_raise (cause : Cause) (einfo : BitVec 32) :
    Plain (raise cause einfo : Except Raise α) := by
  rintro _ ⟨⟩
  rfl

/-- A sequence faults where its first part does, or its second after what the first gives. -/
@[simp] theorem plain_bind_iff :
    Plain (x >>= f) ↔ Plain x ∧ ∀ a, x = .ok a → Plain (f a) := by
  simp only [Plain, bind_error_iff]
  exact ⟨fun h => ⟨fun r hr => h r (.inl hr), fun a ha r hr => h r (.inr ⟨a, ha, hr⟩)⟩,
    fun ⟨hx, hf⟩ r hr => hr.elim (hx r) fun ⟨a, ha, h⟩ => hf a ha r h⟩

theorem Plain.bind (hx : Plain x) (hf : ∀ a, Plain (f a)) : Plain (x >>= f) :=
  plain_bind_iff.mpr ⟨hx, fun a _ => hf a⟩

@[simp] theorem plain_ite_iff {b : Prop} [Decidable b] :
    Plain (if b then x else y) ↔ (b → Plain x) ∧ (¬b → Plain y) := by
  split <;> simp [*]

@[simp] theorem plain_readItem (loc : BitVec 32) (o : Option α) : Plain (readItem loc o) := by
  cases o <;> simp

/-! Operands and admission. -/

@[simp] theorem plain_needReady : Plain s.needReady := by
  unfold State.needReady
  cases s.lifecycle <;> simp

@[simp] theorem plain_needConfig : Plain s.needConfig := by
  unfold State.needConfig
  cases s.lifecycle <;> simp

@[simp] theorem plain_readE (r : RegE) : Plain (s.readE r) := plain_readItem _ _
@[simp] theorem plain_readU (r : RegU) : Plain (s.readU r) := plain_readItem _ _
@[simp] theorem plain_readF (r : RegF) : Plain (s.readF r) := plain_readItem _ _
@[simp] theorem plain_readT (r : RegT) : Plain (s.readT r) := plain_readItem _ _
@[simp] theorem plain_readG (r : RegG) : Plain (s.readG r) := plain_readItem _ _
@[simp] theorem plain_readC11 : Plain s.readC11 := plain_readItem _ _
@[simp] theorem plain_readTwist : Plain s.readTwist := plain_readItem _ _
@[simp] theorem plain_readA : Plain s.readA := plain_readItem _ _
@[simp] theorem plain_readB : Plain s.readB := plain_readItem _ _
@[simp] theorem plain_readGen : Plain s.readGen := plain_readItem _ _
@[simp] theorem plain_readTor2 : Plain s.readTor2 := plain_readItem _ _
@[simp] theorem plain_readIsoT : Plain s.readIsoT := plain_readItem _ _
@[simp] theorem plain_readIsoD : Plain s.readIsoD := plain_readItem _ _

@[simp] theorem plain_readField : Plain (s.readField c) := by simp [State.readField]

@[simp] theorem plain_checkTag (r : RegT) (q : TwistPoint) : Plain (checkTag r q) := by simp [checkTag]

@[simp] theorem plain_checkAffine (r : RegT) (q : TwistPoint) : Plain (checkAffine r q) := by
  unfold checkAffine
  cases q.tag <;> simp

@[simp] theorem plain_checkMode (mode : Mode) (r : RegT) (q : TwistPoint) :
    Plain (checkMode mode r q) := by
  cases mode <;> simp [checkMode]

@[simp] theorem plain_readPoint (r : RegT) : Plain (s.readPoint r) := by simp [State.readPoint]

/-! Data memory and images. -/

@[simp] theorem plain_memRead (a n : Nat) : Plain (s.memRead c a n) := fun r h => by
  obtain ⟨-, rfl⟩ | ⟨-, _, -, -, -, rfl⟩ := State.memRead_error_iff.mp h <;> rfl

@[simp] theorem plain_memWrite (a : Nat) (vs : List Nat) : Plain (s.memWrite c a vs) := fun r h => by
  obtain ⟨-, rfl⟩ := State.memWrite_error_iff.mp h
  rfl

@[simp] theorem plain_badWord (a : Nat) : Plain (badWord a : Except Raise α) := plain_raise _ _

@[simp] theorem plain_paramFault (slot k : Nat) : Plain (paramFault slot k : Except Raise α) :=
  plain_raise _ _

@[simp] theorem plain_checkWords (ok : Nat → Bool) (a : Nat) (ws : List Nat) :
    Plain (checkWords ok a ws) := by
  induction ws generalizing a with
  | nil => exact plain_ok ()
  | cons v vs ih => exact plain_ite_iff.mpr ⟨fun _ => ih _, fun _ => plain_badWord _⟩

@[simp] theorem plain_checkImage (slot : Nat) (ok : Nat → Bool) (k : Nat) (ws : List Nat) :
    Plain (checkImage slot ok k ws) := by
  induction ws generalizing k with
  | nil => exact plain_ok ()
  | cons v vs ih => exact plain_ite_iff.mpr ⟨fun _ => ih _, fun _ => plain_paramFault _ _⟩

@[simp] theorem plain_loadWord (slot a : Nat) (ok : Nat → Bool) : Plain (loadWord c s slot a ok) := by
  simp [loadWord]

@[simp] theorem plain_loadElement (slot a : Nat) : Plain (loadElement c s slot a) := by
  simp [loadElement]

@[simp] theorem plain_loadGen (a : Nat) : Plain (loadGen c s a) := by simp [loadGen]

@[simp] theorem plain_loadDigits (slot a : Nat) : Plain (loadDigits c s slot a) := by simp [loadDigits]

@[simp] theorem plain_postEntry (ws : List Nat) (k : Nat) : Plain (postEntry ws k) := by
  simp [postEntry]

@[simp] theorem plain_loadPost (a : Nat) : Plain (loadPost c s a) := by simp [loadPost]

theorem plain_loadSlot {a slot : Nat} {load : Except Raise ParamStore}
    (h : loadSlot c s a slot = some load) : Plain load := by
  unfold loadSlot at h
  split at h <;> cases h <;> simp

/-! The group law and the line value. -/

@[simp] theorem plain_affDbl (fl : Field) (a : Deg11) (q : TwistPoint) : Plain (affDbl fl a q) := by
  simp [affDbl]

@[simp] theorem plain_affAdd (fl : Field) (a : Deg11) (q r : TwistPoint) : Plain (affAdd fl a q r) := by
  simp [affAdd]

@[simp] theorem plain_doublePoint (fl : Field) (a : Deg11) (mode : Mode) (q : TwistPoint) :
    Plain (doublePoint fl a mode q) := by
  cases mode <;> simp [doublePoint]

@[simp] theorem plain_addPoints (fl : Field) (a : Deg11) (mode : Mode) (q r : TwistPoint) :
    Plain (addPoints fl a mode q r) := by
  cases mode <;> simp [addPoints]

@[simp] theorem plain_doubling (rs1 : RegT) (mode : Mode) : Plain (s.doubling c rs1 mode) := by
  simp [State.doubling, State.doubleOperand]

@[simp] theorem plain_addition (rs1 rs2 : RegT) (mode : Mode) :
    Plain (s.addition c rs1 rs2 mode) := by
  simp [State.addition, State.addOperands]

@[simp] theorem plain_lineValue (fl : Field) (tw : Twist) (r : LineRecord) (g : BasePoint) :
    Plain (lineValue fl tw r g) := by
  simp [lineValue]

end Plain

/-! ### Points that keep the tag invariant -/

theorem tagOk_one {q : TwistPoint} (h : q.z = one11) : tagOk q = true := tagOk_iff.mpr fun _ => .inr h

theorem tagOk_projective {q : TwistPoint} (h : q.tag = .projective) : tagOk q = true :=
  tagOk_iff.mpr fun ha => by simp [h] at ha

theorem tagOk_infAffine : tagOk infAffine = true := tagOk_iff.mpr fun _ => .inl rfl

/-- The tag invariant is about `z` and the tag, which negation keeps. -/
theorem tagOk_neg (p : Nat) {q : TwistPoint} (h : tagOk q = true) : tagOk (negPoint p q) = true :=
  tagOk_iff.mpr (tagOk_iff.mp h)

/-- The result of a group-law function keeps the tag invariant. -/
def TagOkStep (r : TwistPoint × Option LineRecord) : Prop := tagOk r.1 = true

section GroupLawTags

variable (fl : Field) (a : Deg11) {q r : TwistPoint}

theorem affDbl_tagOk (hq : tagOk q = true) : Gives (affDbl fl a q) TagOkStep :=
  .ite (.pure hq) <| .ite (.raise _ _) <| .pure (tagOk_one rfl)

theorem affAdd_tagOk (hq : tagOk q = true) (hr : tagOk r = true) : Gives (affAdd fl a q r) TagOkStep :=
  .ite (.pure hr) <| .ite (.pure hq) <| .ite (.ite (affDbl_tagOk fl a hq) (.pure tagOk_infAffine)) <|
    .pure (tagOk_one rfl)

theorem jacDbl_tagOk (hq : tagOk q = true) : TagOkStep (jacDbl fl a q) := by
  unfold jacDbl
  split
  · exact hq
  · exact tagOk_projective rfl

theorem jacAdd_tagOk (hq : tagOk q = true) (hr : tagOk r = true) : TagOkStep (jacAdd fl a q r) := by
  simp only [jacAdd]
  split_ifs
  · exact hr
  · exact hq
  · exact jacDbl_tagOk fl a hq
  · exact tagOk_projective rfl
  · exact tagOk_projective rfl

theorem doublePoint_tagOk (mode : Mode) (hq : tagOk q = true) :
    Gives (doublePoint fl a mode q) TagOkStep := by
  cases mode with
  | basic => exact affDbl_tagOk fl a hq
  | projc => exact .pure (jacDbl_tagOk fl a hq)

theorem addPoints_tagOk (mode : Mode) (hq : tagOk q = true) (hr : tagOk r = true) :
    Gives (addPoints fl a mode q r) TagOkStep := by
  cases mode with
  | basic => exact affAdd_tagOk fl a hq hr
  | projc => exact .pure (jacAdd_tagOk fl a hq hr)

/-- Embedded base-field values are fixed by the degree-11 Frobenius. -/
theorem frb11_emb (p : Nat) (k : Constants) (b : Base) (e : Nat) : frb11 p k (emb b) e = emb b := by
  ext i hi
  rw [frb11_get]
  split
  · next h0 => simp only [h0]
  · next h0 =>
    have hzero : (emb b)[i] = 0 := by
      interval_cases i
      · exact absurd rfl h0
      all_goals rfl
    rw [hzero, Nat.mul_zero, Nat.zero_mod]

theorem tagOk_frb (k : Constants) (tw : Twist) (hq : tagOk q = true) (e : Nat) :
    tagOk (frbPoint fl k tw q e) = true := by
  refine tagOk_iff.mpr fun ha => (tagOk_iff.mp hq ha).imp ?_ ?_ <;>
    exact fun hz => (congrArg (frb11 fl.p k · (e % 22)) hz).trans (frb11_emb ..)

theorem tagOk_norm (hq : tagOk q = true) (inverted : Bool) :
    tagOk (normPoint fl q inverted) = true := by
  unfold normPoint
  split
  · exact tagOk_infAffine
  · split
    · exact hq
    · exact tagOk_one rfl

theorem tagOk_iso (tor2 isoT : Deg11) (q : TwistPoint) : tagOk (isoPoint fl tor2 isoT q) = true := by
  simp only [isoPoint]
  split_ifs
  · exact tagOk_infAffine
  · exact tagOk_infAffine
  · exact tagOk_one rfl

theorem tagOk_isoDual (half : Base) (tor2 isoD : Deg11) (q : TwistPoint) :
    tagOk (isoDualPoint fl half tor2 isoD q) = true := by
  simp only [isoDualPoint]
  split_ifs
  · exact tagOk_infAffine
  · exact tagOk_infAffine
  · exact tagOk_one rfl

end GroupLawTags

/-! ### T operands that have passed their tag check -/

section TagReads

variable {c : Config} {s : State}

theorem checkTag_tagOk (r : RegT) (q : TwistPoint) : Gives (checkTag r q) fun _ => tagOk q = true :=
  fun _ h => checkTag_ok_iff.mp h

theorem readPoint_tagOk (r : RegT) : Gives (s.readPoint r) fun q => tagOk q = true :=
  fun _ h => (State.readPoint_ok_iff.mp h).2

theorem doubling_tagOk (rs1 : RegT) (mode : Mode) : Gives (s.doubling c rs1 mode) TagOkStep :=
  have operand : Gives (s.doubleOperand rs1 mode) fun op => tagOk op.1 = true :=
    .seq fun q => .seq fun _ => (checkTag_tagOk rs1 q).bind fun _ hq => .seq fun _ => .pure hq
  operand.bind fun _ hq => .seq fun fl => doublePoint_tagOk fl _ mode hq

theorem addition_tagOk (rs1 rs2 : RegT) (mode : Mode) : Gives (s.addition c rs1 rs2 mode) TagOkStep :=
  have operands : Gives (s.addOperands rs1 rs2 mode) fun op =>
      tagOk op.1 = true ∧ tagOk op.2.1 = true :=
    .seq fun q => .seq fun r => .seq fun _ => (checkTag_tagOk rs1 q).bind fun _ hq =>
      (checkTag_tagOk rs2 r).bind fun _ hr => .seq fun _ => .seq fun _ => .pure ⟨hq, hr⟩
  operands.bind fun _ h => .seq fun fl => addPoints_tagOk fl _ mode h.1 h.2

end TagReads

/-! ### The effect of a command that completes -/

/-- What a command that completes in state `s` leaves before `pc` moves on: one kind of state changed,
and nothing else. -/
inductive Effect (c : Config) (s : State) : Instr → State → Prop
  | nothing : Effect c s .nop s
  | constants {v : Base} : s.prm.c11 = some v → c11Accepted c.p v = true →
      Effect c s .finit { s with lifecycle := .ready (constantsOf c.p v) }
  | slot {slot : SlotField} {addr : Addr} {prm : ParamStore} : s.lifecycle = .config →
      loadSlot c s addr.val slot.val = some (.ok prm) →
      Effect c s (.ldp slot addr) { s with prm := prm }
  | words {i : Instr} {a : Nat} {vs : List Nat} : isStore i = true → a + vs.length ≤ c.dmWords →
      Effect c s i { s with dm := Memory.writeAll s.dm a vs }
  | regE {i : Instr} {r : RegE} {v : Deg11} : destE i = some r → Effect c s i (s.writeE r v)
  | regU {i : Instr} {r : RegU} {v : Unred11} : destU i = some r → Effect c s i (s.writeU r v)
  | regF {i : Instr} {r : RegF} {v : Deg22} : destF i = some r → Effect c s i (s.writeF r v)
  | regFree {i : Instr} {r : RegF} {v : Deg22} : destF i = some r →
      Effect c s i (s.writeF r v).takeFree
  | regT {i : Instr} {r : RegT} {v : TwistPoint} : destT i = some r → tagOk v = true →
      Effect c s i (s.writeT r v)
  | regLatch {i : Instr} {r : RegT} {v : TwistPoint} {l : Option LineRecord} : destT i = some r →
      writesLatch i = true → tagOk v = true → Effect c s i ((s.writeT r v).writeLC l)
  | regG {i : Instr} {r : RegG} {v : BasePoint} : destG i = some r → Effect c s i (s.writeG r v)
  | flagEq {i : Instr} {b : Bool} : writesEq i = true → Effect c s i (s.writeEq b)
  | flagOnc {i : Instr} {b : Bool} : writesOnc i = true → Effect c s i (s.writeOnc b)
  | miller {i : Instr} {r : RegF} {variant : Bool} {v : Deg22} : destF i = some r →
      isMiller i = true → Effect c s i (s.writeMiller r variant v)

/-- What `x` gives is `good`, and its faults are outside a Miller loop. -/
structure Ends {α : Type} (x : Except Raise α) (good : α → Prop) : Prop where
  gives : Gives x good
  plain : Plain x

section Ends

variable {α β : Type} {x y : Except Raise α} {f : α → Except Raise β} {good : α → Prop}
  {goodAfter : β → Prop}

theorem Ends.pure {a : α} (h : good a) : Ends (pure a) good := ⟨.pure h, plain_ok a⟩

theorem Ends.raise (cause : Cause) (einfo : BitVec 32) : Ends (raise cause einfo) good :=
  ⟨.raise _ _, plain_raise _ _⟩

theorem Ends.bind (hx : Gives x good) (hf : ∀ a, good a → Ends (f a) goodAfter)
    (hp : Plain x := by simp) : Ends (x >>= f) goodAfter :=
  ⟨hx.bind fun a ha => (hf a ha).gives, plain_bind_iff.mpr ⟨hp, fun a ha => (hf a (hx a ha)).plain⟩⟩

theorem Ends.seq (hf : ∀ a, Ends (f a) goodAfter) (hp : Plain x := by simp) :
    Ends (x >>= f) goodAfter :=
  ⟨.seq fun a => (hf a).gives, hp.bind fun a => (hf a).plain⟩

theorem Ends.ite {b : Prop} [Decidable b] (hx : Ends x good) (hy : Ends y good) :
    Ends (if b then x else y) good :=
  ⟨.ite hx.gives hy.gives, plain_ite_iff.mpr ⟨fun _ => hx.plain, fun _ => hy.plain⟩⟩

end Ends

/-- A store writes its words or faults. -/
theorem memWrite_ends (c : Config) (s : State) (a : Nat) (vs : List Nat) {i : Instr}
    (hi : isStore i = true) : Ends (s.memWrite c a vs) (Effect c s i) := by
  refine ⟨fun t ht => ?_, plain_memWrite a vs⟩
  obtain ⟨hlen, rfl⟩ := State.memWrite_ok_iff.mp ht
  exact .words hi hlen

/-- The command `i` is the end of a computation that gives one of its effects, and whose faults are
outside a Miller loop unless `i` is a Miller command. -/
def Does (c : Config) (i : Instr) (s : State) (o : Host.Outcome State Fault Refusal) : Prop :=
  ∃ x, o = finish c s x ∧ Gives x (Effect c s i) ∧ (isMiller i = false → Plain x)

section Does

variable {c : Config} {s : State} {i : Instr} {x : Except Raise State}

theorem Does.finish (hx : Ends x (Effect c s i)) : Does c i s (finish c s x) :=
  ⟨x, rfl, hx.gives, fun _ => hx.plain⟩

theorem Does.millerFinish (hi : isMiller i = true) (hx : Gives x (Effect c s i)) :
    Does c i s (Machine.finish c s x) :=
  ⟨x, rfl, hx, fun h => by simp [hi] at h⟩

end Does

/-! ### The commands with checks or cases of their own -/

section Commands

variable {c : Config} {s : State}

theorem execFinit_does : Does c .finit s (execFinit s c) := by
  refine .finish <| .seq fun _ => .bind (good := fun v => s.prm.c11 = some v)
    (fun v hv => readItem_ok_iff.mp hv) fun v hv => ?_
  split
  · next hok => exact .pure (.constants hv hok)
  · exact .raise _ _

theorem execLdp_does (slot : SlotField) (addr : Addr) :
    Does c (.ldp slot addr) s (execLdp slot addr s c) := by
  unfold execLdp
  split
  · refine .finish ⟨fun _ h => (nomatch h), ?_⟩
    rintro _ ⟨⟩
    rfl
  · next load hload =>
    refine .finish <| .bind (good := fun _ => s.lifecycle = .config)
      (fun _ h => State.needConfig_ok_iff.mp h) fun _ hconfig => ?_
    exact .bind (good := fun prm => load = .ok prm) (fun _ h => h)
      (fun prm hprm => .pure (.slot hconfig (hprm ▸ hload))) (plain_loadSlot hload)

theorem execLdT_does (r : RegT) (addr : Addr) : Does c (.ldT r addr) s (execLdT r addr s c) := by
  refine .finish <| .seq fun ws => .seq fun _ => .seq fun _ => ?_
  split
  · next hok => exact .pure (.regT rfl hok)
  · exact ⟨.raise _ _, plain_badWord _⟩

theorem execLine_does (rd : RegF) (rs1 : RegG) : Does c (.line rd rs1) s (execLine rd rs1 s c) := by
  refine .finish <| .seq fun _ => .seq fun _ => .seq fun _ => .ite (.raise _ _) ?_
  cases s.lc with
  | none => exact .raise _ _
  | some r => exact .seq fun _ => .seq fun _ => .pure (.regF rfl)

theorem execMiller_does (rd : RegF) (rs1 : RegT) (rs2 : RegG) (mode : Mode) :
    Does c (.miller rd rs1 rs2 mode) s (execMiller rd rs1 rs2 mode s c) :=
  .millerFinish rfl <| .seq fun _ => .seq fun _ => .seq fun _ => .seq fun _ => .seq fun _ =>
    .seq fun _ => .seq fun _ => .seq fun _ => .seq fun _ =>
      .ite (.pure (.miller rfl rfl)) <| .seq fun _ => .seq fun _ => .pure (.miller rfl rfl)

theorem execMiller2_does (rd : RegF) (rs1 : RegT) (rs2 : RegG) (mode : Mode) :
    Does c (.miller2 rd rs1 rs2 mode) s (execMiller2 rd rs1 rs2 mode s c) :=
  .millerFinish rfl <| .seq fun _ => .seq fun _ => .seq fun _ => .seq fun _ => .seq fun _ =>
    .seq fun _ => .seq fun _ => .seq fun _ => .seq fun _ =>
      .ite (.pure (.miller rfl rfl)) <| .seq fun _ => .seq fun _ => .pure (.miller rfl rfl)

end Commands

/-! ### Every command -/

/-- Every command but `HALT` completes with its effect or raises a fault. The commands that write a T
register do so with a point that keeps the tag invariant, since they check their operands. -/
theorem exec_does (i : Instr) (s : State) (hi : i ≠ .halt) : Does Config.machine i s (exec i s) := by
  cases i with
  | halt => exact absurd rfl hi
  | nop => exact .finish (.pure .nothing)
  | finit => exact execFinit_does
  | ldp slot addr => exact execLdp_does slot addr
  | ldE r addr => exact .finish <| .seq fun _ => .seq fun _ => .pure (.regE rfl)
  | stE r addr => exact .finish <| .seq fun _ => memWrite_ends _ _ _ _ rfl
  | ldF r addr => exact .finish <| .seq fun _ => .seq fun _ => .pure (.regF rfl)
  | stF r addr => exact .finish <| .seq fun _ => memWrite_ends _ _ _ _ rfl
  | ldT r addr => exact execLdT_does r addr
  | stT r addr => exact .finish <| .seq fun _ => memWrite_ends _ _ _ _ rfl
  | ldG r addr => exact .finish <| .seq fun _ => .seq fun _ => .seq fun _ => .pure (.regG rfl)
  | stG r addr => exact .finish <| .seq fun _ => memWrite_ends _ _ _ _ rfl
  | eZero rd => exact .finish <| .seq fun _ => .pure (.regE rfl)
  | eOne rd => exact .finish <| .seq fun _ => .pure (.regE rfl)
  | eCpy rd rs1 => exact .finish <| .seq fun _ => .seq fun _ => .pure (.regE rfl)
  | eAdd rd rs1 rs2 => exact .finish <| .seq fun _ => .seq fun _ => .seq fun _ => .pure (.regE rfl)
  | eSub rd rs1 rs2 => exact .finish <| .seq fun _ => .seq fun _ => .seq fun _ => .pure (.regE rfl)
  | eNeg rd rs1 => exact .finish <| .seq fun _ => .seq fun _ => .pure (.regE rfl)
  | eCmp rs1 rs2 => exact .finish <| .seq fun _ => .seq fun _ => .seq fun _ => .pure (.flagEq rfl)
  | eMul rd rs1 rs2 =>
    exact .finish <| .seq fun _ => .seq fun _ => .seq fun _ => .seq fun _ => .pure (.regE rfl)
  | eSqr rd rs1 => exact .finish <| .seq fun _ => .seq fun _ => .seq fun _ => .pure (.regE rfl)
  | eMulu rd rs1 rs2 =>
    exact .finish <| .seq fun _ => .seq fun _ => .seq fun _ => .seq fun _ => .pure (.regU rfl)
  | eSqru rd rs1 => exact .finish <| .seq fun _ => .seq fun _ => .seq fun _ => .pure (.regU rfl)
  | eRed rd rs1 => exact .finish <| .seq fun _ => .seq fun _ => .pure (.regE rfl)
  | eMnr rd rs1 => exact .finish <| .seq fun _ => .seq fun _ => .seq fun _ => .pure (.regE rfl)
  | eFrb rd rs1 exp => exact .finish <| .seq fun _ => .seq fun _ => .pure (.regE rfl)
  | eFrb2 rd rs1 exp => exact .finish <| .seq fun _ => .seq fun _ => .pure (.regE rfl)
  | eInv rd rs1 =>
    exact .finish <| .seq fun _ => .seq fun _ => .seq fun _ => .ite (.raise _ _) (.pure (.regE rfl))
  | fOne rd => exact .finish <| .seq fun _ => .pure (.regF rfl)
  | fCpy rd rs1 => exact .finish <| .seq fun _ => .seq fun _ => .pure (.regF rfl)
  | fPack rd rs1 rs2 => exact .finish <| .seq fun _ => .seq fun _ => .seq fun _ => .pure (.regF rfl)
  | fGetr rd rs1 => exact .finish <| .seq fun _ => .seq fun _ => .pure (.regE rfl)
  | fGeti rd rs1 => exact .finish <| .seq fun _ => .seq fun _ => .pure (.regE rfl)
  | fCmp rs1 rs2 => exact .finish <| .seq fun _ => .seq fun _ => .seq fun _ => .pure (.flagEq rfl)
  | fMul rd rs1 rs2 =>
    exact .finish <| .seq fun _ => .seq fun _ => .seq fun _ => .seq fun _ => .pure (.regF rfl)
  | fSqr rd rs1 => exact .finish <| .seq fun _ => .seq fun _ => .seq fun _ => .pure (.regF rfl)
  | fSqrc rd rs1 => exact .finish <| .seq fun _ => .seq fun _ => .seq fun _ => .pure (.regFree rfl)
  | fInvc rd rs1 => exact .finish <| .seq fun _ => .seq fun _ => .pure (.regF rfl)
  | fFrb rd rs1 exp => exact .finish <| .seq fun _ => .seq fun _ => .pure (.regF rfl)
  | tInf rd => exact .finish <| .seq fun _ => .pure (.regT rfl tagOk_infAffine)
  | tCpy rd rs1 =>
    exact .finish <| .seq fun _ => .bind (readPoint_tagOk rs1) fun _ hq => .pure (.regT rfl hq)
  | tMk rd rs1 rs2 =>
    exact .finish <| .seq fun _ => .seq fun _ => .seq fun _ => .pure (.regT rfl (tagOk_one rfl))
  | tMkp rd rs1 rs2 rs3 =>
    exact .finish <| .seq fun _ => .seq fun _ => .seq fun _ => .seq fun _ =>
      .pure (.regT rfl (tagOk_projective rfl))
  | tGetx rd rs1 => exact .finish <| .seq fun _ => .seq fun _ => .pure (.regE rfl)
  | tGety rd rs1 => exact .finish <| .seq fun _ => .seq fun _ => .pure (.regE rfl)
  | tGetz rd rs1 => exact .finish <| .seq fun _ => .seq fun _ => .pure (.regE rfl)
  | tNeg rd rs1 =>
    exact .finish <| .seq fun _ => .bind (readPoint_tagOk rs1) fun _ hq =>
      .pure (.regT rfl (tagOk_neg _ hq))
  | tDbl rd rs1 mode =>
    exact .finish <| .seq fun _ => .bind (doubling_tagOk rs1 mode) fun _ hr => .pure (.regT rfl hr)
  | tAdd rd rs1 rs2 mode =>
    exact .finish <| .seq fun _ => .bind (addition_tagOk rs1 rs2 mode) fun _ hr => .pure (.regT rfl hr)
  | tSdbl rd rs1 mode =>
    exact .finish <| .seq fun _ => .bind (doubling_tagOk rs1 mode) fun _ hr =>
      .pure (.regLatch rfl rfl hr)
  | tSdbl1 rd rs1 mode =>
    exact .finish <| .seq fun _ => .bind (doubling_tagOk rs1 mode) fun _ hr =>
      .pure (.regLatch rfl rfl hr)
  | tSadd rd rs1 rs2 mode =>
    exact .finish <| .seq fun _ => .bind (addition_tagOk rs1 rs2 mode) fun _ hr =>
      .pure (.regLatch rfl rfl hr)
  | tFrb rd rs1 exp =>
    exact .finish <| .seq fun _ => .seq fun q => .seq fun _ => .bind (checkTag_tagOk rs1 q) fun _ hq =>
      .seq fun _ => .pure (.regT rfl (tagOk_frb _ _ _ hq _))
  | tNorm rd rs1 inverted =>
    exact .finish <| .seq fun _ => .bind (readPoint_tagOk rs1) fun _ hq => .seq fun _ =>
      .pure (.regT rfl (tagOk_norm _ hq _))
  | tCmp rs1 rs2 =>
    exact .finish <| .seq fun _ => .seq fun _ => .seq fun _ => .seq fun _ => .seq fun _ =>
      .seq fun _ => .pure (.flagEq rfl)
  | tOnc rs1 =>
    exact .finish <| .seq fun _ => .seq fun _ => .seq fun _ => .seq fun _ => .seq fun _ =>
      .seq fun _ => .pure (.flagOnc rfl)
  | tGen rd => exact .finish <| .seq fun _ => .seq fun _ => .pure (.regT rfl (tagOk_one rfl))
  | tIso rd rs1 =>
    exact .finish <| .seq fun _ => .seq fun _ => .seq fun _ => .seq fun _ => .seq fun _ =>
      .seq fun _ => .pure (.regT rfl (tagOk_iso _ _ _ _))
  | tIsod rd rs1 =>
    exact .finish <| .seq fun _ => .seq fun _ => .seq fun _ => .seq fun _ => .seq fun _ =>
      .seq fun _ => .pure (.regT rfl (tagOk_isoDual _ _ _ _ _))
  | line rd rs1 => exact execLine_does rd rs1
  | miller rd rs1 rs2 mode => exact execMiller_does rd rs1 rs2 mode
  | miller2 rd rs1 rs2 mode => exact execMiller2_does rd rs1 rs2 mode

/-- What executing a command comes to: `HALT`, completion with one effect, or a fault entry, which
leaves a step of a Miller loop only for a Miller command. -/
theorem exec_cases {i : Instr} {s t : State} (h : exec i s = .next t) :
    (i = .halt ∧ t = { s with run := .halted }) ∨
    (i ≠ .halt ∧ ∃ u, Effect Config.machine s i u ∧ t = u.advance Config.machine) ∨
    (i ≠ .halt ∧ ∃ r, (isMiller i = false → r.step = none) ∧ t = s.enterFault r) := by
  by_cases hi : i = .halt
  · subst hi
    cases h
    exact .inl ⟨rfl, rfl⟩
  · obtain ⟨x, hx, hgives, hplain⟩ := exec_does i s hi
    rw [hx] at h
    obtain ⟨u, hu, rfl⟩ | ⟨r, hr, rfl⟩ := (finish_next _ _ _ _).mp h
    · exact .inr (.inl ⟨hi, u, hgives u hu, rfl⟩)
    · exact .inr (.inr ⟨hi, r, fun hm => hplain hm r hr, rfl⟩)

/-- What a step comes to: nothing in a block that does not run; `HALT`; completion of a command with one
effect; or a fault entry. -/
theorem step_cases {s t : State} (h : step s = .next t) :
    t = s ∨
    (s.run = .run ∧ s.pastTop = false ∧ t = { s with run := .halted }) ∨
    (s.run = .run ∧ ∃ i u, Effect Config.machine s i u ∧ t = u.advance Config.machine) ∨
    (s.run = .run ∧ ∃ r, t = s.enterFault r) := by
  unfold step at h
  split at h
  · next hrun =>
    split at h
    · cases h
      exact .inr (.inr (.inr ⟨hrun, _, rfl⟩))
    · next hfetch =>
      split at h
      · cases h
        exact .inr (.inr (.inr ⟨hrun, _, rfl⟩))
      · obtain ⟨-, rfl⟩ | ⟨-, u, hu, rfl⟩ | ⟨-, r, -, rfl⟩ := exec_cases h
        · exact .inr (.inl ⟨hrun, (State.fetch_ok_iff.mp hfetch).1, rfl⟩)
        · exact .inr (.inr (.inl ⟨hrun, _, u, hu, rfl⟩))
        · exact .inr (.inr (.inr ⟨hrun, r, rfl⟩))
  · cases h
    exact .inl rfl

/-! ### What an effect leaves unchanged -/

theorem writesLatch_of_isMiller {i : Instr} (hi : isMiller i = true) : writesLatch i = true := by
  unfold writesLatch
  split <;> simp [hi]

section Frame

variable {c : Config} {s u : State} {i : Instr} (h : Effect c s i u)
include h

theorem Effect.run : u.run = s.run := by cases h <;> rfl
theorem Effect.pc : u.pc = s.pc := by cases h <;> rfl
theorem Effect.pastTop : u.pastTop = s.pastTop := by cases h <;> rfl
theorem Effect.cm : u.cm = s.cm := by cases h <;> rfl
theorem Effect.ie : u.ie = s.ie := by cases h <;> rfl
theorem Effect.ecause : u.ecause = s.ecause := by cases h <;> rfl
theorem Effect.epc : u.epc = s.epc := by cases h <;> rfl
theorem Effect.einfo : u.einfo = s.einfo := by cases h <;> rfl

theorem Effect.eq (hi : writesEq i = false) : u.eq = s.eq := by
  cases h with
  | flagEq hw => exact absurd hi (by simp [hw])
  | _ => rfl

theorem Effect.onc (hi : writesOnc i = false) : u.onc = s.onc := by
  cases h with
  | flagOnc hw => exact absurd hi (by simp [hw])
  | _ => rfl

theorem Effect.lc (hi : writesLatch i = false) : u.lc = s.lc := by
  cases h with
  | regLatch _ hw => exact absurd hi (by simp [hw])
  | miller _ hw => exact absurd hi (by simp [writesLatch_of_isMiller hw])
  | _ => rfl

theorem Effect.ml (hi : isMiller i = false) : u.ml = s.ml := by
  cases h with
  | miller _ hw => exact absurd hi (by simp [hw])
  | _ => rfl

theorem Effect.dm (hi : isStore i = false) : u.dm = s.dm := by
  cases h with
  | words hw => exact absurd hi (by simp [hw])
  | _ => rfl

theorem Effect.prm (hi : isLdp i = false) : u.prm = s.prm := by
  cases h with
  | slot => cases hi
  | _ => rfl

theorem Effect.lifecycle (hi : i ≠ .finit) : u.lifecycle = s.lifecycle := by
  cases h with
  | constants => exact absurd rfl hi
  | _ => rfl

end Frame

/-! ### The tag invariant -/

theorem Effect.tagsSound {c : Config} {s u : State} {i : Instr} (h : Effect c s i u)
    (hs : s.TagsSound) : u.TagsSound := by
  cases h with
  | regT _ hv => exact forall_getElem_set hs _ hv
  | regLatch _ _ hv => exact forall_getElem_set hs _ hv
  | _ => exact hs

/-- Settles O52: the commands that write a T register are the two kinds of effect that do, each with a
point that keeps the invariant (`exec_does`). -/
theorem stepKeepsTagsSound : Obligations.StepKeepsTagsSound := by
  intro s t hs ht
  obtain rfl | ⟨-, -, rfl⟩ | ⟨-, i, u, hu, rfl⟩ | ⟨-, r, rfl⟩ := step_cases ht
  · exact hs
  · exact hs
  · simpa [State.TagsSound] using hu.tagsSound hs
  · exact hs

/-! ### Constants and digit strings -/

/-- A digit string that loads has a legal length and top digit +1. -/
theorem loadDigits_sound (c : Config) (s : State) (slot a : Nat) :
    Gives (loadDigits c s slot a) (DigitsSound c) := by
  refine .seq fun hd => ?_
  dsimp only
  split
  · exact .raise _ _
  · next hmax =>
    split
    · exact .raise _ _
    · next hmin =>
      refine .bind (good := fun ws => ws.length = word hd 0)
        (fun _ h => (State.memRead_ok_iff.mp h).2.1) fun ws hlen => .seq fun _ => ?_
      split
      · next htop =>
        refine .pure ⟨by simp only [List.length_map]; omega, by simp only [List.length_map]; omega, ?_⟩
        have hlast : ws[ws.length - 1]? = some 1 := by
          rw [← hlen] at htop
          rw [word, List.getElem?_eq_getElem (by omega)] at htop
          rw [List.getElem?_eq_getElem (by omega)]
          exact congrArg some htop
        rw [List.getLast?_map, List.getLast?_eq_getElem?, hlast]
        rfl
      · exact .raise _ _

/-- Loading any slot leaves the digit strings sound. -/
theorem loadSlot_digitsSound {c : Config} {s : State} (hs : s.DigitStringsSound c) {a slot : Nat}
    {load : Except Raise ParamStore} (hload : loadSlot c s a slot = some load) :
    Gives load fun prm => State.DigitStringsSound c { s with prm := prm } := by
  unfold loadSlot at hload
  split at hload <;> cases hload
  case h_9 =>
    exact (loadDigits_sound c s _ _).bind fun ds hds => .pure ⟨fun _ h => Option.some.inj h ▸ hds, hs.2⟩
  case h_10 =>
    exact (loadDigits_sound c s _ _).bind fun ds hds => .pure ⟨hs.1, fun _ h => Option.some.inj h ▸ hds⟩
  all_goals exact .seq fun _ => .pure hs

theorem Effect.digitStringsSound {c : Config} {s u : State} {i : Instr} (h : Effect c s i u)
    (hs : s.DigitStringsSound c) : u.DigitStringsSound c := by
  cases h with
  | slot _ hload => exact loadSlot_digitsSound hs hload _ rfl
  | _ => exact hs

/-- `FINIT` is the one command that enters `READY`, and `LDP` writes slot `C11` in `CONFIG` only. -/
theorem Effect.lifecycleSound {c : Config} {s u : State} {i : Instr} (h : Effect c s i u)
    (hs : s.LifecycleSound c) : u.LifecycleSound c := by
  cases h with
  | constants hv hok =>
    rintro _ ⟨⟩
    exact ⟨_, hv, hok, rfl⟩
  | slot hconfig =>
    intro k hk
    exact nomatch hconfig.symm.trans hk
  | _ => exact hs

/-- Settles O53: only `FINIT` changes the constants and only `LDP` a slot; every other effect, `HALT`
and a fault entry keep both. -/
theorem stepKeepsParametersSound : Obligations.StepKeepsParametersSound := by
  intro s t ht
  obtain rfl | ⟨-, -, rfl⟩ | ⟨-, i, u, hu, rfl⟩ | ⟨-, r, rfl⟩ := step_cases ht
  · exact ⟨id, id⟩
  · exact ⟨id, id⟩
  · simp only [State.LifecycleSound, State.DigitStringsSound, State.advance_lifecycle,
      State.advance_prm]
    exact ⟨hu.lifecycleSound, hu.digitStringsSound⟩
  · exact ⟨id, id⟩

/-! ### `ML`, the cause registers and the run state -/

/-- Between commands of a running block the Miller machine rests, whichever command completes. -/
theorem Effect.ml_rests {c : Config} {s u : State} {i : Instr} (h : Effect c s i u)
    (hs : s.ml.active = false ∧ s.ml.data = none ∧ s.ml.phase = .idle ∧ s.ml.i = 0#16) :
    u.ml.active = false ∧ u.ml.data = none ∧ u.ml.phase = .idle ∧ u.ml.i = 0#16 := by
  cases h with
  | miller => exact ⟨rfl, rfl, rfl, rfl⟩
  | _ => exact hs

theorem State.RunSound.enterFault {s : State} (hs : s.RunSound) (r : Raise) :
    (s.enterFault r).RunSound := by
  obtain ⟨-, hdata, -, -, -⟩ := hs
  refine ⟨State.enterFault_active s r, ?_, fun h => absurd rfl h,
    fun _ => ⟨r.cause.code_bounds.1, r.cause.code_bounds.2, rfl⟩, fun _ => .inr rfl⟩
  cases hr : r.step with
  | none => rw [State.enterFault_ml_none s r hr]; exact hdata
  | some m => rw [State.enterFault_ml_some s r m hr]

/-- Settles O54: a completing command keeps `ML` at rest, the cause registers and `RS`; `HALT` is only
fetched below the top of the counter; a fault entry writes one of the ten causes and `EPC`. -/
theorem stepKeepsRunSound : Obligations.StepKeepsRunSound := by
  intro s t hs ht
  obtain rfl | ⟨hrun, htop, rfl⟩ | ⟨hrun, i, u, hu, rfl⟩ | ⟨-, r, rfl⟩ := step_cases ht
  · exact hs
  · obtain ⟨hactive, hdata, hclear, -, -⟩ := hs
    exact ⟨hactive, hdata, fun _ => hclear (by simp [hrun]), nofun, fun h => by simp [htop] at h⟩
  · obtain ⟨hactive, hdata, hclear, -, -⟩ := hs
    obtain ⟨hphase, hi, hcause, hepc, hinfo⟩ := hclear (by simp [hrun])
    obtain ⟨hactive', hdata', hphase', hi'⟩ := hu.ml_rests ⟨hactive, hdata, hphase, hi⟩
    simp [State.RunSound, hu.run, hu.ecause, hu.epc, hu.einfo, *]
  · exact hs.enterFault r

/-! ### Completion, `HALT` and fault; frames -/

/-- Settles O7: `step` waits outside `RUN`, `advance` is the end of a completing command, and
`exec_cases` tells the three ends apart. -/
theorem runStateAndCounter : Obligations.RunStateAndCounter := by
  refine ⟨fun s hrun => ?_, fun s => ?_, fun i s t hrun h => ?_⟩
  · unfold step
    split
    · contradiction
    · rfl
  · by_cases htop : s.pc = 0xFFFF#16
    · exact ⟨_, _, _, State.advance_top _ s htop, fun h => absurd htop h, fun _ => rfl⟩
    · exact ⟨_, _, _, State.advance_succ _ s htop, fun _ => ⟨rfl, rfl, rfl⟩, fun h => absurd h htop⟩
  · obtain ⟨hi, rfl⟩ | ⟨hi, u, hu, rfl⟩ | ⟨hi, r, -, rfl⟩ := exec_cases h
    · exact .inr (.inl ⟨hi, rfl, rfl⟩)
    · refine .inl ⟨hi, by simp [hu.run, hrun], fun hpc => ?_⟩
      rw [State.advance_succ _ u (hu.pc ▸ hpc), hu.pc]
    · exact .inr (.inr ⟨hi, rfl, rfl, rfl⟩)

/-- Settles O13: an effect of another kind keeps the flag, the latch or `ML`, and a fault entry outside
a Miller command clears `ML.active` alone. -/
theorem flagsAndLatchFrame : Obligations.FlagsAndLatchFrame := by
  intro i s t h
  obtain ⟨-, rfl⟩ | ⟨-, u, hu, rfl⟩ | ⟨-, r, hr, rfl⟩ := exec_cases h
  · exact ⟨fun _ => rfl, fun _ => rfl, fun _ => rfl, fun _ => ⟨fun _ => rfl, fun _ => nofun, .inl rfl⟩⟩
  · simp only [State.advance_eq, State.advance_onc, State.advance_lc, State.advance_ml,
      State.advance_run, hu.run]
    exact ⟨hu.eq, hu.onc, hu.lc, fun hi =>
      ⟨fun _ => hu.ml hi, fun hs ht => absurd ht hs, .inl (hu.ml hi)⟩⟩
  · refine ⟨fun _ => rfl, fun _ => rfl, fun _ => rfl, fun hi => ?_⟩
    have hml := State.enterFault_ml_none s r (hr hi)
    exact ⟨fun hrun => absurd rfl hrun, fun _ _ => hml, .inr ⟨rfl, hml⟩⟩

/-- Settles O14: no effect changes `CM`, `IE` or the cause registers; `DM`, the slots and `LS` each
change under one kind of effect. -/
theorem memoryAndParameterFrame : Obligations.MemoryAndParameterFrame := by
  intro i s t h
  obtain ⟨-, rfl⟩ | ⟨-, u, hu, rfl⟩ | ⟨-, r, -, rfl⟩ := exec_cases h
  · simp
  · simp only [State.advance_cm, State.advance_ie, State.advance_dm, State.advance_prm,
      State.advance_lifecycle, State.advance_ecause, State.advance_epc, State.advance_einfo]
    exact ⟨fun a => by rw [hu.cm], hu.cm, hu.ie, fun hi => ⟨fun a => by rw [hu.dm hi], hu.dm hi⟩,
      hu.prm, hu.lifecycle, fun _ => ⟨hu.ecause, hu.epc, hu.einfo⟩⟩
  · simp

end Sys2Proof.Machine
end

section
/-! PROOFS. Reset and the host: what the control registers show and take (O56, O57, O58), and that a
reset state is sound and no move of the host breaks an invariant (O55, O60). -/

namespace Sys2Proof.Machine

open Sys2Proof

/-! ### The state after reset -/

@[simp] theorem State.reset_e (r : RegE) : State.reset.e[r.val] = none := Vector.getElem_replicate _
@[simp] theorem State.reset_u (r : RegU) : State.reset.u[r.val] = none := Vector.getElem_replicate _
@[simp] theorem State.reset_f (r : RegF) : State.reset.f[r.val] = none := Vector.getElem_replicate _
@[simp] theorem State.reset_t (r : RegT) : State.reset.t[r.val] = none := Vector.getElem_replicate _
@[simp] theorem State.reset_g (r : RegG) : State.reset.g[r.val] = none := Vector.getElem_replicate _

theorem slotLoaded_empty (n : Nat) : slotLoaded ParamStore.empty n = false := by
  unfold slotLoaded
  split <;> rfl

/-- Settles O56. -/
theorem resetValues : Obligations.ResetValues :=
  ⟨fun _ => ⟨rfl, rfl⟩, State.reset_e, State.reset_u, State.reset_f, State.reset_t, State.reset_g,
    rfl, rfl, rfl, rfl, rfl, rfl, rfl, rfl, slotLoaded_empty, rfl, rfl, rfl, rfl, fun _ => rfl,
    fun _ => rfl, rfl, rfl, rfl⟩

/-- A reset that leaves sound memories leaves a sound state: every other valid bit is 0. -/
theorem sound_of_reset {c : Config} {dm : Memory Nat} {cm : Memory (BitVec 32)} {free : Nat}
    (hdm : ∀ a v, Memory.read dm a = some v → v < 2 ^ c.w)
    (hmem : { State.reset with dm := dm, cm := cm, free := free }.MemorySound c) :
    { State.reset with dm := dm, cm := cm, free := free }.Sound c where
  inRange :=
    { e := fun r v h => by simp at h
      u := fun r v h => by simp at h
      f := fun r v h => by simp at h
      t := fun r v h => by simp at h
      g := fun r v h => by simp at h
      lc := nofun, c11 := nofun, a := nofun, b := nofun, gen := nofun, tor2 := nofun
      isoT := nofun, isoD := nofun, consts := nofun, dm := hdm }
  tags := fun r v h => by simp at h
  digits := ⟨nofun, nofun⟩
  lifecycle := nofun
  memory := hmem
  run := ⟨rfl, rfl, fun _ => ⟨rfl, rfl, rfl, rfl, rfl⟩, nofun, nofun⟩

/-- Unwritten memories are sound, whatever the counter of free values. -/
theorem sound_of_reset_empty (c : Config) (free : Nat) : { State.reset with free := free }.Sound c :=
  sound_of_reset (dm := []) (cm := []) nofun ⟨rfl, rfl, nofun, nofun⟩

/-- Settles O55. -/
theorem resetIsSound : Obligations.ResetIsSound := sound_of_reset_empty _ 0

/-! ### What the host reads -/

/-- A bit placed at `i` is the only bit of the register that can be set. -/
theorem getLsbD_bitAt (b : Bool) {i : Nat} (hi : i < 32) (j : Nat) :
    (bitAt b i).getLsbD j = (decide (j = i) && b) := by
  simp only [bitAt, BitVec.getLsbD_shiftLeft, BitVec.getLsbD_setWidth, BitVec.getLsbD_ofBool]
  by_cases hj : j = i
  · simp [hj, hi]
  · simp only [hj, decide_false, Bool.false_and]
    by_cases hlt : j < i
    · simp [hlt]
    · simp [show ¬j - i = 0 by omega]

theorem State.isReady_eq (s : State) : s.isReady = decide (s.lifecycle ≠ .config) := by
  unfold State.isReady
  cases s.lifecycle <;> simp

theorem State.getLsbD_statusWord (s : State) (i : Nat) : s.statusWord.getLsbD i =
    (decide (i = 0 ∧ s.run = .run) || decide (i = 1 ∧ s.run = .halted) ||
      decide (i = 2 ∧ s.run = .faulted) || decide (i = 3 ∧ s.lifecycle ≠ .config) ||
      decide (i = 4 ∧ s.lc ≠ none)) := by
  have hlc : s.lc.isSome = decide (s.lc ≠ none) := by cases s.lc <;> simp
  simp only [State.statusWord, BitVec.getLsbD_or, getLsbD_bitAt _ (by decide : 0 < 32),
    getLsbD_bitAt _ (by decide : 1 < 32), getLsbD_bitAt _ (by decide : 2 < 32),
    getLsbD_bitAt _ (by decide : 3 < 32), getLsbD_bitAt _ (by decide : 4 < 32), State.isReady_eq, hlc,
    Bool.decide_and]

theorem State.getLsbD_flagsWord (s : State) (i : Nat) : s.flagsWord.getLsbD i =
    (decide (i = 0 ∧ s.eq = true) || decide (i = 1 ∧ s.onc = true)) := by
  simp only [State.flagsWord, BitVec.getLsbD_or, getLsbD_bitAt _ (by decide : 0 < 32),
    getLsbD_bitAt _ (by decide : 1 < 32), Bool.decide_and, Bool.decide_eq_true]

/-- A phase has four bits. -/
theorem Phase.code_lt (phase : Phase) : phase.code < 2 ^ 4 := by cases phase <;> decide

theorem State.getLsbD_mlstatWord (s : State) (i : Nat) : s.mlstatWord.getLsbD i =
    if i < 16 then s.ml.i.getLsbD i
    else if i < 20 then s.ml.phase.code.testBit (i - 16)
    else if i = 20 then s.ml.active else decide (i = 21) && s.ml.variant := by
  simp only [State.mlstatWord, BitVec.getLsbD_or, getLsbD_bitAt _ (by decide : 20 < 32),
    getLsbD_bitAt _ (by decide : 21 < 32), BitVec.getLsbD_setWidth, BitVec.getLsbD_shiftLeft,
    BitVec.getLsbD_ofNat]
  split
  · next h => simp [h, show i < 32 by omega, show ¬i = 20 by omega, show ¬i = 21 by omega]
  · next h16 =>
    have hi : s.ml.i.getLsbD i = false := BitVec.getLsbD_of_ge _ _ (by omega)
    split
    · next h => simp [hi, h16, show i < 32 by omega, show i - 16 < 32 by omega, show ¬i = 20 by omega,
        show ¬i = 21 by omega]
    · have hphase : s.ml.phase.code.testBit (i - 16) = false :=
        Nat.testBit_eq_false_of_lt
          (s.ml.phase.code_lt.trans_le (Nat.pow_le_pow_right (by decide) (by omega)))
      rw [hi, hphase]
      by_cases h20 : i = 20 <;> simp [h20]

theorem hostReadCSR_past (s : State) {n : Nat} (h : 9 ≤ n) : hostReadCSR s n = 0#32 := by
  obtain ⟨k, rfl⟩ := Nat.exists_eq_add_of_le' h
  rfl

/-- Settles O57: one lemma a register. -/
theorem controlRegisterReads : Obligations.ControlRegisterReads := by
  refine fun s i => ⟨s.getLsbD_statusWord i, rfl, rfl, rfl, s.getLsbD_flagsWord i,
    s.getLsbD_mlstatWord i, rfl, hostReadCSR_past s, ?_⟩
  change s.irq = (s.ie && (s.statusWord.getLsbD 1 || s.statusWord.getLsbD 2))
  rw [State.getLsbD_statusWord, State.getLsbD_statusWord]
  simp [State.irq]

/-! ### What the host writes -/

theorem State.startable_iff (s : State) : s.startable = true ↔ s.run = .idle ∨ s.run = .halted := by
  simp [State.startable]

theorem hostReadCSR_ctrl (s : State) : hostReadCSR s 0 = if s.ie then 4#32 else 0#32 := by
  change bitAt s.ie 2 = _
  cases s.ie <;> rfl

/-- `SRST` alone acts; else `IE` is written and `START` acts in `IDLE` and `HALTED`. -/
theorem hostWriteCSR_ctrl (s : State) (v : BitVec 32) : hostWriteCSR s 0 v =
    if v.getLsbD 1 then s.softReset
    else if v.getLsbD 0 = true ∧ (s.run = .idle ∨ s.run = .halted) then
      { s with ie := v.getLsbD 2, run := .run }
    else { s with ie := v.getLsbD 2 } := by
  change s.writeCtrl v = _
  simp only [State.writeCtrl, Bool.and_eq_true, State.startable_iff]
  split
  · rfl
  · split <;> rfl

theorem hostWriteCSR_pc (s : State) (v : BitVec 32) : hostWriteCSR s 2 v =
    if s.run = .idle ∨ s.run = .halted then { s with pc := v.setWidth 16, pastTop := false }
    else s := by
  simp only [hostWriteCSR, State.startable_iff]

theorem hostWriteCSR_other (s : State) {n : Nat} (v : BitVec 32) (h0 : n ≠ 0) (h2 : n ≠ 2) :
    hostWriteCSR s n v = s := by
  unfold hostWriteCSR
  split
  · contradiction
  · contradiction
  · rfl

/-- Settles O58. -/
theorem controlRegisterWrites : Obligations.ControlRegisterWrites :=
  fun s _ v => ⟨hostReadCSR_ctrl s, rfl, hostWriteCSR_ctrl s v, hostWriteCSR_pc s v,
    hostWriteCSR_other s v⟩

/-! ### Host moves from a sound state -/

section HostMoves

variable {c : Config} {s : State} (h : s.Sound c)
include h

theorem State.Sound.softReset : s.softReset.Sound c :=
  sound_of_reset h.inRange.dm h.memory

theorem State.Sound.hostWriteDM {a v : Nat} {t : State} (ht : hostWriteDM s a v c = .next t) :
    t.Sound c := by
  unfold Machine.hostWriteDM at ht
  split at ht
  · cases ht
  · cases ht
    split
    · next ha =>
      obtain ⟨hdm, hcm, hdmAddr, hcmAddr⟩ := h.memory
      refine { h with
        inRange := { h.inRange with dm := fun b w hw => ?_ }
        memory := ⟨Memory.wf_write hdm _ _, hcm, fun b w hw => ?_, hcmAddr⟩ }
      · rw [Memory.read_write] at hw
        split at hw
        · exact Option.some.inj hw ▸ Nat.mod_lt _ (by positivity)
        · exact h.inRange.dm b w hw
      · rw [Memory.read_write] at hw
        split at hw
        · next hb => exact hb ▸ ha
        · exact hdmAddr b w hw
    · exact h

theorem State.Sound.hostWriteCM {a : Nat} {w : BitVec 32} {t : State}
    (ht : hostWriteCM s a w c = .next t) : t.Sound c := by
  unfold Machine.hostWriteCM at ht
  split at ht
  · cases ht
  · cases ht
    split
    · next ha =>
      obtain ⟨hdm, hcm, hdmAddr, hcmAddr⟩ := h.memory
      refine { h with
        inRange := { h.inRange with }
        memory := ⟨hdm, Memory.wf_write hcm _ _, hdmAddr, fun b x hx => ?_⟩ }
      rw [Memory.read_write] at hx
      split at hx
      · next hb => exact hb ▸ ha
      · exact hcmAddr b x hx
    · exact h

/-- `START` and a write of `PC` act only in a block that has not faulted, whose cause registers are
clear. -/
theorem State.Sound.hostWriteCSR (n : Nat) (v : BitVec 32) : (hostWriteCSR s n v).Sound c := by
  obtain ⟨hactive, hdata, hclear, hfaulted, htop⟩ := h.run
  by_cases h0 : n = 0
  · subst h0
    rw [hostWriteCSR_ctrl]
    split
    · exact h.softReset
    · split
      · next hstart =>
        have hrun : s.run ≠ .faulted := by rcases hstart.2 with hr | hr <;> simp [hr]
        exact { h with
          inRange := { h.inRange with }
          run := ⟨hactive, hdata, fun _ => hclear hrun, nofun, fun _ => .inl rfl⟩ }
      · exact { h with inRange := { h.inRange with } }
  · by_cases h2 : n = 2
    · subst h2
      rw [hostWriteCSR_pc]
      split
      · next hstart =>
        have hrun : s.run ≠ .faulted := by rcases hstart with hr | hr <;> simp [hr]
        exact { h with
          inRange := { h.inRange with }
          run := ⟨hactive, hdata, hclear, fun hf => absurd hf hrun, nofun⟩ }
      · exact h
    · rw [hostWriteCSR_other s v h0 h2]
      exact h

end HostMoves

/-- Settles O60. -/
theorem hostMovesKeepSound : Obligations.HostMovesKeepSound := fun _ h =>
  ⟨fun _ _ _ => h.hostWriteDM, fun _ _ _ => h.hostWriteCM, h.hostWriteCSR, h.softReset,
    sound_of_reset_empty _ _⟩

end Sys2Proof.Machine
end

section
/-! PROOFS. The faults of fetch and decode (O6). Each format of the decoder admits a word only when the
row of the opcode map with the format's limits does (`decode_onRow`), so that a word of no row is
illegal. -/

namespace Sys2Proof.Machine

open Sys2Proof

/-! ### A word that decodes is on a row of the opcode map -/

/-- A field check that succeeds bounds its field. -/
def Bounds {α : Type} (x : Except DecodeError α) (v n : Nat) : Prop := ∀ a, x = .ok a → v < n

theorem asReg_bounds (n v : Nat) : Bounds (asReg n v) v n := by
  intro _ h
  unfold asReg at h
  split at h
  · assumption
  · cases h

theorem asUnused_bounds (v : Nat) : Bounds (asUnused v) v 1 := by
  intro _ h
  unfold asUnused at h
  split at h
  · omega
  · cases h

theorem asMode_bounds (v : Nat) : Bounds (asMode v) v 2 := by
  intro _ h
  unfold asMode at h
  split at h
  · omega
  · split at h
    · omega
    · cases h

theorem asFlag_bounds (v : Nat) : Bounds (asFlag v) v 2 := by
  intro _ h
  unfold asFlag at h
  split at h
  · omega
  · split at h
    · omega
    · cases h

/-- A sequence of field checks succeeds when each of them does. -/
theorem check_bind_ok {α β : Type} {x : Except DecodeError α} {f : α → Except DecodeError β} {b : β}
    (h : (x >>= f) = .ok b) : ∃ a, x = .ok a ∧ f a = .ok b := by
  cases x with
  | error e => cases h
  | ok a => exact ⟨a, rfl, h⟩

/-- Some row of the opcode map admits the word. -/
def OnRow (w : BitVec 32) : Prop := ∃ r ∈ opcodeRows, r.admits w = true

section Formats

variable {w : BitVec 32} {i : Instr} {op n m k l : Nat}

theorem onRow_of_fields {rd rs1 rs2 aux : Nat} (hop : fieldOp w = op) (hrd : fieldRd w < rd)
    (hrs1 : fieldRs1 w < rs1) (hrs2 : fieldRs2 w < rs2) (haux : fieldAux w < aux)
    (hrow : ⟨op, rd, rs1, rs2, aux⟩ ∈ opcodeRows) : OnRow w :=
  ⟨_, hrow, by simp [OpcodeRow.admits, *]⟩

theorem fieldRs1_lt (w : BitVec 32) : fieldRs1 w < 64 := Nat.mod_lt _ (by decide)
theorem fieldRs2_lt (w : BitVec 32) : fieldRs2 w < 64 := Nat.mod_lt _ (by decide)
theorem fieldAux_lt (w : BitVec 32) : fieldAux w < 64 := Nat.mod_lt _ (by decide)

theorem formZ_onRow (hop : fieldOp w = op) {j : Instr} (h : formZ w j = .ok i)
    (hrow : ⟨op, 1, 1, 1, 1⟩ ∈ opcodeRows := by decide) : OnRow w := by
  obtain ⟨_, hlow, -⟩ := check_bind_ok h
  have hlow := asUnused_bounds _ _ hlow
  unfold fieldLow at hlow
  refine onRow_of_fields hop ?_ ?_ ?_ ?_ hrow
  · unfold fieldRd; omega
  · unfold fieldRs1; omega
  · unfold fieldRs2; omega
  · unfold fieldAux; omega

theorem formM_onRow (hop : fieldOp w = op) {mk : Fin n → Addr → Instr} (h : formM n w mk = .ok i)
    (hrow : ⟨op, n, 64, 64, 64⟩ ∈ opcodeRows := by decide) : OnRow w := by
  obtain ⟨_, hrd, -⟩ := check_bind_ok h
  exact onRow_of_fields hop (asReg_bounds _ _ _ hrd) (fieldRs1_lt w) (fieldRs2_lt w) (fieldAux_lt w)
    hrow

theorem formLdp_onRow (hop : fieldOp w = 4) (h : formLdp w = .ok i) : OnRow w := by
  unfold formLdp at h
  split at h
  · next hrd =>
    exact onRow_of_fields hop hrd (fieldRs1_lt w) (fieldRs2_lt w) (fieldAux_lt w) (by decide)
  · cases h

/-- A format of four field checks. -/
theorem onRow_of_checks {rd rs1 rs2 aux : Nat} {α β γ δ : Type} {x : Except DecodeError α}
    {y : Except DecodeError β} {z : Except DecodeError γ} {u : Except DecodeError δ}
    {mk : α → β → γ → δ → Except DecodeError Instr} (hop : fieldOp w = op)
    (h : (x >>= fun a => y >>= fun b => z >>= fun c => u >>= mk a b c) = .ok i)
    (hx : Bounds x (fieldRd w) rd) (hy : Bounds y (fieldRs1 w) rs1) (hz : Bounds z (fieldRs2 w) rs2)
    (hu : Bounds u (fieldAux w) aux)
    (hrow : ⟨op, rd, rs1, rs2, aux⟩ ∈ opcodeRows) : OnRow w := by
  obtain ⟨_, hrd, h⟩ := check_bind_ok h
  obtain ⟨_, hrs1, h⟩ := check_bind_ok h
  obtain ⟨_, hrs2, h⟩ := check_bind_ok h
  obtain ⟨_, haux, -⟩ := check_bind_ok h
  exact onRow_of_fields hop (hx _ hrd) (hy _ hrs1) (hz _ hrs2) (hu _ haux) hrow

theorem formD_onRow (hop : fieldOp w = op) {mk : Fin n → Instr}
    (h : formD n w mk = .ok i)
    (hrow : ⟨op, n, 1, 1, 1⟩ ∈ opcodeRows := by decide) : OnRow w :=
  onRow_of_checks hop h
    (asReg_bounds _ _) (asUnused_bounds _) (asUnused_bounds _) (asUnused_bounds _) hrow

theorem formS_onRow (hop : fieldOp w = op) {mk : Fin n → Instr}
    (h : formS n w mk = .ok i)
    (hrow : ⟨op, 1, n, 1, 1⟩ ∈ opcodeRows := by decide) : OnRow w :=
  onRow_of_checks hop h
    (asUnused_bounds _) (asReg_bounds _ _) (asUnused_bounds _) (asUnused_bounds _) hrow

theorem formDS_onRow (hop : fieldOp w = op) {mk : Fin n → Fin m → Instr}
    (h : formDS n m w mk = .ok i)
    (hrow : ⟨op, n, m, 1, 1⟩ ∈ opcodeRows := by decide) : OnRow w :=
  onRow_of_checks hop h
    (asReg_bounds _ _) (asReg_bounds _ _) (asUnused_bounds _) (asUnused_bounds _) hrow

theorem formSS_onRow (hop : fieldOp w = op) {mk : Fin n → Fin m → Instr}
    (h : formSS n m w mk = .ok i)
    (hrow : ⟨op, 1, n, m, 1⟩ ∈ opcodeRows := by decide) : OnRow w :=
  onRow_of_checks hop h
    (asUnused_bounds _) (asReg_bounds _ _) (asReg_bounds _ _) (asUnused_bounds _) hrow

theorem formDSS_onRow (hop : fieldOp w = op) {mk : Fin n → Fin m → Fin k → Instr}
    (h : formDSS n m k w mk = .ok i)
    (hrow : ⟨op, n, m, k, 1⟩ ∈ opcodeRows := by decide) : OnRow w :=
  onRow_of_checks hop h
    (asReg_bounds _ _) (asReg_bounds _ _) (asReg_bounds _ _) (asUnused_bounds _) hrow

theorem formDSSS_onRow (hop : fieldOp w = op) {mk : Fin n → Fin m → Fin k → Fin l → Instr}
    (h : formDSSS n m k l w mk = .ok i)
    (hrow : ⟨op, n, m, k, l⟩ ∈ opcodeRows := by decide) : OnRow w :=
  onRow_of_checks hop h
    (asReg_bounds _ _) (asReg_bounds _ _) (asReg_bounds _ _) (asReg_bounds _ _) hrow

theorem formDSM_onRow (hop : fieldOp w = op) {mk : Fin n → Fin m → Mode → Instr}
    (h : formDSM n m w mk = .ok i)
    (hrow : ⟨op, n, m, 1, 2⟩ ∈ opcodeRows := by decide) : OnRow w :=
  onRow_of_checks hop h
    (asReg_bounds _ _) (asReg_bounds _ _) (asUnused_bounds _) (asMode_bounds _) hrow

theorem formDSSM_onRow (hop : fieldOp w = op) {mk : Fin n → Fin m → Fin k → Mode → Instr}
    (h : formDSSM n m k w mk = .ok i)
    (hrow : ⟨op, n, m, k, 2⟩ ∈ opcodeRows := by decide) : OnRow w :=
  onRow_of_checks hop h
    (asReg_bounds _ _) (asReg_bounds _ _) (asReg_bounds _ _) (asMode_bounds _) hrow

theorem formDSI_onRow (hop : fieldOp w = op) {mk : Fin n → Fin m → Bool → Instr}
    (h : formDSI n m w mk = .ok i)
    (hrow : ⟨op, n, m, 1, 2⟩ ∈ opcodeRows := by decide) : OnRow w :=
  onRow_of_checks hop h
    (asReg_bounds _ _) (asReg_bounds _ _) (asUnused_bounds _) (asFlag_bounds _) hrow

theorem formDSX_onRow (hop : fieldOp w = op) {mk : Fin n → Fin m → Exponent → Instr}
    (h : formDSX n m w mk = .ok i)
    (hrow : ⟨op, n, m, 1, 64⟩ ∈ opcodeRows := by decide) : OnRow w := by
  obtain ⟨_, hrd, h⟩ := check_bind_ok h
  obtain ⟨_, hrs1, h⟩ := check_bind_ok h
  obtain ⟨_, hrs2, -⟩ := check_bind_ok h
  exact onRow_of_fields hop (asReg_bounds _ _ _ hrd) (asReg_bounds _ _ _ hrs1)
    (asUnused_bounds _ _ hrs2) (fieldAux_lt w) hrow

/-- The decoder reads each opcode in the format, and with the limits, of its row: one line a format. -/
theorem decode_onRow (h : decode w = .ok i) : OnRow w := by
  unfold decode at h
  split at h
  case h_63 => cases h
  any_goals with_reducible exact formZ_onRow ‹_› h
  any_goals with_reducible exact formLdp_onRow ‹_› h
  any_goals with_reducible exact formM_onRow ‹_› h
  any_goals with_reducible exact formD_onRow ‹_› h
  any_goals with_reducible exact formS_onRow ‹_› h
  any_goals with_reducible exact formDS_onRow ‹_› h
  any_goals with_reducible exact formSS_onRow ‹_› h
  any_goals with_reducible exact formDSS_onRow ‹_› h
  any_goals with_reducible exact formDSX_onRow ‹_› h
  any_goals with_reducible exact formDSM_onRow ‹_› h
  any_goals with_reducible exact formDSI_onRow ‹_› h
  any_goals with_reducible exact formDSSM_onRow ‹_› h
  exact formDSSS_onRow ‹_› h

end Formats

/-- A word of no row is illegal. -/
theorem decode_error_of_no_row {w : BitVec 32} (h : ∀ r ∈ opcodeRows, r.admits w = false) :
    ∃ e, decode w = .error e := by
  cases hd : decode w with
  | error e => exact ⟨e, rfl⟩
  | ok i =>
    obtain ⟨r, hr, hadm⟩ := decode_onRow hd
    exact absurd hadm (by simp [h r hr])

/-! ### Faults of a step before a command is executed -/

section StepFaults

variable {s : State} (hrun : s.run = .run)
include hrun

/-- A fetch fault is outside a Miller loop, like every fault before execution. -/
theorem step_fetch_error {r : Raise} (h : s.fetch Config.machine = .error r) :
    step s = .next (s.faultEntry r.cause.code.toNat r.einfo) := by
  have hstep : r.step = none := by
    obtain ⟨-, rfl⟩ | ⟨-, -, -, rfl⟩ := State.fetch_error_iff.mp h <;> rfl
  obtain ⟨cause, einfo, _⟩ := r
  subst hstep
  rw [← State.enterFault_plain]
  simp only [step, hrun, h]

theorem step_illegal {w : BitVec 32} (h : s.fetch Config.machine = .ok w) {e : DecodeError}
    (hd : decode w = .error e) : step s = .next (s.faultEntry 4 w) := by
  simp only [step, hrun, h, hd]
  rfl

/-- A counter past the top is past every memory. -/
theorem step_past_top (htop : s.pastTop = true) :
    step s = .next (s.faultEntry 6 (BitVec.ofNat 32 (2 * 2 ^ 28 + s.pc.toNat))) :=
  step_fetch_error hrun (State.fetch_error_iff.mpr (.inl ⟨.inl htop, rfl⟩))

end StepFaults

/-- Settles O6. The last clause: a command that completes at index 0xFFFF leaves the counter past the
top. -/
theorem fetchAndDecodeFaults : Obligations.FetchAndDecodeFaults := by
  refine ⟨fun c s h => State.fetch_error_iff.mpr (.inl ⟨h, rfl⟩),
    fun s r hrun => step_fetch_error hrun, ?_, ?_, ?_⟩
  · intro s hrun htop hpc hread
    exact step_fetch_error hrun (State.fetch_error_iff.mpr (.inr ⟨htop, hpc, hread, rfl⟩))
  · intro s w hrun htop hpc hread hrows
    obtain ⟨e, he⟩ := decode_error_of_no_row hrows
    exact step_illegal hrun (State.fetch_ok_iff.mpr ⟨htop, hpc, hread⟩) he
  · intro i s t _ hpc hi h ht
    obtain ⟨hhalt, -⟩ | ⟨-, u, hu, rfl⟩ | ⟨-, r, -, rfl⟩ := exec_cases h
    · exact absurd hhalt hi
    · refine step_past_top ht ?_
      rw [State.advance_top _ u (hu.pc.trans hpc)]
    · cases ht

end Sys2Proof.Machine
end

section
/-! PROOFS. `LDP` of every slot (O18, O19, O20): what an image that `DM` holds loads as, and the first
word of it that is reported. -/

namespace Sys2Proof.Machine

open Sys2Proof

/-! ### A command of a block of any size -/

section Executes

variable {c : Config} {execute : Instr → State → Host.Outcome State Fault Refusal}
  (h : Executes c execute)
include h

theorem Executes.ldp (slot : SlotField) (addr : Addr) (s : State) :
    execute (.ldp slot addr) s = execLdp slot addr s c := by
  obtain ⟨rfl, rfl⟩ | ⟨_, _, _, rfl, rfl⟩ := h <;> rfl

theorem Executes.p_eq : c.p = Config.prime := by
  obtain ⟨rfl, -⟩ | ⟨_, _, _, rfl, -⟩ := h <;> rfl

theorem Executes.dmWords_le : c.dmWords ≤ 2 ^ 18 := by
  obtain ⟨rfl, -⟩ | ⟨_, _, hle, rfl, -⟩ := h
  · exact Config.dmWords_le
  · exact hle

end Executes

/-! ### Words that `DM` holds -/

section Words

variable {c : Config} {s : State} {a n : Nat} {v : Nat → Nat}

theorem memRead_of_holds (h : s.Holds c a n v) : s.memRead c a n = .ok ((List.range n).map v) :=
  State.memRead_ok_iff.mpr ⟨h.1, by simp, fun k hk => by simp [h.2 k hk, hk]⟩

theorem word_map_range {k : Nat} (hk : k < n) : word ((List.range n).map v) k = v k := by
  simp [word, hk]

theorem deg11At_map_range {off : Nat} (h : off + 11 ≤ n) :
    deg11At ((List.range n).map v) off = Vector.ofFn fun i : Fin 11 => v (off + i.val) := by
  unfold deg11At
  congr 1
  funext i
  exact word_map_range (by omega)

theorem FirstBad.congr {bad bad' : Nat → Prop} {k : Nat} (h : FirstBad n bad k)
    (hb : ∀ j, bad j ↔ bad' j) : FirstBad n bad' k := by
  simpa only [FirstBad, hb] using h

theorem checkImage_all {slot k : Nat} {ok : Nat → Bool} (h : ∀ j, j < n → ok (v j) = true) :
    checkImage slot ok k ((List.range n).map v) = .ok () :=
  checkImage_ok_iff.mpr (by simpa using h)

/-- The first word that breaks its range is reported, at its place in the image. -/
theorem checkImage_firstBad {slot k j : Nat} {ok : Nat → Bool}
    (h : FirstBad n (fun i => ok (v i) = false) j) :
    checkImage slot ok k ((List.range n).map v) = paramFault slot (k + j) := by
  induction n generalizing k v j with
  | zero => exact absurd h.1 (Nat.not_lt_zero j)
  | succ n ih =>
    obtain ⟨hj, hbad, hgood⟩ := h
    rw [List.range_succ_eq_map, List.map_cons, List.map_map, checkImage]
    cases j with
    | zero => simp [hbad]
    | succ j =>
      have h0 : ok (v 0) = true := by simpa using hgood 0 (Nat.succ_pos j)
      have htail : FirstBad n (fun i => ok ((v ∘ Nat.succ) i) = false) j :=
        ⟨Nat.lt_of_succ_lt_succ hj, hbad, fun i hi => hgood (i + 1) (by omega)⟩
      rw [if_pos h0, ih htail, Nat.add_assoc, Nat.add_comm 1 j]

end Words

/-! ### From the image of a slot to the end of `LDP` -/

section Ldp

variable {c : Config} {s : State} {slot : SlotField} {addr : Addr} {α : Type} {x : Except Raise α}
  {upd : α → ParamStore} (hconfig : s.lifecycle = .config)
include hconfig

theorem execLdp_of_ok {v : α} {prm : ParamStore} (hx : x = .ok v)
    (hslot : loadSlot c s addr.val slot.val = some (x >>= fun v => pure (upd v)) := by rfl)
    (hprm : upd v = prm := by rfl) :
    execLdp slot addr s c = .next ({ s with prm := prm }.advance c) := by
  simp [execLdp, hslot, State.needConfig, hconfig, hx, hprm]

theorem execLdp_of_raise {cause : Cause} {einfo : BitVec 32} (hx : x = raise cause einfo)
    (hslot : loadSlot c s addr.val slot.val = some (x >>= fun v => pure (upd v)) := by rfl) :
    execLdp slot addr s c = .next (s.faultEntry cause.code.toNat einfo) := by
  rw [← finish_raise c]
  simp only [execLdp, hslot, State.needConfig, hconfig, hx]
  rfl

end Ldp

/-! ### Slots of one word -/

section OneWord

variable {c : Config} {s : State} {a : Nat} {v : Nat → Nat} (slot : Nat) {ok : Nat → Bool}
  (h : s.Holds c a 1 v)
include h

theorem loadWord_of_ok (hok : ok (v 0) = true) : loadWord c s slot a ok = .ok (v 0) := by
  rw [loadWord, memRead_of_holds h]
  simp [checkImage, hok, word]

theorem loadWord_of_bad (hbad : ok (v 0) = false) : loadWord c s slot a ok = paramFault slot 0 := by
  rw [loadWord, memRead_of_holds h]
  simp [checkImage, hbad]
  rfl

end OneWord

/-! ### Slots of tower elements -/

section Elements

variable {c : Config} {s : State} {a : Nat} {v : Nat → Nat}

theorem loadElement_of_below (slot : Nat) (h : s.Holds c a 11 v) (hv : ∀ k, k < 11 → v k < c.p) :
    loadElement c s slot a = .ok (Vector.ofFn fun i : Fin 11 => v i.val) := by
  rw [loadElement, memRead_of_holds h, ok_bind, checkImage_all (by simpa using hv), ok_bind,
    deg11At_map_range (by decide)]
  simp

theorem loadElement_of_firstBad (slot : Nat) (h : s.Holds c a 11 v) {k : Nat}
    (hk : FirstBad 11 (fun j => c.p ≤ v j) k) : loadElement c s slot a = paramFault slot k := by
  rw [loadElement, memRead_of_holds h, ok_bind, checkImage_firstBad (hk.congr (by simp)), Nat.zero_add]
  rfl

theorem loadGen_of_below (h : s.Holds c a 22 v) (hv : ∀ k, k < 22 → v k < c.p) :
    loadGen c s a =
      .ok (Vector.ofFn fun i : Fin 11 => v i.val, Vector.ofFn fun i : Fin 11 => v (11 + i.val)) := by
  rw [loadGen, memRead_of_holds h, ok_bind, checkImage_all (by simpa using hv), ok_bind,
    deg11At_map_range (by decide), deg11At_map_range (by decide)]
  simp

theorem loadGen_of_firstBad (h : s.Holds c a 22 v) {k : Nat}
    (hk : FirstBad 22 (fun j => c.p ≤ v j) k) : loadGen c s a = paramFault 4 k := by
  rw [loadGen, memRead_of_holds h, ok_bind, checkImage_firstBad (hk.congr (by simp)), Nat.zero_add]
  rfl

/-- The five slots of one element each are loaded alike. -/
theorem loadSlot_element {slot : Nat} (hslot : slot ∈ [2, 3, 5, 6, 7]) : ∃ upd : Deg11 → ParamStore,
    loadSlot c s a slot = some (loadElement c s slot a >>= fun v => pure (upd v)) := by
  simp only [List.mem_cons, List.not_mem_nil, or_false] at hslot
  obtain rfl | rfl | rfl | rfl | rfl := hslot <;> exact ⟨_, rfl⟩

end Elements

/-- Settles O19. -/
theorem loadElementParameters : Obligations.LoadElementParameters := by
  intro c execute hexec addr s v hconfig
  rw [← hexec.p_eq]
  simp only [hexec.ldp]
  refine ⟨fun h hv => ?_, fun h hv => ?_, fun k h hk slot hslot => ?_, fun k h hk => ?_⟩
  · have hload := fun slot => loadElement_of_below slot h hv
    exact ⟨execLdp_of_ok hconfig (hload 2), execLdp_of_ok hconfig (hload 3),
      execLdp_of_ok hconfig (hload 5), execLdp_of_ok hconfig (hload 6),
      execLdp_of_ok hconfig (hload 7)⟩
  · exact execLdp_of_ok hconfig (loadGen_of_below h hv)
  · obtain ⟨upd, hupd⟩ := loadSlot_element hslot
    exact execLdp_of_raise hconfig (loadElement_of_firstBad slot.val h hk) hupd
  · exact execLdp_of_raise hconfig (loadGen_of_firstBad h hk)

/-! ### The digit strings -/

/-- What `LDP` does with the `n` digits from `a` up, once their number is legal. -/
def loadDigitWords (c : Config) (s : State) (slot a n : Nat) : Except Raise (List Digit) := do
  let ws ← s.memRead c a n
  checkImage slot (fun v => decide (v ≤ 2)) 1 ws
  if word ws (n - 1) = 1 then pure (ws.map digitOf) else paramFault slot n

section Digits

variable {c : Config} {s : State} {a n : Nat} (h : s.Holds c a 1 fun _ => n)
include h

/-- The length is checked before the digits are read. -/
theorem loadDigits_of_length (slot : Nat) : loadDigits c s slot a =
    if c.nafMax < n then raise .allocFailure (BitVec.ofNat 32 n)
    else if n < 2 then paramFault slot 0
    else loadDigitWords c s slot (a + 1) n := by
  rw [loadDigits, memRead_of_holds h]
  rfl

theorem loadDigits_too_long (slot : Nat) (hmax : c.nafMax < n) :
    loadDigits c s slot a = raise .allocFailure (BitVec.ofNat 32 n) := by
  rw [loadDigits_of_length h, if_pos hmax]

theorem loadDigits_too_short (slot : Nat) (hmax : n ≤ c.nafMax) (hmin : n < 2) :
    loadDigits c s slot a = paramFault slot 0 := by
  rw [loadDigits_of_length h, if_neg hmax.not_gt, if_pos hmin]

section LegalLength

variable (slot : Nat) (hmin : 2 ≤ n) (hmax : n ≤ c.nafMax)
include hmin hmax

theorem loadDigits_of_legal_length : loadDigits c s slot a = loadDigitWords c s slot (a + 1) n := by
  rw [loadDigits_of_length h, if_neg hmax.not_gt, if_neg hmin.not_gt]

theorem loadDigits_past_end (hend : c.dmWords < a + 1 + n) :
    loadDigits c s slot a = raise .addressFault (locDM (a + n)) := by
  have hread : s.memRead c (a + 1) n = raise .addressFault (locDM (a + n)) :=
    State.memRead_error_iff.mpr (.inl ⟨hend, by rw [show a + 1 + n - 1 = a + n by omega]⟩)
  rw [loadDigits_of_legal_length h slot hmin hmax, loadDigitWords, hread]
  rfl

theorem loadDigits_unwritten (hend : a + 1 + n ≤ c.dmWords) {k : Nat}
    (hk : FirstBad n (fun j => Memory.read s.dm (a + 1 + j) = none) k) :
    loadDigits c s slot a = raise .unwrittenRead (locDM (a + 1 + k)) := by
  obtain ⟨hlt, hnone, hwritten⟩ := hk
  have hread : s.memRead c (a + 1) n = raise .unwrittenRead (locDM (a + 1 + k)) :=
    State.memRead_error_iff.mpr (.inr ⟨hend, k, hlt, hnone, hwritten, rfl⟩)
  rw [loadDigits_of_legal_length h slot hmin hmax, loadDigitWords, hread]
  rfl

section Written

variable {v : Nat → Nat} (hv : s.Holds c (a + 1) n v)
include hv

theorem loadDigits_bad_code {i : Nat} (hi : FirstBad n (fun j => 2 < v j) i) :
    loadDigits c s slot a = paramFault slot (1 + i) := by
  rw [loadDigits_of_legal_length h slot hmin hmax, loadDigitWords, memRead_of_holds hv, ok_bind,
    checkImage_firstBad (hi.congr (by simp))]
  rfl

theorem loadDigits_of_codes (hcodes : ∀ i, i < n → v i ≤ 2) : loadDigits c s slot a =
    if v (n - 1) = 1 then .ok ((List.range n).map fun i => digitOf (v i)) else paramFault slot n := by
  rw [loadDigits_of_legal_length h slot hmin hmax, loadDigitWords, memRead_of_holds hv, ok_bind,
    checkImage_all (by simpa using hcodes), ok_bind, word_map_range (by omega), List.map_map]
  rfl

theorem loadDigits_top_not_plus (hcodes : ∀ i, i < n → v i ≤ 2) (htop : v (n - 1) ≠ 1) :
    loadDigits c s slot a = paramFault slot n := by
  rw [loadDigits_of_codes h slot hmin hmax hv hcodes, if_neg htop]

theorem loadDigits_of_legal (hcodes : ∀ i, i < n → v i ≤ 2) (htop : v (n - 1) = 1) :
    loadDigits c s slot a = .ok ((List.range n).map fun i => digitOf (v i)) := by
  rw [loadDigits_of_codes h slot hmin hmax hv hcodes, if_pos htop]

end Written

end LegalLength

end Digits

/-- Settles O20. -/
theorem loadDigitParameters : Obligations.LoadDigitParameters := by
  intro c execute hexec addr s n v hconfig h
  have haddr := addr.isLt
  have hsize := hexec.dmWords_le
  simp only [hexec.ldp]
  refine ⟨fun hmax => ?_, fun hmax hmin => ?_, fun hmin hmax hend => ?_,
    fun hmin hmax hend k hk => ?_, fun hmin hmax hv => ⟨fun hcodes htop => ?_, fun hcodes htop => ?_,
      fun i hi => ?_⟩⟩
  · have hload := fun slot => loadDigits_too_long h slot hmax
    exact ⟨execLdp_of_raise hconfig (hload 8), execLdp_of_raise hconfig (hload 9)⟩
  · have hload := fun slot => loadDigits_too_short h slot hmax hmin
    exact ⟨execLdp_of_raise hconfig (hload 8), execLdp_of_raise hconfig (hload 9)⟩
  · have hload := fun slot => loadDigits_past_end h slot hmin hmax hend
    rw [locDM, Nat.one_mul] at hload
    exact ⟨execLdp_of_raise hconfig (hload 8), execLdp_of_raise hconfig (hload 9)⟩
  · have hload := fun slot => loadDigits_unwritten h slot hmin hmax hend hk
    have hk := hk.1
    rw [locDM_eq (by omega)] at hload
    exact ⟨execLdp_of_raise hconfig (hload 8), execLdp_of_raise hconfig (hload 9)⟩
  · have hload := fun slot => loadDigits_of_legal h slot hmin hmax hv hcodes htop
    exact ⟨execLdp_of_ok hconfig (hload 8), execLdp_of_ok hconfig (hload 9)⟩
  · have hload := fun slot => loadDigits_top_not_plus h slot hmin hmax hv hcodes htop
    exact ⟨execLdp_of_raise hconfig (hload 8), execLdp_of_raise hconfig (hload 9)⟩
  · have hload := fun slot => loadDigits_bad_code h slot hmin hmax hv hi
    exact ⟨execLdp_of_raise hconfig (hload 8), execLdp_of_raise hconfig (hload 9)⟩

/-! ### Slot `POST` -/

/-- The largest value of word `j` of the image of `POST` (`10_state.md` R33). -/
def postBound (j : Nat) : Nat := if j % 3 = 0 then 2 else if j % 3 = 1 then 21 else 1

/-- Both entries have the same three ranges. -/
theorem postBound_add_three (j : Nat) : postBound (3 + j) = postBound j := by simp [postBound]

section Post

variable {n k : Nat} {v : Nat → Nat}

theorem postEntry_of_le (hk : k + 3 ≤ n) (h : ∀ j, j < 3 → v (k + j) ≤ postBound j) :
    postEntry ((List.range n).map v) k =
      .ok ⟨sourceOf (v k), Fin.ofNat 22 (v (k + 1)), decide (v (k + 2) = 1)⟩ := by
  have h0 : v k ≤ 2 := h 0 (by decide)
  have h1 : v (k + 1) ≤ 21 := h 1 (by decide)
  have h2 : v (k + 2) ≤ 1 := h 2 (by decide)
  rw [postEntry, word_map_range (by omega), word_map_range (by omega), word_map_range (by omega),
    if_neg h0.not_gt, if_neg h1.not_gt, if_neg h2.not_gt]

/-- The first word of an entry that breaks its range is reported. -/
theorem postEntry_of_firstBad (hk : k + 3 ≤ n) {j : Nat}
    (h : FirstBad 3 (fun j => postBound j < v (k + j)) j) :
    postEntry ((List.range n).map v) k = paramFault 11 (k + j) := by
  obtain ⟨hj, hbad, hgood⟩ := h
  rw [postEntry, word_map_range (by omega), word_map_range (by omega), word_map_range (by omega)]
  interval_cases j
  · exact if_pos hbad
  · rw [if_neg (show ¬2 < v k from hgood 0 (by decide))]
    exact if_pos hbad
  · rw [if_neg (show ¬2 < v k from hgood 0 (by decide)),
      if_neg (show ¬21 < v (k + 1) from hgood 1 (by decide))]
    exact if_pos hbad

variable {c : Config} {s : State} {a : Nat} (h : s.Holds c a 6 v)
include h

/-- The two entries one after the other, on the words of the image. -/
theorem loadPost_of_holds : loadPost c s a = (do
    let p0 ← postEntry ((List.range 6).map v) 0
    let p1 ← postEntry ((List.range 6).map v) 3
    pure (p0, p1)) := by
  rw [loadPost, memRead_of_holds h, ok_bind]

theorem loadPost_of_le (hv : ∀ k, k < 6 → v k ≤ postBound k) : loadPost c s a =
    .ok (⟨sourceOf (v 0), Fin.ofNat 22 (v 1), decide (v 2 = 1)⟩,
      ⟨sourceOf (v 3), Fin.ofNat 22 (v 4), decide (v 5 = 1)⟩) := by
  have hfirst : ∀ j, j < 3 → v (0 + j) ≤ postBound j := fun j hj => by
    simpa using hv j (by omega)
  have hsecond : ∀ j, j < 3 → v (3 + j) ≤ postBound j := fun j hj =>
    postBound_add_three j ▸ hv (3 + j) (by omega)
  rw [loadPost_of_holds h, postEntry_of_le (by decide) hfirst, ok_bind,
    postEntry_of_le (by decide) hsecond, ok_bind]
  rfl

theorem loadPost_of_firstBad {k : Nat} (hk : FirstBad 6 (fun j => postBound j < v j) k) :
    loadPost c s a = paramFault 11 k := by
  obtain ⟨hlt, hbad, hgood⟩ := hk
  rw [loadPost_of_holds h]
  by_cases hk3 : k < 3
  · have hfirst : FirstBad 3 (fun j => postBound j < v (0 + j)) k := by
      simpa only [Nat.zero_add] using ⟨hk3, hbad, hgood⟩
    rw [postEntry_of_firstBad (by decide) hfirst, Nat.zero_add]
    rfl
  · obtain ⟨i, rfl⟩ := Nat.exists_eq_add_of_le (Nat.le_of_not_lt hk3)
    have hfirst : ∀ j, j < 3 → v (0 + j) ≤ postBound j := fun j hj => by
      simpa using hgood j (by omega)
    have hsecond : FirstBad 3 (fun j => postBound j < v (3 + j)) i := by
      refine ⟨by omega, by simpa only [postBound_add_three] using hbad, fun j hj => ?_⟩
      simpa only [postBound_add_three] using hgood (3 + j) (by omega)
    rw [postEntry_of_le (by decide) hfirst, ok_bind, postEntry_of_firstBad (by decide) hsecond]
    rfl

end Post

/-- The two slots of one bit: `TWIST` and `SEEDFIX`. -/
theorem execLdp_bit {c : Config} {s : State} {slot : SlotField} {addr : Addr} {v : Nat → Nat}
    {upd : Nat → ParamStore} {prm0 prm1 : ParamStore} (hconfig : s.lifecycle = .config)
    (h : s.Holds c addr.val 1 v)
    (hslot : loadSlot c s addr.val slot.val = some
      (loadWord c s slot.val addr.val (fun v => decide (v ≤ 1)) >>= fun v => pure (upd v)) := by rfl)
    (hprm0 : upd 0 = prm0 := by rfl) (hprm1 : upd 1 = prm1 := by rfl) :
    execLdp slot addr s c = .next
      (if v 0 = 0 then { s with prm := prm0 }.advance c
      else if v 0 = 1 then { s with prm := prm1 }.advance c
      else s.faultEntry 10 (BitVec.ofNat 32 (slot.val + 256 * 0))) := by
  split
  · next h0 =>
    exact execLdp_of_ok hconfig (loadWord_of_ok _ h (by simp [h0])) hslot (by rw [h0, hprm0])
  · split
    · next h1 =>
      exact execLdp_of_ok hconfig (loadWord_of_ok _ h (by simp [h1])) hslot (by rw [h1, hprm1])
    · have hbad : ¬v 0 ≤ 1 := by omega
      exact execLdp_of_raise hconfig (loadWord_of_bad _ h (by simpa using hbad)) hslot

/-- Settles O18. -/
theorem loadWordParameters : Obligations.LoadWordParameters := by
  intro c execute hexec addr s v hconfig
  rw [← hexec.p_eq]
  simp only [hexec.ldp]
  refine ⟨fun h => ⟨?_, execLdp_bit hconfig h, execLdp_bit hconfig h⟩,
    fun h => ⟨fun hv => execLdp_of_ok hconfig (loadPost_of_le h hv),
      fun k hk => execLdp_of_raise hconfig (loadPost_of_firstBad h hk)⟩⟩
  split
  · next hok =>
    refine execLdp_of_ok hconfig (loadWord_of_ok 0 h ?_)
    simpa using hok
  · next hbad =>
    refine execLdp_of_raise hconfig (loadWord_of_bad 0 h ?_)
    simpa using hbad

end Sys2Proof.Machine
end

section
/-! PROOFS. The two memories (O8, O12, O23, O50, O59): every command answers a next state, a step keeps
both memories sound, and what an access to `DM` does, by a command or by the host. A command that reads
`DM` is a `memRead` and what follows it (`execIn_reads`); a store is the `memWrite` of the image of its
register (`execIn_stores`). -/

namespace Sys2Proof.Machine

open Sys2Proof

/-! ### Sound memories -/

/-- A command changes `DM` by a store that fits alone, and never `CM`. -/
theorem Effect.memorySound {c : Config} {s u : State} {i : Instr} (h : Effect c s i u)
    (hs : s.MemorySound c) : u.MemorySound c := by
  cases h with
  | words _ hfit =>
    obtain ⟨hdm, hcm, hdmAddr, hcmAddr⟩ := hs
    refine ⟨Memory.wf_writeAll hdm _ _, hcm, fun b v hread => ?_, hcmAddr⟩
    rw [Memory.read_writeAll] at hread
    split at hread
    · next hinside => exact hinside.2.trans_le hfit
    · exact hdmAddr b v hread
  | _ => exact hs

/-- Settles O50: of what a step can come to (`step_cases`) only the completion of a command writes a
memory. -/
theorem stepKeepsMemorySound : Obligations.StepKeepsMemorySound := by
  intro s t hs ht
  obtain rfl | ⟨-, -, rfl⟩ | ⟨-, i, u, hu, rfl⟩ | ⟨-, r, rfl⟩ := step_cases ht
  · exact hs
  · exact hs
  · simpa [State.MemorySound] using hu.memorySound hs
  · exact hs

/-! ### Every command answers a next state -/

theorem exec_answers (i : Instr) (s : State) : ∃ t, exec i s = .next t := by
  by_cases hi : i = .halt
  · subst hi
    exact ⟨_, rfl⟩
  · obtain ⟨x, hx, -, -⟩ := exec_does i s hi
    exact ⟨_, hx⟩

theorem step_answers (s : State) : ∃ t, step s = .next t := by
  unfold step
  split
  · split
    · exact ⟨_, rfl⟩
    · split
      · exact ⟨_, rfl⟩
      · exact exec_answers _ s
  · exact ⟨_, rfl⟩

/-! ### The host's transactions -/

section HostMemory

variable {c : Config} {s : State}

section Running

variable (hrun : s.run = .run)
include hrun

theorem hostWriteDM_of_run (a v : Nat) : hostWriteDM s a v c = .refused .hostAccessWhileRunning :=
  if_pos hrun

theorem hostWriteCM_of_run (a : Nat) (w : BitVec 32) :
    hostWriteCM s a w c = .refused .hostAccessWhileRunning :=
  if_pos hrun

theorem hostReadDM_of_run (a : Nat) : hostReadDM s a = .error .hostAccessWhileRunning := if_pos hrun

theorem hostReadCM_of_run (a : Nat) : hostReadCM s a = .error .hostAccessWhileRunning := if_pos hrun

end Running

section NotRunning

variable (hrun : s.run ≠ .run)
include hrun

theorem hostWriteDM_of_not_run (a v : Nat) : hostWriteDM s a v c =
    .next { s with dm := if a < c.dmWords then Memory.write s.dm a (v % 2 ^ c.w) else s.dm } := by
  rw [hostWriteDM, if_neg hrun]
  split <;> rfl

theorem hostWriteCM_of_not_run (a : Nat) (w : BitVec 32) : hostWriteCM s a w c =
    .next { s with cm := if a < c.cmWords then Memory.write s.cm a w else s.cm } := by
  rw [hostWriteCM, if_neg hrun]
  split <;> rfl

theorem hostReadDM_of_not_run (a : Nat) : hostReadDM s a = .ok ((Memory.read s.dm a).getD 0) :=
  if_neg hrun

theorem hostReadCM_of_not_run (a : Nat) : hostReadCM s a = .ok ((Memory.read s.cm a).getD 0#32) :=
  if_neg hrun

end NotRunning

/-- A sound state lists no word past `DM`. -/
theorem State.MemorySound.read_dm_past (h : s.MemorySound c) {a : Nat} (ha : c.dmWords ≤ a) :
    Memory.read s.dm a = none := by
  obtain ⟨-, -, hdmAddr, -⟩ := h
  exact Option.eq_none_iff_forall_ne_some.mpr fun v hv => (hdmAddr a v hv).not_ge ha

/-- A sound state lists no word past `CM`. -/
theorem State.MemorySound.read_cm_past (h : s.MemorySound c) {a : Nat} (ha : c.cmWords ≤ a) :
    Memory.read s.cm a = none := by
  obtain ⟨-, -, -, hcmAddr⟩ := h
  exact Option.eq_none_iff_forall_ne_some.mpr fun w hw => (hcmAddr a w hw).not_ge ha

end HostMemory

/-- Settles O8. -/
theorem nothingElseRefuses : Obligations.NothingElseRefuses :=
  ⟨exec_answers, step_answers, fun _ a v w =>
    ⟨fun hrun => ⟨hostWriteDM_of_run hrun a v, hostWriteCM_of_run hrun a w, hostReadDM_of_run hrun a,
      hostReadCM_of_run hrun a⟩,
    fun hrun => ⟨⟨_, hostWriteDM_of_not_run hrun a v⟩, ⟨_, hostWriteCM_of_not_run hrun a w⟩,
      ⟨_, hostReadDM_of_not_run hrun a⟩, ⟨_, hostReadCM_of_not_run hrun a⟩⟩⟩⟩

/-- Settles O59: the written value has `W` bits, so that it is kept as it is. -/
theorem hostMemoryTransactions : Obligations.HostMemoryTransactions := by
  intro c s a v w hrun hv
  refine ⟨⟨_, hostWriteDM_of_not_run hrun a v, fun ha => if_neg ha.not_gt, fun ha b => ?_⟩,
    ⟨_, hostWriteCM_of_not_run hrun a w, fun ha => if_neg ha.not_gt, fun ha b => ?_⟩,
    hostReadDM_of_not_run hrun a, hostReadCM_of_not_run hrun a,
    fun hs => ⟨fun ha => ?_, fun ha => ?_⟩⟩
  · rw [if_pos ha, Nat.mod_eq_of_lt hv, Memory.read_write]
  · rw [if_pos ha, Memory.read_write]
  · rw [hostReadDM_of_not_run hrun, hs.read_dm_past ha, Option.getD_none]
  · rw [hostReadCM_of_not_run hrun, hs.read_cm_past ha, Option.getD_none]

/-! ### Commands that read `DM` -/

section Accesses

variable {c : Config} {s : State} {i : Instr} {a n : Nat}

/-- A block of any configuration executes a command as `execIn` says. -/
theorem Executes.eq_execIn {execute : Instr → State → Host.Outcome State Fault Refusal}
    (h : Executes c execute) (i : Instr) (s : State) : execute i s = execIn c i s := by
  obtain ⟨rfl, rfl⟩ | ⟨_, _, _, rfl, rfl⟩ := h
  · cases i <;> rfl
  · rfl

/-- `LDP` that passes its earlier checks is admitted. -/
theorem lifecycle_of_ldp_checks {slot : SlotField} {addr : Addr}
    (h : s.earlyFault (.ldp slot addr) = none) : s.lifecycle = .config := by
  cases hl : s.lifecycle with
  | config => rfl
  | ready k =>
    rw [State.earlyFault, State.lifecycleFault, hl] at h
    cases h

/-- A slot is loaded by the read its row names, and what follows it. -/
theorem loadSlot_reads {slot : SlotField} {addr : Addr}
    (h : readAccess (.ldp slot addr) = some (a, n)) : ∃ f : List Nat → Except Raise ParamStore,
      loadSlot c s addr.val slot.val = some (s.memRead c a n >>= f) := by
  simp only [readAccess] at h
  generalize slot.val = k at h ⊢
  split at h <;> cases h
  all_goals exact ⟨_, congrArg some (bind_assoc _ _ _)⟩

/-- A command that reads `DM` and passes its earlier checks begins with that read. -/
theorem execIn_reads (hacc : readAccess i = some (a, n)) (hearly : s.earlyFault i = none) :
    ∃ f : List Nat → Except Raise State, execIn c i s = finish c s (s.memRead c a n >>= f) := by
  cases i with
  | ldE r addr => cases hacc; exact ⟨_, rfl⟩
  | ldF r addr => cases hacc; exact ⟨_, rfl⟩
  | ldT r addr => cases hacc; exact ⟨_, rfl⟩
  | ldG r addr => cases hacc; exact ⟨_, rfl⟩
  | ldp slot addr =>
    obtain ⟨f, hf⟩ := loadSlot_reads (c := c) (s := s) hacc
    have hconfig : s.needConfig = .ok () :=
      State.needConfig_ok_iff.mpr (lifecycle_of_ldp_checks hearly)
    refine ⟨fun ws => f ws >>= fun prm => pure { s with prm := prm }, ?_⟩
    simp only [execIn, execLdp, hf, hconfig, ok_bind, bind_assoc]
  | _ => cases hacc

/-- A location code can name every address of an access. -/
theorem readAccess_bound (h : readAccess i = some (a, n)) : a + n ≤ 2 ^ 28 := by
  have hn : n ≤ 34 ∧ a < 2 ^ 18 := by
    cases i with
    | ldE r addr => cases h; exact ⟨by decide, addr.isLt⟩
    | ldF r addr => cases h; exact ⟨by decide, addr.isLt⟩
    | ldT r addr => cases h; exact ⟨by decide, addr.isLt⟩
    | ldG r addr => cases h; exact ⟨by decide, addr.isLt⟩
    | ldp slot addr =>
      simp only [readAccess] at h
      split at h <;> cases h <;> exact ⟨by decide, addr.isLt⟩
    | _ => cases h
  omega

/-- A read past `DM` faults at the last address of the access. -/
theorem finish_memRead_past (f : List Nat → Except Raise State) (hbound : a + n ≤ 2 ^ 28)
    (hpast : c.dmWords < a + n) : finish c s (s.memRead c a n >>= f) =
      .next (s.faultEntry 6 (BitVec.ofNat 32 (2 ^ 28 + (a + n - 1)))) := by
  have hread : s.memRead c a n = raise .addressFault (locDM (a + n - 1)) :=
    State.memRead_error_iff.mpr (.inl ⟨hpast, rfl⟩)
  rw [hread, ← locDM_eq (by omega)]
  exact finish_raise c s .addressFault _

/-- A read inside `DM` faults at its lowest unwritten word. -/
theorem finish_memRead_unwritten (f : List Nat → Except Raise State) (hbound : a + n ≤ 2 ^ 28)
    (hfit : a + n ≤ c.dmWords) {k : Nat}
    (hk : FirstBad n (fun j => Memory.read s.dm (a + j) = none) k) :
    finish c s (s.memRead c a n >>= f) =
      .next (s.faultEntry 5 (BitVec.ofNat 32 (2 ^ 28 + (a + k)))) := by
  obtain ⟨hlt, hnone, hwritten⟩ := hk
  have hread : s.memRead c a n = raise .unwrittenRead (locDM (a + k)) :=
    State.memRead_error_iff.mpr (.inr ⟨hfit, k, hlt, hnone, hwritten, rfl⟩)
  rw [hread, ← locDM_eq (by omega)]
  exact finish_raise c s .unwrittenRead _

/-! ### Stores -/

/-- The image a store writes, once its register has been read and, for `ST.T`, its tag checked. -/
def State.storeImage (s : State) : Instr → Except Raise (List Nat)
  | .stE r _ => do
    let x ← s.readE r
    pure x.toList
  | .stF r _ => do
    let a ← s.readF r
    pure (a.re.toList ++ a.im.toList)
  | .stT r _ => do
    let q ← s.readPoint r
    pure (twistPointWords q)
  | .stG r _ => do
    let g ← s.readG r
    pure (basePointWords g)
  | _ => .ok []

/-- A store writes its image at its address. -/
theorem execIn_stores (h : writeAccess i = some (a, n)) :
    execIn c i s = finish c s (s.storeImage i >>= fun image => s.memWrite c a image) := by
  cases i with
  | stE r addr => cases h; simp only [State.storeImage, bind_assoc, pure_bind]; rfl
  | stF r addr => cases h; simp only [State.storeImage, bind_assoc, pure_bind]; rfl
  | stT r addr => cases h; simp only [State.storeImage, bind_assoc, pure_bind]; rfl
  | stG r addr => cases h; simp only [State.storeImage, bind_assoc, pure_bind]; rfl
  | _ => cases h

/-- What the earlier checks of a store come to: they pass and there is an image of the width of the
access, or the first that fails is the fault of the image. -/
inductive StoreChecks (n : Nat) : Except Raise (List Nat) → Option (Nat × BitVec 32) → Prop
  | pass {image : List Nat} : image.length = n → StoreChecks n (.ok image) none
  | fail (cause : Cause) (einfo : BitVec 32) :
      StoreChecks n (raise cause einfo) (some (cause.code.toNat, einfo))

theorem StoreChecks.length {image : List Nat} {fault : Option (Nat × BitVec 32)}
    (h : StoreChecks n (.ok image) fault) : image.length = n := by
  cases h
  assumption

theorem StoreChecks.ok_of_none {x : Except Raise (List Nat)} (h : StoreChecks n x none) :
    ∃ image, x = .ok image := by
  cases h
  exact ⟨_, rfl⟩

theorem StoreChecks.raise_of_some {x : Except Raise (List Nat)} {code : Nat} {einfo : BitVec 32}
    (h : StoreChecks n x (some (code, einfo))) :
    ∃ cause : Cause, code = cause.code.toNat ∧ x = raise cause einfo := by
  cases h
  exact ⟨_, rfl, rfl⟩

/-- A command allowed in both lifecycle states, whose one operand is the item `o`. -/
theorem earlyFault_of_operand {α : Type} {loc : BitVec 32} {o : Option α}
    (hadm : admission i = .always := by rfl) (hop : s.operands i = [(loc, o.isSome)] := by rfl) :
    s.earlyFault i =
      if o.isSome then (s.pointChecks i).findSome? id else some (5, loc) := by
  have hlife : s.lifecycleFault i = none := by
    rw [State.lifecycleFault, hadm]
  rw [State.earlyFault, hlife, hop]
  cases o <;> rfl

/-- A store that checks only that its register is written. -/
theorem storeChecks_of_operand {α : Type} {loc : BitVec 32} {o : Option α} {words : α → List Nat}
    (hlen : ∀ x, (words x).length = n) (hadm : admission i = .always := by rfl)
    (hop : s.operands i = [(loc, o.isSome)] := by rfl) (hpoint : s.pointChecks i = [] := by rfl) :
    StoreChecks n (readItem loc o >>= fun x => pure (words x)) (s.earlyFault i) := by
  rw [earlyFault_of_operand hadm hop, hpoint]
  cases o with
  | none => exact .fail .unwrittenRead loc
  | some x => exact .pass (hlen x)

theorem length_twistPointWords (q : TwistPoint) : (twistPointWords q).length = 34 := by
  simp [twistPointWords]

/-- The check of the tag invariant is the one the statements speak of. -/
theorem tagFault_of_some {r : RegT} {q : TwistPoint} (hq : s.t[r.val] = some q) :
    s.tagFault r = if tagOk q then none else some (3, locReg .t r) := by
  have hbroken : (q.tag = .affine ∧ q.z ≠ zero11 ∧ q.z ≠ one11) ↔ ¬tagOk q = true := by
    rw [tagOk_iff]
    tauto
  simp only [State.tagFault, hq, hbroken, ite_not]

/-- `ST.T` checks the tag invariant of its point as well (log entry 25). -/
theorem storeChecks_stT (r : RegT) (addr : Addr) :
    StoreChecks 34 (s.storeImage (.stT r addr)) (s.earlyFault (.stT r addr)) := by
  rw [earlyFault_of_operand (o := s.t[r.val]) (loc := locReg .t r), State.storeImage,
    State.readPoint, State.readT]
  cases hq : s.t[r.val] with
  | none => exact .fail .unwrittenRead _
  | some q =>
    rw [State.pointChecks, tagFault_of_some hq, readItem_some, ok_bind, checkTag]
    cases tagOk q with
    | false => exact .fail .invariantViolation _
    | true => exact .pass (length_twistPointWords q)

theorem storeChecks (h : writeAccess i = some (a, n)) :
    StoreChecks n (s.storeImage i) (s.earlyFault i) := by
  cases i with
  | stE r addr => cases h; exact storeChecks_of_operand fun x => x.length_toList
  | stF r addr => cases h; exact storeChecks_of_operand fun x => by simp
  | stT r addr => cases h; exact storeChecks_stT r addr
  | stG r addr => cases h; exact storeChecks_of_operand fun _ => rfl
  | _ => cases h

/-- A location code can name every address of an access. -/
theorem writeAccess_bound (h : writeAccess i = some (a, n)) : a + n ≤ 2 ^ 28 := by
  have hn : n ≤ 34 ∧ a < 2 ^ 18 := by
    cases i with
    | stE r addr => cases h; exact ⟨by decide, addr.isLt⟩
    | stF r addr => cases h; exact ⟨by decide, addr.isLt⟩
    | stT r addr => cases h; exact ⟨by decide, addr.isLt⟩
    | stG r addr => cases h; exact ⟨by decide, addr.isLt⟩
    | _ => cases h
  omega

/-- A store that fails an earlier check enters that fault. -/
theorem earlyFaults_of_store (h : writeAccess i = some (a, n)) : EarlyFaults i s := by
  intro code einfo hearly
  obtain ⟨cause, rfl, hfail⟩ := (hearly ▸ storeChecks (s := s) h).raise_of_some
  rw [Executes.eq_execIn (.inl ⟨rfl, rfl⟩), execIn_stores h, hfail]
  exact finish_raise _ s cause einfo

section Image

variable {image : List Nat} (h : writeAccess i = some (a, n)) (himage : s.storeImage i = .ok image)
include h himage

theorem length_of_storeImage : image.length = n := (himage ▸ storeChecks (s := s) h).length

/-- A store whose image is inside `DM` writes it. -/
theorem execIn_store_fits (hfit : a + image.length ≤ c.dmWords) :
    execIn c i s = .next ({ s with dm := Memory.writeAll s.dm a image }.advance c) := by
  rw [execIn_stores h, himage, ok_bind, State.memWrite_ok_iff.mpr ⟨hfit, rfl⟩, finish_ok]

/-- A store whose image is not inside `DM` faults at the last address of the access. -/
theorem execIn_store_past (hpast : c.dmWords < a + image.length) : execIn c i s =
    .next (s.faultEntry 6 (BitVec.ofNat 32 (2 ^ 28 + (a + image.length - 1)))) := by
  have hbound := writeAccess_bound h
  have hlen := length_of_storeImage h himage
  have hwrite : s.memWrite c a image = raise .addressFault (locDM (a + image.length - 1)) :=
    State.memWrite_error_iff.mpr ⟨hpast, rfl⟩
  rw [execIn_stores h, himage, ok_bind, hwrite, ← locDM_eq (by omega)]
  exact finish_raise c s .addressFault _

end Image

end Accesses

/-- Settles O12: a read checks the range before the words (`finish_memRead_past`,
`finish_memRead_unwritten`), and a store whose earlier checks pass has an image of the width of the
access. -/
theorem memoryAccessChecks : Obligations.MemoryAccessChecks := by
  intro c execute hexec i a n s
  rw [hexec.eq_execIn]
  refine ⟨fun hacc hearly => ?_, fun hacc hearly hpast => ?_⟩
  · have hbound := readAccess_bound hacc
    obtain ⟨f, hf⟩ := execIn_reads (c := c) hacc hearly
    rw [hf]
    exact ⟨finish_memRead_past f hbound, fun hfit k => finish_memRead_unwritten f hbound hfit⟩
  · obtain ⟨image, himage⟩ := (hearly ▸ storeChecks (s := s) hacc).ok_of_none
    obtain rfl := length_of_storeImage hacc himage
    exact execIn_store_past hacc himage hpast

/-! ### The images as `20_memory.md` R78 writes them -/

theorem twistPointWords_eq (q : TwistPoint) : twistPointWords q =
    q.x.toList ++ q.y.toList ++ q.z.toList ++ [if q.tag = .projective then 1 else 0] := by
  cases htag : q.tag <;> simp [twistPointWords, htag]

theorem basePointWords_eq (g : BasePoint) :
    basePointWords g = [g.x, g.y, if g.inf then 1 else 0] := by
  cases hinf : g.inf <;> simp [basePointWords, hinf]

/-- Settles O23: in each of the four cases the image is what the store writes, and `Memory.writeAll`
changes no address outside it. -/
theorem storesWriteTheImage : Obligations.StoresWriteTheImage := by
  intro c execute hexec re rf rt rg addr s
  refine ⟨⟨earlyFaults_of_store rfl, earlyFaults_of_store rfl, earlyFaults_of_store rfl,
    earlyFaults_of_store rfl⟩, fun i image hcase => ?_⟩
  obtain ⟨n, hacc, himage⟩ : ∃ n, writeAccess i = some (addr.val, n) ∧ s.storeImage i = .ok image := by
    obtain ⟨x, rfl, hx, rfl⟩ | ⟨a, rfl, ha, rfl⟩ | ⟨q, rfl, hq, htag, rfl⟩ | ⟨g, rfl, hg, rfl⟩ := hcase
    · exact ⟨11, rfl, by rw [State.storeImage, State.readE_ok_iff.mpr hx]; rfl⟩
    · exact ⟨22, rfl, by rw [State.storeImage, State.readF_ok_iff.mpr ha]; rfl⟩
    · rw [← twistPointWords_eq]
      exact ⟨34, rfl, by rw [State.storeImage, State.readPoint_ok_iff.mpr ⟨hq, htag⟩]; rfl⟩
    · rw [← basePointWords_eq]
      exact ⟨3, rfl, by rw [State.storeImage, State.readG_ok_iff.mpr hg]; rfl⟩
  rw [hexec.eq_execIn]
  refine ⟨fun hfit => ⟨_, execIn_store_fits hacc himage hfit, fun k hk => ?_, fun b hb => ?_,
    fun hwf => Memory.wf_writeAll hwf _ _⟩, execIn_store_past hacc himage⟩
  · rw [Memory.read_writeAll_inside _ _ _ _ hk, List.getElem?_eq_getElem hk]
  · exact Memory.read_writeAll_outside _ _ _ _ hb

end Sys2Proof.Machine
end

section
/-! PROOFS. The encoding (O1 to O4) and the frame of the register files (O15). Each operand stands
in one field of its word (`Operand`), so that the decoder reads back what the encoder wrote
(`decode_encode`), and every word on a row of the opcode map is the word of a command
(`encodes_of_onRow`). With `decode_onRow` the statements follow from these two. -/

namespace Sys2Proof.Machine

open Sys2Proof

/-! ### The fields of a word -/

section Fields

variable {op rd rs1 rs2 aux : Nat}

theorem fieldRd_wordR (hrd : rd < 64) (hrs1 : rs1 < 64) (hrs2 : rs2 < 64) (haux : aux < 64) :
    fieldRd (wordR op rd rs1 rs2 aux) = rd := by
  simp only [fieldRd, wordR, BitVec.toNat_ofNat]
  omega

theorem fieldRs1_wordR (hrs1 : rs1 < 64) (hrs2 : rs2 < 64) (haux : aux < 64) :
    fieldRs1 (wordR op rd rs1 rs2 aux) = rs1 := by
  simp only [fieldRs1, wordR, BitVec.toNat_ofNat]
  omega

theorem fieldRs2_wordR (hrs2 : rs2 < 64) (haux : aux < 64) :
    fieldRs2 (wordR op rd rs1 rs2 aux) = rs2 := by
  simp only [fieldRs2, wordR, BitVec.toNat_ofNat]
  omega

theorem fieldAux_wordR (haux : aux < 64) : fieldAux (wordR op rd rs1 rs2 aux) = aux := by
  simp only [fieldAux, wordR, BitVec.toNat_ofNat]
  omega

theorem fieldRd_wordM {r addr : Nat} (hr : r < 64) (haddr : addr < 2 ^ 18) :
    fieldRd (wordM op r addr) = r := by
  simp only [fieldRd, wordM, BitVec.toNat_ofNat]
  omega

theorem addrField_wordM (op r : Nat) (addr : Addr) : addrField (wordM op r addr) = addr := by
  apply Fin.ext
  simp only [addrField, fieldAddr, wordM, BitVec.toNat_ofNat]
  omega

/-- A word is put together from its fields. -/
theorem wordR_fields (w : BitVec 32) :
    wordR (fieldOp w) (fieldRd w) (fieldRs1 w) (fieldRs2 w) (fieldAux w) = w := by
  apply BitVec.eq_of_toNat_eq
  simp only [wordR, fieldOp, fieldRd, fieldRs1, fieldRs2, fieldAux, BitVec.toNat_ofNat]
  omega

theorem wordM_fields (w : BitVec 32) : wordM (fieldOp w) (fieldRd w) (addrField w).val = w := by
  apply BitVec.eq_of_toNat_eq
  simp only [wordM, fieldOp, fieldRd, addrField, fieldAddr, BitVec.toNat_ofNat]
  omega

end Fields

/-! ### Operands -/

theorem asReg_val {n : Nat} (r : Fin n) : asReg n r.val = .ok r := dif_pos r.isLt

/-- How an operand stands in a 6-bit field: `read` is the decoder's check, `code` what the encoder
writes, and `limit` bounds the field on the operand's row. -/
structure Operand (α : Type) where
  read : Nat → Except DecodeError α
  code : α → Nat
  limit : Nat
  limit_le : limit ≤ 64
  code_lt : ∀ a, code a < limit
  read_code : ∀ a, read (code a) = .ok a
  exists_code : ∀ v, v < limit → ∃ a, code a = v

namespace Operand

/-- A register index (`30_encoding.md` R95); a file of 64 stands for the exponent (R96). -/
def reg {n : Nat} (hn : n ≤ 64 := by decide) : Operand (Fin n) where
  read := asReg n
  code r := r.val
  limit := n
  limit_le := hn
  code_lt r := r.isLt
  read_code := asReg_val
  exists_code v hv := ⟨⟨v, hv⟩, rfl⟩

/-- A field the command does not use (R97). -/
def unused : Operand Unit where
  read := asUnused
  code _ := 0
  limit := 1
  limit_le := by decide
  code_lt := by decide
  read_code _ := rfl
  exists_code v hv := ⟨(), by omega⟩

/-- The mode (R96). -/
def mode : Operand Mode where
  read := asMode
  code := modeBit
  limit := 2
  limit_le := by decide
  code_lt m := by cases m <;> decide
  read_code m := by cases m <;> rfl
  exists_code v hv := by
    obtain rfl | rfl : v = 0 ∨ v = 1 := by omega
    · exact ⟨.basic, rfl⟩
    · exact ⟨.projc, rfl⟩

/-- The `inverted` flag (R96). -/
def flag : Operand Bool where
  read := asFlag
  code := Bool.toNat
  limit := 2
  limit_le := by decide
  code_lt b := b.toNat_lt
  read_code b := by cases b <;> rfl
  exists_code v hv := by
    obtain rfl | rfl : v = 0 ∨ v = 1 := by omega
    · exact ⟨false, rfl⟩
    · exact ⟨true, rfl⟩

theorem code_lt_64 {α : Type} (A : Operand α) (a : α) : A.code a < 64 :=
  (A.code_lt a).trans_le A.limit_le

end Operand

/-! ### Decoding the word of a command -/

open Laws.EncodeOpcode in
/-- The family `EncodeOpcode` for the command given as a variable. -/
theorem fieldOp_encode : ∀ i : Instr, fieldOp (encode i) = opcode i
  | .nop => nop
  | .halt => halt
  | .finit => finit
  | .ldp slot addr => ldp slot addr
  | .ldE r addr => ldE r addr
  | .stE r addr => stE r addr
  | .ldF r addr => ldF r addr
  | .stF r addr => stF r addr
  | .ldT r addr => ldT r addr
  | .stT r addr => stT r addr
  | .ldG r addr => ldG r addr
  | .stG r addr => stG r addr
  | .eZero rd => eZero rd
  | .eOne rd => eOne rd
  | .eCpy rd rs1 => eCpy rd rs1
  | .eAdd rd rs1 rs2 => eAdd rd rs1 rs2
  | .eSub rd rs1 rs2 => eSub rd rs1 rs2
  | .eNeg rd rs1 => eNeg rd rs1
  | .eCmp rs1 rs2 => eCmp rs1 rs2
  | .eMul rd rs1 rs2 => eMul rd rs1 rs2
  | .eSqr rd rs1 => eSqr rd rs1
  | .eMulu rd rs1 rs2 => eMulu rd rs1 rs2
  | .eSqru rd rs1 => eSqru rd rs1
  | .eRed rd rs1 => eRed rd rs1
  | .eMnr rd rs1 => eMnr rd rs1
  | .eFrb rd rs1 exp => eFrb rd rs1 exp
  | .eFrb2 rd rs1 exp => eFrb2 rd rs1 exp
  | .eInv rd rs1 => eInv rd rs1
  | .fOne rd => fOne rd
  | .fCpy rd rs1 => fCpy rd rs1
  | .fPack rd rs1 rs2 => fPack rd rs1 rs2
  | .fGetr rd rs1 => fGetr rd rs1
  | .fGeti rd rs1 => fGeti rd rs1
  | .fCmp rs1 rs2 => fCmp rs1 rs2
  | .fMul rd rs1 rs2 => fMul rd rs1 rs2
  | .fSqr rd rs1 => fSqr rd rs1
  | .fSqrc rd rs1 => fSqrc rd rs1
  | .fInvc rd rs1 => fInvc rd rs1
  | .fFrb rd rs1 exp => fFrb rd rs1 exp
  | .tInf rd => tInf rd
  | .tCpy rd rs1 => tCpy rd rs1
  | .tMk rd rs1 rs2 => tMk rd rs1 rs2
  | .tMkp rd rs1 rs2 rs3 => tMkp rd rs1 rs2 rs3
  | .tGetx rd rs1 => tGetx rd rs1
  | .tGety rd rs1 => tGety rd rs1
  | .tGetz rd rs1 => tGetz rd rs1
  | .tNeg rd rs1 => tNeg rd rs1
  | .tDbl rd rs1 mode => tDbl rd rs1 mode
  | .tAdd rd rs1 rs2 mode => tAdd rd rs1 rs2 mode
  | .tSdbl rd rs1 mode => tSdbl rd rs1 mode
  | .tSdbl1 rd rs1 mode => tSdbl1 rd rs1 mode
  | .tSadd rd rs1 rs2 mode => tSadd rd rs1 rs2 mode
  | .tFrb rd rs1 exp => tFrb rd rs1 exp
  | .tNorm rd rs1 inverted => tNorm rd rs1 inverted
  | .tCmp rs1 rs2 => tCmp rs1 rs2
  | .tOnc rs1 => tOnc rs1
  | .tGen rd => tGen rd
  | .tIso rd rs1 => tIso rd rs1
  | .tIsod rd rs1 => tIsod rd rs1
  | .line rd rs1 => line rd rs1
  | .miller rd rs1 rs2 mode => miller rd rs1 rs2 mode
  | .miller2 rd rs1 rs2 mode => miller2 rd rs1 rs2 mode

section Read

variable {α β γ δ : Type} (A : Operand α) (B : Operand β) (C : Operand γ) (D : Operand δ)
  {w : BitVec 32} {i : Instr} {op : Nat} (a : α) (b : β) (c : γ) (d : δ)

/-- The checks of `rd`, `rs1` and `rs2` read back the operands written there, and the decoder goes
on to `aux` with them. -/
theorem read_three {aux : Nat} {rest : α → β → γ → Except DecodeError Instr} (haux : aux < 64)
    (hw : w = wordR op (A.code a) (B.code b) (C.code c) aux) (hrest : rest a b c = .ok i) :
    (A.read (fieldRd w) >>= fun a => B.read (fieldRs1 w) >>= fun b =>
      C.read (fieldRs2 w) >>= rest a b) = .ok i := by
  have ha := A.code_lt_64 a
  have hb := B.code_lt_64 b
  have hc := C.code_lt_64 c
  rw [hw, fieldRd_wordR ha hb hc haux, fieldRs1_wordR hb hc haux, fieldRs2_wordR hc haux,
    A.read_code, B.read_code, C.read_code]
  exact hrest

theorem read_four {mk : α → β → γ → δ → Except DecodeError Instr}
    (hw : w = wordR op (A.code a) (B.code b) (C.code c) (D.code d) := by rfl)
    (hmk : mk a b c d = .ok i := by rfl) :
    (A.read (fieldRd w) >>= fun a => B.read (fieldRs1 w) >>= fun b =>
      C.read (fieldRs2 w) >>= fun c => D.read (fieldAux w) >>= mk a b c) = .ok i := by
  refine read_three A B C a b c (D.code_lt_64 d) hw ?_
  rw [hw, fieldAux_wordR (D.code_lt_64 d), D.read_code]
  exact hmk

end Read

section Words

variable {n m op : Nat} {w : BitVec 32}

theorem formZ_word (i : Instr) (hw : w = wordZ op := by rfl) : formZ w i = .ok i := by
  have hlow : fieldLow w = 0 := by
    rw [hw]
    simp only [fieldLow, wordZ, BitVec.toNat_ofNat]
    omega
  rw [formZ, hlow]
  rfl

theorem formM_word (r : Fin n) (addr : Addr) {mk : Fin n → Addr → Instr} (hn : n ≤ 64 := by decide)
    (hw : w = wordM op r addr := by rfl) : formM n w mk = .ok (mk r addr) := by
  rw [hw, formM, fieldRd_wordM (by omega) addr.isLt, addrField_wordM, asReg_val]
  rfl

theorem formLdp_word {slot : SlotField} (addr : Addr) (hslot : slot.val < 12) :
    formLdp (encode (.ldp slot addr)) = .ok (.ldp slot addr) := by
  have hrd : fieldRd (encode (.ldp slot addr)) = slot.val := fieldRd_wordM slot.isLt addr.isLt
  have haddr : addrField (encode (.ldp slot addr)) = addr := addrField_wordM _ _ addr
  simp only [formLdp, hrd, haddr, if_pos hslot]

/-- The exponent is read without a check. -/
theorem formDSX_word (rd : Fin n) (rs1 : Fin m) (e : Exponent)
    {mk : Fin n → Fin m → Exponent → Instr} (hn : n ≤ 64 := by decide) (hm : m ≤ 64 := by decide)
    (hw : w = wordR op rd rs1 0 e := by rfl) : formDSX n m w mk = .ok (mk rd rs1 e) := by
  have haux : auxExponent w = e := Fin.ext (by rw [hw]; exact fieldAux_wordR e.isLt)
  exact read_three (.reg hn) (.reg hm) .unused rd rs1 () e.isLt hw (by rw [haux]; rfl)

end Words

/-- The opcode selects the row, and the row's format reads the operands back, field by field. -/
theorem decode_encode {i : Instr} (hwf : i.wf = true) : decode (encode i) = .ok i := by
  unfold decode
  rw [fieldOp_encode i]
  cases i with
  | nop | halt | finit =>
    exact formZ_word _
  | ldp slot addr =>
    -- The arm is selected first: the kernel would otherwise unfold `formLdp` to meet the `match`.
    simp only [opcode]
    exact formLdp_word addr (of_decide_eq_true hwf)
  | ldE r addr | stE r addr | ldF r addr | stF r addr | ldT r addr | stT r addr | ldG r addr
  | stG r addr =>
    exact formM_word r addr
  | eZero rd | eOne rd | fOne rd | tInf rd | tGen rd =>
    exact read_four .reg .unused .unused .unused rd () () ()
  | eCpy rd rs1 | eNeg rd rs1 | eSqr rd rs1 | eSqru rd rs1 | eRed rd rs1 | eMnr rd rs1
  | eInv rd rs1 | fCpy rd rs1 | fGetr rd rs1 | fGeti rd rs1 | fSqr rd rs1 | fSqrc rd rs1
  | fInvc rd rs1 | tCpy rd rs1 | tGetx rd rs1 | tGety rd rs1 | tGetz rd rs1 | tNeg rd rs1
  | tIso rd rs1 | tIsod rd rs1 | line rd rs1 =>
    exact read_four .reg .reg .unused .unused rd rs1 () ()
  | eAdd rd rs1 rs2 | eSub rd rs1 rs2 | eMul rd rs1 rs2 | eMulu rd rs1 rs2 | fPack rd rs1 rs2
  | fMul rd rs1 rs2 | tMk rd rs1 rs2 =>
    exact read_four .reg .reg .reg .unused rd rs1 rs2 ()
  | eCmp rs1 rs2 | fCmp rs1 rs2 | tCmp rs1 rs2 =>
    exact read_four .unused .reg .reg .unused () rs1 rs2 ()
  | eFrb rd rs1 exp | eFrb2 rd rs1 exp | fFrb rd rs1 exp | tFrb rd rs1 exp =>
    exact formDSX_word rd rs1 exp
  | tMkp rd rs1 rs2 rs3 =>
    exact read_four .reg .reg .reg .reg rd rs1 rs2 rs3
  | tDbl rd rs1 mode | tSdbl rd rs1 mode | tSdbl1 rd rs1 mode =>
    exact read_four .reg .reg .unused .mode rd rs1 () mode
  | tAdd rd rs1 rs2 mode | tSadd rd rs1 rs2 mode | miller rd rs1 rs2 mode
  | miller2 rd rs1 rs2 mode =>
    exact read_four .reg .reg .reg .mode rd rs1 rs2 mode
  | tNorm rd rs1 inverted =>
    exact read_four .reg .reg .unused .flag rd rs1 () inverted
  | tOnc rs1 =>
    exact read_four .unused .reg .unused .unused () rs1 () ()

/-! ### The words of a row -/

/-- The word is that of a well-formed command. -/
def Encodes (w : BitVec 32) : Prop := ∃ i : Instr, encode i = w ∧ i.wf = true

/-- Every word the row admits is that of a well-formed command. -/
def OpcodeRow.Covered (r : OpcodeRow) : Prop := ∀ w, r.admits w = true → Encodes w

theorem OpcodeRow.admits_iff {op rd rs1 rs2 aux : Nat} {w : BitVec 32} :
    OpcodeRow.admits ⟨op, rd, rs1, rs2, aux⟩ w = true ↔
      fieldOp w = op ∧ fieldRd w < rd ∧ fieldRs1 w < rs1 ∧ fieldRs2 w < rs2 ∧ fieldAux w < aux := by
  simp [OpcodeRow.admits, and_assoc]

section Rows

variable {op n : Nat}

/-- The fields of a word on an R row are the codes of operands. -/
theorem covered_R {α β γ δ : Type} (A : Operand α) (B : Operand β) (C : Operand γ) (D : Operand δ)
    (mk : α → β → γ → δ → Instr)
    (hmk : ∀ a b c d, encode (mk a b c d) = wordR op (A.code a) (B.code b) (C.code c) (D.code d)
      := by intros; rfl)
    (hwf : ∀ a b c d, (mk a b c d).wf = true := by intros; rfl) :
    OpcodeRow.Covered ⟨op, A.limit, B.limit, C.limit, D.limit⟩ := by
  intro w hadm
  obtain ⟨hop, hrd, hrs1, hrs2, haux⟩ := OpcodeRow.admits_iff.mp hadm
  obtain ⟨a, ha⟩ := A.exists_code _ hrd
  obtain ⟨b, hb⟩ := B.exists_code _ hrs1
  obtain ⟨c, hc⟩ := C.exists_code _ hrs2
  obtain ⟨d, hd⟩ := D.exists_code _ haux
  refine ⟨mk a b c d, ?_, hwf a b c d⟩
  rw [hmk, ha, hb, hc, hd, ← hop]
  exact wordR_fields w

theorem covered_Z (i : Instr) (hi : encode i = wordZ op := by rfl) (hwf : i.wf = true := by rfl) :
    OpcodeRow.Covered ⟨op, 1, 1, 1, 1⟩ :=
  covered_R .unused .unused .unused .unused (fun _ _ _ _ => i)
    (fun _ _ _ _ => by simp [hi, wordZ, wordR, Operand.unused]) fun _ _ _ _ => hwf

/-- The low 18 bits of an M row are free. -/
theorem covered_M (mk : Fin n → Addr → Instr)
    (hmk : ∀ r addr, encode (mk r addr) = wordM op r addr := by intros; rfl)
    (hwf : ∀ r addr, (mk r addr).wf = true := by intros; rfl) :
    OpcodeRow.Covered ⟨op, n, 64, 64, 64⟩ := by
  intro w hadm
  obtain ⟨hop, hrd, -, -, -⟩ := OpcodeRow.admits_iff.mp hadm
  refine ⟨mk ⟨fieldRd w, hrd⟩ (addrField w), ?_, hwf _ _⟩
  rw [hmk, ← hop]
  exact wordM_fields w

/-- The row of `LDP` admits the slots that exist. -/
theorem covered_ldp : OpcodeRow.Covered ⟨0x04, 12, 64, 64, 64⟩ :=
  covered_M (fun slot addr => .ldp (slot.castLE (by decide)) addr) (by intros; rfl)
    fun slot _ => decide_eq_true slot.isLt

end Rows

theorem systemRows_covered : ∀ r ∈ systemRows, r.Covered := by
  simp only [systemRows, List.forall_mem_cons]
  exact ⟨covered_Z .nop, covered_Z .halt, covered_Z .finit, covered_ldp,
    covered_M .ldE, covered_M .stE, covered_M .ldF, covered_M .stF,
    covered_M .ldT, covered_M .stT, covered_M .ldG, covered_M .stG, List.forall_mem_nil _⟩

theorem towerRows_covered : ∀ r ∈ towerRows, r.Covered := by
  simp only [towerRows, List.forall_mem_cons]
  exact ⟨covered_R .reg .unused .unused .unused fun rd _ _ _ => .eZero rd,
    covered_R .reg .unused .unused .unused fun rd _ _ _ => .eOne rd,
    covered_R .reg .reg .unused .unused fun rd rs1 _ _ => .eCpy rd rs1,
    covered_R .reg .reg .reg .unused fun rd rs1 rs2 _ => .eAdd rd rs1 rs2,
    covered_R .reg .reg .reg .unused fun rd rs1 rs2 _ => .eSub rd rs1 rs2,
    covered_R .reg .reg .unused .unused fun rd rs1 _ _ => .eNeg rd rs1,
    covered_R .unused .reg .reg .unused fun _ rs1 rs2 _ => .eCmp rs1 rs2,
    covered_R .reg .reg .reg .unused fun rd rs1 rs2 _ => .eMul rd rs1 rs2,
    covered_R .reg .reg .unused .unused fun rd rs1 _ _ => .eSqr rd rs1,
    covered_R .reg .reg .reg .unused fun rd rs1 rs2 _ => .eMulu rd rs1 rs2,
    covered_R .reg .reg .unused .unused fun rd rs1 _ _ => .eSqru rd rs1,
    covered_R .reg .reg .unused .unused fun rd rs1 _ _ => .eRed rd rs1,
    covered_R .reg .reg .unused .unused fun rd rs1 _ _ => .eMnr rd rs1,
    covered_R .reg .reg .unused .reg fun rd rs1 _ exp => .eFrb rd rs1 exp,
    covered_R .reg .reg .unused .reg fun rd rs1 _ exp => .eFrb2 rd rs1 exp,
    covered_R .reg .reg .unused .unused fun rd rs1 _ _ => .eInv rd rs1,
    covered_R .reg .unused .unused .unused fun rd _ _ _ => .fOne rd,
    covered_R .reg .reg .unused .unused fun rd rs1 _ _ => .fCpy rd rs1,
    covered_R .reg .reg .reg .unused fun rd rs1 rs2 _ => .fPack rd rs1 rs2,
    covered_R .reg .reg .unused .unused fun rd rs1 _ _ => .fGetr rd rs1,
    covered_R .reg .reg .unused .unused fun rd rs1 _ _ => .fGeti rd rs1,
    covered_R .unused .reg .reg .unused fun _ rs1 rs2 _ => .fCmp rs1 rs2,
    covered_R .reg .reg .reg .unused fun rd rs1 rs2 _ => .fMul rd rs1 rs2,
    covered_R .reg .reg .unused .unused fun rd rs1 _ _ => .fSqr rd rs1,
    covered_R .reg .reg .unused .unused fun rd rs1 _ _ => .fSqrc rd rs1,
    covered_R .reg .reg .unused .unused fun rd rs1 _ _ => .fInvc rd rs1,
    covered_R .reg .reg .unused .reg fun rd rs1 _ exp => .fFrb rd rs1 exp,
    List.forall_mem_nil _⟩

theorem curveRows_covered : ∀ r ∈ curveRows, r.Covered := by
  simp only [curveRows, List.forall_mem_cons]
  exact ⟨covered_R .reg .unused .unused .unused fun rd _ _ _ => .tInf rd,
    covered_R .reg .reg .unused .unused fun rd rs1 _ _ => .tCpy rd rs1,
    covered_R .reg .reg .reg .unused fun rd rs1 rs2 _ => .tMk rd rs1 rs2,
    covered_R .reg .reg .reg .reg fun rd rs1 rs2 rs3 => .tMkp rd rs1 rs2 rs3,
    covered_R .reg .reg .unused .unused fun rd rs1 _ _ => .tGetx rd rs1,
    covered_R .reg .reg .unused .unused fun rd rs1 _ _ => .tGety rd rs1,
    covered_R .reg .reg .unused .unused fun rd rs1 _ _ => .tGetz rd rs1,
    covered_R .reg .reg .unused .unused fun rd rs1 _ _ => .tNeg rd rs1,
    covered_R .reg .reg .unused .mode fun rd rs1 _ mode => .tDbl rd rs1 mode,
    covered_R .reg .reg .reg .mode fun rd rs1 rs2 mode => .tAdd rd rs1 rs2 mode,
    covered_R .reg .reg .unused .mode fun rd rs1 _ mode => .tSdbl rd rs1 mode,
    covered_R .reg .reg .unused .mode fun rd rs1 _ mode => .tSdbl1 rd rs1 mode,
    covered_R .reg .reg .reg .mode fun rd rs1 rs2 mode => .tSadd rd rs1 rs2 mode,
    covered_R .reg .reg .unused .reg fun rd rs1 _ exp => .tFrb rd rs1 exp,
    covered_R .reg .reg .unused .flag fun rd rs1 _ inverted => .tNorm rd rs1 inverted,
    covered_R .unused .reg .reg .unused fun _ rs1 rs2 _ => .tCmp rs1 rs2,
    covered_R .unused .reg .unused .unused fun _ rs1 _ _ => .tOnc rs1,
    covered_R .reg .unused .unused .unused fun rd _ _ _ => .tGen rd,
    covered_R .reg .reg .unused .unused fun rd rs1 _ _ => .tIso rd rs1,
    covered_R .reg .reg .unused .unused fun rd rs1 _ _ => .tIsod rd rs1,
    covered_R .reg .reg .unused .unused fun rd rs1 _ _ => .line rd rs1,
    covered_R .reg .reg .reg .mode fun rd rs1 rs2 mode => .miller rd rs1 rs2 mode,
    covered_R .reg .reg .reg .mode fun rd rs1 rs2 mode => .miller2 rd rs1 rs2 mode,
    List.forall_mem_nil _⟩

theorem encodes_of_onRow {w : BitVec 32} : OnRow w → Encodes w := by
  rintro ⟨r, hr, hadm⟩
  simp only [opcodeRows, List.mem_append] at hr
  obtain hr | hr | hr := hr
  · exact systemRows_covered r hr w hadm
  · exact towerRows_covered r hr w hadm
  · exact curveRows_covered r hr w hadm

/-! ### The decoder and the encoder are inverse to each other -/

/-- Settles O1, format by format (`decode_encode`). -/
theorem decodeOfEncode : Obligations.DecodeOfEncode := fun _ => decode_encode

/-- A word that decodes is on a row, so it is the word of some well-formed command, and that command
is the one it decodes to. -/
theorem encode_of_decode {w : BitVec 32} {i : Instr} (h : decode w = .ok i) :
    encode i = w ∧ i.wf = true := by
  obtain ⟨j, rfl, hwf⟩ := encodes_of_onRow (decode_onRow h)
  obtain rfl : j = i := Except.ok.inj ((decode_encode hwf).symm.trans h)
  exact ⟨rfl, hwf⟩

/-- Settles O2: the command of the word is the one it decodes to (`encode_of_decode`). -/
theorem encodeOfDecode : Obligations.EncodeOfDecode := fun _ _ => encode_of_decode

/-! ### The opcode map -/

/-- The rows stand in the order of their opcodes. -/
theorem opcodeRows_sorted : (opcodeRows.map OpcodeRow.op).Pairwise (· < ·) :=
  List.isChain_iff_pairwise.mp (by decide)

theorem opcodeRow_eq_of_op {r r' : OpcodeRow} (hr : r ∈ opcodeRows) (hr' : r' ∈ opcodeRows)
    (hop : r.op = r'.op) : r = r' :=
  List.inj_on_of_nodup_map (opcodeRows_sorted.imp Nat.ne_of_lt) hr hr' hop

/-- Settles O3: a word on a row is that of a command (`encodes_of_onRow`), which decodes; a row is
known by its opcode. -/
theorem decodeMatchesOpcodeMap : Obligations.DecodeMatchesOpcodeMap := by
  refine ⟨rfl, fun w => ⟨⟨fun ⟨i, h⟩ => decode_onRow h, fun h => ?_⟩,
    fun r hr r' hr' hadm hadm' => ?_, fun i h => ?_⟩⟩
  · obtain ⟨i, rfl, hwf⟩ := encodes_of_onRow h
    exact ⟨i, decode_encode hwf⟩
  · obtain ⟨hop, -⟩ := OpcodeRow.admits_iff.mp hadm
    obtain ⟨hop', -⟩ := OpcodeRow.admits_iff.mp hadm'
    exact opcodeRow_eq_of_op hr hr' (hop.symm.trans hop')
  · obtain ⟨rfl, -⟩ := encode_of_decode h
    exact fieldOp_encode i

/-- Settles O4, by evaluating the decoder on the ten words. -/
theorem sampleWordsDecode : Obligations.SampleWordsDecode := by
  unfold Obligations.SampleWordsDecode
  decide

/-! ### The frame of the register files -/

/-- A register that is not the one a write names keeps its value. -/
theorem getElem_set_of_dest_ne {α : Type} {n : Nat} (xs : Vector (Option α) n)
    {dest : Option (Fin n)} {q r : Fin n} {v : Option α} (hdest : dest = some q)
    (hr : dest ≠ some r) :
    (xs.set q.val v q.isLt)[r.val] = xs[r.val] := by
  refine Vector.getElem_set_ne _ _ fun hqr => hr ?_
  rw [hdest, Fin.ext hqr]

section RegisterFrame

variable {c : Config} {s u : State} {i : Instr} (h : Effect c s i u)
include h

theorem Effect.regE_frame (r : RegE) (hr : destE i ≠ some r) : u.e[r.val] = s.e[r.val] := by
  cases h with
  | regE hdest => exact getElem_set_of_dest_ne s.e hdest hr
  | _ => rfl

theorem Effect.regU_frame (r : RegU) (hr : destU i ≠ some r) : u.u[r.val] = s.u[r.val] := by
  cases h with
  | regU hdest => exact getElem_set_of_dest_ne s.u hdest hr
  | _ => rfl

theorem Effect.regF_frame (r : RegF) (hr : destF i ≠ some r) : u.f[r.val] = s.f[r.val] := by
  cases h with
  | regF hdest | regFree hdest | miller hdest => exact getElem_set_of_dest_ne s.f hdest hr
  | _ => rfl

theorem Effect.regT_frame (r : RegT) (hr : destT i ≠ some r) : u.t[r.val] = s.t[r.val] := by
  cases h with
  | regT hdest | regLatch hdest => exact getElem_set_of_dest_ne s.t hdest hr
  | _ => rfl

theorem Effect.regG_frame (r : RegG) (hr : destG i ≠ some r) : u.g[r.val] = s.g[r.val] := by
  cases h with
  | regG hdest => exact getElem_set_of_dest_ne s.g hdest hr
  | _ => rfl

end RegisterFrame

/-- Settles O15: `HALT` and a fault entry write no register, and an effect writes the destination
alone. -/
theorem registerFrame : Obligations.RegisterFrame := by
  intro i s t h
  obtain ⟨-, rfl⟩ | ⟨-, u, hu, rfl⟩ | ⟨-, r, -, rfl⟩ := exec_cases h
  · exact ⟨fun _ _ => rfl, fun _ _ => rfl, fun _ _ => rfl, fun _ _ => rfl, fun _ _ => rfl⟩
  · simp only [State.advance_e, State.advance_u, State.advance_f, State.advance_t, State.advance_g]
    exact ⟨hu.regE_frame, hu.regU_frame, hu.regF_frame, hu.regT_frame, hu.regG_frame⟩
  · exact ⟨fun _ _ => rfl, fun _ _ => rfl, fun _ _ => rfl, fun _ _ => rfl, fun _ _ => rfl⟩

end Sys2Proof.Machine
end

section
/-! PROOFS. The checks before execution, for every command that needs `READY` and for `FINIT`
(`60_exceptions.md` R343 steps 3 to 6): the computation of a command raises the first fault of the list
the statements give. -/

namespace Sys2Proof.Machine

open Sys2Proof

/-! ### The first fault of a list of checks -/

/-- If a check of the list fails, `x` raises the fault of the first that does. -/
def RaisesFirst {α : Type} (checks : List (Option (Nat × BitVec 32))) (x : Except Raise α) : Prop :=
  ∀ (code : Nat) (einfo : BitVec 32), checks.findSome? id = some (code, einfo) →
    ∃ cause : Cause, code = cause.code.toNat ∧ x = raise cause einfo

namespace RaisesFirst

variable {α β γ : Type} {checks : List (Option (Nat × BitVec 32))} {c : Config} {s : State}
  {i : Instr}

theorem nil {x : Except Raise α} : RaisesFirst [] x := fun _ _ h => nomatch h

theorem fail (cause : Cause) (einfo : BitVec 32) (f : α → Except Raise β) :
    RaisesFirst (some (cause.code.toNat, einfo) :: checks) (raise cause einfo >>= f) := by
  rintro _ _ ⟨⟩
  exact ⟨cause, rfl, rfl⟩

theorem assoc {x : Except Raise α} {f : α → Except Raise β} {g : β → Except Raise γ}
    (h : RaisesFirst checks (x >>= fun a => f a >>= g)) : RaisesFirst checks (x >>= f >>= g) := by
  rwa [bind_assoc]

/-- The admission of a command that needs `READY` (`60_exceptions.md` R352). -/
theorem ready {f : Constants → Except Raise α} (hf : ∀ k, RaisesFirst checks (f k))
    (hadm : admission i = .inReady := by rfl) :
    RaisesFirst (s.lifecycleFault i :: checks) (s.needReady >>= f) := by
  rw [State.lifecycleFault, State.needReady, hadm]
  cases s.lifecycle with
  | config => exact fail .lifecycleFault 0#32 f
  | ready k => exact hf k

/-- The admission of a command that needs `CONFIG` (R352). -/
theorem config {f : Unit → Except Raise α} (hf : RaisesFirst checks (f ()))
    (hadm : admission i = .inConfig := by rfl) :
    RaisesFirst (s.lifecycleFault i :: checks) (s.needConfig >>= f) := by
  rw [State.lifecycleFault, State.needConfig, hadm]
  cases s.lifecycle with
  | config => exact hf
  | ready k => exact fail .lifecycleFault 1#32 f

/-- The read of a register or a slot (`60_exceptions.md` R335). -/
theorem read {loc : BitVec 32} {o : Option α} {f : α → Except Raise β}
    (hf : ∀ v, o = some v → RaisesFirst checks (f v)) :
    RaisesFirst ((if o.isSome then none else some (5, loc)) :: checks) (readItem loc o >>= f) := by
  cases o with
  | none => exact fail .unwrittenRead loc f
  | some v => exact hf v rfl

/-- The tag invariant on a T operand (`42_twist_curve.md` R192). -/
theorem tag {r : RegT} {q : TwistPoint} {f : Unit → Except Raise α} (hq : s.t[r.val] = some q)
    (hf : RaisesFirst checks (f ())) : RaisesFirst (s.tagFault r :: checks) (checkTag r q >>= f) := by
  rw [tagFault_of_some hq, checkTag]
  split
  · exact hf
  · exact fail .invariantViolation _ f

/-- The rule that only affine-tagged points pass (R193). -/
theorem affine {r : RegT} {q : TwistPoint} {f : Unit → Except Raise α} (hq : s.t[r.val] = some q)
    (hf : RaisesFirst checks (f ())) :
    RaisesFirst (s.affineFault r :: checks) (checkAffine r q >>= f) := by
  simp only [State.affineFault, checkAffine, hq]
  cases q.tag with
  | affine => exact hf
  | projective => exact fail .operandFault (locReg .t r) f

/-- The mode's tag rule (R193). -/
theorem mode {m : Mode} {r : RegT} {q : TwistPoint} {f : Unit → Except Raise α}
    (hq : s.t[r.val] = some q) (hf : RaisesFirst checks (f ())) :
    RaisesFirst (s.modeFault m r :: checks) (checkMode m r q >>= f) := by
  cases m with
  | basic => exact affine hq hf
  | projc => exact hf

/-- A T operand with no slot beside it: the read and the tag invariant. -/
theorem point {r : RegT} {f : TwistPoint → Except Raise α}
    (hf : ∀ q, RaisesFirst checks (f q)) :
    RaisesFirst ((if s.t[r.val].isSome then none else some (5, locReg .t r)) :: s.tagFault r :: checks)
      (s.readPoint r >>= f) :=
  .assoc <| .read fun q hq => .assoc <| .tag hq (hf q)

/-- The operands of a doubling (`42_twist_curve.md` R198). -/
theorem doubling {r : RegT} {m : Mode} {f : TwistPoint × Option LineRecord → Except Raise α} :
    RaisesFirst [if s.t[r.val].isSome then none else some (5, locReg .t r),
      if s.prm.a.isSome then none else some (5, locPRM 2), s.tagFault r, s.modeFault m r]
      (s.doubling c r m >>= f) :=
  .assoc <| .assoc <| .read fun _ hq => .assoc <| .read fun _ _ => .assoc <| .tag hq <|
    .assoc <| .mode hq .nil

/-- The operands of an addition (R198). -/
theorem addition {q r : RegT} {m : Mode} {f : TwistPoint × Option LineRecord → Except Raise α} :
    RaisesFirst [if s.t[q.val].isSome then none else some (5, locReg .t q),
      if s.t[r.val].isSome then none else some (5, locReg .t r),
      if s.prm.a.isSome then none else some (5, locPRM 2),
      s.tagFault q, s.tagFault r, s.modeFault m q, s.modeFault m r] (s.addition c q r m >>= f) :=
  .assoc <| .assoc <| .read fun _ hq => .assoc <| .read fun _ hr => .assoc <| .read fun _ _ =>
    .assoc <| .tag hq <| .assoc <| .tag hr <| .assoc <| .mode hq <| .assoc <| .mode hr .nil

end RaisesFirst

/-! ### Every command that needs `READY`, and `FINIT` -/

/-- The checks of a command in their order (`60_exceptions.md` R343 steps 3 to 6). -/
def State.earlyChecks (s : State) (i : Instr) : List (Option (Nat × BitVec 32)) :=
  s.lifecycleFault i ::
    ((s.operands i).map fun op => if op.2 then none else some (5, op.1)) ++ s.pointChecks i

/-- A computation that raises the first fault of a command's checks makes it enter that fault. -/
theorem earlyFaults_of_finish {i : Instr} {s : State} {x : Except Raise State}
    (hx : exec i s = finish Config.machine s x) (h : RaisesFirst (s.earlyChecks i) x) :
    EarlyFaults i s := fun code einfo hearly => by
  obtain ⟨cause, rfl, hraise⟩ := h code einfo hearly
  rw [hx, hraise]
  exact finish_raise _ s cause einfo

theorem earlyFaults_finit (s : State) : EarlyFaults .finit s :=
  earlyFaults_of_finish rfl <| .config <| .read fun _ _ => .nil

/-- Every command that needs `READY` makes its checks in the order of R343: one line a command says
which. -/
theorem earlyFaults_of_inReady {i : Instr} (s : State) (hi : admission i = .inReady) :
    EarlyFaults i s := by
  cases i with
  | nop | halt | finit | ldp | ldE | stE | ldF | stF | ldT | stT | ldG | stG => cases hi
  | eZero | eOne | fOne | tInf => exact earlyFaults_of_finish rfl <| .ready fun _ => .nil
  | eCpy | eNeg | eSqr | eSqru | eRed | eMnr | eFrb | eFrb2 | eInv =>
    exact earlyFaults_of_finish rfl <| .ready fun _ => .read fun _ _ => .nil
  | fCpy | fGetr | fGeti | fSqr | fSqrc | fInvc | fFrb | tGen =>
    exact earlyFaults_of_finish rfl <| .ready fun _ => .read fun _ _ => .nil
  | eAdd | eSub | eCmp | eMul | eMulu | fPack | fCmp | fMul | tMk =>
    exact earlyFaults_of_finish rfl <| .ready fun _ => .read fun _ _ => .read fun _ _ => .nil
  | tMkp =>
    exact earlyFaults_of_finish rfl <| .ready fun _ => .read fun _ _ => .read fun _ _ =>
      .read fun _ _ => .nil
  | tCpy | tGetx | tGety | tGetz | tNeg | tNorm =>
    exact earlyFaults_of_finish rfl <| .ready fun _ => .point fun _ => .nil
  | tDbl | tSdbl | tSdbl1 => exact earlyFaults_of_finish rfl <| .ready fun _ => .doubling
  | tAdd | tSadd => exact earlyFaults_of_finish rfl <| .ready fun _ => .addition
  | tFrb =>
    exact earlyFaults_of_finish rfl <| .ready fun _ => .read fun _ hq => .read fun _ _ => .tag hq .nil
  | tCmp =>
    exact earlyFaults_of_finish rfl <| .ready fun _ => .read fun _ hq => .read fun _ hr =>
      .tag hq <| .tag hr .nil
  | tOnc | tIso | tIsod =>
    exact earlyFaults_of_finish rfl <| .ready fun _ => .read fun _ hq => .read fun _ _ =>
      .read fun _ _ => .tag hq .nil
  | line =>
    exact earlyFaults_of_finish rfl <| .ready fun _ => .read fun _ _ => .read fun _ _ => .nil
  | miller | miller2 =>
    exact earlyFaults_of_finish rfl <| .ready fun _ => .read fun _ hq => .read fun _ _ =>
      .read fun _ _ => .read fun _ _ => .read fun _ _ => .read fun _ _ => .read fun _ _ =>
      .assoc <| .tag hq <| .affine hq .nil

end Sys2Proof.Machine
end

section
/-! PROOFS. `FINIT` and the degree-11 tower commands (O17, O24, O25, O26, O27, O28): a command that
passes its checks completes with one write, whose value is the form the statement gives. -/

namespace Sys2Proof.Machine

open Sys2Proof

/-! ### What a computation comes to -/

/-- `x` comes to the result `y`: a value, or a fault. -/
def ComesTo {α : Type} (x y : Except Raise α) : Prop := x = y

namespace ComesTo

variable {α β : Type} {s : State} {y : Except Raise β}

/-- A first part that gives a value leaves the second part on that value. -/
theorem bind {x : Except Raise α} {f : α → Except Raise β} {a : α} (hx : x = .ok a)
    (hf : ComesTo (f a) y) : ComesTo (x >>= f) y := by
  subst hx
  exact hf

theorem ready {f : Constants → Except Raise β} {k : Constants} (hk : s.lifecycle = .ready k)
    (hf : ComesTo (f k) y) : ComesTo (s.needReady >>= f) y :=
  .bind (State.needReady_ok_iff.mpr hk) hf

theorem config {f : Unit → Except Raise β} (hconfig : s.lifecycle = .config)
    (hf : ComesTo (f ()) y) : ComesTo (s.needConfig >>= f) y :=
  .bind (State.needConfig_ok_iff.mpr hconfig) hf

theorem read {loc : BitVec 32} {o : Option α} {f : α → Except Raise β} {v : α} (ho : o = some v)
    (hf : ComesTo (f v) y) : ComesTo (readItem loc o >>= f) y :=
  .bind (readItem_ok_iff.mpr ho) hf

theorem field {f : Field → Except Raise β} {c11 : Base} (hc : s.prm.c11 = some c11)
    (hf : ComesTo (f ⟨Config.prime, c11⟩) y) : ComesTo (s.readField Config.machine >>= f) y :=
  .bind (State.readField_ok_iff.mpr ⟨c11, hc, rfl⟩) hf

theorem tag {r : RegT} {q : TwistPoint} {f : Unit → Except Raise β} (hq : tagOk q = true)
    (hf : ComesTo (f ()) y) : ComesTo (checkTag r q >>= f) y :=
  .bind (checkTag_ok_iff.mpr hq) hf

theorem point {r : RegT} {q : TwistPoint} {f : TwistPoint → Except Raise β}
    (hq : s.t[r.val] = some q) (htag : tagOk q = true) (hf : ComesTo (f q) y) :
    ComesTo (s.readPoint r >>= f) y :=
  .bind (State.readPoint_ok_iff.mpr ⟨hq, htag⟩) hf

theorem ite_pos {b : Prop} [Decidable b] {u v : Except Raise β} (hb : b) (hu : ComesTo u y) :
    ComesTo (if b then u else v) y := by
  rwa [if_pos hb]

theorem ite_neg {b : Prop} [Decidable b] {u v : Except Raise β} (hb : ¬b) (hv : ComesTo v y) :
    ComesTo (if b then u else v) y := by
  rwa [if_neg hb]

theorem writeE {r : RegE} {v w : Deg11} (h : v = w) :
    ComesTo (pure (s.writeE r v)) (.ok { s with e := s.e.set r.val (some w) r.isLt }) := by
  subst h
  rfl

theorem writeT {r : RegT} {v w : TwistPoint} (h : v = w) :
    ComesTo (pure (s.writeT r v)) (.ok { s with t := s.t.set r.val (some w) r.isLt }) := by
  subst h
  rfl

theorem writeEq {v w : Bool} (h : v = w) :
    ComesTo (pure (s.writeEq v)) (.ok { s with eq := w }) := by
  subst h
  rfl

theorem writeOnc {v w : Bool} (h : v = w) :
    ComesTo (pure (s.writeOnc v)) (.ok { s with onc := w }) := by
  subst h
  rfl

end ComesTo

/-- A command whose computation comes to a state completes with it. -/
theorem exec_completes {i : Instr} {s t : State} {x : Except Raise State}
    (hx : exec i s = finish Config.machine s x) (h : ComesTo x (.ok t)) :
    exec i s = .next (t.advance Config.machine) := by
  rw [hx, h, finish_ok]

/-- A command whose computation comes to a fault enters it. -/
theorem exec_faults {i : Instr} {s : State} {x : Except Raise State} {cause : Cause}
    {einfo : BitVec 32} (hx : exec i s = finish Config.machine s x)
    (h : ComesTo x (raise cause einfo)) :
    exec i s = .next (s.faultEntry cause.code.toNat einfo) := by
  rw [hx, h, finish_raise]

/-! ### `FINIT` -/

/-- The check of `FINIT` as `40_deg11_tower.md` R146 writes it. -/
theorem c11Accepted_iff_pow {p c : Nat} (hp : 0 < p) :
    c11Accepted p c = true ↔ ¬(c ^ ((p - 1) / 11) % p = 1 ∨
      (c ^ ((p - 1) / 22) % p) ^ 11 % p ≠ p - 1) := by
  simp only [c11Accepted, powP_eq hp, Bool.and_eq_true, decide_eq_true_eq, not_or, ne_eq, not_not]

/-- Settles O17: the branch is the check of `FINIT`, and each constant has its lemma in
`Laws/Constants.lean`. -/
theorem fieldInitialisation : Obligations.FieldInitialisation := by
  refine fun s => ⟨earlyFaults_finit s, fun c hconfig hc => ?_⟩
  intro g d
  have hpos := Config.prime_pos
  by_cases hok : c11Accepted Config.prime c = true
  · rw [if_neg ((c11Accepted_iff_pow hpos).mp hok)]
    obtain ⟨hinv, hinv_pos, hinv_lt⟩ := constantsOf_c11inv Config.prime_admissible hok
    have hgam : (constantsOf Config.prime c).gam = g := constantsOf_gam hpos c
    have hdel : (constantsOf Config.prime c).del = d := constantsOf_del hpos c
    refine ⟨constantsOf Config.prime c, ?_, rfl, ⟨hinv_pos, hinv_lt, hinv⟩, hgam, hdel, ?_, ?_⟩
    · exact exec_completes rfl <| .config hconfig <| .read hc <| .ite_pos hok rfl
    · exact fun j i => hgam ▸ constantsOf_frb hpos c j i j.isLt i.isLt
    · exact fun j i => hdel ▸ constantsOf_frb2 hpos c j i j.isLt i.isLt
  · rw [if_pos (by_contra fun h => hok ((c11Accepted_iff_pow hpos).mpr h))]
    exact exec_faults (cause := .paramFault) rfl <| .config hconfig <| .read hc <| .ite_neg hok rfl

/-! ### Degree-11 tower -/

theorem zero11_eq : zero11 = Vector.ofFn fun _ : Fin 11 => 0 := by decide

theorem one11_eq : one11 = Vector.ofFn fun i : Fin 11 => if i.val = 0 then 1 else 0 := by decide

/-- Settles O24. -/
theorem elementConstantsAndCopy : Obligations.ElementConstantsAndCopy := by
  refine fun rd rs1 s => ⟨⟨earlyFaults_of_inReady s rfl, earlyFaults_of_inReady s rfl,
    earlyFaults_of_inReady s rfl⟩, fun k hk => ?_⟩
  intro zero one
  refine ⟨?_, ?_, fun x hx => ?_⟩
  · exact exec_completes rfl <| .ready hk <| .writeE zero11_eq
  · exact exec_completes rfl <| .ready hk <| .writeE one11_eq
  · exact exec_completes rfl <| .ready hk <| .read hx <| .writeE rfl

/-- Settles O25. -/
theorem elementSumDifferenceNegation : Obligations.ElementSumDifferenceNegation := by
  refine fun rd rs1 rs2 s => ⟨⟨earlyFaults_of_inReady s rfl, earlyFaults_of_inReady s rfl,
    earlyFaults_of_inReady s rfl⟩, fun k x hk hx => ⟨?_, fun y hy => ⟨?_, ?_⟩⟩⟩
  · exact exec_completes rfl <| .ready hk <| .read hx <| .writeE (neg11_eq _ x)
  · exact exec_completes rfl <| .ready hk <| .read hx <| .read hy <| .writeE (add11_eq _ x y)
  · exact exec_completes rfl <| .ready hk <| .read hx <| .read hy <| .writeE (sub11_eq _ x y)

/-- Settles O26. -/
theorem elementProduct : Obligations.ElementProduct := by
  refine fun rd rs1 rs2 s => ⟨⟨earlyFaults_of_inReady s rfl, earlyFaults_of_inReady s rfl⟩,
    fun k c x hk hc hx => ⟨?_, fun y hy => ?_⟩⟩
  · exact exec_completes rfl <| .ready hk <| .read hx <| .field hc <| .writeE (sqr11_eq _ c x)
  · exact exec_completes rfl <| .ready hk <| .read hx <| .read hy <| .field hc <|
      .writeE (mul11_eq _ c x y)

/-- The residues of an unreduced product (`40_deg11_tower.md` R139). -/
theorem mulu11_residues (p c : Nat) (x y : Deg11) :
    (∀ i, i < 10 → coeff (mulu11 ⟨p, c⟩ x y) i % p =
      (productSum x y i + c * productSum x y (i + 11)) % p) ∧
    coeff (mulu11 ⟨p, c⟩ x y) 10 % p = productSum x y 10 % p := by
  have hget : ∀ i, i < 11 → coeff (mulu11 ⟨p, c⟩ x y) i % p =
      (productSum x y i + c * productSum x y (i + 11)) % p := fun i hi => by
    rw [coeff_of_lt _ hi, mulu11, mul11_get _ _ _ _ hi, Nat.mod_mod]
  refine ⟨fun i hi => hget i (by omega), ?_⟩
  rw [hget 10 (by decide), productSum_top, Nat.mul_zero, Nat.add_zero]

/-- Settles O27: the model's slots are the residues themselves. -/
theorem unreducedProductAndReduction : Obligations.UnreducedProductAndReduction := by
  refine fun rd ru rs1 rs2 s => ⟨⟨earlyFaults_of_inReady s rfl, earlyFaults_of_inReady s rfl,
    earlyFaults_of_inReady s rfl⟩, fun k hk => ⟨fun w hw => ?_, fun c x hc hx =>
      ⟨?_, fun y hy => ?_⟩⟩⟩
  · exact exec_completes rfl <| .ready hk <| .read hw <| .writeE rfl
  · exact ⟨_, exec_completes rfl <| .ready hk <| .read hx <| .field hc rfl,
      mulu11_residues Config.prime c x x⟩
  · exact ⟨_, exec_completes rfl <| .ready hk <| .read hx <| .read hy <| .field hc rfl,
      mulu11_residues Config.prime c x y⟩

theorem mnr_eq_ofFn (p c : Nat) (x : Deg11) : mnr ⟨p, c⟩ x = Vector.ofFn fun i : Fin 11 =>
    if i.val = 0 then c * x[10] % p else coeff x (i.val - 1) := by
  ext i hi
  rw [mnr_get _ _ _ hi, Vector.getElem_ofFn, coeff_of_lt x (by decide)]

theorem frb11_eq_ofFn (p : Nat) (k : Constants) (x : Deg11) {e : Nat} {j : Fin 11}
    (hj : j.val = e % 11) : frb11 p k x e = Vector.ofFn fun i : Fin 11 =>
      if i.val = 0 then x[0] else k.frb[j][i] * x[i] % p := by
  ext i hi
  simp only [frb11_get, Vector.getElem_ofFn, Fin.getElem_fin, hj]

theorem frb2map_eq_ofFn (p : Nat) (k : Constants) (x : Deg11) {e : Nat} {j : Fin 11}
    (hj : j.val = e % 11) : frb2map p k x e = Vector.ofFn fun i : Fin 11 =>
      k.frb2[j][i] * x[i] % p := by
  ext i hi
  simp only [frb2map_get, Vector.getElem_ofFn, Fin.getElem_fin, hj]

/-- Settles O28. -/
theorem nonResidueAndFrobeniusMaps : Obligations.NonResidueAndFrobeniusMaps := by
  refine fun rd rs1 exp s => ⟨⟨earlyFaults_of_inReady s rfl, earlyFaults_of_inReady s rfl,
    earlyFaults_of_inReady s rfl⟩, fun k x hk hx => ⟨fun c hc => ?_, fun j hj => ⟨?_, ?_⟩⟩⟩
  · exact exec_completes rfl <| .ready hk <| .read hx <| .field hc <|
      .writeE (mnr_eq_ofFn _ c x)
  · exact exec_completes rfl <| .ready hk <| .read hx <| .writeE (frb11_eq_ofFn _ k x hj)
  · exact exec_completes rfl <| .ready hk <| .read hx <| .writeE (frb2map_eq_ofFn _ k x hj)

end Sys2Proof.Machine
end

section
/-! PROOFS. The inverse of the degree-11 tower (O29). An accepted `C11` is no 11th power modulo `P`, so
that `X^11 - C11` is irreducible and the tower is a field of `P^11` elements, in which the power
`P^11 - 2` of a value other than zero is its inverse. -/

namespace Sys2Proof.Machine

open Sys2Proof Polynomial

/-! ### The tower as a field -/

/-- The polynomial of the tower, `X^11 - C11` (`40_deg11_tower.md` R120). -/
noncomputable def towerPoly (p c : Nat) : (ZMod p)[X] := X ^ 11 - C (c : ZMod p)

/-- The ring `F_P[u]` with `u^11 = C11` (R120, R121). -/
abbrev Tower (p c : Nat) : Type := AdjoinRoot (towerPoly p c)

/-- The element a tuple stands for: `eval11` at `u`. -/
noncomputable def towerElem (p c : Nat) (x : Deg11) : Tower p c :=
  eval11 (AdjoinRoot.root (towerPoly p c)) x

/-- The tuple as a polynomial. -/
noncomputable def coeffPoly (p : Nat) (x : Deg11) : (ZMod p)[X] :=
  ∑ i ∈ Finset.range 11, C (coeff x i : ZMod p) * X ^ i

theorem coeffPoly_coeff (p : Nat) (x : Deg11) (i : Nat) :
    (coeffPoly p x).coeff i = (coeff x i : ZMod p) := by
  simp only [coeffPoly, finsetSum_coeff, coeff_C_mul_X_pow, Finset.sum_ite_eq, Finset.mem_range]
  split
  · rfl
  · next hi => rw [coeff_of_ge x (by omega), Nat.cast_zero]

theorem degree_coeffPoly_lt (p : Nat) (x : Deg11) : (coeffPoly p x).degree < 11 := by
  refine (degree_lt_iff_coeff_zero _ _).mpr fun i hi => ?_
  rw [coeffPoly_coeff, coeff_of_ge x hi, Nat.cast_zero]

theorem mk_coeffPoly (p c : Nat) (x : Deg11) :
    AdjoinRoot.mk (towerPoly p c) (coeffPoly p x) = towerElem p c x := by
  simp [coeffPoly, towerElem, eval11]

theorem root_pow (p c : Nat) : AdjoinRoot.root (towerPoly p c) ^ 11 = (c : Tower p c) := by
  have h : AdjoinRoot.mk (towerPoly p c) (X ^ 11 - C (c : ZMod p)) = 0 := AdjoinRoot.mk_self
  rw [map_sub, sub_eq_zero] at h
  simpa using h

theorem towerElem_one (p c : Nat) : towerElem p c one11 = 1 := eval11_one _

section Admissible

variable {p c : Nat} (hp : Config.admissiblePrime p)
include hp

theorem degree_towerPoly : (towerPoly p c).degree = 11 := by
  have := Fact.mk hp.1
  exact degree_X_pow_sub_C (by decide) _

/-- A tuple in range is determined by its element. -/
theorem towerElem_injective {x y : Deg11} (hx : Below11 p x) (hy : Below11 p y)
    (h : towerElem p c x = towerElem p c y) : x = y := by
  rw [← mk_coeffPoly, ← mk_coeffPoly, AdjoinRoot.mk_eq_mk] at h
  have := Fact.mk hp.1
  have hdeg : (coeffPoly p x - coeffPoly p y).degree < (towerPoly p c).degree := by
    rw [degree_towerPoly hp]
    exact (degree_sub_le _ _).trans_lt
      (max_lt (degree_coeffPoly_lt p x) (degree_coeffPoly_lt p y))
  have heq : coeffPoly p x = coeffPoly p y := sub_eq_zero.mp (eq_zero_of_dvd_of_degree_lt h hdeg)
  refine hx.ext hy fun i hi => ?_
  rw [← coeff_of_lt x hi, ← coeff_of_lt y hi, ← coeffPoly_coeff, ← coeffPoly_coeff, heq]

theorem towerElem_mul (x y : Deg11) :
    towerElem p c (product11 p c x y) = towerElem p c x * towerElem p c y := by
  have := Fact.mk hp.1
  have hdeg : (towerPoly p c).degree ≠ 0 := by
    rw [degree_towerPoly hp]
    decide
  have : CharP (Tower p c) p :=
    charP_of_injective_algebraMap (AdjoinRoot.of.injective_of_degree_ne_zero hdeg) p
  rw [← mul11_eq]
  exact eval11_mul ⟨p, c⟩ _ (root_pow p c) x y

theorem towerElem_inv11 (x : Deg11) :
    towerElem p c (inv11 ⟨p, c⟩ x) = towerElem p c x ^ (p ^ 11 - 2) :=
  power_map (towerElem p c) (towerElem_one p c)
    (fun x y => by rw [mul11_eq, towerElem_mul hp]) x _

/-- A tuple other than zero stands for an element other than zero. -/
theorem towerElem_ne_zero {x : Deg11} (hx : Below11 p x) (hne : x ≠ zero11) :
    towerElem p c x ≠ 0 := fun h =>
  hne (towerElem_injective hp hx (below11_zero p hp.1.pos) (h.trans (eval11_zero _).symm))

/-- An inverse in range is unique. -/
theorem inverse11_unique {x y y' : Deg11} (hy : Below11 p y) (hy' : Below11 p y')
    (h : product11 p c x y = one11) (h' : product11 p c x y' = one11) : y = y' := by
  refine towerElem_injective (c := c) hp hy hy' (inv_unique (x := towerElem p c x) ?_ ?_)
  · rw [← towerElem_mul hp, h, towerElem_one]
  · rw [← towerElem_mul hp, h', towerElem_one]

/-! ### The inverse for an accepted `C11` -/

variable (hok : c11Accepted p c = true)
include hok

/-- An accepted `C11` is no 11th power: otherwise its power `(P - 1) / 11` would be one. -/
theorem c11_ne_pow (b : ZMod p) : b ^ 11 ≠ (c : ZMod p) := by
  intro hb
  have := Fact.mk hp.1
  obtain ⟨-, h11, -⟩ := admissible_div hp
  obtain ⟨hgam, -⟩ := (c11Accepted_iff hp).mp hok
  have hne : b ≠ 0 := by
    rintro rfl
    exact c11Accepted_ne_zero hp hok (by rw [← hb, zero_pow (by decide)])
  refine hgam ?_
  rw [← hb, ← pow_mul, h11]
  exact ZMod.pow_card_sub_one_eq_one hne

theorem towerPoly_irreducible : Irreducible (towerPoly p c) := by
  have := Fact.mk hp.1
  exact X_pow_sub_C_irreducible_of_prime (by norm_num) (c11_ne_pow hp hok)

/-- The multiplicative group of the tower has `P^11 - 1` elements. -/
theorem tower_pow_card {z : Tower p c} (hz : z ≠ 0) : z ^ (p ^ 11 - 1) = 1 := by
  have := Fact.mk hp.1
  have := Fact.mk (towerPoly_irreducible hp hok)
  have hne : towerPoly p c ≠ 0 := (towerPoly_irreducible hp hok).ne_zero
  have : Module.Finite (ZMod p) (Tower p c) := (AdjoinRoot.powerBasis hne).finite
  have : Finite (Tower p c) := Module.finite_of_finite (ZMod p)
  have := Fintype.ofFinite (Tower p c)
  have hcard : Fintype.card (Tower p c) = p ^ 11 := by
    rw [← Nat.card_eq_fintype_card, Module.natCard_eq_pow_finrank (K := ZMod p), Nat.card_zmod,
      (AdjoinRoot.powerBasis hne).finrank, AdjoinRoot.powerBasis_dim, towerPoly, natDegree_X_pow_sub_C]
  rw [← hcard]
  exact FiniteField.pow_card_sub_one_eq_one z hz

/-- The method of `40_deg11_tower.md` R145 gives the inverse (log entry 13). -/
theorem product11_inv11 {x : Deg11} (hx : Below11 p x) (hne : x ≠ zero11) :
    product11 p c x (inv11 ⟨p, c⟩ x) = one11 := by
  refine towerElem_injective (c := c) hp (below11_product hp.1.pos c _ _)
    (below11_one p hp.1.one_lt) ?_
  have hsize : 2 ≤ p ^ 11 := hp.1.two_le.trans (Nat.le_self_pow (by decide) p)
  rw [towerElem_mul hp, towerElem_inv11 hp, ← pow_succ', show p ^ 11 - 2 + 1 = p ^ 11 - 1 by omega,
    tower_pow_card hp hok (towerElem_ne_zero hp hx hne), towerElem_one]

end Admissible

/-- Settles O29. -/
theorem elementInverse : Obligations.ElementInverse := by
  refine fun rd rs1 s => ⟨earlyFaults_of_inReady s rfl, fun k c x hk hc hx => ⟨fun h0 => ?_,
    fun hne hbelow hsound => ?_⟩⟩
  · exact exec_faults (cause := .arithPrecondition) rfl <| .ready hk <| .read hx <| .field hc <|
      .ite_pos h0 rfl
  · obtain ⟨v, hv, hok, -⟩ := hsound k hk
    obtain rfl : v = c := Option.some.inj (hv.symm.trans hc)
    have hp := Config.prime_admissible
    have hinv := product11_inv11 hp hok hbelow hne
    have hinv_below : Below11 Config.prime (inv11 ⟨Config.prime, v⟩ x) :=
      below11_inv ⟨Config.prime, v⟩ hp.1.one_lt x
    refine ⟨inv11 ⟨Config.prime, v⟩ x, hinv_below, hinv, fun y hy hxy => ?_, ?_⟩
    · exact inverse11_unique hp hy hinv_below hxy hinv
    · exact exec_completes rfl <| .ready hk <| .read hx <| .field hc <| .ite_neg hne <| .writeE rfl

end Sys2Proof.Machine
end

section
/-! PROOFS. The compare and test commands, `T.NORM` and the isogenies (O30, O43, O44): what each
computes, written with the product, sum and difference of `Safety.lean`. -/

namespace Sys2Proof.Machine

open Sys2Proof

/-! ### Compare and test commands -/

theorem equal11_eq (x y : Deg11) : equal11 x y = decide (∀ i : Fin 11, x[i] = y[i]) :=
  decide_eq_decide.mpr ⟨fun h _ => h ▸ rfl, fun h => Vector.ext fun i hi => h ⟨i, hi⟩⟩

theorem equal22_eq (a b : Deg22) :
    equal22 a b = decide (∀ i : Fin 11, a.re[i] = b.re[i] ∧ a.im[i] = b.im[i]) := by
  show (equal11 a.re b.re && equal11 a.im b.im) = _
  rw [equal11_eq, equal11_eq, ← Bool.decide_and]
  exact decide_eq_decide.mpr forall_and.symm

theorem isInf_iff {q : TwistPoint} : isInf q = true ↔ q.z = zero11 := decide_eq_true_iff

theorem equalPoint_eq (p c : Nat) (a b : TwistPoint) :
    let mul := product11 p c
    let za := mul a.z a.z
    let zb := mul b.z b.z
    equalPoint ⟨p, c⟩ a b =
      if a.z = zero11 ∨ b.z = zero11 then decide (a.z = zero11 ∧ b.z = zero11)
      else decide (mul a.x zb = mul b.x za ∧ mul a.y (mul zb b.z) = mul b.y (mul za a.z)) := by
  simp only [equalPoint, isInf, Bool.or_eq_true, decide_eq_true_eq, sqr11_eq, mul11_eq,
    Bool.decide_and]

theorem onCurve_eq (p c : Nat) (ca cb : Deg11) (q : TwistPoint) :
    let mul := product11 p c
    let z2 := mul q.z q.z
    let z4 := mul z2 z2
    onCurve ⟨p, c⟩ ca cb q = if q.z = zero11 then true
      else decide (mul q.y q.y = plus11 p (plus11 p (mul (mul q.x q.x) q.x) (mul (mul ca q.x) z4))
        (mul cb (mul z4 z2))) := by
  simp only [onCurve, isInf_iff, sqr11_eq, mul11_eq, add11_eq]

/-- Settles O30. -/
theorem compareAndTestFlags : Obligations.CompareAndTestFlags := by
  refine fun x y a b p q s => ⟨⟨earlyFaults_of_inReady s rfl, earlyFaults_of_inReady s rfl,
    earlyFaults_of_inReady s rfl, earlyFaults_of_inReady s rfl⟩,
    fun k hk => ⟨fun vx vy hx hy => ?_, fun va vb ha hb => ?_, fun c vp hc hp htag => ?_⟩⟩
  · exact exec_completes rfl <| .ready hk <| .read hx <| .read hy <| .writeEq (equal11_eq vx vy)
  · exact exec_completes rfl <| .ready hk <| .read ha <| .read hb <| .writeEq (equal22_eq va vb)
  · refine ⟨fun vq hq htag' => ?_, fun ca cb ha hb => ?_⟩
    · exact exec_completes rfl <| .ready hk <| .read hp <| .read hq <| .tag htag <| .tag htag' <|
        .field hc <| .writeEq (equalPoint_eq _ c vp vq)
    · exact exec_completes rfl <| .ready hk <| .read hp <| .read ha <| .read hb <| .tag htag <|
        .field hc <| .writeOnc (onCurve_eq _ c ca cb vp)

/-! ### Normalisation -/

theorem normPoint_eq (p c : Nat) (q : TwistPoint) (inverted : Bool) :
    let mul := product11 p c
    let zi := if inverted then q.z else inv11 ⟨p, c⟩ q.z
    let zi2 := mul zi zi
    normPoint ⟨p, c⟩ q inverted = if q.z = zero11 then ⟨zero11, zero11, zero11, .affine⟩
      else if q.tag = .affine then q
      else ⟨mul q.x zi2, mul (mul q.y zi2) zi, one11, .affine⟩ := by
  simp only [normPoint, isInf_iff, sqr11_eq, mul11_eq]
  cases q.tag <;> rfl

/-- Settles O43. -/
theorem normalisation : Obligations.Normalisation := by
  refine fun rd rs1 inverted s => ⟨earlyFaults_of_inReady s rfl, fun k c q hk hc hq htag => ?_⟩
  exact exec_completes rfl <| .ready hk <| .point hq htag <| .field hc <|
    .writeT (normPoint_eq _ c q inverted)

/-! ### Isogenies -/

theorem affineXY_eq (p c : Nat) (q : TwistPoint) :
    let mul := product11 p c
    let zi := inv11 ⟨p, c⟩ q.z
    affineXY ⟨p, c⟩ q =
      (if q.tag = .affine then q.x else mul q.x (mul zi zi),
        if q.tag = .affine then q.y else mul q.y (mul (mul zi zi) zi)) := by
  simp only [affineXY, sqr11_eq, mul11_eq]
  cases q.tag <;> rfl

theorem isoPoint_eq (p c : Nat) (tor2 isoT : Deg11) (q : TwistPoint) {x y : Deg11}
    (hxy : affineXY ⟨p, c⟩ q = (x, y)) :
    let mul := product11 p c
    let d := inv11 ⟨p, c⟩ (minus11 p x tor2)
    let t := mul isoT d
    isoPoint ⟨p, c⟩ tor2 isoT q =
      if q.z = zero11 then ⟨zero11, zero11, zero11, .affine⟩
      else if minus11 p x tor2 = zero11 then ⟨zero11, zero11, zero11, .affine⟩
      else ⟨plus11 p x t, mul y (minus11 p one11 (mul t d)), one11, .affine⟩ := by
  simp only [isoPoint, isInf_iff, infAffine, hxy, sub11_eq, add11_eq, mul11_eq]

theorem isoDualPoint_eq (p c half : Nat) (tor2 isoD : Deg11) (q : TwistPoint) {x y : Deg11}
    (hxy : affineXY ⟨p, c⟩ q = (x, y)) :
    let mul := product11 p c
    let bigX := plus11 p x (plus11 p tor2 tor2)
    let d := inv11 ⟨p, c⟩ bigX
    let yd := mul y d
    let h2 := half * half % p
    let h3 := h2 * half % p
    let scale : Nat → Deg11 → Deg11 := fun n v => Vector.ofFn fun i : Fin 11 => n * v[i] % p
    isoDualPoint ⟨p, c⟩ half tor2 isoD q =
      if q.z = zero11 then ⟨zero11, zero11, zero11, .affine⟩
      else if bigX = zero11 then ⟨zero11, zero11, zero11, .affine⟩
      else ⟨plus11 p tor2 (scale h2 (mul yd yd)),
        scale h3 (mul (mul yd d) (minus11 p (mul bigX bigX) isoD)), one11, .affine⟩ := by
  simp only [isoDualPoint, isInf_iff, infAffine, hxy, sub11_eq, add11_eq, sqr11_eq, mul11_eq,
    scale11_two]
  simp only [scale11_eq, mulP]

/-- Settles O44: the map of R242 or R243 on the affine coordinates (`affineXY_eq`). -/
theorem isogenies : Obligations.Isogenies := by
  refine fun rd rs1 s => ⟨⟨earlyFaults_of_inReady s rfl, earlyFaults_of_inReady s rfl⟩,
    fun k c tor2 q hk hc htor hq htag => ?_⟩
  have hxy := affineXY_eq Config.prime c q
  refine ⟨fun isoT ht => ?_, fun isoD hd => ?_⟩
  · exact exec_completes rfl <| .ready hk <| .read hq <| .read htor <| .read ht <| .tag htag <|
      .field hc <| .writeT (isoPoint_eq _ c tor2 isoT q hxy)
  · exact exec_completes rfl <| .ready hk <| .read hq <| .read htor <| .read hd <| .tag htag <|
      .field hc <| .writeT (isoDualPoint_eq _ c k.half tor2 isoD q hxy)

end Sys2Proof.Machine
end

section
/-! PROOFS. `T.FRB` in closed form (O42). A Frobenius map multiplies each coefficient by a factor of its
own (`Scales`); multiplying by `u` before it and dividing by `u` after it, or the other way round, turns
the factors round by one place. The factors are powers of `DEL`, and `GAM = DEL^2`, so that the closed
form is an equation of exponents modulo 22. -/

namespace Sys2Proof.Machine

open Sys2Proof

/-! ### Maps that multiply each coefficient by a factor -/

/-- `f` keeps values in range and multiplies coefficient `i` by `d i`, as a residue modulo `P`. -/
structure Scales (p : Nat) (f : Deg11 → Deg11) (d : Nat → ZMod p) : Prop where
  below : ∀ {x : Deg11}, Below11 p x → Below11 p (f x)
  cast : ∀ (x : Deg11) (i : Nat) (hi : i < 11), ((f x)[i] : ZMod p) = d i * x[i]

section Scales

variable {p : Nat} {f : Deg11 → Deg11} {d : Nat → ZMod p} (hp : 0 < p) (hf : Scales p f d)
include hp hf

/-- The map that negates its result when `b` holds. -/
theorem Scales.signed (b : Prop) [Decidable b] :
    Scales p (fun x => if b then neg11 p (f x) else f x) fun i => if b then -d i else d i := by
  split_ifs
  · exact ⟨fun _ => below11_neg p hp _, fun x i hi => by
      rw [neg11_get _ _ _ hi, negP_cast hp, hf.cast x i hi, neg_mul]⟩
  · exact hf

variable {c cinv : Nat} (hinv : (c * cinv : ZMod p) = 1)
include hinv

/-- Between multiplication and division by `u`, coefficient `i` takes the factor of `i + 1`. -/
theorem Scales.dnr_mnr :
    Scales p (fun x => dnr p cinv (f (mnr ⟨p, c⟩ x))) fun i => d ((i + 1) % 11) where
  below hx := below11_dnr p cinv hp (hf.below (below11_mnr ⟨p, c⟩ hp hx))
  cast x i hi := by
    rw [dnr_get _ _ _ _ hi]
    split
    · next h10 =>
      subst h10
      rw [coeff_of_lt _ (by decide), ZMod.natCast_mod, Nat.cast_mul, hf.cast, mnr_get, if_pos rfl,
        coeff_of_lt x (by decide), ZMod.natCast_mod, Nat.cast_mul]
      linear_combination d 0 * (x[10] : ZMod p) * hinv
    · next h10 =>
      have hi' : i + 1 < 11 := by omega
      simp only [coeff_of_lt _ hi', hf.cast, mnr_get, Nat.succ_ne_zero, if_false, Nat.add_sub_cancel,
        coeff_of_lt x hi, Nat.mod_eq_of_lt hi']

/-- Between division and multiplication by `u`, coefficient `i` takes the factor of `i - 1`. -/
theorem Scales.mnr_dnr :
    Scales p (fun x => mnr ⟨p, c⟩ (f (dnr p cinv x))) fun i => d ((i + 10) % 11) where
  below hx := below11_mnr ⟨p, c⟩ hp (hf.below (below11_dnr p cinv hp hx))
  cast x i hi := by
    rw [mnr_get _ _ _ hi]
    split
    · next h0 =>
      subst h0
      rw [coeff_of_lt _ (by decide), ZMod.natCast_mod, Nat.cast_mul, hf.cast, dnr_get, if_pos rfl,
        coeff_of_lt x (by decide), ZMod.natCast_mod, Nat.cast_mul]
      linear_combination d 10 * (x[0] : ZMod p) * hinv
    · next h0 =>
      have hi' : i - 1 < 11 := by omega
      simp only [coeff_of_lt _ hi', hf.cast, dnr_get, show ¬i - 1 = 10 by omega, if_false,
        Nat.sub_add_cancel (Nat.pos_of_ne_zero h0), coeff_of_lt x hi,
        show (i + 10) % 11 = i - 1 by omega]

end Scales

/-- The tower Frobenius with the exponents written out (`40_deg11_tower.md` R124, R143). -/
def frobeniusForm (p gam j : Nat) (x : Deg11) : Deg11 :=
  Vector.ofFn fun i : Fin 11 => gam ^ (i.val * j % 11) * x[i] % p

theorem frobeniusForm_cast (p gam j : Nat) (x : Deg11) (i : Nat) (hi : i < 11) :
    ((frobeniusForm p gam j x)[i] : ZMod p) = (gam : ZMod p) ^ (i * j % 11) * x[i] := by
  simp [frobeniusForm]

theorem below11_frobeniusForm {p : Nat} (hp : 0 < p) (gam j : Nat) (x : Deg11) :
    Below11 p (frobeniusForm p gam j x) := fun i hi => by
  simp only [frobeniusForm, Vector.getElem_ofFn]
  exact Nat.mod_lt _ hp

/-! ### The Frobenius maps -/

section Frobenius

variable {p c : Nat} (hp : Config.admissiblePrime p)
include hp

/-- `Frb11` is its form, coefficient 0 included (R143). -/
theorem frb11_eq_form {x : Deg11} (hx : Below11 p x) (e : Nat) :
    frb11 p (constantsOf p c) x e = frobeniusForm p (constantsOf p c).gam (e % 11) x := by
  ext i hi
  rw [frb11_get _ _ _ _ _ hi, frobeniusForm, Vector.getElem_ofFn]
  split
  · next h0 =>
    subst h0
    simp [Nat.mod_eq_of_lt (hx 0 hi)]
  · rw [constantsOf_frb hp.1.pos c _ i (Nat.mod_lt _ (by decide)) hi, Nat.mod_mul_mod]
    rfl

/-- `Frb2map` multiplies coefficient `i` by `DEL^(e (2 i + 1))`, `e` taken modulo 11 (R144). -/
theorem frb2map_scales (e : Nat) : Scales p (frb2map p (constantsOf p c) · e)
    fun i => (constantsOf p c).del ^ (e % 11 * (2 * i + 1) % 22) where
  below _ := below11_frb2 p hp.1.pos _ _ _
  cast x i hi := by
    rw [frb2map_get _ _ _ _ _ hi, constantsOf_frb2 hp.1.pos c _ i (Nat.mod_lt _ (by decide)) hi]
    simp

variable (hok : c11Accepted p c = true)
include hok

theorem c11inv_cast : (c * (constantsOf p c).c11inv : ZMod p) = 1 := by
  have h := congrArg (Nat.cast (R := ZMod p)) (constantsOf_c11inv hp hok).1
  simpa using h

/-- `GAM = DEL^2` (R125). -/
theorem gam_pow (a : Nat) : ((constantsOf p c).gam : ZMod p) ^ a =
    ((constantsOf p c).del : ZMod p) ^ (2 * a) := by
  obtain ⟨h, -, -⟩ := constantsOf_roots hp hok
  rw [pow_mul, h]

theorem del_pow_eleven : ((constantsOf p c).del : ZMod p) ^ 11 = -1 := by
  obtain ⟨-, h, -⟩ := constantsOf_roots hp hok
  exact h

/-- Powers of `DEL` depend on the exponent modulo 22 only. -/
theorem del_pow_congr {a b : Nat} (h : a % 22 = b % 22) :
    ((constantsOf p c).del : ZMod p) ^ a = ((constantsOf p c).del : ZMod p) ^ b := by
  have h22 : ((constantsOf p c).del : ZMod p) ^ 22 = 1 := by
    rw [show 22 = 11 * 2 by rfl, pow_mul, del_pow_eleven hp hok, neg_one_sq]
  rw [pow_eq_pow_mod a h22, pow_eq_pow_mod b h22, h]

/-- `DEL^11` is minus one, so that the sign of the upper half of the exponents is a power of `DEL`. -/
theorem signed_del_pow {m : Nat} (hm : m < 22) (a : Nat) :
    (if 11 ≤ m then -((constantsOf p c).del : ZMod p) ^ a else (constantsOf p c).del ^ a) =
      (constantsOf p c).del ^ (a + 11 * (m / 11)) := by
  split
  · next h =>
    rw [show m / 11 = 1 by omega, mul_one, pow_add, del_pow_eleven hp hok, mul_neg_one]
  · next h =>
    rw [show m / 11 = 0 by omega, mul_zero, add_zero]

/-- `Frb11` multiplies coefficient `i` by `GAM^(i e)`, a power of `DEL`. -/
theorem frb11_scales (e : Nat) : Scales p (frb11 p (constantsOf p c) · e)
    fun i => (constantsOf p c).del ^ (2 * (i * (e % 11) % 11)) where
  below hx := below11_frb p hp.1.pos _ hx _
  cast x i hi := by
    rw [frb11_get _ _ _ _ _ hi]
    split
    · next h0 =>
      subst h0
      simp
    · rw [constantsOf_frb hp.1.pos c _ i (Nat.mod_lt _ (by decide)) hi, ZMod.natCast_mod, Nat.cast_mul,
        ZMod.natCast_mod, Nat.cast_pow, gam_pow hp hok]

/-- A map whose factors are `DEL^(n i)` is a power of `DEL` times the tower Frobenius, when the
exponents agree modulo 22. -/
theorem Scales.eq_scale_form {f : Deg11 → Deg11} {n : Nat → Nat} {a b j : Nat} {x : Deg11}
    (hf : Scales p f fun i => (constantsOf p c).del ^ n i) (hx : Below11 p x)
    (ha : (a : ZMod p) = (constantsOf p c).del ^ b)
    (hn : ∀ i < 11, n i % 22 = (b + 2 * (i * j % 11)) % 22) :
    f x = scale11 p a (frobeniusForm p (constantsOf p c).gam j x) := by
  refine (hf.below hx).ext (below11_scale p hp.1.pos _ _) fun i hi => ?_
  rw [hf.cast x i hi, scale11_get _ _ _ _ hi, ZMod.natCast_mod, Nat.cast_mul,
    frobeniusForm_cast _ _ _ _ _ hi, ha, gam_pow hp hok, ← mul_assoc, ← pow_add,
    del_pow_congr hp hok (hn i hi)]

end Frobenius

/-! ### The exponents of the closed form -/

/-- D-type, `x`: the factor of `i + 1` is `GAM^j` times that of `i`. -/
theorem dType_x_exponent : ∀ m < 22, ∀ i < 11, 2 * ((i + 1) % 11 * (m % 11) % 11) % 22 =
    (2 * (m % 11) + 2 * (i * (m % 11) % 11)) % 22 := by
  decide

/-- D-type, `y`, with the sign of the upper half of the exponents. -/
theorem dType_y_exponent : ∀ m < 22, ∀ i < 11,
    (m % 11 * (2 * ((i + 1) % 11) + 1) % 22 + 11 * (m / 11)) % 22 =
      (3 * m % 22 + 2 * (i * (m % 11) % 11)) % 22 := by
  decide

/-- M-type, `x`: the factor of `i - 1`, and `10 j` is `-j` modulo 11. -/
theorem mType_x_exponent : ∀ m < 22, ∀ i < 11, 2 * ((i + 10) % 11 * (m % 11) % 11) % 22 =
    (2 * (10 * (m % 11) % 11) + 2 * (i * (m % 11) % 11)) % 22 := by
  decide

/-- M-type, `y`: the factor of `i - 2`, and `19 m` is `-3 m` modulo 22. -/
theorem mType_y_exponent : ∀ m < 22, ∀ i < 11,
    (m % 11 * (2 * (((i + 10) % 11 + 10) % 11) + 1) % 22 + 11 * (m / 11)) % 22 =
      (19 * m % 22 + 2 * (i * (m % 11) % 11)) % 22 := by
  decide

/-! ### The curve Frobenius -/

/-- The curve Frobenius with the exponents of `GAM` and `DEL` written out (`42_twist_curve.md` R213). -/
def curveFrobeniusForm (p : Nat) (k : Constants) (m ex ey : Nat) (q : TwistPoint) : TwistPoint where
  x := scale11 p (k.gam ^ ex) (frobeniusForm p k.gam (m % 11) q.x)
  y := scale11 p (k.del ^ ey) (frobeniusForm p k.gam (m % 11) q.y)
  z := frobeniusForm p k.gam (m % 11) q.z
  tag := q.tag

section CurveFrobenius

variable {p c : Nat} (hp : Config.admissiblePrime p) (hok : c11Accepted p c = true) {q : TwistPoint}
  (hq : BelowPoint p q) (e : Nat)
include hp hok hq

/-- A point whose coordinates are scaled by powers of `DEL`, the sign of `y` apart, has the closed form
when the exponents agree. -/
theorem curveFrobeniusForm_of_scales {fx fy : Deg11 → Deg11} {nx ny : Nat → Nat} {m ex ey : Nat}
    (hm : m < 22) (hx : Scales p fx fun i => (constantsOf p c).del ^ nx i)
    (hy : Scales p fy fun i => (constantsOf p c).del ^ ny i)
    (hnx : ∀ i < 11, nx i % 22 = (2 * ex + 2 * (i * (m % 11) % 11)) % 22)
    (hny : ∀ i < 11, (ny i + 11 * (m / 11)) % 22 = (ey + 2 * (i * (m % 11) % 11)) % 22) :
    (⟨fx q.x, if 11 ≤ m then neg11 p (fy q.y) else fy q.y, frb11 p (constantsOf p c) q.z m,
      q.tag⟩ : TwistPoint) = curveFrobeniusForm p (constantsOf p c) m ex ey q := by
  obtain ⟨hqx, hqy, hqz⟩ := hq
  have hsigned := hy.signed hp.1.pos (11 ≤ m)
  simp only [signed_del_pow hp hok hm] at hsigned
  rw [hx.eq_scale_form hp hok hqx ((Nat.cast_pow _ _).trans (gam_pow hp hok ex)) hnx,
    hsigned.eq_scale_form hp hok hqy (Nat.cast_pow _ _) hny, frb11_eq_form hp hqz]
  rfl

/-- The D-type twist (`42_twist_curve.md` R213): the maps run between `MNR` and `DNR`. -/
theorem frbPoint_dType : frbPoint ⟨p, c⟩ (constantsOf p c) .dType q e =
    curveFrobeniusForm p (constantsOf p c) (e % 22) (e % 22 % 11) (3 * (e % 22) % 22) q := by
  have hm : e % 22 < 22 := Nat.mod_lt _ (by decide)
  have hinv := c11inv_cast hp hok
  have hx := (frb11_scales hp hok (e % 22)).dnr_mnr hp.1.pos hinv
  have hy := (frb2map_scales (c := c) hp (e % 22)).dnr_mnr hp.1.pos hinv
  rw [← curveFrobeniusForm_of_scales hp hok hq hm hx hy (dType_x_exponent _ hm)
    (dType_y_exponent _ hm)]
  rfl

/-- The M-type twist (R213): the other way round, twice for `y`. -/
theorem frbPoint_mType : frbPoint ⟨p, c⟩ (constantsOf p c) .mType q e =
    curveFrobeniusForm p (constantsOf p c) (e % 22) (10 * (e % 22 % 11) % 11)
      (19 * (e % 22) % 22) q := by
  have hm : e % 22 < 22 := Nat.mod_lt _ (by decide)
  have hinv := c11inv_cast hp hok
  have hx := (frb11_scales hp hok (e % 22)).mnr_dnr hp.1.pos hinv
  have hy := ((frb2map_scales (c := c) hp (e % 22)).mnr_dnr hp.1.pos hinv).mnr_dnr hp.1.pos hinv
  rw [← curveFrobeniusForm_of_scales hp hok hq hm hx hy (mType_x_exponent _ hm)
    (mType_y_exponent _ hm)]
  rfl

end CurveFrobenius

/-- The closed form as the statement writes it. -/
theorem curveFrobeniusForm_eq (p : Nat) (k : Constants) (m ex ey : Nat) (q : TwistPoint) :
    let frob : Deg11 → Deg11 := fun x =>
      Vector.ofFn fun i : Fin 11 => k.gam ^ (i.val * (m % 11) % 11) * x[i] % p
    curveFrobeniusForm p k m ex ey q =
      ⟨Vector.ofFn fun i : Fin 11 => k.gam ^ ex * (frob q.x)[i] % p,
        Vector.ofFn fun i : Fin 11 => k.del ^ ey * (frob q.y)[i] % p, frob q.z, q.tag⟩ := by
  simp only [curveFrobeniusForm, scale11_eq, frobeniusForm]

/-- Settles O42: one lemma a twist type. -/
theorem curveFrobenius : Obligations.CurveFrobenius := by
  refine fun rd rs1 exp s => ⟨earlyFaults_of_inReady s rfl,
    fun k tw q hk htw hq htag hbelow hsound => ?_⟩
  obtain ⟨c, hc, hok, rfl⟩ := hsound k hk
  have hp := Config.prime_admissible
  cases tw with
  | dType =>
    exact exec_completes rfl <| .ready hk <| .read hq <| .read htw <| .tag htag <| .field hc <|
      .writeT ((frbPoint_dType hp hok hbelow exp.val).trans (curveFrobeniusForm_eq ..))
  | mType =>
    exact exec_completes rfl <| .ready hk <| .read hq <| .read htw <| .tag htag <| .field hc <|
      .writeT ((frbPoint_mType hp hok hbelow exp.val).trans (curveFrobeniusForm_eq ..))

end Sys2Proof.Machine
end

section
/-! PROOFS. The degree-22 tower commands (O31 to O35). An equation between values in range is proved in
the ring of the degree-11 tower (`towerElem_injective`), where the operations on tuples are the ring
operations and `ring` closes it. -/

namespace Sys2Proof.Machine

open Sys2Proof Polynomial

/-- The write of an F register. -/
theorem ComesTo.writeF {s : State} {r : RegF} {v w : Deg22} (h : v = w) :
    ComesTo (pure (s.writeF r v)) (.ok { s with f := s.f.set r.val (some w) r.isLt }) := by
  subst h
  rfl

/-- Settles O31. -/
theorem quadraticMoves : Obligations.QuadraticMoves := by
  refine fun rd fd fs rs1 rs2 s => ⟨⟨earlyFaults_of_inReady s rfl, earlyFaults_of_inReady s rfl,
    earlyFaults_of_inReady s rfl, earlyFaults_of_inReady s rfl, earlyFaults_of_inReady s rfl⟩,
    fun k hk => ⟨?_, fun a ha => ⟨?_, ?_, ?_⟩, fun x y hx hy => ?_⟩⟩
  · exact exec_completes rfl <| .ready hk <| .writeF rfl
  · exact exec_completes rfl <| .ready hk <| .read ha <| .writeF rfl
  · exact exec_completes rfl <| .ready hk <| .read ha <| .writeE rfl
  · exact exec_completes rfl <| .ready hk <| .read ha <| .writeE rfl
  · exact exec_completes rfl <| .ready hk <| .read hx <| .read hy <| .writeF rfl

/-! ### The operations on tuples in the ring of the tower -/

section TowerRing

variable {p : Nat}

theorem neg11_cast (hp : 0 < p) (x : Deg11) (i : Nat) (hi : i < 11) :
    ((neg11 p x)[i] : ZMod p) = -x[i] := by
  rw [neg11_get _ _ _ hi, negP_cast hp]

variable (c : Nat)

/-- A tuple whose residues are an integer combination of two others stands for that combination. -/
theorem towerElem_combination (m n : ℤ) (x y : Deg11) {z : Deg11}
    (h : ∀ (i : Nat) (hi : i < 11), (z[i] : ZMod p) = m * x[i] + n * y[i]) :
    towerElem p c z = m * towerElem p c x + n * towerElem p c y := by
  have hpoly : coeffPoly p z = C (m : ZMod p) * coeffPoly p x + C (n : ZMod p) * coeffPoly p y := by
    ext i
    simp only [coeff_add, coeff_C_mul, coeffPoly_coeff]
    rcases Nat.lt_or_ge i 11 with hi | hi
    · simp only [coeff_of_lt _ hi, h i hi]
    · simp only [coeff_of_ge _ hi, Nat.cast_zero, mul_zero, add_zero]
  simp only [← mk_coeffPoly, hpoly, map_add, map_mul, map_intCast]

theorem towerElem_plus (x y : Deg11) :
    towerElem p c (plus11 p x y) = towerElem p c x + towerElem p c y := by
  rw [towerElem_combination c 1 1 x y fun i hi => by simp [plus11_cast p x y i hi]]
  simp

theorem towerElem_minus (hp : 0 < p) (x y : Deg11) :
    towerElem p c (minus11 p x y) = towerElem p c x - towerElem p c y := by
  rw [towerElem_combination c 1 (-1) x y fun i hi => by
    simp [minus11_cast hp x y i hi, sub_eq_add_neg]]
  simp [sub_eq_add_neg]

theorem towerElem_neg (hp : 0 < p) (x : Deg11) :
    towerElem p c (neg11 p x) = -towerElem p c x := by
  rw [towerElem_combination c 0 (-1) x x fun i hi => by simp [neg11_cast hp x i hi]]
  simp

/-- The tower has characteristic `P`. -/
theorem tower_natCast_mod (n : Nat) : ((n % p : Nat) : Tower p c) = n := by
  rw [← map_natCast (AdjoinRoot.of (towerPoly p c)), ZMod.natCast_mod, map_natCast]

/-- `MNR` is multiplication by `u` (`40_deg11_tower.md` R142): the top coefficient comes round with
the factor `u^11 = C11`. -/
theorem towerElem_timesU (x : Deg11) :
    towerElem p c (timesU p c x) = AdjoinRoot.root (towerPoly p c) * towerElem p c x := by
  have hzero : coeff (timesU p c x) 0 = c * coeff x 10 % p := rfl
  have hsucc : ∀ i < 10, coeff (timesU p c x) (i + 1) = coeff x i := fun i hi => by
    rw [coeff_of_lt _ (Nat.succ_lt_succ hi), timesU, Vector.getElem_ofFn]
    rfl
  have hlow : ∀ i ∈ Finset.range 10,
      (coeff (timesU p c x) (i + 1) : Tower p c) * AdjoinRoot.root (towerPoly p c) ^ (i + 1) =
        AdjoinRoot.root (towerPoly p c) * (coeff x i * AdjoinRoot.root (towerPoly p c) ^ i) :=
    fun i hi => by
      rw [hsucc i (Finset.mem_range.mp hi)]
      ring
  rw [towerElem, towerElem, eval11, eval11, Finset.sum_range_succ', Finset.sum_congr rfl hlow,
    ← Finset.mul_sum, hzero, tower_natCast_mod, Nat.cast_mul, ← root_pow,
    Finset.sum_range_succ _ 10]
  ring

end TowerRing

/-! ### The product -/

section Product

variable {p : Nat} (hp : Config.admissiblePrime p) (c : Nat)
include hp

/-- The middle product of the datapath, less the two outer ones, is the mixed term
(`41_deg22_tower.md` R171). -/
theorem mixed_product (a b : Deg22) :
    minus11 p (minus11 p (product11 p c (plus11 p a.re a.im) (plus11 p b.re b.im))
      (product11 p c a.re b.re)) (product11 p c a.im b.im) =
    plus11 p (product11 p c a.re b.im) (product11 p c a.im b.re) := by
  refine towerElem_injective (c := c) hp (below11_minus hp.1.pos _ _) (below11_plus hp.1.pos _ _) ?_
  simp only [towerElem_minus c hp.1.pos, towerElem_plus, towerElem_mul hp]
  ring

theorem mul22_eq (a b : Deg22) : mul22 ⟨p, c⟩ a b = product22 p c a b := by
  simp only [mul22, product22, mul11_eq, add11_eq, sub11_eq, mnr_eq, mixed_product hp]

/-- The square is the product of the operand with itself (R172). -/
theorem sqr22_eq (a : Deg22) : sqr22 ⟨p, c⟩ a = product22 p c a a := mul22_eq hp c a a

/-- On the cyclotomic subgroup `F.SQRC` gives the square (R173). -/
theorem sqrc22_of_normOne (off : Deg22) {a : Deg22} (ha : NormOne p c a) :
    sqrc22 ⟨p, c⟩ off a = product22 p c a a := by
  have hcyc : isCyc ⟨p, c⟩ a = true := by
    simpa only [isCyc, mul11_eq, mnr_eq, sub11_eq, decide_eq_true_eq, NormOne] using ha
  rw [sqrc22, if_pos hcyc, sqr22_eq hp]

/-- The product with the conjugate is the norm, with no imaginary half (R174). -/
theorem product22_conj (a : Deg22) : product22 p c a (conj22 p a) =
    ⟨minus11 p (product11 p c a.re a.re) (timesU p c (product11 p c a.im a.im)), zero11⟩ := by
  have hpos := hp.1.pos
  have hre : plus11 p (product11 p c a.re a.re) (timesU p c (product11 p c a.im (neg11 p a.im))) =
      minus11 p (product11 p c a.re a.re) (timesU p c (product11 p c a.im a.im)) := by
    refine towerElem_injective (c := c) hp (below11_plus hpos _ _) (below11_minus hpos _ _) ?_
    simp only [towerElem_plus, towerElem_minus c hpos, towerElem_timesU, towerElem_mul hp,
      towerElem_neg c hpos]
    ring
  have him : plus11 p (product11 p c a.re (neg11 p a.im)) (product11 p c a.im a.re) = zero11 := by
    refine towerElem_injective (c := c) hp (below11_plus hpos _ _) (below11_zero p hpos) ?_
    rw [towerElem_plus, towerElem_mul hp, towerElem_mul hp, towerElem_neg c hpos, towerElem,
      towerElem, towerElem, eval11_zero]
    ring
  rw [product22, conj22, hre, him]

end Product

/-- Settles O32. -/
theorem quadraticProduct : Obligations.QuadraticProduct := by
  refine fun rd rs1 rs2 s => ⟨⟨earlyFaults_of_inReady s rfl, earlyFaults_of_inReady s rfl⟩,
    fun k c a hk hc ha => ⟨?_, fun b hb => ?_⟩⟩
  · exact exec_completes rfl <| .ready hk <| .read ha <| .field hc <|
      .writeF (sqr22_eq Config.prime_admissible c a)
  · exact exec_completes rfl <| .ready hk <| .read ha <| .read hb <| .field hc <|
      .writeF (mul22_eq Config.prime_admissible c a b)

/-- Settles O33: off the subgroup the value is the model's free one, reduced modulo `P`. -/
theorem cyclotomicSquare : Obligations.CyclotomicSquare := by
  refine fun rd rs1 s => ⟨earlyFaults_of_inReady s rfl, fun k c a hk hc ha => ?_⟩
  have hp := Config.prime_admissible
  refine ⟨sqrc22 ⟨Config.prime, c⟩ (Config.machine.sqrcOff s.free) a, ?_,
    sqrc22_of_normOne hp c _, ?_⟩
  · exact below22_sqrc (fl := ⟨Config.prime, c⟩) hp.1.one_lt _ a
  · exact exec_completes rfl <| .ready hk <| .read ha <| .field hc rfl

/-- Settles O34. -/
theorem cyclotomicInverse : Obligations.CyclotomicInverse := by
  refine fun rd rs1 s => ⟨earlyFaults_of_inReady s rfl, fun k a hk ha => ?_⟩
  refine ⟨conj22 Config.prime a, rfl, fun i => ?_, ?_, fun c => ?_⟩
  · rw [conj22, neg11_eq, Fin.getElem_fin, Vector.getElem_ofFn]
  · exact exec_completes rfl <| .ready hk <| .read ha <| .writeF rfl
  · rw [product22_conj Config.prime_admissible, Deg22.mk.injEq, eq_self, and_true, NormOne]

/-! ### The Frobenius -/

/-- `F.FRB` as R175 writes it, with the sign coefficient by coefficient. -/
theorem frb22_eq_ofFn {p : Nat} (hp : 0 < p) (k : Constants) (a : Deg22) {e : Nat} {j : Fin 11}
    (hj : j.val = e % 22 % 11) : frb22 p k a e =
      ⟨Vector.ofFn fun i : Fin 11 => if i.val = 0 then a.re[0] else k.frb[j][i] * a.re[i] % p,
        Vector.ofFn fun i : Fin 11 =>
          if 11 ≤ e % 22 then (p - k.frb2[j][i] * a.im[i] % p) % p
          else k.frb2[j][i] * a.im[i] % p⟩ := by
  rw [frb22, frb11_eq_ofFn _ _ _ hj, frb2map_eq_ofFn _ _ _ hj]
  congr 1
  split
  · ext i hi
    rw [neg11_get _ _ _ hi, Vector.getElem_ofFn, Vector.getElem_ofFn,
      negP_eq (Nat.mod_lt _ hp).le]
  · rfl

section FrobeniusIdentities

variable {p c : Nat} (hp : Config.admissiblePrime p) {e : Nat}
include hp

/-- Row 0 of the table `FRB` holds ones. -/
theorem frb11_of_mod_eq_zero (he : e % 11 = 0) {x : Deg11} (hx : Below11 p x) :
    frb11 p (constantsOf p c) x e = x := by
  rw [frb11_eq_form hp hx, he]
  refine (below11_frobeniusForm hp.1.pos _ _ _).ext hx fun i hi => ?_
  rw [frobeniusForm_cast _ _ _ _ _ hi, Nat.mul_zero, Nat.zero_mod, pow_zero, one_mul]

/-- Row 0 of the table `FRB2` holds ones. -/
theorem frb2map_of_mod_eq_zero (he : e % 11 = 0) {x : Deg11} (hx : Below11 p x) :
    frb2map p (constantsOf p c) x e = x := by
  have hscales := frb2map_scales (c := c) hp e
  refine (hscales.below hx).ext hx fun i hi => ?_
  rw [hscales.cast x i hi, he, Nat.zero_mul, Nat.zero_mod, pow_zero, one_mul]

variable {a : Deg22} (ha : Below22 p a)
include ha

/-- An exponent that is a multiple of 11 leaves only the sign. -/
theorem frb22_of_mod_eq_zero (he : e % 22 % 11 = 0) :
    frb22 p (constantsOf p c) a e = if 11 ≤ e % 22 then conj22 p a else a := by
  obtain ⟨hre, him⟩ := ha
  rw [frb22, frb11_of_mod_eq_zero hp he hre, frb2map_of_mod_eq_zero hp he him]
  split <;> rfl

end FrobeniusIdentities

/-- Settles O35. -/
theorem quadraticFrobenius : Obligations.QuadraticFrobenius := by
  refine fun rd rs1 s => ⟨fun exp => earlyFaults_of_inReady s rfl, fun k a hk ha =>
    ⟨fun exp j hj => ?_, fun hsound hbelow => ?_⟩⟩
  · exact exec_completes rfl <| .ready hk <| .read ha <|
      .writeF (frb22_eq_ofFn Config.prime_pos k a hj)
  have hfrb : ∀ (exp : Exponent) (v : Deg22), frb22 Config.prime k a exp.val = v →
      exec (.fFrb rd rs1 exp) s = .next
        ({ s with f := s.f.set rd.val (some v) rd.isLt }.advance Config.machine) := fun exp v hv =>
    exec_completes rfl <| .ready hk <| .read ha <| .writeF hv
  obtain ⟨c, -, -, rfl⟩ := hsound k hk
  have hp := Config.prime_admissible
  refine ⟨?_, fun exp hexp => ?_⟩
  · rw [hfrb 11 _ (frb22_of_mod_eq_zero hp hbelow rfl)]
    exact (exec_completes rfl <| .ready hk <| .read ha <| .writeF rfl).symm
  · rw [hfrb exp a ((frb22_of_mod_eq_zero hp hbelow (by omega)).trans (if_neg (by omega)))]
    exact (exec_completes rfl <| .ready hk <| .read ha <| .writeF rfl).symm

end Sys2Proof.Machine
end

section
/-! PROOFS. The checks before execution of every command (O11), and the commands of the twisted curve
that move, double and add points (O36 to O41). The computation of a doubling or an addition is the
group-law function once its operands have passed their checks (`doubling_eq`, `addition_eq`); each
group-law function has its equation in the product, sum and difference of `Safety.lean`. -/

namespace Sys2Proof.Machine

open Sys2Proof

/-! ### The checks of every command -/

/-- A slot number that `LDP` admits names a slot. -/
theorem loadSlot_of_lt {c : Config} {s : State} {a slot : Nat} (h : slot < 12) :
    ∃ load, loadSlot c s a slot = some load := by
  interval_cases slot <;> exact ⟨_, rfl⟩

/-- `LDP` of a slot that exists checks the lifecycle state alone (`60_exceptions.md` R352). -/
theorem earlyFaults_ldp {slot : SlotField} (hslot : slot.val < 12) (addr : Addr) (s : State) :
    EarlyFaults (.ldp slot addr) s := by
  obtain ⟨load, hload⟩ := loadSlot_of_lt (c := Config.machine) (s := s) (a := addr.val) hslot
  have hexec : exec (.ldp slot addr) s = finish Config.machine s
      (s.needConfig >>= fun _ => load >>= fun prm => pure { s with prm := prm }) := by
    show execLdp slot addr s = _
    rw [execLdp, hload]
  exact earlyFaults_of_finish hexec <| .config .nil

/-- Settles O11: a command is on one of three rows of the admission table (R352); of those allowed in
both lifecycle states only the stores check an operand. -/
theorem earlyChecksInOrder : Obligations.EarlyChecksInOrder := by
  intro i s hwf
  cases hadm : admission i with
  | inReady => exact earlyFaults_of_inReady s hadm
  | inConfig =>
    cases i with
    | finit => exact earlyFaults_finit s
    | ldp slot addr => exact earlyFaults_ldp (of_decide_eq_true hwf) addr s
    | _ => cases hadm
  | always =>
    cases i with
    | stE | stF | stT | stG => exact earlyFaults_of_store rfl
    | nop | halt | ldE | ldF | ldT | ldG => exact fun _ _ hearly => nomatch hearly
    | _ => cases hadm

theorem earlyFaults_all {is : List Instr} (s : State) (h : ∀ i ∈ is, i.wf = true) :
    ∀ i ∈ is, EarlyFaults i s := fun i hi => earlyChecksInOrder i s (h i hi)

/-! ### Point moves -/

theorem negPoint_eq (p : Nat) (q : TwistPoint) :
    negPoint p q = ⟨q.x, Vector.ofFn fun i : Fin 11 =>
      (((p : Int) - (q.y[i] : Int)) % (p : Int)).toNat, q.z, q.tag⟩ := by
  rw [negPoint, neg11_eq]

/-- Settles O36: each command is its reads and one write. -/
theorem pointMoves : Obligations.PointMoves := by
  refine fun td ts rd x y z s => ⟨earlyFaults_all s (by simp [Instr.wf]), fun k hk => ⟨?_,
    fun vx vy hx hy => ⟨?_, fun vz hz => ?_⟩, fun gx gy hgen => ?_, fun q hq htag => ?_⟩⟩
  · exact exec_completes rfl <| .ready hk <| .writeT rfl
  · exact exec_completes rfl <| .ready hk <| .read hx <| .read hy <| .writeT rfl
  · exact exec_completes rfl <| .ready hk <| .read hx <| .read hy <| .read hz <| .writeT rfl
  · exact exec_completes rfl <| .ready hk <| .read hgen <| .writeT rfl
  · refine ⟨?_, ?_, ?_, ?_, ?_⟩
    · exact exec_completes rfl <| .ready hk <| .point hq htag <| .writeT rfl
    · exact exec_completes rfl <| .ready hk <| .point hq htag <| .writeT (negPoint_eq _ q)
    · exact exec_completes rfl <| .ready hk <| .point hq htag <| .writeE rfl
    · exact exec_completes rfl <| .ready hk <| .point hq htag <| .writeE rfl
    · exact exec_completes rfl <| .ready hk <| .point hq htag <| .writeE rfl

/-! ### From the operands to the group law -/

/-- A first part that raises a fault leaves the second undone. -/
theorem ComesTo.fails {α β : Type} {x : Except Raise α} {f : α → Except Raise β} {cause : Cause}
    {einfo : BitVec 32} (hx : x = raise cause einfo) : ComesTo (x >>= f) (raise cause einfo) := by
  subst hx
  rfl

theorem ComesTo.mode {β : Type} {m : Mode} {r : RegT} {q : TwistPoint} {f : Unit → Except Raise β}
    {y : Except Raise β} (hq : m = .basic → q.tag = .affine) (hf : ComesTo (f ()) y) :
    ComesTo (checkMode m r q >>= f) y :=
  .bind (checkMode_ok_iff.mpr hq) hf

section Operands

variable {s : State} {c11 : Base} {a : Deg11} {p q : TwistPoint} {rs1 rs2 : RegT} {m : Mode}
  (hc : s.prm.c11 = some c11) (ha : s.prm.a = some a) (hp : s.t[rs1.val] = some p)
  (htagp : tagOk p = true) (hmp : m = .basic → p.tag = .affine)
include hc ha hp htagp hmp

theorem doubling_eq : s.doubling Config.machine rs1 m = doublePoint ⟨Config.prime, c11⟩ a m p :=
  ComesTo.bind (x := s.doubleOperand rs1 m) (a := (p, a))
    (ComesTo.read hp <| .read ha <| .tag htagp <| .mode hmp rfl) <| .field hc rfl

theorem addition_eq (hq : s.t[rs2.val] = some q) (htagq : tagOk q = true)
    (hmq : m = .basic → q.tag = .affine) :
    s.addition Config.machine rs1 rs2 m = addPoints ⟨Config.prime, c11⟩ a m p q :=
  ComesTo.bind (x := s.addOperands rs1 rs2 m) (a := (p, q, a))
    (ComesTo.read hp <| .read hq <| .read ha <| .tag htagp <| .tag htagq <| .mode hmp <|
      .mode hmq rfl) <| .field hc rfl

end Operands

/-! ### From the group law to the end of a command -/

section Results

variable {s : State} {k : Constants} {rs1 rs2 : RegT} {m : Mode} {r : TwistPoint}
  {lc : Option LineRecord} (hk : s.lifecycle = .ready k) (rd : RegT)
include hk

/-- The plain doubling writes the point (`42_twist_curve.md` R208), the shared ones the record too
(R210, R211). -/
theorem exec_doubles (h : s.doubling Config.machine rs1 m = .ok (r, lc)) :
    exec (.tDbl rd rs1 m) s = .next
      ({ s with t := s.t.set rd.val (some r) rd.isLt }.advance Config.machine) ∧
    exec (.tSdbl rd rs1 m) s = .next
      ({ s with t := s.t.set rd.val (some r) rd.isLt, lc := lc }.advance Config.machine) ∧
    exec (.tSdbl1 rd rs1 m) s = .next
      ({ s with t := s.t.set rd.val (some r) rd.isLt, lc := lc }.advance Config.machine) :=
  ⟨exec_completes rfl <| .ready hk <| .bind h rfl, exec_completes rfl <| .ready hk <| .bind h rfl,
    exec_completes rfl <| .ready hk <| .bind h rfl⟩

/-- A doubling that faults writes nothing (`60_exceptions.md` R342). -/
theorem exec_doubling_faults {cause : Cause} {einfo : BitVec 32}
    (h : s.doubling Config.machine rs1 m = raise cause einfo) :
    exec (.tDbl rd rs1 m) s = .next (s.faultEntry cause.code.toNat einfo) ∧
    exec (.tSdbl rd rs1 m) s = .next (s.faultEntry cause.code.toNat einfo) ∧
    exec (.tSdbl1 rd rs1 m) s = .next (s.faultEntry cause.code.toNat einfo) :=
  ⟨exec_faults rfl <| .ready hk <| .fails h, exec_faults rfl <| .ready hk <| .fails h,
    exec_faults rfl <| .ready hk <| .fails h⟩

/-- The plain addition writes the point (R209), the shared one the record too (R212). -/
theorem exec_adds (h : s.addition Config.machine rs1 rs2 m = .ok (r, lc)) :
    exec (.tAdd rd rs1 rs2 m) s = .next
      ({ s with t := s.t.set rd.val (some r) rd.isLt }.advance Config.machine) ∧
    exec (.tSadd rd rs1 rs2 m) s = .next
      ({ s with t := s.t.set rd.val (some r) rd.isLt, lc := lc }.advance Config.machine) :=
  ⟨exec_completes rfl <| .ready hk <| .bind h rfl, exec_completes rfl <| .ready hk <| .bind h rfl⟩

end Results

/-! ### The group-law functions as the rules write them -/

/-- `AffDbl` (`42_twist_curve.md` R194). -/
theorem affDbl_eq (p c : Nat) (a : Deg11) (q : TwistPoint) :
    let mul := product11 p c
    let sub := minus11 p
    let dbl := fun v : Deg11 => plus11 p v v
    let lam := mul (plus11 p (plus11 p (dbl (mul q.x q.x)) (mul q.x q.x)) a)
      (inv11 ⟨p, c⟩ (dbl q.y))
    let x3 := sub (mul lam lam) (dbl q.x)
    affDbl ⟨p, c⟩ a q = if q.z = zero11 then .ok (q, none)
      else if q.y = zero11 then raise .arithPrecondition 0#32
      else .ok (⟨x3, sub (mul lam (sub q.x x3)) q.y, one11, .affine⟩,
        some ⟨.dbl, .basic, lam, one11, q⟩) := by
  simp only [affDbl, chordPoint, isInf_iff, sqr11_eq, mul11_eq, add11_eq, sub11_eq, scale11_two,
    scale11_three]

/-- `AffAdd` (R195). -/
theorem affAdd_eq {p : Nat} (hp : 0 < p) (c : Nat) (a : Deg11) (q r : TwistPoint) :
    let mul := product11 p c
    let sub := minus11 p
    let lam := mul (sub r.y q.y) (inv11 ⟨p, c⟩ (sub r.x q.x))
    let x3 := sub (sub (mul lam lam) q.x) r.x
    affAdd ⟨p, c⟩ a q r = if q.z = zero11 then .ok (r, none)
      else if r.z = zero11 then .ok (q, none)
      else if q.x = r.x then
        if q.y = r.y then affDbl ⟨p, c⟩ a q else .ok (⟨zero11, zero11, zero11, .affine⟩, none)
      else .ok (⟨x3, sub (mul lam (sub q.x x3)) q.y, one11, .affine⟩,
        some ⟨.add, .basic, lam, one11, r⟩) := by
  simp only [affAdd, chordPoint, infAffine, isInf_iff, sqr11_eq, mul11_eq, add11_eq, sub11_eq,
    minus11_plus11 hp]

/-- `JacDbl` (R196). -/
theorem jacDbl_eq (p c : Nat) (a : Deg11) (q : TwistPoint) :
    let mul := product11 p c
    let sub := minus11 p
    let dbl := fun v : Deg11 => plus11 p v v
    let xx := mul q.x q.x
    let yy := mul q.y q.y
    let zz := mul q.z q.z
    let sv := dbl (dbl (mul q.x yy))
    let m := plus11 p (plus11 p (dbl xx) xx) (mul a (mul zz zz))
    let x3 := sub (mul m m) (dbl sv)
    jacDbl ⟨p, c⟩ a q = if q.z = zero11 then (q, none)
      else (⟨x3, sub (mul m (sub sv x3)) (dbl (dbl (dbl (mul yy yy)))), dbl (mul q.y q.z),
        .projective⟩, some ⟨.dbl, .projc, m, zz, q⟩) := by
  simp only [jacDbl, isInf_iff, sqr11_eq, mul11_eq, add11_eq, sub11_eq, scale11_two, scale11_three,
    scale11_four, scale11_eight]

/-- `JacAdd` (R197). -/
theorem jacAdd_eq (p c : Nat) (a : Deg11) (q r : TwistPoint) :
    let mul := product11 p c
    let sub := minus11 p
    let zq := mul q.z q.z
    let zr := mul r.z r.z
    let u1 := mul q.x zr
    let s1 := mul (mul q.y r.z) zr
    let h := sub (mul r.x zq) u1
    let d := sub (mul (mul r.y q.z) zq) s1
    let hh := mul h h
    let hhh := mul hh h
    let v := mul u1 hh
    let x3 := sub (sub (mul d d) hhh) (plus11 p v v)
    let z3 := mul (mul q.z r.z) h
    jacAdd ⟨p, c⟩ a q r = if q.z = zero11 then (r, none)
      else if r.z = zero11 then (q, none)
      else if h = zero11 then
        if d = zero11 then jacDbl ⟨p, c⟩ a q
        else (⟨zero11, zero11, zero11, .projective⟩, none)
      else (⟨x3, sub (mul d (sub v x3)) (mul s1 hhh), z3, .projective⟩,
        some ⟨.add, .projc, d, z3, r⟩) := by
  simp only [jacAdd, infProjective, isInf_iff, sqr11_eq, mul11_eq, sub11_eq, scale11_two]

/-! ### Doubling and addition in `BASIC` mode -/

/-- Settles O37, by the three branches of `affDbl_eq`. -/
theorem affineDoubling : Obligations.AffineDoubling := by
  refine fun rd rs1 s => ⟨earlyFaults_all s (by simp [Instr.wf]),
    fun k c a q hk hc ha hq htag haff => ?_⟩
  have hdbl := (doubling_eq (m := .basic) hc ha hq htag fun _ => haff).trans
    (affDbl_eq Config.prime c a q)
  intro mul sub dbl lam x3 y3 r record
  refine ⟨fun hz => ?_, fun hz hy => ?_, fun hz hy => ?_⟩
  · exact exec_doubles hk rd <| hdbl.trans <| if_pos hz
  · exact exec_doubling_faults hk rd <| hdbl.trans <| (if_neg hz).trans <| if_pos hy
  · exact exec_doubles hk rd <| hdbl.trans <| (if_neg hz).trans <| if_neg hy

/-- Settles O38, by the branches of `affAdd_eq`. -/
theorem affineAddition : Obligations.AffineAddition := by
  refine fun rd rs1 rs2 s => ⟨⟨earlyChecksInOrder _ s rfl, earlyChecksInOrder _ s rfl⟩,
    fun k c a p q hk hc ha hp hq htagp htagq haffp haffq => ?_⟩
  have hadd := (addition_eq (m := .basic) hc ha hp htagp (fun _ => haffp) hq htagq
    fun _ => haffq).trans (affAdd_eq Config.prime_pos c a p q)
  intro mul sub lam x3 y3 Writes
  refine ⟨fun hzp => ?_, fun hzp hzq => ?_, fun hzp hzq hx hy => ?_, fun hzp hzq hx => ?_⟩
  · exact exec_adds hk rd <| hadd.trans <| if_pos hzp
  · exact exec_adds hk rd <| hadd.trans <| (if_neg hzp).trans <| if_pos hzq
  · exact exec_adds hk rd <| hadd.trans <| (if_neg hzp).trans <| (if_neg hzq).trans <|
      (if_pos hx).trans <| if_neg hy
  · exact exec_adds hk rd <| hadd.trans <| (if_neg hzp).trans <| (if_neg hzq).trans <| if_neg hx

/-! ### Doubling and addition in `PROJC` mode -/

/-- Settles O39, by the two branches of `jacDbl_eq`. -/
theorem projectiveDoubling : Obligations.ProjectiveDoubling := by
  refine fun rd rs1 s => ⟨earlyFaults_all s (by simp [Instr.wf]),
    fun k c a q hk hc ha hq htag => ?_⟩
  have hdbl := (doubling_eq (m := .projc) hc ha hq htag nofun).trans
    (congrArg Except.ok (jacDbl_eq Config.prime c a q))
  intro mul sub dbl xx yy zz sv m x3 y3 z3 Writes
  refine ⟨fun hz => ?_, fun hz => ?_⟩
  · exact exec_doubles hk rd <| hdbl.trans <| congrArg Except.ok <| if_pos hz
  · exact exec_doubles hk rd <| hdbl.trans <| congrArg Except.ok <| if_neg hz

/-- Settles O40, by the branches of `jacAdd_eq`: where `H = 0` and `R = 0` the addition comes to the
doubling of its first operand. -/
theorem projectiveAddition : Obligations.ProjectiveAddition := by
  refine fun rd rs1 rs2 s => ⟨⟨earlyChecksInOrder _ s rfl, earlyChecksInOrder _ s rfl⟩,
    fun k c a p q hk hc ha hp hq htagp htagq => ?_⟩
  have hadd := (addition_eq (m := .projc) hc ha hp htagp nofun hq htagq nofun).trans
    (congrArg Except.ok (jacAdd_eq Config.prime c a p q))
  intro mul sub zp zq u1 s1 h d hh hhh v x3 y3 z3 Writes
  refine ⟨fun hzp => ?_, fun hzp hzq => ?_, fun hzp hzq hzero hd => ?_,
    fun hzp hzq hzero hd => ?_, fun hzp hzq hne => ?_⟩
  · exact exec_adds hk rd <| hadd.trans <| congrArg Except.ok <| if_pos hzp
  · exact exec_adds hk rd <| hadd.trans <| congrArg Except.ok <| (if_neg hzp).trans <| if_pos hzq
  · exact exec_adds hk rd <| hadd.trans <| congrArg Except.ok <|
      (if_neg hzp).trans <| (if_neg hzq).trans <| (if_pos hzero).trans <| if_neg hd
  · have hdbl := (jacDbl_eq Config.prime c a p).trans (if_neg hzp)
    obtain ⟨hadds, hsadds⟩ := exec_adds hk rd <| hadd.trans <| congrArg Except.ok <|
      (if_neg hzp).trans <| (if_neg hzq).trans <| (if_pos hzero).trans <| (if_pos hd).trans hdbl
    obtain ⟨hdoubles, hsdoubles, -⟩ := exec_doubles hk rd <|
      (doubling_eq (m := .projc) hc ha hp htagp nofun).trans <| congrArg Except.ok hdbl
    exact ⟨hadds.trans hdoubles.symm, hsadds.trans hsdoubles.symm, _, _, hadds, hsadds⟩
  · exact exec_adds hk rd <| hadd.trans <| congrArg Except.ok <|
      (if_neg hzp).trans <| (if_neg hzq).trans <| if_neg hne

/-! ### Addition of equal operands -/

theorem sub11_self (p : Nat) (x : Deg11) : sub11 p x x = zero11 := by
  rw [zero11_eq]
  ext i hi
  rw [sub11_get _ _ _ _ hi, Vector.getElem_ofFn, subP, Int.sub_self, Int.zero_emod, Int.toNat_zero]

/-- Equal affine operands are doubled (`42_twist_curve.md` R195). -/
theorem affAdd_self (fl : Field) (a : Deg11) (q : TwistPoint) : affAdd fl a q q = affDbl fl a q := by
  by_cases hinf : isInf q = true
  · rw [affAdd, if_pos hinf, affDbl, if_pos hinf]
  · rw [affAdd, if_neg hinf, if_neg hinf, if_pos rfl, if_pos rfl]

/-- Equal operands have `H = 0` and `R = 0` (R197). -/
theorem jacAdd_self (fl : Field) (a : Deg11) (q : TwistPoint) : jacAdd fl a q q = jacDbl fl a q := by
  by_cases hinf : isInf q = true
  · rw [jacAdd, if_pos hinf, jacDbl, if_pos hinf]
  · simp only [jacAdd, if_neg hinf, sub11_self, if_true]

theorem addPoints_self (fl : Field) (a : Deg11) (m : Mode) (q : TwistPoint) :
    addPoints fl a m q q = doublePoint fl a m q := by
  cases m with
  | basic => exact affAdd_self fl a q
  | projc => exact congrArg Except.ok (jacAdd_self fl a q)

/-- A check that passes whenever the one before it does adds nothing. -/
theorem check_again {α : Type} {x y : Except Raise Unit} {z : Except Raise α}
    (h : x = .ok () → y = .ok ()) : (x >>= fun _ => y >>= fun _ => z) = x >>= fun _ => z := by
  cases x with
  | error r => rfl
  | ok u => rw [h rfl, ok_bind]

/-- The checks on the second of two equal operands have been made on the first. -/
theorem addOperands_of_equal {s : State} {rs1 rs2 : RegT} (m : Mode)
    (h : s.t[rs1.val] = s.t[rs2.val]) :
    s.addOperands rs1 rs2 m = s.doubleOperand rs1 m >>= fun op => pure (op.1, op.1, op.2) := by
  have htag : ∀ q, checkTag rs1 q = .ok () → checkTag rs2 q = .ok () := fun q hq =>
    checkTag_ok_iff.mpr (checkTag_ok_iff.mp hq)
  have hmode : ∀ q, checkMode m rs1 q = .ok () → checkMode m rs2 q = .ok () := fun q hq =>
    checkMode_ok_iff.mpr (checkMode_ok_iff.mp hq)
  simp only [State.addOperands, State.doubleOperand, State.readT, ← h, bind_assoc, pure_bind]
  cases s.t[rs1.val] with
  | none => rfl
  | some q => simp only [readItem_some, ok_bind, check_again (htag q), check_again (hmode q)]

theorem addition_of_equal {s : State} {rs1 rs2 : RegT} (m : Mode)
    (h : s.t[rs1.val] = s.t[rs2.val]) (c : Config) :
    s.addition c rs1 rs2 m = s.doubling c rs1 m := by
  simp only [State.addition, State.doubling, addOperands_of_equal m h, bind_assoc, pure_bind,
    addPoints_self]

/-- Settles O41: both commands make one computation (`addition_of_equal`), and `T.SDBL1` is
`T.SDBL` by definition. -/
theorem equalOperandsDouble : Obligations.EqualOperandsDouble := by
  refine fun rd rs1 rs2 m s h => ⟨?_, ?_, rfl⟩
  · show execTAdd rd rs1 rs2 m s = execTDbl rd rs1 m s
    rw [execTAdd, execTDbl, addition_of_equal m h]
  · show execTSadd rd rs1 rs2 m s = execTSdbl rd rs1 m s
    rw [execTSadd, execTSdbl, addition_of_equal m h]

end Sys2Proof.Machine
end

section
/-! PROOFS. The pairing engine (O45, O46): the line value, and the Miller commands on degenerate operands. -/

namespace Sys2Proof.Machine

open Sys2Proof

/-! ### The line value -/

/-- The line value as `44_pairing_engine.md` R258 writes it. -/
def lineForm (p c : Nat) (tw : Twist) (r : LineRecord) (g : BasePoint) : Deg22 :=
  let b := r.base
  let mul := product11 p c
  let sub := minus11 p
  let dbl := fun v : Deg11 => plus11 p v v
  let scale : Nat → Deg11 → Deg11 := fun n v => Vector.ofFn fun i : Fin 11 => n * v[i] % p
  let chord := r.kind = .add ∨ r.mode = .basic
  let kv := if chord then r.zaux else mul (dbl (mul b.y b.z)) r.zaux
  let cv := if chord then sub (mul r.slope b.x) (mul kv b.y)
    else sub (mul r.slope b.x) (dbl (mul b.y b.y))
  let sv := if chord then r.slope else mul r.slope r.zaux
  match tw with
  | .dType => ⟨scale g.y kv, sub (timesU p c cv) (scale g.x sv)⟩
  | .mType => ⟨sub cv (timesU p c (scale g.x sv)), timesU p c (scale g.y kv)⟩

/-- A record is that of a tangent in `PROJC` mode, or that of a chord or of `BASIC` mode. -/
theorem LineRecord.tangent_iff (r : LineRecord) :
    (decide (r.kind = .dbl) && decide (r.mode = .projc)) = true ↔
      ¬(r.kind = .add ∨ r.mode = .basic) := by
  cases r.kind <;> cases r.mode <;> decide

theorem lineValue_eq (p c : Nat) (tw : Twist) (r : LineRecord) (g : BasePoint) :
    lineValue ⟨p, c⟩ tw r g = if r.kind = .add ∧ r.base.tag = .projective
      then raise .operandFault locLC else .ok (lineForm p c tw r g) := by
  simp only [lineValue, LineRecord.tangent_iff, ite_not, sqr11_eq, mul11_eq, sub11_eq, mnr_eq,
    scale11_two]
  simp only [scale11_eq]
  cases tw <;> rfl

/-- Settles O45. -/
theorem lineEvaluation : Obligations.LineEvaluation := by
  refine fun fd gs s => ⟨earlyFaults_of_inReady s rfl, fun k c g tw hk hc hg htw => ?_⟩
  refine ⟨fun hinf => ?_, fun hinf hlc => ?_, fun r hinf hlc => ?_⟩
  · exact exec_faults (cause := .operandFault) rfl <| .ready hk <| .read hg <| .read htw <|
      .ite_pos hinf rfl
  · refine exec_faults (cause := .lineInvalid) rfl <| .ready hk <| .read hg <| .read htw <|
      .ite_neg (Bool.eq_false_iff.mp hinf) ?_
    rw [hlc]
    rfl
  have key : ∀ {y}, ComesTo (lineValue ⟨Config.prime, c⟩ tw r g >>= fun v => pure (s.writeF fd v)) y →
      exec (.line fd gs) s = finish Config.machine s y := fun {y} hy => by
    refine congrArg (finish Config.machine s) (show ComesTo _ y from .ready hk <| .read hg <|
      .read htw <| .ite_neg (Bool.eq_false_iff.mp hinf) ?_)
    rw [hlc]
    exact .field hc hy
  have hvalue := lineValue_eq Config.prime c tw r g
  refine ⟨fun hkind htag => ?_, fun hadmit => ?_⟩
  · exact (key <| .fails <| hvalue.trans <| if_pos ⟨hkind, htag⟩).trans (finish_raise ..)
  · refine key <| .bind (hvalue.trans <| if_neg hadmit) <| .writeF ?_
    cases tw <;> rfl

/-! ### A Miller command after its operands -/

section Operands

variable {s : State} {k : Constants} {q : TwistPoint} {g : BasePoint} {tw : Twist} {a : Deg11}
  {ts : RegT} {gs : RegG} {c : Config}

theorem ComesTo.millerPoint {β : Type} {f : Unit → Except Raise β} {y : Except Raise β}
    (htag : tagOk q = true) (haff : q.tag = .affine) (hf : ComesTo (f ()) y) :
    ComesTo (checkMillerPoint ts q >>= f) y :=
  .bind (ComesTo.tag htag <| checkAffine_ok_iff.mpr haff) hf

variable (fd : RegF) (mode : Mode) (hk : s.lifecycle = .ready k) (hq : s.t[ts.val] = some q)
  (hg : s.g[gs.val] = some g) (htw : s.prm.twist = some tw) (ha : s.prm.a = some a)
  (htag : tagOk q = true) (haff : q.tag = .affine)
include hk hq hg htw ha htag haff

/-- `MILLER` once its operands have passed their checks (`44_pairing_engine.md` R259, R261). -/
theorem execMiller_eq {naf : List Digit} {seedfix : Bool} {post : PostStep × PostStep}
    (hnaf : s.prm.naf = some naf) (hfix : s.prm.seedfix = some seedfix)
    (hpost : s.prm.post = some post) :
    execMiller fd ts gs mode s c = finish c s (if isInf q || g.inf
      then pure (s.writeMiller fd false one22)
      else s.readField c >>= fun fl =>
        millerLoop ⟨fl, k, tw, a, mode, false, c.mlIndexPast s.free⟩ naf seedfix post q g >>= fun v =>
          pure (s.writeMiller fd false v)) :=
  congrArg (finish c s) <| show ComesTo _ _ from .ready hk <| .read hq <| .read hg <| .read htw <|
    .read ha <| .read hnaf <| .read hfix <| .read hpost <| .millerPoint htag haff rfl

/-- `MILLER2` once its operands have passed their checks (R270). -/
theorem execMiller2_eq {tor2 isoT : Deg11} {naf2 : List Digit} (htor : s.prm.tor2 = some tor2)
    (hiso : s.prm.isoT = some isoT) (hnaf : s.prm.naf2 = some naf2) :
    execMiller2 fd ts gs mode s c = finish c s (if isInf q || g.inf
      then pure (s.writeMiller fd true one22)
      else s.readField c >>= fun fl =>
        millerLoop2 c ⟨fl, k, tw, a, mode, true, c.mlIndexPast s.free⟩ naf2 tor2 isoT gs q g >>=
          fun v => pure (s.writeMiller fd true v)) :=
  congrArg (finish c s) <| show ComesTo _ _ from .ready hk <| .read hq <| .read hg <| .read htw <|
    .read ha <| .read htor <| .read hiso <| .read hnaf <| .millerPoint htag haff rfl

end Operands

/-- Settles O46. -/
theorem degeneratePairing : Obligations.DegeneratePairing := by
  refine fun fd ts gs mode s => ⟨⟨earlyFaults_of_inReady s rfl, earlyFaults_of_inReady s rfl⟩,
    fun k q g hk hq hg htag haff htw ha hdeg => ?_⟩
  obtain ⟨tw, htw⟩ := Option.isSome_iff_exists.mp htw
  obtain ⟨a, ha⟩ := Option.isSome_iff_exists.mp ha
  have hone : (isInf q || g.inf) = true := by rwa [Bool.or_eq_true, isInf_iff]
  refine ⟨fun hnaf hfix hpost => ?_, fun htor hiso hnaf => ?_⟩
  · obtain ⟨naf, hnaf⟩ := Option.isSome_iff_exists.mp hnaf
    obtain ⟨seedfix, hfix⟩ := Option.isSome_iff_exists.mp hfix
    obtain ⟨post, hpost⟩ := Option.isSome_iff_exists.mp hpost
    refine (execMiller_eq fd mode hk hq hg htw ha htag haff hnaf hfix hpost).trans ?_
    rw [if_pos hone]
    rfl
  · obtain ⟨tor2, htor⟩ := Option.isSome_iff_exists.mp htor
    obtain ⟨isoT, hiso⟩ := Option.isSome_iff_exists.mp hiso
    obtain ⟨naf2, hnaf⟩ := Option.isSome_iff_exists.mp hnaf
    refine (execMiller2_eq fd mode hk hq hg htw ha htag haff htor hiso hnaf).trans ?_
    rw [if_pos hone]
    rfl

end Sys2Proof.Machine
end

section
/-! PROOFS. The Miller loops phase by phase (O47, O48, O49). Both loops are one walk over one group step
(`walk`, `lines`); what a computation of the loop comes to is what the phases come to one after another
(`Follows`), and since a phase has one successor this decides the answer of the command. -/

namespace Sys2Proof.Machine

open Sys2Proof

/-! ### Faults of the group law and of a line -/

/-- Every fault `x` raises has this cause. -/
def RaisesOnly {α : Type} (cause : Cause) (x : Except Raise α) : Prop :=
  ∀ z, x = .error z → z.cause = cause

namespace RaisesOnly

variable {α : Type} {cause : Cause} {x y : Except Raise α} {fl : Field} {a : Deg11}
  {q r : TwistPoint}

theorem ok {v : α} : RaisesOnly cause (.ok v : Except Raise α) := nofun

theorem raise {einfo : BitVec 32} : RaisesOnly cause (raise cause einfo : Except Raise α) := by
  rintro _ ⟨⟩
  rfl

theorem ite {b : Prop} [Decidable b] (hx : RaisesOnly cause x) (hy : RaisesOnly cause y) :
    RaisesOnly cause (if b then x else y) := by
  split
  · exact hx
  · exact hy

theorem affDbl : RaisesOnly .arithPrecondition (affDbl fl a q) := .ite ok <| .ite raise ok

theorem affAdd : RaisesOnly .arithPrecondition (affAdd fl a q r) :=
  .ite ok <| .ite ok <| .ite (.ite affDbl ok) ok

theorem doublePoint {mode : Mode} : RaisesOnly .arithPrecondition (doublePoint fl a mode q) := by
  cases mode with
  | basic => exact affDbl
  | projc => exact ok

theorem addPoints {mode : Mode} : RaisesOnly .arithPrecondition (addPoints fl a mode q r) := by
  cases mode with
  | basic => exact affAdd
  | projc => exact ok

theorem lineValue {tw : Twist} {l : LineRecord} {g : BasePoint} :
    RaisesOnly .operandFault (lineValue fl tw l g) := .ite raise ok

end RaisesOnly

/-! ### Computations inside a phase -/

section Phase

variable {α β : Type} (env : MillerEnv) (phase : Phase) (i : Nat)

theorem inPhase_bind (x : Except Raise α) (f : α → Except Raise β) :
    inPhase env phase i (x >>= f) = inPhase env phase i x >>= fun v => inPhase env phase i (f v) := by
  cases x <;> rfl

end Phase

/-! ### One group step of either loop -/

namespace MillerFsm

variable {α β : Type} (e : MillerFsm) (x : MillerPoint)

/-- What the commands hold fixed in the loop of `e`. -/
def env : MillerEnv := ⟨e.fl, e.k, e.tw, e.a, e.mode, e.superOptimal, e.past⟩

/-- The data fields of `ML` at a point of the run of `e` (`10_state.md` R30). -/
def data : MillerData where
  mode := e.mode
  f := x.f
  f2 := x.f2
  t := x.t
  q := e.q
  nq := negPoint e.fl.p e.q
  p := e.g

/-- A fault as `phaseStep` gives it: its code and `EINFO`. -/
def fault (z : Raise) : Nat × BitVec 32 := (z.cause.code.toNat, z.einfo)

/-- A computation made in the phase at `x`, as `phaseStep` gives it. -/
def coded (r : Except Raise α) : Except (Nat × BitVec 32) α := (inPhase e.env x.phase x.i r).mapError fault

theorem coded_bind (r : Except Raise α) (f : α → Except Raise β) :
    e.coded x (r >>= f) = e.coded x r >>= fun v => e.coded x (f v) := by
  cases r <;> rfl

/-- Only `LineInvalid` has the phase and the index in its `EINFO` (`60_exceptions.md` R339). -/
theorem coded_error {z : Raise} (hz : z.cause ≠ .lineInvalid) :
    e.coded x (.error z : Except Raise α) = .error (fault z) := by
  simp [coded, inPhase, hz, Except.mapError, fault]

theorem line_eq (lc : Option LineRecord) (g : BasePoint) :
    e.line x lc g = e.coded x (lineAt e.env lc g) := by
  cases lc with
  | none => rfl
  | some r =>
    simp only [line, lineAt, env]
    cases hr : lineValue e.fl e.tw r g with
    | ok l => rfl
    | error z => exact (e.coded_error x (by rw [RaisesOnly.lineValue z hr]; decide)).symm

/-- The line at the second base point, which only the super-optimal loop takes (R270). -/
def line2 (lc : Option LineRecord) : Except Raise Deg22 :=
  if e.superOptimal then lineAt e.env lc e.g2 else .ok one22

/-- `groupStep` with the faults as the loop raises them. -/
def lines (r : Except Raise (TwistPoint × Option LineRecord)) (acc : Deg22 → Deg22 → Deg22) :
    Except Raise MillerPoint := do
  let s ← r
  let l ← lineAt e.env s.2 e.g
  let l2 ← e.line2 s.2
  pure { x with
    f := acc x.f l
    f2 := if e.superOptimal then acc x.f2 l2 else x.f2
    t := s.1
    first := false }

theorem groupStep_eq {r : Except Raise (TwistPoint × Option LineRecord)}
    (hr : RaisesOnly .arithPrecondition r) (acc : Deg22 → Deg22 → Deg22) :
    e.groupStep x r acc = e.coded x (e.lines x r acc) := by
  cases r with
  | error z => exact (e.coded_error x (by rw [hr z rfl]; decide)).symm
  | ok s =>
    simp only [groupStep, lines, line2, ok_bind, coded_bind, line_eq]
    split <;> rfl

/-- The point of the run after a group step in the phase at `x`, before the phase moves on. -/
def moved (x : MillerPoint) (f f2 : Deg22) (t : TwistPoint) : MillerPoint :=
  { x with f := f, f2 := f2, t := t, first := false }

theorem lines_gives (r : Except Raise (TwistPoint × Option LineRecord))
    (acc : Deg22 → Deg22 → Deg22) :
    Gives (e.lines x r acc) fun y => ∃ f f2 t, y = moved x f f2 t :=
  .seq fun _ => .seq fun _ => .seq fun _ => .pure ⟨_, _, _, rfl⟩

/-! ### The two loops as one -/

/-- Phase `DBL` of the loop of `e`. -/
def dbl (i : Nat) (first : Bool) (d : MillerData) : Except Raise MillerData :=
  if e.superOptimal then phaseDbl2 e.env e.g2 i first d else phaseDbl e.env i first d

/-- Phase `ADD` of the loop of `e`. -/
def add (i : Nat) (digit : Digit) (d : MillerData) : Except Raise MillerData :=
  if e.superOptimal then phaseAdd2 e.env e.g2 i digit d else phaseAdd e.env i digit d

/-- Phase `FOLD` of the loop of `e`, which the standard loop does not have. -/
def foldOf (m : Deg22 × Deg22) (i : Nat) (d : MillerData) : MillerData :=
  if e.superOptimal then phaseFold e.c m i d else d

/-- The phases of one index of the loop of `e`. -/
def index (m : Deg22 × Deg22) (i : Nat) (first : Bool) (d : MillerData) : Except Raise MillerData := do
  let d1 ← e.dbl i first d
  let d2 ← e.add i (e.digit i) d1
  pure (e.foldOf m i d2)

/-- The walk of the loop of `e`. -/
def walk (m : Deg22 × Deg22) (n : Nat) (first : Bool) (d : MillerData) : Except Raise MillerData :=
  if e.superOptimal then millerWalk2 e.c e.env e.g2 m e.digits n first d
  else millerWalk e.env e.digits n first d

theorem walk_zero (m : Deg22 × Deg22) (first : Bool) (d : MillerData) : e.walk m 0 first d = .ok d :=
  ite_self _

theorem walk_succ (m : Deg22 × Deg22) (i : Nat) (first : Bool) (d : MillerData) :
    e.walk m (i + 1) first d = e.index m i first d >>= e.walk m i false := by
  simp only [index, walk, dbl, add, foldOf, bind_assoc, pure_bind]
  split <;> rfl

/-- The operand of an addition (R263). -/
def digitOperand (digit : Digit) : TwistPoint := if digit = .plus then e.q else negPoint e.fl.p e.q

theorem add_zero (i : Nat) (d : MillerData) : e.add i .zero d = .ok d := ite_self _

/-- The accumulator of a doubling (`44_pairing_engine.md` R262). -/
def doubled (first : Bool) (f l : Deg22) : Deg22 := if first then l else e.mul (e.mul f f) l

section Products

variable (hp : Config.admissiblePrime e.fl.p)
include hp

theorem mul_eq (f l : Deg22) : mul22 e.fl f l = e.mul f l := mul22_eq hp e.fl.c11 f l

theorem accumulate_eq (first : Bool) (f l : Deg22) : accumulate e.env first f l = e.doubled first f l := by
  simp only [accumulate, doubled, ← e.mul_eq hp]
  rfl

theorem dbl_eq : e.dbl x.i x.first (e.data x) = inPhase e.env .dbl x.i
    (e.lines x (doublePoint e.fl e.a e.mode x.t) (e.doubled x.first)) >>= fun y => .ok (e.data y) := by
  simp only [dbl, phaseDbl2, phaseDbl, lines, line2, ← e.accumulate_eq hp]
  split <;> simp only [inPhase_bind, bind_assoc] <;> rfl

theorem add_eq {digit : Digit} (hd : digit ≠ .zero) : e.add x.i digit (e.data x) =
    inPhase e.env .add x.i (e.lines x (addPoints e.fl e.a e.mode x.t (e.digitOperand digit)) e.mul)
      >>= fun y => .ok (e.data y) := by
  have hpoint : digitPoint (e.data x) digit = some (e.digitOperand digit) := by
    cases digit with
    | zero => exact absurd rfl hd
    | plus | minus => rfl
  simp only [add, phaseAdd2, phaseAdd, hpoint, addStep, lines, line2, ← e.mul_eq hp]
  split <;> simp only [inPhase_bind, bind_assoc] <;> rfl

theorem addStep_eq (hstd : e.superOptimal = false) (pt : TwistPoint) : addStep e.env (e.data x) pt =
    e.lines x (addPoints e.fl e.a e.mode x.t pt) e.mul >>= fun y => .ok (e.data y) := by
  simp only [addStep, lines, line2, ← e.mul_eq hp, hstd, bind_assoc]
  rfl

end Products

/-! ### The step of each phase -/

section Steps

variable {e x}

theorem start_phase (hstd : e.superOptimal = false) : e.start.phase = .dbl :=
  if_neg (Bool.eq_false_iff.mp hstd)

theorem phaseStep_dbl (hx : x.phase = .dbl) : e.phaseStep x =
    e.coded x (e.lines x (doublePoint e.fl e.a e.mode x.t) (e.doubled x.first)) >>= fun y =>
      .ok (if e.digit x.i = .zero then e.afterIndex y else { y with phase := .add }) := by
  rw [← e.groupStep_eq x .doublePoint, phaseStep, hx]
  rfl

theorem phaseStep_add (hx : x.phase = .add) : e.phaseStep x =
    e.coded x (e.lines x (addPoints e.fl e.a e.mode x.t (e.digitOperand (e.digit x.i))) e.mul) >>=
      fun y => .ok (e.afterIndex y) := by
  rw [← e.groupStep_eq x .addPoints, phaseStep, hx]
  rfl

theorem phaseStep_fix (hx : x.phase = .fix) : e.phaseStep x =
    .ok (if e.seedfix then
        { x with phase := .post0, f := conj22 e.fl.p x.f, t := negPoint e.fl.p x.t }
      else { x with phase := .post0 }) := by
  rw [phaseStep, hx]

theorem phaseStep_post0 (hx : x.phase = .post0) :
    e.phaseStep x = e.postStep x e.post.1 .post1 := by
  rw [phaseStep, hx]

theorem phaseStep_post1 (hx : x.phase = .post1) :
    e.phaseStep x = e.postStep x e.post.2 .write := by
  rw [phaseStep, hx]

/-! The phases of the super-optimal loop with a hook (R270, R271). -/

section Hooks

variable {m : Deg22 × Deg22}

theorem phaseStep_pre_inf (hx : x.phase = .pre) (hinf : e.g2.inf = true) :
    e.phaseStep x = .error (8, e.gLoc) := by
  simp only [phaseStep, hx, hinf, if_true]

theorem phaseStep_pre_none (hx : x.phase = .pre) (hinf : e.g2.inf = false)
    (hm : e.c.superOpt.corrPre e.q e.q2 e.g e.g2 = none) : e.phaseStep x = .error (1, 0#32) := by
  simp only [phaseStep, hx, hinf, hm, Bool.false_eq_true, if_false]

theorem phaseStep_pre_some (hx : x.phase = .pre) (hinf : e.g2.inf = false)
    (hm : e.c.superOpt.corrPre e.q e.q2 e.g e.g2 = some m) :
    e.phaseStep x = .ok { x with phase := .dbl, m := (norm22 e.c.p m.1, norm22 e.c.p m.2) } := by
  simp only [phaseStep, hx, hinf, hm, Bool.false_eq_true, if_false]

theorem phaseStep_combine_none (hx : x.phase = .combine)
    (hm : e.c.superOpt.corrPost x.t e.q e.q2 e.g e.g2 = none) :
    e.phaseStep x = .error (1, 0#32) := by
  simp only [phaseStep, hx, hm]

theorem phaseStep_combine_some (hx : x.phase = .combine)
    (hm : e.c.superOpt.corrPost x.t e.q e.q2 e.g e.g2 = some m) :
    e.phaseStep x = .ok { x with
      phase := .write
      f := norm22 e.c.p (e.c.superOpt.combine x.f x.f2 x.m.1 x.m.2 (norm22 e.c.p m.1)
        (norm22 e.c.p m.2)) } := by
  simp only [phaseStep, hx, hm]

end Hooks

theorem phaseStep_write (hx : x.phase = .write) : e.phaseStep x = .ok x := by
  rw [phaseStep, hx]

/-- The phase after index 0 (R262, R263, R270). -/
theorem nextIndex_of_zero (hi : x.i = 0) :
    e.nextIndex x = { x with phase := if e.superOptimal then .combine else .fix } := if_pos hi

theorem nextIndex_of_ne_zero (hi : x.i ≠ 0) :
    e.nextIndex x = { x with phase := .dbl, i := x.i - 1 } := if_neg hi

end Steps

/-! ### What the phases come to -/

/-- From `x` the phases come to what `r` says: on a value to a point that `done` relates to it, on a
fault to that fault with its step (`44_pairing_engine.md` R260, R267). -/
inductive Follows (done : α → MillerPoint → Prop) : MillerPoint → Except Raise α → Prop
  | ends {x v} (h : done v x) : Follows done x (.ok v)
  | faults {x z} (h : e.phaseStep x = .error (fault z))
      (hstep : z.step = some ⟨e.superOptimal, x.phase, e.shown x.i⟩) : Follows done x (.error z)
  | step {x y r} (h : e.phaseStep x = .ok y) (hr : Follows done y r) : Follows done x r

variable {e x} {done : α → MillerPoint → Prop} {doneAfter : β → MillerPoint → Prop}

theorem Follows.bind {r : Except Raise α} {f : α → Except Raise β} (hr : e.Follows done x r)
    (hf : ∀ v y, done v y → e.Follows doneAfter y (f v)) : e.Follows doneAfter x (r >>= f) := by
  induction hr with
  | ends h => exact hf _ _ h
  | faults h hstep => exact .faults h hstep
  | step h _ ih => exact .step h ih

theorem Follows.mono {done' : α → MillerPoint → Prop} {r : Except Raise α} (hr : e.Follows done x r)
    (h : ∀ v y, done v y → done' v y) : e.Follows done' x r := by
  induction hr with
  | ends hv => exact .ends (h _ _ hv)
  | faults hz hstep => exact .faults hz hstep
  | step hy _ ih => exact .step hy ih

/-- A phase that is a group step: the data are those at the point after it. -/
theorem Follows.lines {r : Except Raise (TwistPoint × Option LineRecord)} {acc : Deg22 → Deg22 → Deg22}
    {next : MillerPoint → MillerPoint}
    (h : e.phaseStep x = e.coded x (e.lines x r acc) >>= fun y => .ok (next y)) :
    e.Follows (fun d z => ∃ f f2 t, d = e.data (moved x f f2 t) ∧ z = next (moved x f f2 t)) x
      (inPhase e.env x.phase x.i (e.lines x r acc) >>= fun y => .ok (e.data y)) := by
  cases hy : e.lines x r acc with
  | error z =>
    rw [hy] at h
    exact .faults h rfl
  | ok y =>
    rw [hy] at h
    obtain ⟨f, f2, t, rfl⟩ := e.lines_gives x _ _ y hy
    exact .step h (.ends ⟨f, f2, t, rfl, rfl⟩)

/-! ### The phases without the group law -/

/-- `FOLD`, or no phase at all (R270). -/
theorem fold_follows (f f2 : Deg22) (t : TwistPoint) :
    e.Follows (fun d z => ∃ f f2 t, d = e.data (moved x f f2 t) ∧ z = e.nextIndex (moved x f f2 t))
      (e.afterIndex (moved x f f2 t)) (.ok (e.foldOf x.m x.i (e.data (moved x f f2 t)))) := by
  unfold afterIndex foldOf phaseFold
  cases e.superOptimal with
  | false => exact .ends ⟨f, f2, t, rfl, rfl⟩
  | true =>
    show e.Follows _ (if e.c.superOpt.foldAt x.i then _ else _) (.ok (if _ then _ else _))
    split
    · exact .step (x := { moved x f f2 t with phase := .fold }) rfl (.ends ⟨_, _, t, rfl, rfl⟩)
    · exact .ends ⟨f, f2, t, rfl, rfl⟩

/-- The sign fix-up (R264). -/
theorem fix_follows (hx : x.phase = .fix) :
    e.Follows (fun d z => d = e.data z ∧ z.phase = .post0 ∧ z.i = x.i) x
      (.ok (phaseFix e.env e.seedfix (e.data x))) := by
  have h := phaseStep_fix (e := e) hx
  unfold phaseFix
  cases hfix : e.seedfix with
  | false =>
    rw [hfix] at h
    exact .step h (.ends ⟨rfl, rfl, rfl⟩)
  | true =>
    rw [hfix] at h
    exact .step h (.ends ⟨rfl, rfl, rfl⟩)

/-- Phase `PRE` up to the image of the base point (R270). -/
theorem preImage_follows {gs : RegG} (hloc : e.gLoc = locReg .g gs) (hx : x.phase = .pre) :
    e.Follows (fun v z => v = e.g2 ∧ z = x ∧ e.g2.inf = false) x
      (inPhase e.env .pre x.i (preImage e.c gs e.g)) := by
  unfold preImage
  rw [show hookIsoG1 e.c e.g = e.g2 from rfl]
  cases hinf : e.g2.inf with
  | false => exact .ends ⟨rfl, rfl, rfl⟩
  | true => exact .faults (hloc ▸ phaseStep_pre_inf hx hinf) (hx ▸ rfl)

/-- Phase `PRE` after that (R270). -/
theorem corrPre_follows (hx : x.phase = .pre) (hinf : e.g2.inf = false) :
    e.Follows (fun m z => z = { x with phase := .dbl, m := m }) x
      (inPhase e.env .pre x.i (hookPair e.c (e.c.superOpt.corrPre e.q e.q2 e.g e.g2))) := by
  cases hm : e.c.superOpt.corrPre e.q e.q2 e.g e.g2 with
  | none => exact .faults (phaseStep_pre_none hx hinf hm) (hx ▸ rfl)
  | some m => exact .step (phaseStep_pre_some hx hinf hm) (.ends rfl)

/-- Phase `COMBINE` (R270). -/
theorem combine_follows (hx : x.phase = .combine) (hi : x.i = 0) :
    e.Follows (fun v z => z.phase = .write ∧ z.f = v) x
      (inPhase e.env .combine 0 (hookPair e.c (e.c.superOpt.corrPost x.t e.q e.q2 e.g e.g2)) >>= fun n =>
        pure (norm22 e.c.p (e.c.superOpt.combine x.f x.f2 x.m.1 x.m.2 n.1 n.2))) := by
  cases hn : e.c.superOpt.corrPost x.t e.q e.q2 e.g e.g2 with
  | none => exact .faults (phaseStep_combine_none hx hn) (hx ▸ hi ▸ rfl)
  | some n => exact .step (phaseStep_combine_some hx hn) (.ends ⟨rfl, rfl⟩)

/-! ### The group law of an index, and the walk -/

section Phases

variable (hp : Config.admissiblePrime e.fl.p)
include hp

theorem dbl_follows (hx : x.phase = .dbl) :
    e.Follows (fun d z => ∃ f f2 t, d = e.data (moved x f f2 t) ∧
      z = if e.digit x.i = .zero then e.afterIndex (moved x f f2 t)
        else { moved x f f2 t with phase := .add })
      x (e.dbl x.i x.first (e.data x)) := by
  rw [e.dbl_eq x hp, ← hx]
  exact .lines (phaseStep_dbl hx)

theorem add_follows (hx : x.phase = .add) (hd : e.digit x.i ≠ .zero) :
    e.Follows (fun d z => ∃ f f2 t, d = e.data (moved x f f2 t) ∧ z = e.afterIndex (moved x f f2 t))
      x (e.add x.i (e.digit x.i) (e.data x)) := by
  rw [e.add_eq x hp hd, ← hx]
  exact .lines (phaseStep_add hx)

/-- One index, from its `DBL` to the phase after its last one (R262, R263, R270). -/
theorem index_follows (hx : x.phase = .dbl) :
    e.Follows (fun d z => ∃ f f2 t, d = e.data (moved x f f2 t) ∧ z = e.nextIndex (moved x f f2 t))
      x (e.index x.m x.i x.first (e.data x)) := by
  refine (dbl_follows hp hx).bind ?_
  rintro _ _ ⟨f, f2, t, rfl, rfl⟩
  by_cases hd : e.digit x.i = .zero
  · rw [if_pos hd, hd, add_zero]
    exact fold_follows f f2 t
  · rw [if_neg hd]
    refine (add_follows (x := { moved x f f2 t with phase := .add }) hp rfl hd).bind ?_
    rintro _ _ ⟨f, f2, t, rfl, rfl⟩
    exact fold_follows (x := { x with phase := .add }) f f2 t

/-- The walk, from `DBL` at its first index to the phase after index 0 (R259, R270). -/
theorem walk_follows {n : Nat} (hx : x.phase = .dbl) (hn : x.i = n) :
    e.Follows (fun d z => d = e.data z ∧ z.phase = (if e.superOptimal then .combine else .fix) ∧
      z.i = 0 ∧ z.m = x.m) x (e.walk x.m (n + 1) x.first (e.data x)) := by
  induction n generalizing x with
  | zero =>
    rw [walk_succ, ← hn]
    refine (index_follows hp hx).bind ?_
    rintro _ _ ⟨f, f2, t, rfl, rfl⟩
    rw [hn, walk_zero, nextIndex_of_zero (x := moved x f f2 t) hn]
    exact .ends ⟨rfl, rfl, hn, rfl⟩
  | succ n ih =>
    rw [walk_succ, ← hn]
    refine (index_follows hp hx).bind ?_
    rintro _ _ ⟨f, f2, t, rfl, rfl⟩
    rw [hn, nextIndex_of_ne_zero (x := moved x f f2 t) (hn ▸ n.succ_ne_zero)]
    exact ih (x := { moved x f f2 t with phase := .dbl, i := x.i - 1 }) rfl (by simp [hn])

/-! ### The loops -/

/-- A post-loop step (R265). -/
theorem post_follows (hstd : e.superOptimal = false) {st : PostStep} {next : Phase} (hi : x.i = 0)
    (hx : e.phaseStep x = e.postStep x st next) :
    e.Follows (fun d z => d = e.data z ∧ z.phase = next ∧ z.i = 0) x
      (phasePost e.env x.phase st (e.data x)) := by
  have hadd : ∀ pt, e.phaseStep x = (e.groupStep x (addPoints e.fl e.a e.mode x.t (postPoint e.env st pt))
        e.mul >>= fun y => .ok { y with phase := next }) →
      e.Follows (fun d z => d = e.data z ∧ z.phase = next ∧ z.i = 0) x
        (inPhase e.env x.phase 0 (addStep e.env (e.data x) (postPoint e.env st pt))) := fun pt hpt => by
    rw [e.addStep_eq x hp hstd, inPhase_bind, ← hi]
    rw [e.groupStep_eq x .addPoints] at hpt
    refine (Follows.lines hpt).mono ?_
    rintro _ _ ⟨f, f2, t, rfl, rfl⟩
    exact ⟨rfl, rfl, rfl⟩
  unfold postStep at hx
  unfold phasePost postSource
  cases hsrc : st.src with
  | disabled =>
    rw [hsrc] at hx
    exact .step hx (.ends ⟨rfl, rfl, hi⟩)
  | input =>
    rw [hsrc] at hx
    exact hadd e.q hx
  | running =>
    rw [hsrc] at hx
    exact hadd x.t hx

/-- The standard loop (R259). -/
theorem millerLoop_follows (hstd : e.superOptimal = false) (hlen : 2 ≤ e.digits.length) :
    e.Follows (fun v z => z.phase = .write ∧ z.f = v) e.start
      (millerLoop e.env e.digits e.seedfix e.post e.q e.g) := by
  have hwalk : e.walk e.start.m (e.digits.length - 2 + 1) true (e.data e.start) =
      millerWalk e.env e.digits (e.digits.length - 1) true (millerStart e.env e.q e.g) := by
    rw [walk, hstd, show e.digits.length - 2 + 1 = e.digits.length - 1 by omega]
    rfl
  unfold millerLoop
  rw [← hwalk]
  refine (walk_follows hp (start_phase hstd) rfl).bind ?_
  rintro _ y ⟨rfl, hy, hi, -⟩
  rw [hstd] at hy
  refine Follows.bind (fix_follows hy) (f := fun d => phasePost e.env .post0 e.post.1 d >>= fun d2 =>
    phasePost e.env .post1 e.post.2 d2 >>= fun d3 => pure d3.f) ?_
  rintro _ y0 ⟨rfl, hy0, hi0⟩
  rw [← hy0]
  refine (post_follows hp hstd (hi0.trans hi) (phaseStep_post0 hy0)).bind ?_
  rintro _ y1 ⟨rfl, hy1, hi1⟩
  rw [← hy1]
  refine (post_follows hp hstd hi1 (phaseStep_post1 hy1)).bind ?_
  rintro _ y2 ⟨rfl, hy2, -⟩
  exact .ends ⟨hy2, rfl⟩

/-- The super-optimal loop (R270). -/
theorem millerLoop2_follows (hsup : e.superOptimal = true) (hlen : 2 ≤ e.digits.length) {gs : RegG}
    (hloc : e.gLoc = locReg .g gs) : e.Follows (fun v z => z.phase = .write ∧ z.f = v) e.start
      (millerLoop2 e.c e.env e.digits e.tor2 e.isoT gs e.q e.g) := by
  have hstart : e.start.phase = .pre := if_pos hsup
  have hwalk : ∀ m, e.walk m (e.digits.length - 2 + 1) true (e.data e.start) =
      millerWalk2 e.c e.env e.g2 m e.digits (e.digits.length - 1) true
        (millerStart e.env e.q e.g) := fun m => by
    rw [walk, hsup, show e.digits.length - 2 + 1 = e.digits.length - 1 by omega]
    rfl
  unfold millerLoop2
  refine (preImage_follows hloc hstart).bind ?_
  rintro _ _ ⟨rfl, rfl, hinf⟩
  refine (corrPre_follows hstart hinf).bind ?_
  rintro m _ rfl
  rw [← hwalk]
  refine (walk_follows (x := { e.start with phase := .dbl, m := m }) hp rfl rfl).bind ?_
  rintro _ y ⟨rfl, hy, hi, hm⟩
  rw [if_pos hsup] at hy
  have hcombine := combine_follows (e := e) hy hi
  rw [hm] at hcombine
  exact hcombine

end Phases

/-! ### The answer is decided -/

/-- A point that no phase leaves. -/
def Stops (e : MillerFsm) (x : MillerPoint) : Prop := ∀ y, e.phaseStep x = .ok y → y = x

theorem stops_of_write (hx : x.phase = .write) : e.Stops x := fun y hy => by
  rw [phaseStep_write hx] at hy
  cases hy
  rfl

theorem stops_of_error {z : Nat × BitVec 32} (hx : e.phaseStep x = .error z) : e.Stops x := fun y hy => by
  rw [hx] at hy
  cases hy

theorem Stops.eq_of_reaches {y : MillerPoint} (hx : e.Stops x)
    (h : Relation.ReflTransGen (fun y z => e.phaseStep y = .ok z) x y) : y = x := by
  induction h with
  | refl => rfl
  | tail _ h ih => exact hx _ (ih ▸ h)

/-- The phases come to one end: a phase has one successor. -/
theorem Reaches.stop_unique {y : MillerPoint} (hx : e.Reaches x) (hstop : e.Stops x) (hy : e.Reaches y)
    (hstop' : e.Stops y) : y = x := by
  have hunique : Relator.RightUnique fun y z => e.phaseStep y = .ok z := fun _ _ _ h h' =>
    Except.ok.inj (h.symm.trans h')
  rcases Relation.ReflTransGen.total_of_right_unique hunique hx hy with h | h
  · exact hstop.eq_of_reaches h
  · exact (hstop'.eq_of_reaches h).symm

theorem Follows.reaches {r : Except Raise α} (h : e.Follows done x r) (hx : e.Reaches x) :
    ∃ y, e.Reaches y ∧ ((∃ v, r = .ok v ∧ done v y) ∨ ∃ z, r = .error z ∧
      e.phaseStep y = .error (fault z) ∧ z.step = some ⟨e.superOptimal, y.phase, e.shown y.i⟩) := by
  induction h with
  | ends h => exact ⟨_, hx, .inl ⟨_, rfl, h⟩⟩
  | faults h hstep => exact ⟨_, hx, .inr ⟨_, rfl, h, hstep⟩⟩
  | step h _ ih => exact ih (hx.tail h)

/-- A Miller command whose loop the phases follow answers as they say (R260, R266, R267). -/
theorem decides_of_follows {s : State} {fd : RegF} {r : Except Raise Deg22}
    (h : e.Follows (fun v z => z.phase = .write ∧ z.f = v) e.start r) :
    e.Decides s fd (finish e.c s (r >>= fun v => pure (s.writeMiller fd e.superOptimal v))) := by
  obtain ⟨y, hy, ⟨v, rfl, hwrite, rfl⟩ | ⟨z, rfl, herror, hstep⟩⟩ := h.reaches .refl
  · have hstop := stops_of_write (e := e) hwrite
    refine ⟨fun x hx hx' => ?_, fun x code einfo hx hx' => ?_, y, hy, .inl hwrite⟩
    · obtain rfl := hy.stop_unique hstop hx (stops_of_write hx')
      rfl
    · obtain rfl := hy.stop_unique hstop hx (stops_of_error hx')
      rw [phaseStep_write hwrite] at hx'
      cases hx'
  · have hstop := stops_of_error herror
    refine ⟨fun x hx hx' => ?_, fun x code einfo hx hx' => ?_, y, hy, .inr ⟨_, herror⟩⟩
    · obtain rfl := hy.stop_unique hstop hx (stops_of_write hx')
      rw [phaseStep_write hx'] at herror
      cases herror
    · obtain rfl := hy.stop_unique hstop hx (stops_of_error hx')
      rw [herror] at hx'
      cases hx'
      rw [error_bind, finish_error, State.enterFault, hstep, BitVec.ofNat_toNat, BitVec.setWidth_eq]

end MillerFsm

/-! ### The answers of the Miller commands -/

section Answers

variable {s : State} {k : Constants} {c : Base} {q : TwistPoint} {g : BasePoint} {tw : Twist}
  {a : Deg11} {ts : RegT} {gs : RegG} (fd : RegF) (mode : Mode) (hk : s.lifecycle = .ready k)
  (hc : s.prm.c11 = some c) (hq : s.t[ts.val] = some q) (hg : s.g[gs.val] = some g)
  (htw : s.prm.twist = some tw) (ha : s.prm.a = some a) (htag : tagOk q = true)
  (haff : q.tag = .affine) (hz : q.z ≠ zero11) (hinf : g.inf = false)
include hk hc hq hg htw ha htag haff hz hinf

/-- The phases of `MILLER` decide its answer (`44_pairing_engine.md` R259 to R268). -/
theorem miller_decides {naf : List Digit} {seedfix : Bool} {post : PostStep × PostStep}
    (hnaf : s.prm.naf = some naf) (hfix : s.prm.seedfix = some seedfix)
    (hpost : s.prm.post = some post) (hlen : 2 ≤ naf.length) :
    MillerFsm.Decides
      { c := Config.machine, fl := ⟨Config.prime, c⟩, k := k, tw := tw, a := a, mode := mode,
        superOptimal := false, digits := naf, q := q, g := g,
        past := Config.machine.mlIndexPast s.free, seedfix := seedfix, post := post }
      s fd (exec (.miller fd ts gs mode) s) := by
  have hexec := execMiller_eq (c := Config.machine) fd mode hk hq hg htw ha htag haff hnaf hfix hpost
  rw [if_neg (by simp [isInf, hz, hinf]), State.readField_ok_iff.mpr ⟨c, hc, rfl⟩] at hexec
  show MillerFsm.Decides _ s fd (execMiller fd ts gs mode s)
  rw [hexec]
  exact MillerFsm.decides_of_follows
    (MillerFsm.millerLoop_follows Config.prime_admissible rfl hlen)

/-- The phases of `MILLER2` decide its answer, whatever the hooks (R270, R271). -/
theorem miller2_decides {conf : Config} {tor2 isoT : Deg11} {naf2 : List Digit}
    (hp : conf.p = Config.prime) (htor : s.prm.tor2 = some tor2) (hiso : s.prm.isoT = some isoT)
    (hnaf : s.prm.naf2 = some naf2) (hlen : 2 ≤ naf2.length) :
    MillerFsm.Decides
      { c := conf, fl := ⟨Config.prime, c⟩, k := k, tw := tw, a := a, mode := mode,
        superOptimal := true, digits := naf2, q := q, g := g, past := conf.mlIndexPast s.free,
        tor2 := tor2, isoT := isoT, gLoc := BitVec.ofNat 32 (4 * 2 ^ 8 + gs.val) }
      s fd (execMiller2 fd ts gs mode s conf) := by
  have hexec := execMiller2_eq (c := conf) fd mode hk hq hg htw ha htag haff htor hiso hnaf
  rw [if_neg (by simp [isInf, hz, hinf]), State.readField_ok_iff.mpr ⟨c, hc, rfl⟩, hp] at hexec
  exact hexec ▸ MillerFsm.decides_of_follows
    (MillerFsm.millerLoop2_follows Config.prime_admissible rfl hlen rfl)

end Answers

end Sys2Proof.Machine
end

section
/-! PROOFS. The standard loop in its first phases (O47, O48): what a doubling and an addition of `PROJC`
mode come to, the step at which a point with `y = 0` has no line, and a loop of one index. -/

namespace Sys2Proof.Machine

open Sys2Proof

/-! ### Records and lines -/

theorem jacDbl_record {fl : Field} {a : Deg11} {q : TwistPoint} {r : LineRecord}
    (h : (jacDbl fl a q).2 = some r) : r.kind = .dbl := by
  unfold jacDbl at h
  split at h <;> cases h
  rfl

/-- The record of an addition has the second operand for its base (`42_twist_curve.md` R197). -/
theorem jacAdd_record {fl : Field} {a : Deg11} {p q : TwistPoint} {r : LineRecord}
    (h : (jacAdd fl a p q).2 = some r) : r.kind = .dbl ∨ r.base = q := by
  simp only [jacAdd] at h
  split_ifs at h
  · exact .inl (jacDbl_record h)
  · cases h
    exact .inr rfl

theorem lineValue_ok {fl : Field} {tw : Twist} {r : LineRecord} {g : BasePoint}
    (h : r.kind = .dbl ∨ r.base.tag = .affine) : ∃ l, lineValue fl tw r g = .ok l := by
  refine ⟨lineForm fl.p fl.c11 tw r g, (lineValue_eq fl.p fl.c11 tw r g).trans <| if_neg ?_⟩
  rintro ⟨hkind, htag⟩
  simp [hkind, htag] at h

/-! ### Infinity in `PROJC` mode -/

theorem zero11_get (i : Nat) (h : i < 11) : zero11[i] = 0 := by
  simp only [zero11_eq, Vector.getElem_ofFn]

theorem coeff_zero11 (i : Nat) : coeff zero11 i = 0 := by
  rcases Nat.lt_or_ge i 11 with h | h
  · rw [coeff_of_lt _ h, zero11_get _ h]
  · exact coeff_of_ge _ h

theorem zero_mul11 (fl : Field) (x : Deg11) : mul11 fl zero11 x = zero11 := by
  have hsum : ∀ k, productSum zero11 x k = 0 := fun k =>
    Finset.sum_eq_zero fun i _ => by rw [coeff_zero11, Nat.zero_mul]
  ext k hk
  rw [mul11_get _ _ _ _ hk, hsum, hsum, zero11_get _ hk, Nat.mul_zero, Nat.zero_mod]

theorem scale11_zero11 (p n : Nat) : scale11 p n zero11 = zero11 := by
  ext k hk
  rw [scale11_get _ _ _ _ hk, zero11_get _ hk, Nat.mul_zero, Nat.zero_mod]

/-- A point with `y = 0` doubles to infinity (`44_pairing_engine.md` R268). -/
theorem jacDbl_of_y_zero {fl : Field} {q : TwistPoint} (a : Deg11) (hz : q.z ≠ zero11)
    (hy : q.y = zero11) : isInf (jacDbl fl a q).1 = true := by
  rw [jacDbl, if_neg (by simpa [isInf])]
  simp only [isInf_iff, hy, zero_mul11, scale11_zero11]

theorem jacDbl_of_finite {fl : Field} {q : TwistPoint} (a : Deg11) (hz : q.z ≠ zero11) :
    ∃ r, (jacDbl fl a q).2 = some r := by
  rw [jacDbl, if_neg (by simpa [isInf])]
  exact ⟨_, rfl⟩

/-! ### The first steps of the standard loop -/

namespace MillerFsm

variable {e : MillerFsm} {x : MillerPoint}

/-- A step of the group law without a record raises `LineInvalid` (`44_pairing_engine.md` R268,
`60_exceptions.md` R339). -/
theorem coded_lines_none (t : TwistPoint) (acc : Deg22 → Deg22 → Deg22) :
    e.coded x (e.lines x (.ok (t, none)) acc) =
      .error (9, BitVec.ofNat 32 (x.phase.code * 2 ^ 16 + (e.shown x.i).toNat)) := rfl

/-- A doubling or an addition of an affine point gives a line where it gives a record. -/
theorem coded_lines_some (hstd : e.superOptimal = false) {r : LineRecord} {l : Deg22}
    (hl : lineValue e.fl e.tw r e.g = .ok l) (t : TwistPoint) (acc : Deg22 → Deg22 → Deg22) :
    e.coded x (e.lines x (.ok (t, some r)) acc) = .ok (moved x (acc x.f l) x.f2 t) := by
  have hat : lineAt e.env (some r) e.g = .ok l := hl
  simp only [lines, line2, hat, hstd, ok_bind]
  rfl

/-- The first doubling in `PROJC` mode (R262): its line is the accumulator. -/
theorem start_doubles (hstd : e.superOptimal = false) (hmode : e.mode = .projc)
    (hz : e.q.z ≠ zero11) : ∃ r l y, (jacDbl e.fl e.a e.q).2 = some r ∧
      lineValue e.fl e.tw r e.g = .ok l ∧
      (y.i = e.digits.length - 2 ∧ y.f = l ∧ y.t = (jacDbl e.fl e.a e.q).1) ∧
      e.phaseStep e.start = .ok (if e.digit (e.digits.length - 2) = .zero then e.afterIndex y
        else { y with phase := .add }) := by
  obtain ⟨r, hr⟩ := jacDbl_of_finite (fl := e.fl) e.a hz
  obtain ⟨l, hl⟩ := lineValue_ok (fl := e.fl) (tw := e.tw) (g := e.g) (.inl (jacDbl_record hr))
  have hdbl : doublePoint e.fl e.a e.mode e.start.t = .ok ((jacDbl e.fl e.a e.q).1, some r) := by
    rw [hmode, ← hr]
    rfl
  refine ⟨r, l, moved e.start l one22 (jacDbl e.fl e.a e.q).1, hr, hl, ⟨rfl, rfl, rfl⟩, ?_⟩
  rw [phaseStep_dbl (start_phase hstd), hdbl, coded_lines_some hstd hl]
  rfl

/-- The addition of an index in `PROJC` mode (R263). -/
theorem add_steps (hstd : e.superOptimal = false) (hmode : e.mode = .projc) (hx : x.phase = .add)
    {r : LineRecord} {l : Deg22}
    (hr : (jacAdd e.fl e.a x.t (e.digitOperand (e.digit x.i))).2 = some r)
    (hl : lineValue e.fl e.tw r e.g = .ok l) : e.phaseStep x = .ok (e.afterIndex (moved x
      (e.mul x.f l) x.f2 (jacAdd e.fl e.a x.t (e.digitOperand (e.digit x.i))).1)) := by
  have hadd : addPoints e.fl e.a e.mode x.t (e.digitOperand (e.digit x.i)) =
      .ok ((jacAdd e.fl e.a x.t (e.digitOperand (e.digit x.i))).1, some r) := by
    rw [hmode, ← hr]
    rfl
  rw [phaseStep_add hx, hadd, coded_lines_some hstd hl]
  rfl

/-- In `BASIC` mode a point with `y = 0` has no tangent (`42_twist_curve.md` R194). -/
theorem start_faults (hstd : e.superOptimal = false) (hmode : e.mode = .basic)
    (hz : e.q.z ≠ zero11) (hy : e.q.y = zero11) : e.phaseStep e.start = .error (1, 0#32) := by
  have hdbl : doublePoint e.fl e.a e.mode e.start.t = raise .arithPrecondition 0#32 := by
    rw [hmode]
    exact (if_neg (by simpa [isInf])).trans (if_pos hy)
  rw [phaseStep_dbl (start_phase hstd), hdbl]
  rfl

/-- Infinity has no tangent in `PROJC` mode (`44_pairing_engine.md` R268). -/
theorem dbl_faults_of_infinity (hmode : e.mode = .projc) (hx : x.phase = .dbl)
    (hinf : isInf x.t = true) :
    e.phaseStep x = .error (9, BitVec.ofNat 32 (2 * 2 ^ 16 + (e.shown x.i).toNat)) := by
  have hdbl : doublePoint e.fl e.a e.mode x.t = .ok (x.t, none) := by
    rw [hmode]
    exact congrArg Except.ok (if_pos hinf)
  rw [phaseStep_dbl hx, hdbl, coded_lines_none, hx]
  rfl

/-- Infinity has no chord in `PROJC` mode (R268). -/
theorem add_faults_of_infinity (hmode : e.mode = .projc) (hx : x.phase = .add)
    (hinf : isInf x.t = true) :
    e.phaseStep x = .error (9, BitVec.ofNat 32 (3 * 2 ^ 16 + (e.shown x.i).toNat)) := by
  have hadd : ∀ pt, addPoints e.fl e.a e.mode x.t pt = .ok (pt, none) := fun pt => by
    rw [hmode]
    exact congrArg Except.ok (if_pos hinf)
  rw [phaseStep_add hx, hadd, coded_lines_none, hx]
  rfl

/-- The answer of a run that faults at `x`, with what `ML.i` shows of the index (R267). -/
theorem Decides.fault_at {s : State} {fd : RegF} {answer : Host.Outcome State Fault Refusal}
    {phase : Phase} {i code : Nat} {einfo : BitVec 16 → BitVec 32} (h : e.Decides s fd answer)
    (hfault : ∃ x, e.Reaches x ∧ x.phase = phase ∧ x.i = i ∧
      e.phaseStep x = .error (code, einfo (e.shown x.i))) :
    ∃ v : BitVec 16, (i < 2 ^ 16 → v = BitVec.ofNat 16 i) ∧ answer = .next
      { s with
        ecause := BitVec.ofNat 4 code
        epc := s.pc
        einfo := einfo v
        run := .faulted
        ml := ⟨false, e.superOptimal, phase, v, none⟩ } := by
  obtain ⟨x, hx, rfl, rfl, hstep⟩ := hfault
  exact ⟨e.shown x.i, fun hi => if_pos hi, h.2.1 x code _ hx hstep⟩

/-- The standard loop has no `FOLD`. -/
theorem afterIndex_standard (hstd : e.superOptimal = false) : e.afterIndex x = e.nextIndex x := by
  rw [afterIndex, hstd]
  rfl

theorem postStep_disabled {st : PostStep} (hst : st.src = .disabled) (next : Phase) :
    e.postStep x st next = .ok { x with phase := next } := by
  rw [postStep, hst]

/-- The sign fix-up of a value (`44_pairing_engine.md` R264). -/
def fixed (e : MillerFsm) (v : Deg22) : Deg22 := if e.seedfix then conj22 e.fl.p v else v

/-- After index 0, with both post-loop steps disabled, only the sign fix-up is left (R264, R265). -/
theorem last_index_writes (hstd : e.superOptimal = false) (hpost0 : e.post.1.src = .disabled)
    (hpost1 : e.post.2.src = .disabled) (hi : x.i = 0) (hx : e.Reaches (e.afterIndex x)) :
    ∃ z, e.Reaches z ∧ z.phase = .write ∧ z.f = e.fixed x.f := by
  have hwrites : ∀ y : MillerPoint, y.phase = .post0 → e.Reaches y →
      e.Reaches { y with phase := .write } := fun y hy hreach =>
    (hreach.tail ((phaseStep_post0 hy).trans (postStep_disabled hpost0 .post1))).tail
      ((phaseStep_post1 rfl).trans (postStep_disabled hpost1 .write))
  rw [afterIndex_standard hstd, nextIndex_of_zero hi, hstd] at hx
  have hpost := hwrites _ (by split <;> rfl) (hx.tail (phaseStep_fix rfl))
  refine ⟨_, hpost, rfl, ?_⟩
  unfold fixed
  split <;> rfl

/-! A point with `y = 0` in `PROJC` mode: the step after its doubling has no record (R268). -/

section Order2

variable (hstd : e.superOptimal = false) (hmode : e.mode = .projc) (hz : e.q.z ≠ zero11)
  (hy : e.q.y = zero11)
include hstd hmode hz hy

theorem faults_at_add (hd : e.digit (e.digits.length - 2) ≠ .zero) :
    ∃ x, e.Reaches x ∧ x.phase = .add ∧ x.i = e.digits.length - 2 ∧
      e.phaseStep x = .error (9, BitVec.ofNat 32 (3 * 2 ^ 16 + (e.shown x.i).toNat)) := by
  obtain ⟨r, l, y, -, -, ⟨hi, -, ht⟩, hstep⟩ := start_doubles hstd hmode hz
  rw [if_neg hd] at hstep
  exact ⟨_, .single hstep, rfl, hi,
    add_faults_of_infinity hmode rfl (ht ▸ jacDbl_of_y_zero e.a hz hy)⟩

theorem faults_at_next_dbl (hd : e.digit (e.digits.length - 2) = .zero)
    (hlen : 3 ≤ e.digits.length) :
    ∃ x, e.Reaches x ∧ x.phase = .dbl ∧ x.i = e.digits.length - 3 ∧
      e.phaseStep x = .error (9, BitVec.ofNat 32 (2 * 2 ^ 16 + (e.shown x.i).toNat)) := by
  obtain ⟨r, l, y, -, -, ⟨hi, -, ht⟩, hstep⟩ := start_doubles hstd hmode hz
  rw [if_pos hd, afterIndex_standard hstd, nextIndex_of_ne_zero (by omega)] at hstep
  exact ⟨_, .single hstep, rfl, by rw [hi]; exact Nat.sub_sub _ 2 1,
    dbl_faults_of_infinity hmode rfl (ht ▸ jacDbl_of_y_zero e.a hz hy)⟩

end Order2

end MillerFsm

/-- Settles O48: the phases decide the answer (`miller_decides`), so it is enough to walk to the one
that faults: the first, or the one after a doubling that gives infinity. -/
theorem millerFaultSteps : Obligations.MillerFaultSteps := by
  intro fd ts gs s k c q g naf digit hk hc hq hg htw ha hnaf hfix hpost htag haff hz hy hinf hlen hdigit
  obtain ⟨tw, htw⟩ := Option.isSome_iff_exists.mp htw
  obtain ⟨a, ha⟩ := Option.isSome_iff_exists.mp ha
  obtain ⟨seedfix, hfix⟩ := Option.isSome_iff_exists.mp hfix
  obtain ⟨post, hpost⟩ := Option.isSome_iff_exists.mp hpost
  intro Faults
  have hdecides := fun mode =>
    miller_decides fd mode hk hc hq hg htw ha htag haff hz hinf hnaf hfix hpost hlen
  have hlow : naf[naf.length - 2]?.getD .zero = digit := by rw [hdigit, Option.getD_some]
  refine ⟨(hdecides .basic).fault_at ?_, fun hne => (hdecides .projc).fault_at ?_,
    fun hzero hthree => (hdecides .projc).fault_at ?_⟩
  · exact ⟨_, .refl, rfl, rfl, MillerFsm.start_faults rfl rfl hz hy⟩
  · exact MillerFsm.faults_at_add rfl rfl hz hy (hlow.trans_ne hne)
  · exact MillerFsm.faults_at_next_dbl rfl rfl hz hy (hlow.trans hzero) hthree

/-! ### A loop of one index -/

namespace MillerFsm

/-- A command of the standard loop completes with this value in its register (R266). -/
def Writes (e : MillerFsm) (s : State) (fd : RegF) (answer : Host.Outcome State Fault Refusal)
    (v : Deg22) : Prop :=
  answer = .next
    ({ s with
        f := s.f.set fd.val (some v) fd.isLt
        lc := none
        ml := ⟨false, false, .idle, 0#16, none⟩ }.advance e.c)

/-- One index in `PROJC` mode, with both post-loop steps disabled: the line of the doubling, times that
of the addition where there is one, and the sign fix-up. -/
theorem Decides.one_index {e : MillerFsm} {s : State} {fd : RegF}
    {answer : Host.Outcome State Fault Refusal} (h : e.Decides s fd answer)
    (hstd : e.superOptimal = false) (hmode : e.mode = .projc) (hlen : e.digits.length = 2)
    (hpost0 : e.post.1.src = .disabled) (hpost1 : e.post.2.src = .disabled)
    (hz : e.q.z ≠ zero11) (haff : e.q.tag = .affine) :
    ∃ r1 l1, (jacDbl e.fl e.a e.q).2 = some r1 ∧ lineValue e.fl e.tw r1 e.g = .ok l1 ∧
      (e.digit 0 = .zero → e.Writes s fd answer (e.fixed l1)) ∧
      (e.digit 0 ≠ .zero → ∀ r2,
        (jacAdd e.fl e.a (jacDbl e.fl e.a e.q).1 (e.digitOperand (e.digit 0))).2 = some r2 →
        ∃ l2, lineValue e.fl e.tw r2 e.g = .ok l2 ∧
          e.Writes s fd answer (e.fixed (e.mul l1 l2))) := by
  have hwrites : ∀ x : MillerPoint, x.i = 0 → e.Reaches (e.afterIndex x) →
      e.Writes s fd answer (e.fixed x.f) := fun x hi hx => by
    obtain ⟨z, hreach, hwrite, hf⟩ := last_index_writes hstd hpost0 hpost1 hi hx
    have hanswer := h.1 z hreach hwrite
    rwa [hf, hstd] at hanswer
  obtain ⟨r1, l1, y, hr1, hl1, ⟨hi, rfl, ht⟩, hdbl⟩ := start_doubles hstd hmode hz
  rw [hlen] at hi hdbl
  refine ⟨r1, y.f, hr1, hl1, fun hd => ?_, fun hd r2 hr2 => ?_⟩
  · rw [if_pos hd] at hdbl
    exact hwrites y hi (.single hdbl)
  · rw [if_neg hd] at hdbl
    have hbase : (e.digitOperand (e.digit 0)).tag = .affine := by
      unfold digitOperand
      split <;> exact haff
    obtain ⟨l2, hl2⟩ := lineValue_ok (fl := e.fl) (tw := e.tw) (g := e.g)
      ((jacAdd_record hr2).imp_right fun hr => hr ▸ hbase)
    have hadd := add_steps (x := { y with phase := .add }) hstd hmode rfl (by rwa [hi, ht]) hl2
    exact ⟨l2, hl2, hwrites (moved _ (e.mul y.f l2) y.f2 _) hi (.tail (.single hdbl) hadd)⟩

end MillerFsm

/-- Settles O47: the phases decide the answer (`miller_decides`); the last part is a loop of one index
(`MillerFsm.Decides.one_index`). -/
theorem standardMillerLoop : Obligations.StandardMillerLoop := by
  refine ⟨fun fd ts gs mode s k c q g tw a naf seedfix post hk hc hq hg htw ha hnaf hfix hpost htag
    haff hz hinf hlen => ⟨_, miller_decides fd mode hk hc hq hg htw ha htag haff hz hinf hnaf hfix
      hpost hlen⟩, ?_⟩
  intro fd ts gs s k c q g tw a digit seedfix e0 e1 n0 n1 hk hc hq hg htw ha hnaf hfix hpost htag
    haff hz hinf fl conj Writes
  have hconj : ∀ v, conj v = if seedfix then conj22 Config.prime v else v := fun v => by
    simp only [conj, conj22, neg11_eq]
  obtain ⟨r1, l1, hr1, hl1, hzero, hadd⟩ := (miller_decides fd .projc hk hc hq hg htw ha htag haff hz
    hinf hnaf hfix hpost le_rfl).one_index rfl rfl rfl rfl rfl hz haff
  refine ⟨r1, l1, hr1, hl1, fun hd => ?_, fun pt hpt r2 hr2 => ?_⟩
  · show exec _ s = _
    rw [hconj]
    exact hzero hd
  · have hoperand : digit ≠ .zero ∧ pt = if digit = .plus then q else negPoint Config.prime q := by
      rcases hpt with ⟨rfl, rfl⟩ | ⟨rfl, rfl⟩
      · exact ⟨by decide, rfl⟩
      · exact ⟨by decide, (negPoint_eq _ q).symm⟩
    obtain ⟨hd, rfl⟩ := hoperand
    obtain ⟨l2, hl2, hanswer⟩ := hadd hd r2 hr2
    refine ⟨l2, hl2, show exec _ s = _ from ?_⟩
    rw [hconj]
    exact hanswer

end Sys2Proof.Machine
end

section
/-! PROOFS. `MILLER2` by its phases, and with the trivial configuration (O49): where `MILLER` completes,
the second accumulator of `MILLER2` and its hooks change nothing of the first one (`millerWalk2_of_millerWalk`). -/

namespace Sys2Proof.Machine

open Sys2Proof

/-! ### A command that completes -/

/-- A command that completes has moved on, and a fault entry has not (`10_state.md` R27,
`60_exceptions.md` R341). -/
theorem State.enterFault_ne_advance {s t : State} (hpc : t.pc = s.pc) (hfree : t.free = s.free)
    (r : Raise) (c : Config) : s.enterFault r ≠ t.advance c := by
  intro h
  by_cases htop : t.pc = 0xFFFF#16
  · have hfree' := congrArg State.free h
    rw [State.advance_top _ _ htop, State.enterFault_free] at hfree'
    exact absurd (hfree'.trans (congrArg (· + 1) hfree)) (Nat.succ_ne_self _).symm
  · have hpc' := congrArg State.pc h
    rw [State.advance_succ _ _ htop, State.enterFault_pc] at hpc'
    have : s.pc = s.pc + 1#16 := hpc'.trans (congrArg (· + 1#16) hpc)
    bv_omega

/-- What a command that writes an F register and completes has computed. -/
theorem finish_completes {c : Config} {s t : State} {x : Except Raise State}
    (h : finish c s x = .next (t.advance c)) (hpc : t.pc = s.pc) (hfree : t.free = s.free) :
    ∃ u, x = .ok u ∧ u.f = t.f := by
  obtain ⟨u, rfl, hu⟩ | ⟨r, rfl, hr⟩ := (finish_next c s _ x).mp h
  · have hf := congrArg State.f hu
    rw [State.advance_f, State.advance_f] at hf
    exact ⟨u, rfl, hf.symm⟩
  · exact absurd hr.symm (State.enterFault_ne_advance hpc hfree r c)

/-- The value of an F register after its write. -/
theorem writeF_inj {fs : Vector (Option Deg22) 16} {fd : RegF} {v w : Deg22}
    (h : fs.set fd.val (some v) fd.isLt = fs.set fd.val (some w) fd.isLt) : v = w := by
  have hget := congrArg (fun fs : Vector (Option Deg22) 16 => fs[fd.val]) h
  simpa using hget

/-- What `MILLER` has read and computed when it completes with `v` (`44_pairing_engine.md` R259). -/
theorem execMiller_completes {fd : RegF} {ts : RegT} {gs : RegG} {mode : Mode} {s : State} {v : Deg22}
    {c : Config} (h : execMiller fd ts gs mode s c = .next
      ({ s with
          f := s.f.set fd.val (some v) fd.isLt
          lc := none
          ml := ⟨false, false, .idle, 0#16, none⟩ }.advance c)) :
    ∃ k q g tw a naf seedfix post, s.lifecycle = .ready k ∧ s.t[ts.val] = some q ∧
      s.g[gs.val] = some g ∧ s.prm.twist = some tw ∧ s.prm.a = some a ∧ s.prm.naf = some naf ∧
      s.prm.seedfix = some seedfix ∧ s.prm.post = some post ∧ tagOk q = true ∧ q.tag = .affine ∧
      (((isInf q || g.inf) = true ∧ v = one22) ∨ ((isInf q || g.inf) = false ∧ ∃ c11,
        s.prm.c11 = some c11 ∧ millerLoop ⟨⟨c.p, c11⟩, k, tw, a, mode, false, c.mlIndexPast s.free⟩
          naf seedfix post q g = .ok v)) := by
  unfold execMiller at h
  obtain ⟨u, hu, hf⟩ := finish_completes h rfl rfl
  simp only [bind_ok_iff, State.needReady_ok_iff, State.readT_ok_iff, State.readG_ok_iff,
    State.readTwist, State.readA, State.readNaf, State.readSeedfix, State.readPost,
    readItem_ok_iff, checkMillerPoint, checkTag_ok_iff, checkAffine_ok_iff] at hu
  obtain ⟨k, hk, q, hq, g, hg, tw, htw, a, ha, naf, hnaf, seedfix, hfix, post, hpost, _, ⟨_, htag, haff⟩,
    hend⟩ := hu
  refine ⟨k, q, g, tw, a, naf, seedfix, post, hk, hq, hg, htw, ha, hnaf, hfix, hpost, htag, haff, ?_⟩
  cases hdeg : isInf q || g.inf with
  | true =>
    rw [if_pos hdeg] at hend
    cases hend
    exact .inl ⟨rfl, (writeF_inj hf).symm⟩
  | false =>
    simp only [hdeg, Bool.false_eq_true, if_false, bind_ok_iff, State.readField_ok_iff] at hend
    obtain ⟨_, ⟨c11, hc, rfl⟩, w, hw, hend⟩ := hend
    cases hend
    exact .inr ⟨rfl, c11, hc, (writeF_inj hf) ▸ hw⟩

/-! ### The trivial configuration -/

section Trivial

/-- The environment of the super-optimal loop. -/
def MillerEnv.second (env : MillerEnv) : MillerEnv := { env with variant := true }

/-- The data fields with another second accumulator. -/
def MillerData.withF2 (d : MillerData) (f2 : Deg22) : MillerData := { d with f2 := f2 }

variable {env : MillerEnv} {g2 : BasePoint} {d d' : MillerData}

theorem inPhase_ok_iff {α : Type} {phase : Phase} {i : Nat} {x : Except Raise α} {v : α} :
    inPhase env phase i x = .ok v ↔ x = .ok v := by
  cases x <;> simp [inPhase]

/-- Whether a line has a value does not depend on the base point. -/
theorem lineAt_ok_of_ok {lc : Option LineRecord} {g : BasePoint} {l : Deg22}
    (h : lineAt env lc g = .ok l) (g2 : BasePoint) : ∃ l2, lineAt env lc g2 = .ok l2 := by
  cases lc with
  | none => cases h
  | some r =>
    have hr : ¬(r.kind = .add ∧ r.base.tag = .projective) := fun hr => by
      rw [lineAt, lineValue_eq env.fl.p env.fl.c11, if_pos hr] at h
      cases h
    exact ⟨_, (lineValue_eq env.fl.p env.fl.c11 env.tw r g2).trans (if_neg hr)⟩

theorem phaseDbl2_of_phaseDbl {i : Nat} {first : Bool} (h : phaseDbl env i first d = .ok d')
    (f2 : Deg22) : ∃ f2', phaseDbl2 env.second g2 i first (d.withF2 f2) = .ok (d'.withF2 f2') := by
  obtain ⟨r, hr, h⟩ := bind_ok_iff.mp (inPhase_ok_iff.mp h)
  obtain ⟨l, hl, h⟩ := bind_ok_iff.mp h
  cases h
  obtain ⟨l2, hl2⟩ := lineAt_ok_of_ok hl g2
  exact ⟨_, inPhase_ok_iff.mpr <| bind_ok_iff.mpr ⟨r, hr, bind_ok_iff.mpr ⟨l, hl,
    bind_ok_iff.mpr ⟨l2, hl2, rfl⟩⟩⟩⟩

theorem phaseAdd2_of_phaseAdd {i : Nat} {digit : Digit} (h : phaseAdd env i digit d = .ok d')
    (f2 : Deg22) : ∃ f2', phaseAdd2 env.second g2 i digit (d.withF2 f2) = .ok (d'.withF2 f2') := by
  unfold phaseAdd at h
  unfold phaseAdd2
  rw [show digitPoint (d.withF2 f2) digit = digitPoint d digit by cases digit <;> rfl]
  cases hpt : digitPoint d digit with
  | none =>
    rw [hpt] at h
    cases h
    exact ⟨f2, rfl⟩
  | some pt =>
    rw [hpt] at h
    obtain ⟨r, hr, h⟩ := bind_ok_iff.mp (inPhase_ok_iff.mp h)
    obtain ⟨l, hl, h⟩ := bind_ok_iff.mp h
    cases h
    obtain ⟨l2, hl2⟩ := lineAt_ok_of_ok hl g2
    exact ⟨_, inPhase_ok_iff.mpr <| bind_ok_iff.mpr ⟨r, hr, bind_ok_iff.mpr ⟨l, hl,
      bind_ok_iff.mpr ⟨l2, hl2, rfl⟩⟩⟩⟩

/-- Without `FOLD` the walk of the super-optimal loop is that of the standard one, beside the second
accumulator. -/
theorem millerWalk2_of_millerWalk {c : Config} (hfold : ∀ i, c.superOpt.foldAt i = false)
    {m : Deg22 × Deg22} {digits : List Digit} {n : Nat} {first : Bool}
    (h : millerWalk env digits n first d = .ok d') (f2 : Deg22) :
    ∃ f2', millerWalk2 c env.second g2 m digits n first (d.withF2 f2) = .ok (d'.withF2 f2') := by
  induction n generalizing d first f2 with
  | zero =>
    cases h
    exact ⟨f2, rfl⟩
  | succ i ih =>
    obtain ⟨d1, h1, h⟩ := bind_ok_iff.mp h
    obtain ⟨d2, h2, h⟩ := bind_ok_iff.mp h
    obtain ⟨f21, h1'⟩ := phaseDbl2_of_phaseDbl (g2 := g2) h1 f2
    obtain ⟨f22, h2'⟩ := phaseAdd2_of_phaseAdd (g2 := g2) h2 f21
    obtain ⟨f23, h3'⟩ := ih h f22
    refine ⟨f23, bind_ok_iff.mpr ⟨_, h1', bind_ok_iff.mpr ⟨_, h2', ?_⟩⟩⟩
    rwa [phaseFold, hfold, if_neg Bool.false_ne_true]

theorem red11_of_below {p : Nat} {x : Deg11} (hx : Below11 p x) : red11 p x = x := by
  ext i hi
  rw [red11_get _ _ _ hi, Nat.mod_eq_of_lt (hx i hi)]

theorem norm22_of_below {p : Nat} {a : Deg22} (ha : Below22 p a) : norm22 p a = a := by
  rw [norm22, red11_of_below ha.1, red11_of_below ha.2]

/-- With the trivial configuration the super-optimal loop gives what the standard one gives (R271). -/
theorem millerLoop2_trivial {c : Config} (hc : c.superOpt = SuperOpt.trivial)
    (hp : 1 < env.fl.p) (hcp : c.p = env.fl.p) {digits : List Digit} {tor2 isoT : Deg11} {gs : RegG}
    {q : TwistPoint} {g : BasePoint} {e0 e1 : Fin 22} {n0 n1 : Bool} {v : Deg22} (hg : g.inf = false)
    (h : millerLoop env digits false (⟨.disabled, e0, n0⟩, ⟨.disabled, e1, n1⟩) q g = .ok v) :
    millerLoop2 c env.second digits tor2 isoT gs q g = .ok v := by
  have hbelow := millerLoop_below hp digits _ _ q g v h
  obtain ⟨d, hd, hv⟩ : ∃ d, millerWalk env digits (digits.length - 1) true (millerStart env q g) = .ok d ∧
      (Except.ok d.f : Except Raise Deg22) = .ok v := bind_ok_iff.mp h
  cases hv
  obtain ⟨f2, hwalk⟩ := millerWalk2_of_millerWalk (c := c) (g2 := hookIsoG1 c g)
    (m := (norm22 c.p one22, norm22 c.p one22)) (fun i => by rw [hc]; rfl) hd one22
  have himage : preImage c gs g = .ok (hookIsoG1 c g) :=
    if_neg (by rw [hookIsoG1, hc]; exact Bool.eq_false_iff.mp hg)
  have hcorrections : ∀ pair, pair = some (one22, one22) →
      hookPair c pair = .ok (norm22 c.p one22, norm22 c.p one22) := by
    rintro _ rfl
    rfl
  refine bind_ok_iff.mpr ⟨_, inPhase_ok_iff.mpr himage, bind_ok_iff.mpr ⟨_, inPhase_ok_iff.mpr
    (hcorrections _ (by rw [hc]; rfl)), bind_ok_iff.mpr ⟨_, hwalk, bind_ok_iff.mpr ⟨_,
      inPhase_ok_iff.mpr (hcorrections _ (by rw [hc]; rfl)), ?_⟩⟩⟩⟩
  rw [hc, hcp]
  exact congrArg Except.ok (norm22_of_below hbelow)

end Trivial

/-- Settles O49: the phases decide the answer (`miller2_decides`); with the trivial configuration the
loop gives what the standard one gives (`millerLoop2_trivial`). -/
theorem superOptimalMillerLoop : Obligations.SuperOptimalMillerLoop := by
  refine ⟨fun fd ts gs mode s conf k c q g tw a tor2 isoT naf2 hp hk hc hq hg htw ha htor hiso hnaf htag
    haff hz hinf hlen => ⟨⟨_, miller2_decides fd mode hk hc hq hg htw ha htag haff hz hinf hp htor hiso
      hnaf hlen⟩, rfl⟩, ?_⟩
  intro fd ts gs mode s v e0 e1 n0 n1 c hnaf2 hfix hpost htor hiso h
  obtain ⟨tor2, htor⟩ := Option.isSome_iff_exists.mp htor
  obtain ⟨isoT, hiso⟩ := Option.isSome_iff_exists.mp hiso
  obtain ⟨k, q, g, tw, a, naf, seedfix, post, hk, hq, hg, htw, ha, hnaf, hfix', hpost', htag, haff,
    hvalue⟩ := execMiller_completes h
  cases hfix.symm.trans hfix'
  cases hpost.symm.trans hpost'
  rw [execMiller2_eq fd mode hk hq hg htw ha htag haff htor hiso (hnaf2.trans hnaf)]
  obtain ⟨hdeg, rfl⟩ | ⟨hdeg, c11, hc, hloop⟩ := hvalue
  · rw [if_pos hdeg]
    rfl
  · have hloop2 := millerLoop2_trivial (c := c) (tor2 := tor2) (isoT := isoT) (gs := gs) rfl
      Config.prime_prime.one_lt rfl (Bool.or_eq_false_iff.mp hdeg).2 hloop
    rw [if_neg (Bool.eq_false_iff.mp hdeg), State.readField_ok_iff.mpr ⟨c11, hc, rfl⟩, ok_bind]
    exact congrArg (finish c s) (congrArg (· >>= fun v => pure (s.writeMiller fd true v)) hloop2)

end Sys2Proof.Machine
end

section
/-! PROOFS. The loads of typed values, `NOP` and `HALT` (O16, O21, O22). A load of an image that `DM`
holds is the value checks of its words and what follows them; checks that fail report the first bad word
(`finish_badWord`). -/

namespace Sys2Proof.Machine

open Sys2Proof

/-- Settles O16. -/
theorem nopAndHalt : Obligations.NopAndHalt := fun s => ⟨finish_ok Config.machine s s, rfl⟩

/-! ### Value checks of a load -/

section Checks

variable {c : Config} {a n : Nat} {v : Nat → Nat} {ok : Nat → Bool}

theorem checkWords_all (h : ∀ j, j < n → ok (v j) = true) :
    checkWords ok a ((List.range n).map v) = .ok () :=
  checkWords_ok_iff.mpr (by simpa using h)

/-- Words that pass their checks leave those of the words after them. -/
theorem checkWords_append {xs ys : List Nat} (h : ∀ w ∈ xs, ok w = true) :
    checkWords ok a (xs ++ ys) = checkWords ok (a + xs.length) ys := by
  induction xs generalizing a with
  | nil => rfl
  | cons x xs ih =>
    obtain ⟨hx, hxs⟩ := List.forall_mem_cons.mp h
    rw [List.cons_append, checkWords, if_pos hx, ih hxs, List.length_cons, Nat.add_assoc,
      Nat.add_comm 1]

/-- The first word that breaks its range is reported, at its address. -/
theorem checkWords_firstBad {j : Nat} (h : FirstBad n (fun i => ok (v i) = false) j) :
    checkWords ok a ((List.range n).map v) = badWord (a + j) := by
  obtain ⟨hj, hbad, hgood⟩ := h
  obtain ⟨m, rfl⟩ := Nat.exists_eq_add_of_lt hj
  have hbefore : ∀ w ∈ (List.range j).map v, ok w = true := by simpa using hgood
  rw [Nat.add_assoc, List.range_add, List.map_append, checkWords_append hbefore,
    List.range_succ_eq_map]
  simp [checkWords, hbad]

theorem isBase_eq_false {w : Nat} : isBase c w = false ↔ c.p ≤ w := by simp [isBase]

theorem isBit_eq_false {w : Nat} : isBit w = false ↔ 1 < w := by simp [isBit]

theorem checkBase_of_below (hv : ∀ k, k < n → v k < c.p) :
    checkWords (isBase c) a ((List.range n).map v) = .ok () :=
  checkWords_all fun k hk => decide_eq_true (hv k hk)

theorem checkBase_of_firstBad {k : Nat} (hk : FirstBad n (fun j => c.p ≤ v j) k) :
    checkWords (isBase c) a ((List.range n).map v) = badWord (a + k) :=
  checkWords_firstBad (hk.congr fun _ => isBase_eq_false.symm)

/-! The image of a point: `n` base-field words, then the word of a tag or an `inf`. -/

/-- The value checks of a point of `n + 1` words from `a` up. -/
def checkPointWords (c : Config) (a n : Nat) (ws : List Nat) : Except Raise Unit := do
  checkWords (isBase c) a (ws.take n)
  checkWords isBit (a + n) (ws.drop n)

/-- Word `j` of a point of `n + 1` words is out of its range. -/
def BadPointWord (c : Config) (n : Nat) (v : Nat → Nat) (j : Nat) : Prop :=
  if j < n then c.p ≤ v j else 1 < v j

theorem badPointWord_of_lt {j : Nat} (hj : j < n) : BadPointWord c n v j ↔ c.p ≤ v j :=
  iff_of_eq (if_pos hj)

theorem badPointWord_last : BadPointWord c n v n ↔ 1 < v n := iff_of_eq (if_neg (Nat.lt_irrefl n))

theorem checkPointWords_map_range :
    checkPointWords c a n ((List.range (n + 1)).map v) = (do
      checkWords (isBase c) a ((List.range n).map v)
      checkWords isBit (a + n) [v n]) := by
  rw [checkPointWords, List.range_succ, List.map_append, List.take_left' (by simp),
    List.drop_left' (by simp), List.map_singleton]

theorem checkPointWords_all (h : ∀ j, j < n + 1 → ¬BadPointWord c n v j) :
    checkPointWords c a n ((List.range (n + 1)).map v) = .ok () := by
  have hbase : ∀ j, j < n → v j < c.p := fun j hj =>
    Nat.lt_of_not_le fun hbad => h j (by omega) ((badPointWord_of_lt hj).mpr hbad)
  have hbit : ¬1 < v n := fun hbad => h n (by omega) (badPointWord_last.mpr hbad)
  rw [checkPointWords_map_range, checkBase_of_below hbase, ok_bind]
  exact checkWords_ok_iff.mpr (by simpa [isBit] using hbit)

/-- The first word of a point that breaks its range is reported: a base-field word, or the last one. -/
theorem checkPointWords_firstBad {k : Nat} (h : FirstBad (n + 1) (BadPointWord c n v) k) :
    checkPointWords c a n ((List.range (n + 1)).map v) = badWord (a + k) := by
  obtain ⟨hk, hbad, hgood⟩ := h
  have hbelow : ∀ j, j < k → j < n → ¬c.p ≤ v j := fun j hj hjn =>
    (not_congr (badPointWord_of_lt hjn)).mp (hgood j hj)
  rw [checkPointWords_map_range]
  obtain hkn | rfl := Nat.lt_succ_iff_lt_or_eq.mp hk
  · rw [checkBase_of_firstBad
      ⟨hkn, (badPointWord_of_lt hkn).mp hbad, fun j hj => hbelow j hj (hj.trans hkn)⟩]
    rfl
  · rw [checkBase_of_below fun j hj => Nat.lt_of_not_le (hbelow j hj hj), ok_bind, checkWords,
      isBit_eq_false.mpr (badPointWord_last.mp hbad)]
    rfl

end Checks

/-- A check that fails ends the load with `InvariantViolation` at the address of the word. -/
theorem finish_badWord {α : Type} (c : Config) (s : State) (f : α → Except Raise State) {a : Nat}
    (ha : a < 2 ^ 28) :
    finish c s (badWord a >>= f) = .next (s.faultEntry 3 (BitVec.ofNat 32 (2 ^ 28 + a))) := by
  rw [← locDM_eq ha]
  exact finish_raise c s .invariantViolation _

/-! ### Loads of an image that `DM` holds -/

section Loads

variable {c : Config} {s : State} {addr : Addr} {v : Nat → Nat}

theorem execLdE_of_holds (r : RegE) (h : s.Holds c addr.val 11 v) :
    execLdE r addr s c = finish c s (do
      checkWords (isBase c) addr.val ((List.range 11).map v)
      pure (s.writeE r (Vector.ofFn fun i : Fin 11 => v i.val))) := by
  rw [execLdE, memRead_of_holds h, ok_bind, deg11At_map_range (by decide)]
  simp only [Nat.zero_add]

theorem execLdF_of_holds (r : RegF) (h : s.Holds c addr.val 22 v) :
    execLdF r addr s c = finish c s (do
      checkWords (isBase c) addr.val ((List.range 22).map v)
      pure (s.writeF r ⟨Vector.ofFn fun i : Fin 11 => v i.val,
        Vector.ofFn fun i : Fin 11 => v (11 + i.val)⟩)) := by
  rw [execLdF, memRead_of_holds h, ok_bind, deg11At_map_range (by decide),
    deg11At_map_range (by decide)]
  simp only [Nat.zero_add]

/-- The twist point whose image is `v 0 .. v 33`. -/
def twistPointOf (v : Nat → Nat) : TwistPoint where
  x := Vector.ofFn fun i : Fin 11 => v i.val
  y := Vector.ofFn fun i : Fin 11 => v (11 + i.val)
  z := Vector.ofFn fun i : Fin 11 => v (22 + i.val)
  tag := if v 33 = 0 then .affine else .projective

theorem twistPointAt_map_range : twistPointAt ((List.range 34).map v) = twistPointOf v := by
  rw [twistPointAt, deg11At_map_range (by decide), deg11At_map_range (by decide),
    deg11At_map_range (by decide), word_map_range (by decide)]
  simp only [Nat.zero_add]
  rfl

theorem execLdT_of_holds (r : RegT) (h : s.Holds c addr.val 34 v) :
    execLdT r addr s c = finish c s (do
      checkPointWords c addr.val 33 ((List.range 34).map v)
      if tagOk (twistPointOf v) then pure (s.writeT r (twistPointOf v))
      else badWord (addr.val + 33)) := by
  rw [execLdT, memRead_of_holds h, ok_bind, twistPointAt_map_range, checkPointWords, bind_assoc]

theorem execLdG_of_holds (r : RegG) (h : s.Holds c addr.val 3 v) :
    execLdG r addr s c = finish c s (do
      checkPointWords c addr.val 2 ((List.range 3).map v)
      pure (s.writeG r ⟨v 0, v 1, decide (v 2 = 1)⟩)) := by
  rw [execLdG, memRead_of_holds h, ok_bind, basePointAt, word_map_range (by decide),
    word_map_range (by decide), word_map_range (by decide), checkPointWords, bind_assoc]

/-- A twist point with legal words is loaded when it keeps the tag invariant (R308). -/
theorem execLdT_of_legal (r : RegT) (h : s.Holds c addr.val 34 v)
    (hv : ∀ k, k < 34 → ¬BadPointWord c 33 v k) {q : TwistPoint} (hq : twistPointOf v = q)
    (htag : tagOk q = true) : execLdT r addr s c = .next ((s.writeT r q).advance c) := by
  rw [execLdT_of_holds r h, checkPointWords_all hv, ok_bind, hq, if_pos htag]
  rfl

/-- An affine twist point whose `z` is neither 0 nor 1 is reported at its tag's word (R308). -/
theorem execLdT_of_bad_tag (r : RegT) (h : s.Holds c addr.val 34 v)
    (hv : ∀ k, k < 34 → ¬BadPointWord c 33 v k) (htag : ¬tagOk (twistPointOf v) = true) :
    execLdT r addr s c =
      .next (s.faultEntry 3 (BitVec.ofNat 32 (2 ^ 28 + (addr.val + 33)))) := by
  have haddr := addr.isLt
  rw [execLdT_of_holds r h, checkPointWords_all hv, ok_bind, if_neg htag]
  exact finish_badWord c s pure (by omega)

end Loads

/-- Settles O21. -/
theorem loadElements : Obligations.LoadElements := by
  intro c execute hexec re rf addr s v
  have haddr := addr.isLt
  have hldE : execute (.ldE re addr) s = execLdE re addr s c := hexec.eq_execIn _ s
  have hldF : execute (.ldF rf addr) s = execLdF rf addr s c := hexec.eq_execIn _ s
  rw [← hexec.p_eq, hldE, hldF]
  refine ⟨fun h hv => ?_, fun h hv => ?_, fun k h hk => ?_, fun k h hk => ?_⟩
  · rw [execLdE_of_holds re h, checkBase_of_below hv]
    rfl
  · rw [execLdF_of_holds rf h, checkBase_of_below hv]
    rfl
  · have hlt := hk.1
    rw [execLdE_of_holds re h, checkBase_of_firstBad hk]
    exact finish_badWord c s _ (by omega)
  · have hlt := hk.1
    rw [execLdF_of_holds rf h, checkBase_of_firstBad hk]
    exact finish_badWord c s _ (by omega)

/-- Settles O22. -/
theorem loadPoints : Obligations.LoadPoints := by
  intro c execute hexec rt rg addr s v
  have haddr := addr.isLt
  have hldT : execute (.ldT rt addr) s = execLdT rt addr s c := hexec.eq_execIn _ s
  have hldG : execute (.ldG rg addr) s = execLdG rg addr s c := hexec.eq_execIn _ s
  rw [← hexec.p_eq, hldT, hldG]
  refine ⟨fun h => ⟨fun k hk => ?_, fun hv => ⟨fun htag h0 h1 => ?_, fun htag hz => ?_,
    fun htag => ?_⟩⟩, fun h => ⟨fun k hk => ?_, fun hv => ?_⟩⟩
  · have hlt := hk.1
    rw [execLdT_of_holds rt h, checkPointWords_firstBad hk]
    exact finish_badWord c s _ (by omega)
  · refine execLdT_of_bad_tag rt h hv fun hok => ?_
    exact (tagOk_iff.mp hok (if_pos htag)).elim h0 h1
  · exact execLdT_of_legal rt h hv (by rw [twistPointOf, if_pos htag]) (tagOk_iff.mpr fun _ => hz)
  · exact execLdT_of_legal rt h hv (by rw [twistPointOf, if_neg (by omega)]) rfl
  · have hlt := hk.1
    rw [execLdG_of_holds rg h, checkPointWords_firstBad hk]
    exact finish_badWord c s _ (by omega)
  · rw [execLdG_of_holds rg h, checkPointWords_all hv]
    rfl

end Sys2Proof.Machine
end

section
/-! PROOFS. Exceptions (O5, O9, O10): a step runs the word it decodes, a fault entry changes what
`60_exceptions.md` R341 lists, and each lifecycle state admits what R352 says. That an admitted command
never ends in `LifecycleFault` is said once of each operation (`NoLifecycleFault`), and from there of
each command (`Admitted`). -/

namespace Sys2Proof.Machine

open Sys2Proof

/-! ### The step, and the state a fault leaves -/

/-- Settles O5. -/
theorem stepRunsDecoded : Obligations.StepRunsDecoded := by
  intro s w i hrun htop hpc hread hdecode
  have hfetch : s.fetch Config.machine = .ok w := State.fetch_ok_iff.mpr ⟨htop, hpc, hread⟩
  simp only [step, hrun, hfetch, hdecode]

/-- Settles O9: of the three ends of a command (`exec_cases`) `HALT` and completion leave another run
state than `FAULTED`, and the third is a fault entry. -/
theorem noPartialResult : Obligations.NoPartialResult := by
  intro i s t hrun h ht
  obtain ⟨-, rfl⟩ | ⟨-, u, hu, rfl⟩ | ⟨-, r, hr, rfl⟩ := exec_cases h
  · cases ht
  · rw [State.advance_run, hu.run, hrun] at ht
    cases ht
  · obtain ⟨hlow, hhigh⟩ := r.cause.code_bounds
    refine ⟨r.cause.code.toNat, r.einfo, (s.enterFault r).ml, hlow, hhigh,
      State.enterFault_active s r, ?_, fun hi => State.enterFault_ml_none s r (hr hi)⟩
    rw [BitVec.ofNat_toNat, BitVec.setWidth_eq]
    rfl

/-! ### Computations that never raise `LifecycleFault` -/

/-- No fault `x` raises is a `LifecycleFault` (`60_exceptions.md` R337). -/
def NoLifecycleFault {α : Type} (x : Except Raise α) : Prop :=
  ∀ r, x = .error r → r.cause ≠ .lifecycleFault

theorem RaisesOnly.noLifecycleFault {α : Type} {x : Except Raise α} {cause : Cause}
    (hx : RaisesOnly cause x) (hcause : cause ≠ .lifecycleFault := by decide) : NoLifecycleFault x :=
  fun r hr => hx r hr ▸ hcause

namespace NoLifecycleFault

variable {α β : Type} {x y : Except Raise α} {f : α → Except Raise β} {c : Config} {s : State}

theorem ok {a : α} : NoLifecycleFault (.ok a : Except Raise α) := nofun

theorem raise {cause : Cause} {einfo : BitVec 32} (hcause : cause ≠ .lifecycleFault := by decide) :
    NoLifecycleFault (raise cause einfo : Except Raise α) :=
  RaisesOnly.raise.noLifecycleFault hcause

theorem bind (hx : NoLifecycleFault x) (hf : ∀ a, NoLifecycleFault (f a)) :
    NoLifecycleFault (x >>= f) := fun r hr =>
  (bind_error_iff.mp hr).elim (hx r) fun ⟨a, _, ha⟩ => hf a r ha

theorem ite {b : Prop} [Decidable b] (hx : NoLifecycleFault x) (hy : NoLifecycleFault y) :
    NoLifecycleFault (if b then x else y) := by
  split
  · exact hx
  · exact hy

/-! Operands and their checks. -/

theorem read {loc : BitVec 32} {o : Option α} : NoLifecycleFault (readItem loc o) := by
  cases o with
  | none => exact raise
  | some v => exact ok

theorem field : NoLifecycleFault (s.readField c) := bind read fun _ => ok

theorem tag {r : RegT} {q : TwistPoint} : NoLifecycleFault (checkTag r q) := ite ok raise

theorem affine {r : RegT} {q : TwistPoint} : NoLifecycleFault (checkAffine r q) := by
  unfold checkAffine
  cases q.tag with
  | affine => exact ok
  | projective => exact raise

theorem mode {m : Mode} {r : RegT} {q : TwistPoint} : NoLifecycleFault (checkMode m r q) := by
  cases m with
  | basic => exact affine
  | projc => exact ok

theorem point {r : RegT} : NoLifecycleFault (s.readPoint r) := bind read fun _ => bind tag fun _ => ok

theorem doubling {r : RegT} {m : Mode} : NoLifecycleFault (s.doubling c r m) :=
  bind (bind read fun _ => bind read fun _ => bind tag fun _ => bind mode fun _ => ok) fun _ =>
    bind field fun _ => RaisesOnly.doublePoint.noLifecycleFault

theorem addition {q r : RegT} {m : Mode} : NoLifecycleFault (s.addition c q r m) :=
  bind (bind read fun _ => bind read fun _ => bind read fun _ => bind tag fun _ => bind tag fun _ =>
    bind mode fun _ => bind mode fun _ => ok) fun _ =>
      bind field fun _ => RaisesOnly.addPoints.noLifecycleFault

/-! Data memory and images. -/

theorem readWords {m : Memory Nat} {a n : Nat} : NoLifecycleFault (readWords m a n) := by
  induction n generalizing a with
  | zero => exact ok
  | succ n ih => exact bind read fun _ => bind ih fun _ => ok

theorem memRead {a n : Nat} : NoLifecycleFault (s.memRead c a n) := ite raise readWords

theorem memWrite {a : Nat} {vs : List Nat} : NoLifecycleFault (s.memWrite c a vs) := ite raise ok

theorem words {valid : Nat → Bool} {a : Nat} {ws : List Nat} :
    NoLifecycleFault (checkWords valid a ws) := by
  induction ws generalizing a with
  | nil => exact ok
  | cons v vs ih => exact ite ih raise

theorem image {slot k : Nat} {valid : Nat → Bool} {ws : List Nat} :
    NoLifecycleFault (checkImage slot valid k ws) := by
  induction ws generalizing k with
  | nil => exact ok
  | cons v vs ih => exact ite ih raise

theorem word {slot a : Nat} {valid : Nat → Bool} : NoLifecycleFault (loadWord c s slot a valid) :=
  bind memRead fun _ => bind image fun _ => ok

theorem element {slot a : Nat} : NoLifecycleFault (loadElement c s slot a) :=
  bind memRead fun _ => bind image fun _ => ok

theorem gen {a : Nat} : NoLifecycleFault (loadGen c s a) :=
  bind memRead fun _ => bind image fun _ => ok

theorem digits {slot a : Nat} : NoLifecycleFault (loadDigits c s slot a) :=
  bind memRead fun _ => ite raise <| ite raise <| bind memRead fun _ => bind image fun _ => ite ok raise

theorem entry {ws : List Nat} {k : Nat} : NoLifecycleFault (postEntry ws k) :=
  ite raise <| ite raise <| ite raise ok

theorem post {a : Nat} : NoLifecycleFault (loadPost c s a) :=
  bind memRead fun _ => bind entry fun _ => bind entry fun _ => ok

/-- The load of each slot is the load of its kind of image (`20_memory.md` R79). -/
theorem slot {a slot : Nat} {load : Except Raise ParamStore} (h : loadSlot c s a slot = some load) :
    NoLifecycleFault load := by
  unfold loadSlot at h
  split at h <;> cases h
  case h_1 | h_2 | h_11 => exact bind word fun _ => ok
  case h_3 | h_4 | h_6 | h_7 | h_8 => exact bind element fun _ => ok
  case h_5 => exact bind gen fun _ => ok
  case h_9 | h_10 => exact bind digits fun _ => ok
  case h_12 => exact bind post fun _ => ok

/-! The Miller loops (`44_pairing_engine.md` R259 to R271). -/

variable {env : MillerEnv} {phase : Phase} {i : Nat} {g g2 : BasePoint} {d : MillerData} {first : Bool}

/-- A phase adds its step to a fault and keeps the cause (R267). -/
theorem inPhase (hx : NoLifecycleFault x) : NoLifecycleFault (inPhase env phase i x) := by
  cases x with
  | ok a => exact ok
  | error r =>
    rintro _ ⟨⟩
    exact hx r rfl

theorem line {lc : Option LineRecord} : NoLifecycleFault (lineAt env lc g) := by
  cases lc with
  | none => exact raise
  | some r => exact RaisesOnly.lineValue.noLifecycleFault

theorem addStep {pt : TwistPoint} : NoLifecycleFault (addStep env d pt) :=
  bind RaisesOnly.addPoints.noLifecycleFault fun _ => bind line fun _ => ok

theorem dbl : NoLifecycleFault (phaseDbl env i first d) :=
  inPhase <| bind RaisesOnly.doublePoint.noLifecycleFault fun _ => bind line fun _ => ok

theorem add {digit : Digit} : NoLifecycleFault (phaseAdd env i digit d) := by
  unfold phaseAdd
  split
  · exact ok
  · exact inPhase addStep

theorem dbl2 : NoLifecycleFault (phaseDbl2 env g2 i first d) :=
  inPhase <| bind RaisesOnly.doublePoint.noLifecycleFault fun _ => bind line fun _ =>
    bind line fun _ => ok

theorem add2 {digit : Digit} : NoLifecycleFault (phaseAdd2 env g2 i digit d) := by
  unfold phaseAdd2
  split
  · exact ok
  · exact inPhase <| bind RaisesOnly.addPoints.noLifecycleFault fun _ => bind line fun _ =>
      bind line fun _ => ok

theorem postStep {st : PostStep} : NoLifecycleFault (phasePost env phase st d) := by
  unfold phasePost
  split
  · exact ok
  · exact inPhase addStep

theorem walk {digits : List Digit} {n : Nat} : NoLifecycleFault (millerWalk env digits n first d) := by
  induction n generalizing first d with
  | zero => exact ok
  | succ n ih => exact bind dbl fun _ => bind add fun _ => ih

theorem walk2 {m : Deg22 × Deg22} {digits : List Digit} {n : Nat} :
    NoLifecycleFault (millerWalk2 c env g2 m digits n first d) := by
  induction n generalizing first d with
  | zero => exact ok
  | succ n ih => exact bind dbl2 fun _ => bind add2 fun _ => ih

theorem hook {v : Option (Deg22 × Deg22)} : NoLifecycleFault (hookPair c v) := by
  cases v with
  | none => exact raise
  | some v => exact ok

theorem loop {digits : List Digit} {seedfix : Bool} {steps : PostStep × PostStep} {q : TwistPoint} :
    NoLifecycleFault (millerLoop env digits seedfix steps q g) :=
  bind walk fun _ => bind postStep fun _ => bind postStep fun _ => ok

theorem loop2 {digits : List Digit} {tor2 isoT : Deg11} {r : RegG} {q : TwistPoint} :
    NoLifecycleFault (millerLoop2 c env digits tor2 isoT r q g) :=
  bind (inPhase <| ite raise ok) fun _ => bind (inPhase hook) fun _ => bind walk2 fun _ =>
    bind (inPhase hook) fun _ => ok

end NoLifecycleFault

/-! ### Commands that are admitted -/

/-- What an admitted command computes in `s`: never a `LifecycleFault`, and if a state, one that has not
moved on yet. -/
structure Admitted (s : State) (x : Except Raise State) : Prop where
  gives : Gives x fun u => u.pc = s.pc ∧ s.free ≤ u.free
  faults : NoLifecycleFault x

namespace Admitted

variable {α : Type} {s : State} {x y : Except Raise State}

theorem pure {u : State} (hpc : u.pc = s.pc := by rfl)
    (hfree : s.free ≤ u.free := by exact Nat.le_refl _) : Admitted s (pure u) :=
  ⟨.pure ⟨hpc, hfree⟩, .ok⟩

theorem raise {cause : Cause} {einfo : BitVec 32} (hcause : cause ≠ .lifecycleFault := by decide) :
    Admitted s (raise cause einfo) := ⟨.raise _ _, .raise hcause⟩

theorem seq {x : Except Raise α} {f : α → Except Raise State} (hx : NoLifecycleFault x)
    (hf : ∀ a, Admitted s (f a)) : Admitted s (x >>= f) :=
  ⟨.seq fun a => (hf a).gives, hx.bind fun a => (hf a).faults⟩

theorem ite {b : Prop} [Decidable b] (hx : Admitted s x) (hy : Admitted s y) :
    Admitted s (if b then x else y) :=
  ⟨.ite hx.gives hy.gives, .ite hx.faults hy.faults⟩

/-- The admission of a command that needs `READY` (`60_exceptions.md` R352). -/
theorem ready {f : Constants → Except Raise State} (hready : ∃ k, s.lifecycle = .ready k)
    (hf : ∀ k, Admitted s (f k)) : Admitted s (s.needReady >>= f) := by
  obtain ⟨k, hk⟩ := hready
  rw [State.needReady_ok_iff.mpr hk]
  exact hf k

/-- The admission of a command that needs `CONFIG` (R352). -/
theorem config {f : Unit → Except Raise State} (hconfig : s.lifecycle = .config)
    (hf : Admitted s (f ())) : Admitted s (s.needConfig >>= f) := by
  rw [State.needConfig_ok_iff.mpr hconfig]
  exact hf

theorem store {c : Config} {a : Nat} {vs : List Nat} : Admitted s (s.memWrite c a vs) :=
  .ite .raise .pure

theorem illegal {w : BitVec 32} : Admitted s (.error (illegalCommand w)) :=
  .raise (cause := .illegalCommand) (einfo := w)

end Admitted

/-- The command `i` is the end of a computation that passes the admission check. -/
def Admits (i : Instr) (s : State) : Prop :=
  ∃ x, exec i s = finish Config.machine s x ∧ Admitted s x

/-- Every command but `HALT` that is allowed in both lifecycle states. -/
theorem admits_of_always {i : Instr} (s : State) (hi : i ≠ .halt) (hadm : admission i = .always) :
    Admits i s := by
  cases i with
  | halt => exact absurd rfl hi
  | nop => exact ⟨_, rfl, .pure⟩
  | ldE | ldF => exact ⟨_, rfl, .seq .memRead fun _ => .seq .words fun _ => .pure⟩
  | ldT =>
    exact ⟨_, rfl, .seq .memRead fun _ => .seq .words fun _ => .seq .words fun _ => .ite .pure .raise⟩
  | ldG => exact ⟨_, rfl, .seq .memRead fun _ => .seq .words fun _ => .seq .words fun _ => .pure⟩
  | stE | stF | stG => exact ⟨_, rfl, .seq .read fun _ => .store⟩
  | stT => exact ⟨_, rfl, .seq .point fun _ => .store⟩
  | _ => cases hadm

/-- `LDP` in `CONFIG`; of a slot that does not exist too, which is an illegal command. -/
theorem admits_ldp (slot : SlotField) (addr : Addr) {s : State} (hconfig : s.lifecycle = .config) :
    Admits (.ldp slot addr) s := by
  refine ⟨_, rfl, ?_⟩
  split
  · exact .illegal
  · next hload => exact .config hconfig <| .seq (.slot hload) fun _ => .pure

theorem admits_of_inConfig {i : Instr} {s : State} (hadm : admission i = .inConfig)
    (hconfig : s.lifecycle = .config) : Admits i s := by
  cases i with
  | finit => exact ⟨_, rfl, .config hconfig <| .seq .read fun _ => .ite .pure .raise⟩
  | ldp slot addr => exact admits_ldp slot addr hconfig
  | _ => cases hadm

theorem admits_line (rd : RegF) (rs1 : RegG) {s : State} (hready : ∃ k, s.lifecycle = .ready k) :
    Admits (.line rd rs1) s := by
  refine ⟨_, rfl, .ready hready fun _ => .seq .read fun _ => .seq .read fun _ => .ite .raise ?_⟩
  cases s.lc with
  | none => exact .raise
  | some r =>
    exact .seq .field fun _ => .seq RaisesOnly.lineValue.noLifecycleFault fun _ => .pure

/-- Every command that needs `READY`: after the admission check it reads, checks, computes and writes;
one line a command says which. -/
theorem admits_of_inReady {i : Instr} {s : State} (hadm : admission i = .inReady)
    (hready : ∃ k, s.lifecycle = .ready k) : Admits i s := by
  cases i with
  | nop | halt | finit | ldp | ldE | stE | ldF | stF | ldT | stT | ldG | stG => cases hadm
  | eZero | eOne | fOne | tInf => exact ⟨_, rfl, .ready hready fun _ => .pure⟩
  | eCpy | eNeg | eRed | eFrb | eFrb2 | fCpy | fGetr | fGeti | fInvc | fFrb | tGen =>
    exact ⟨_, rfl, .ready hready fun _ => .seq .read fun _ => .pure⟩
  | eAdd | eSub | eCmp | fPack | fCmp | tMk =>
    exact ⟨_, rfl, .ready hready fun _ => .seq .read fun _ => .seq .read fun _ => .pure⟩
  | eSqr | eSqru | eMnr | fSqr =>
    exact ⟨_, rfl, .ready hready fun _ => .seq .read fun _ => .seq .field fun _ => .pure⟩
  | fSqrc =>
    exact ⟨_, rfl, .ready hready fun _ => .seq .read fun _ => .seq .field fun _ =>
      .pure (hfree := Nat.le_succ _)⟩
  | eInv =>
    exact ⟨_, rfl, .ready hready fun _ => .seq .read fun _ => .seq .field fun _ => .ite .raise .pure⟩
  | eMul | eMulu | fMul =>
    exact ⟨_, rfl, .ready hready fun _ => .seq .read fun _ => .seq .read fun _ => .seq .field fun _ =>
      .pure⟩
  | tMkp =>
    exact ⟨_, rfl, .ready hready fun _ => .seq .read fun _ => .seq .read fun _ => .seq .read fun _ =>
      .pure⟩
  | tCpy | tGetx | tGety | tGetz | tNeg =>
    exact ⟨_, rfl, .ready hready fun _ => .seq .point fun _ => .pure⟩
  | tNorm => exact ⟨_, rfl, .ready hready fun _ => .seq .point fun _ => .seq .field fun _ => .pure⟩
  | tDbl | tSdbl | tSdbl1 => exact ⟨_, rfl, .ready hready fun _ => .seq .doubling fun _ => .pure⟩
  | tAdd | tSadd => exact ⟨_, rfl, .ready hready fun _ => .seq .addition fun _ => .pure⟩
  | tFrb =>
    exact ⟨_, rfl, .ready hready fun _ => .seq .read fun _ => .seq .read fun _ => .seq .tag fun _ =>
      .seq .field fun _ => .pure⟩
  | tCmp =>
    exact ⟨_, rfl, .ready hready fun _ => .seq .read fun _ => .seq .read fun _ => .seq .tag fun _ =>
      .seq .tag fun _ => .seq .field fun _ => .pure⟩
  | tOnc | tIso | tIsod =>
    exact ⟨_, rfl, .ready hready fun _ => .seq .read fun _ => .seq .read fun _ => .seq .read fun _ =>
      .seq .tag fun _ => .seq .field fun _ => .pure⟩
  | line rd rs1 => exact admits_line rd rs1 hready
  | miller =>
    exact ⟨_, rfl, .ready hready fun _ => .seq .read fun _ => .seq .read fun _ => .seq .read fun _ =>
      .seq .read fun _ => .seq .read fun _ => .seq .read fun _ => .seq .read fun _ =>
      .seq (.bind .tag fun _ => .affine) fun _ => .ite .pure <| .seq .field fun _ => .seq .loop fun _ =>
      .pure⟩
  | miller2 =>
    exact ⟨_, rfl, .ready hready fun _ => .seq .read fun _ => .seq .read fun _ => .seq .read fun _ =>
      .seq .read fun _ => .seq .read fun _ => .seq .read fun _ => .seq .read fun _ =>
      .seq (.bind .tag fun _ => .affine) fun _ => .ite .pure <| .seq .field fun _ => .seq .loop2 fun _ =>
      .pure⟩

/-! ### The lifecycle states -/

theorem Cause.eq_lifecycleFault_of_code {cause : Cause} (h : cause.code = 7#4) :
    cause = .lifecycleFault := by
  revert h
  cases cause <;> decide

/-- A state that has moved on differs in its counter, or past the top in the model's (log entry 5). -/
theorem State.ne_advance {t u : State} {c : Config} (hpc : u.pc = t.pc) (hfree : t.free ≤ u.free) :
    t ≠ u.advance c := by
  rintro rfl
  by_cases htop : u.pc = 0xFFFF#16
  · rw [State.advance_top _ _ htop] at hfree
    exact absurd hfree (Nat.not_succ_le_self _)
  · rw [State.advance_succ _ _ htop] at hpc
    have hmoved : u.pc = u.pc + 1#16 := hpc
    bv_omega

/-- A command that passes the admission check never ends in `LifecycleFault`. -/
theorem Admits.ne_lifecycleFault {i : Instr} {s : State} (h : Admits i s) (einfo : BitVec 32) :
    exec i s ≠ .next (s.faultEntry 7 einfo) := by
  obtain ⟨x, hx, hgives, hfaults⟩ := h
  intro hend
  rw [hx] at hend
  obtain ⟨u, hu, hadvance⟩ | ⟨r, hr, hentry⟩ := (finish_next _ _ _ _).mp hend
  · obtain ⟨hpc, hfree⟩ := hgives u hu
    exact State.ne_advance (t := s.faultEntry 7 einfo) hpc hfree hadvance
  · have hcode : 7#4 = r.cause.code := congrArg State.ecause hentry
    exact hfaults r hr (Cause.eq_lifecycleFault_of_code hcode.symm)

theorem halt_ne_fault (s : State) (code : Nat) (einfo : BitVec 32) :
    exec .halt s ≠ .next (s.faultEntry code einfo) := by
  intro h
  injection h with h
  have hrun : RunState.halted = .faulted := congrArg State.run h
  cases hrun

/-- The lifecycle check is the first of all (`60_exceptions.md` R343 step 3). -/
theorem State.earlyFault_of_lifecycleFault {s : State} {i : Instr} {z : Nat × BitVec 32}
    (h : s.lifecycleFault i = some z) : s.earlyFault i = some z := by
  rw [State.earlyFault, h]
  rfl

/-- Settles O10: a command that is not admitted fails the first of its checks (O11), and an admitted one
raises `LifecycleFault` nowhere else. -/
theorem lifecycleAdmission : Obligations.LifecycleAdmission := by
  refine fun i s => ⟨fun hadm hconfig => ?_, fun hadm hwf ⟨k, hk⟩ => ?_, fun hadm einfo => ?_⟩
  · exact earlyFaults_of_inReady s hadm _ _
      (State.earlyFault_of_lifecycleFault (by rw [State.lifecycleFault, hadm, hconfig]))
  · exact earlyChecksInOrder i s hwf _ _
      (State.earlyFault_of_lifecycleFault (by rw [State.lifecycleFault, hadm, hk]))
  · obtain halways | ⟨hin, hconfig⟩ | ⟨hin, hready⟩ := hadm
    · by_cases hi : i = .halt
      · subst hi
        exact halt_ne_fault s 7 einfo
      · exact (admits_of_always s hi halways).ne_lifecycleFault einfo
    · exact (admits_of_inConfig hin hconfig).ne_lifecycleFault einfo
    · exact (admits_of_inReady hin hready).ne_lifecycleFault einfo

end Sys2Proof.Machine
end
